-- ==== Sys2Proof/Word.lean ====
section
/-! DEFINITION. The widths of the AZ1640: bytes, link words, record words, and the three counts that wrap. -/

namespace Sys2Proof

/-- A byte of a request, response or payload (R186). -/
abbrev Byte := BitVec 8

/-- A word of the sample frame link (R1). -/
abbrev Word16 := BitVec 16

/-- A word of the journal and of the record layouts (R84). -/
abbrev Word32 := BitVec 32

/-- A value of the test clock: all tick arithmetic is modulo 2^48 (R11). -/
abbrev Tick := BitVec 48

/-- A count of sub-ticks, sixteen to the tick, kept modulo 2^52 (R11). -/
abbrev SubTick := BitVec 52

/-- A journal sequence number, kept modulo 2^32 (R86). -/
abbrev SeqNo := BitVec 32

/-- One of the sixteen channels. -/
abbrev ChanId := Fin 16

end Sys2Proof
end

