-- ==== Sys2Proof/Syntax.lean ====
section
/-! DEFINITION. The commands of the AZ1640: one constructor for each row of spec/opcode_table.json. -/

namespace Sys2Proof

/-- The two identical request ports. -/
inductive Port where
  | a
  | b
deriving DecidableEq, Repr

/-- What causes a full reset (R14): power-on leaves RESETn high, RESETn low holds the part until RESET_RELEASE. -/
inductive ResetCause where
  | powerOn
  | resetnLow
deriving DecidableEq, Repr

/-- The level of the preamplifier status line at a status clock (R164). -/
inductive LineLevel where
  | low
  | high
deriving DecidableEq, Repr

/-- A command of the block. Those of the outside world: full reset and its release, the link events of the converter
board, the clocks and starts of the status line, the two ends of an exchange. Those a port makes: the execution of the
request at the head of its queue, named by the request. Those the part makes of itself at a tick or a status clock: an
event of the table that is also made within FRAME or STATUS_CLOCK (log entry 1). -/
inductive Instr where
  | fullReset (cause : ResetCause)
  | partialFrame (word0 : Word16)
  | frame (words : List Word16)
  | clockWrap
  | faultArrival (c : ChanId)
  | faultCleared (c : ChanId)
  | peakFreeze (c : ChanId)
  | glitch (c : ChanId)
  | hitEnd (c : ChanId)
  | hitTrunc (c : ChanId)
  | lockoutEnd (c : ChanId)
  | windowClose
  | groupLockoutEnd
  | evidenceLapse
  | postWindowEnd
  | waitSatisfied (p : Port)
  | waitTimeout (p : Port)
  | rollup
  | loadStale
  | statusCycleStart
  | nodeStart
  | statusCycleEnd
  | cycleAbort
  | exchangeStart (p : Port)
  | exchangeEnd (p : Port) (bytes : List Byte)
  | unknown (p : Port)
  | length (p : Port)
  | identify (p : Port)
  | statusRead (p : Port)
  | clockRead (p : Port)
  | channelPeek (p : Port)
  | setupRead (p : Port)
  | setupWrite (p : Port)
  | setupLock (p : Port)
  | runStart (p : Port)
  | runStop (p : Port)
  | runClear (p : Port)
  | ruptureDeclare (p : Port)
  | loadPost (p : Port)
  | hold (p : Port)
  | journalAttach (p : Port)
  | journalDetach (p : Port)
  | journalFilter (p : Port)
  | journalRead (p : Port)
  | journalWait (p : Port)
  | noticesRead (p : Port)
  | statusClock (level : LineLevel)
  | resetRelease
deriving DecidableEq, Repr

end Sys2Proof
end

