-- ==== Sys2Proof/Decode.lean ====
section
/-! DEFINITION. Words to commands. No row of spec/opcode_table.json gives its command any bits (every row's "fields" is
empty), so no word spells a command: the part's commands are events, and its requests arrive as the bytes of an exchange,
which Machine/Execution.lean judges (R173). -/

namespace Sys2Proof

/-- The command that a word spells by the table's bits: none, since the table gives no row any bits. -/
def decodeTableWord (_nbits _w : Nat) : Option Instr :=
  none

end Sys2Proof
end

