-- ==== Sys2Proof/Config.lean ====
section
/-! DEFINITION. What the manual fixes for every AZ1640: capacities, limits and the IDENTIFY values. Nothing here is
implementation-defined, and no value of the manual is left open in a way that needs a free constant. -/

namespace Sys2Proof.Config

/-- Ticks in a block (R11). -/
abbrev blockTicks : Nat := 1024

/-- The journal's capacity in 32-bit words (R84). -/
abbrev journalWords : Nat := 65536

/-- The fill an ordinary record may bring the journal to (R85). -/
abbrev ordinaryLimit : Nat := 65280

/-- The fill at which tally mode is entered (R102). -/
abbrev tallyEnterFill : Nat := 49152

/-- The fill at or below which a rollup ends tally mode (R105). -/
abbrev tallyExitFill : Nat := 32768

/-- The depth of each request queue and each response queue (R179). -/
abbrev queueDepth : Nat := 4

/-- The largest payload a request may declare, in bytes (R174). -/
abbrev maxPayload : Nat := 1020

/-- The most groups the pending group list holds (R59). -/
abbrev maxGroups : Nat := 4

/-- The words of a sample frame (R1). -/
abbrev frameWords : Nat := 18

/-- The largest magnitude (R8). -/
abbrev maxMagnitude : Nat := 32767

/-- Where the 32-bit counters saturate (R103, R113). -/
abbrev max32 : Nat := 4294967295

/-- Where the 16-bit counters saturate (R25, R30, R104, R119). -/
abbrev max16 : Nat := 65535

/-- The largest load (R122). -/
abbrev maxLoad : Nat := 16777215

/-- The largest maximum of a JOURNAL READ, in words (R95). -/
abbrev maxReadWords : Nat := 254

/-- The part code of IDENTIFY (R179). -/
abbrev partCode : Nat := 0x1640

/-- The revision of IDENTIFY (R179). -/
abbrev revision : Nat := 1

/-- The number of channels (R179). -/
abbrev channelCount : Nat := 16

end Sys2Proof.Config
end

