-- ==== Sys2Proof/Machine/Items.lean ====
section
/-! DEFINITION. The items of the setup table: their ranges, codes and defaults (R150), and the sections' codes. -/

namespace Sys2Proof.Machine

/-- One of the five sections of the setup table (R150). -/
inductive Sect where
  | ch
  | gr
  | ac
  | ru
  | pt
deriving DecidableEq, Repr

/-- The section code used in requests (R150). -/
def Sect.code : Sect → Nat
  | .ch => 1
  | .gr => 2
  | .ac => 3
  | .ru => 4
  | .pt => 5

/-- The section a code names; the codes 0 and 6 to 255 name none (R150). -/
def Sect.ofCode : Nat → Option Sect
  | 1 => some .ch
  | 2 => some .gr
  | 3 => some .ac
  | 4 => some .ru
  | 5 => some .pt
  | _ => none

/-- What an item may hold (R150): a number of a range, or one of the codes 0 to `last` of an on/off or enumerated item. -/
inductive ItemSpec where
  | numeric (lo hi dflt : Nat)
  | codes (last dflt : Nat)
deriving DecidableEq, Repr

/-- The default of an item (R150). -/
def ItemSpec.dflt : ItemSpec → Nat
  | .numeric _ _ d => d
  | .codes _ d => d

/-- The value lies within the item's range or is one of its codes (R150). -/
def ItemSpec.holds : ItemSpec → Nat → Bool
  | .numeric lo hi _, v => decide (lo ≤ v) && decide (v ≤ hi)
  | .codes last _, v => decide (v ≤ last)

/-- Clamping (R157): a numeric value outside its range becomes the nearer limit; a code is stored as written. -/
def ItemSpec.clamp : ItemSpec → Nat → Nat
  | .numeric lo hi _, v => if v < lo then lo else if hi < v then hi else v
  | .codes _ _, v => v

/-- A value that the item cannot hold in any form (R156): a code not listed for it. -/
def ItemSpec.faulty : ItemSpec → Nat → Bool
  | .numeric _ _ _, _ => false
  | .codes last _, v => decide (last < v)

/-- The twelve items of one channel's entry, in index order (R150). -/
def channelItems : List ItemSpec :=
  [ .codes 1 0                 -- 0 enable
  , .codes 1 0                 -- 1 threshold mode
  , .numeric 1 32767 200       -- 2 Tfix
  , .numeric 8 255 24          -- 3 FM
  , .numeric 4 12 6            -- 4 BS
  , .numeric 1 15 1            -- 5 Qc
  , .numeric 1 1023 64         -- 6 Qs
  , .numeric 1 65535 200       -- 7 PDT
  , .numeric 1 65535 400       -- 8 HDT
  , .numeric 0 65535 1000      -- 9 HLT
  , .numeric 1 16383 50        -- 10 MAXD
  , .numeric 0 15 4 ]          -- 11 ES

/-- The grouping items (R150). -/
def groupingItems : List ItemSpec :=
  [ .numeric 1 65535 500       -- 0 W
  , .numeric 0 65535 0         -- 1 GL
  , .numeric 1 16 2            -- 2 Lmin
  , .codes 1 1 ]               -- 3 grouping enable

/-- The activity items (R150). -/
def activityItems : List ItemSpec :=
  [ .numeric 1 65535 4096      -- 0 I
  , .numeric 0 65535 0         -- 1 LG
  , .numeric 0 4294967295 0    -- 2 LE
  , .numeric 0 65535 0         -- 3 LH
  , .numeric 0 358 240         -- 4 HA
  , .numeric 1 8 2             -- 5 K
  , .numeric 1 8 3             -- 6 R
  , .numeric 1 65535 5000 ]    -- 7 LS

/-- The rupture items (R150). -/
def ruptureItems : List ItemSpec :=
  [ .numeric 0 16 0            -- 0 Nr
  , .codes 1 0                 -- 1 load check
  , .numeric 1 255 192         -- 2 DF
  , .numeric 1 65535 5000      -- 3 RW
  , .numeric 0 65535 10000 ]   -- 4 PW

/-- The port items (R150): thirteen routings, three control lines of a source and a polarity, the status line. -/
def portItems : List ItemSpec :=
  List.replicate 13 (.codes 4 0) ++
  [ .codes 8 0, .codes 1 0     -- 13, 14 CO0
  , .codes 8 0, .codes 1 0     -- 15, 16 CO1
  , .codes 8 0, .codes 1 0     -- 17, 18 CO2
  , .codes 1 0                 -- 19 status mode
  , .numeric 1 255 10 ]        -- 20 status period

/-- The items of a section, numbered from 0 (R150): item 12 × c + i of CH is index i of channel c. -/
def Sect.items : Sect → List ItemSpec
  | .ch => (List.replicate 16 channelItems).flatten
  | .gr => groupingItems
  | .ac => activityItems
  | .ru => ruptureItems
  | .pt => portItems

/-- The defaults of a section (R150, R162). -/
def Sect.defaults (x : Sect) : List Nat :=
  x.items.map ItemSpec.dflt

/-- One value for each channel, channel 0 first. -/
def perChannel {α : Type} (f : ChanId → α) : Vector α 16 :=
  #v[f 0, f 1, f 2, f 3, f 4, f 5, f 6, f 7, f 8, f 9, f 10, f 11, f 12, f 13, f 14, f 15]

/-- The sixteen channels in channel order. -/
def allChannels : List ChanId :=
  [0, 1, 2, 3, 4, 5, 6, 7, 8, 9, 10, 11, 12, 13, 14, 15]

end Sys2Proof.Machine
end

