-- ==== Sys2Proof/Machine/State.lean ====
section
/-! DEFINITION. The state of the AZ1640 as plain data: one structure for each block of the manual, the queue of waiting
commands, and the state after full reset. A derived quantity that the manual names (fill, retain floor, ATTN, the control
line levels) is no field: Machine/Ops.lean and Machine/Flags.lean compute it. -/

namespace Sys2Proof.Machine

/-- The block has no fault: every rule of the manual that refuses a request answers it with a result, and nothing stops
the part. No command raises one, so the type is empty; safe. -/
inductive Fault where
deriving DecidableEq, Repr

/-- Why the model answers no state. -/
inductive Refusal where
  /-- Raised by an arm of exec whose command has no meaning yet; no arm is such an arm. Safe: nothing is claimed. -/
  | notModelled (mnemonic : String)
deriving DecidableEq, Repr

/-! ### Frame intake (chapter 1) -/

/-- The two numbers of a synchronized intake (section 1.2): the frame last accepted and the frame expected next. -/
structure FrameSeq where
  last : BitVec 8
  expected : BitVec 8
deriving DecidableEq, Repr

/-- The frame intake (R14). -/
structure Intake where
  /-- The test clock (R10). -/
  clock : Tick
  /-- Absent while unsynchronized; the numbers have no value then (R3, R14). -/
  seq : Option FrameSeq
  /-- The previous magnitude of each channel (R9). -/
  prev : Vector Nat 16
  /-- The words already received of the frame being collected (R1); empty between frames. -/
  collecting : List Word16
deriving DecidableEq, Repr

/-! ### Channel units (chapters 2 and 3) -/

/-- The eight marks of a candidate and its hit (R39). -/
structure Marks where
  coarse : Bool := false
  sat : Bool := false
  gap : Bool := false
  loadStale : Bool := false
  trunc : Bool := false
  fault : Bool := false
  cut : Bool := false
  esat : Bool := false
deriving DecidableEq, Repr

/-- The twelve parameters of a channel's entry or working copy (section 2.3). -/
structure ChParams where
  enable : Bool
  floating : Bool
  tfix : Nat
  fm : Nat
  bs : Nat
  qc : Nat
  qs : Nat
  pdt : Nat
  hdt : Nat
  hlt : Nat
  maxd : Nat
  es : Nat
deriving DecidableEq, Repr

/-- The channel's record of a candidate (section 2.1). The load stamp is 0 when no load was posted (R54). -/
structure Candidate where
  kFirst : Tick
  arrival : SubTick
  counts : Nat
  peak : Nat
  kPeak : Tick
  frozen : Bool
  kLast : Tick
  sum : Nat
  trailing : Nat
  marks : Marks
  load : Nat
deriving DecidableEq, Repr

/-- The finished features of a completed hit (R32). -/
structure Features where
  arrival : SubTick
  counts : Nat
  peak : Nat
  amp : Nat
  rise : Nat
  duration : Nat
  energy : Nat
  load : Nat
  marks : Marks
deriving DecidableEq, Repr

/-- The seven channel states (section 2.1). A candidate record exists in PENDING and IN_HIT, a lockout end in LOCKOUT. -/
inductive ChState where
  | off
  | listen
  | quiet
  | pending (cand : Candidate)
  | inHit (cand : Candidate)
  | lockout (endTick : Tick)
  | fault
deriving DecidableEq, Repr

/-- A channel unit (R40). -/
structure Channel where
  st : ChState
  /-- The threshold in force T (R22). -/
  t : Nat
  /-- Sixteen times the background estimate (R56). -/
  b16 : Nat
  /-- The glitch count (R30). -/
  glitches : Nat
  /-- The fault state passed by the status line unit (R170). -/
  reportedFault : Bool
  /-- The working copy (R20). -/
  work : ChParams
deriving DecidableEq, Repr

/-! ### Grouping engine (chapter 4) -/

/-- A member's state (section 4.1); DONE holds the finished features. -/
inductive MemberState where
  | pending
  | active
  | done (f : Features)
deriving DecidableEq, Repr

/-- A member of a group (section 4.1). -/
structure Member where
  ch : ChanId
  arrival : SubTick
  st : MemberState
deriving DecidableEq, Repr

/-- A group of the pending list (section 4.1). -/
structure Group where
  /-- OPEN, or SETTLING when false. -/
  isOpen : Bool
  /-- The tick at which it opened: its window is first tested for closing at the next (R65, R68). -/
  opened : Tick
  aOpen : SubTick
  limit : SubTick
  gl : Nat
  lmin : Nat
  members : List Member
deriving DecidableEq, Repr

/-- The four ungrouped reasons (R69). -/
inductive Reason where
  | disabled
  | repeated
  | lockout
  | full
deriving DecidableEq, Repr

/-- Where a channel's current candidate stands (section 4.1). -/
inductive Placement where
  | none
  | grouped
  | ungrouped (why : Reason)
deriving DecidableEq, Repr

/-- The working grouping parameters (section 4.1). -/
structure GrParams where
  w : Nat
  gl : Nat
  lmin : Nat
  enable : Bool
deriving DecidableEq, Repr

/-- The grouping engine (R81). -/
structure Grouping where
  /-- The pending group list, oldest first (R59). -/
  groups : List Group
  /-- The group lockout: its end tick while it is running (R65). -/
  lockout : Option Tick
  placement : Vector Placement 16
  /-- No values until the first opening point after full reset (R81). -/
  work : Option GrParams
deriving DecidableEq, Repr

/-! ### Journal (chapter 5) -/

/-- The six record kinds (section 5.1). -/
inductive RecKind where
  | hit
  | group
  | load
  | activity
  | tally
  | mark
deriving DecidableEq, Repr

/-- A record as it is held: the journal writes its kind, length, flags and sequence number into words 0 and 1, and stores
the producer's words after them unchanged (section 11.1). -/
structure Rec where
  kind : RecKind
  /-- The channel flags, bit c for channel c. -/
  flags : BitVec 16
  seq : SeqNo
  /-- Words 2 and on. -/
  body : List Word32
deriving DecidableEq, Repr

/-- The journal (R108). The fill and the retain floor follow from the records. -/
structure Journal where
  /-- The records held, from the retain floor to the append point (R84; held as a list, DEDUCED, log entry 19). -/
  recs : List Rec
  appendPoint : SeqNo
  tallyMode : Bool
  liveHits : Vector Nat 16
  liveEnergy : Vector Nat 16
  liveGroups : Nat
  /-- The count of intervals covered (R104). -/
  covered : Nat
deriving DecidableEq, Repr

/-! ### Rollup unit (chapter 6) -/

/-- The working activity parameters (section 6.1); LS is not held. -/
structure AcParams where
  i : Nat
  lg : Nat
  le : Nat
  lh : Nat
  ha : Nat
  k : Nat
  r : Nat
deriving DecidableEq, Repr

/-- A posted load with the tick of its posting (R123). -/
structure PostedLoad where
  value : Nat
  tick : Tick
deriving DecidableEq, Repr

/-- The five interval counters (R113). -/
structure Counters where
  groups : Nat
  locatable : Nat
  hits : Nat
  energy : Nat
  high : Nat
deriving DecidableEq, Repr

/-- The rollup unit (R131). -/
structure Rollup where
  /-- No values until RUN START takes them up. -/
  work : Option AcParams
  /-- Absent until RUN START sets one. -/
  nextBoundary : Option Tick
  index : BitVec 32
  counters : Counters
  /-- Intervals since the previous ACTIVITY record (R119). -/
  sinceActivity : Nat
  met : Nat
  unmet : Nat
  /-- The auto hold is asserted (R116). -/
  autoHold : Bool
  /-- The latest load (R123). -/
  load : Option PostedLoad
  pmax : Nat
  stale : Bool
  armed : Bool
deriving DecidableEq, Repr

/-! ### Run control (chapter 7) -/

/-- The four run states (section 7.1). -/
inductive RunState where
  | idle
  | running
  | final
  | closed
deriving DecidableEq, Repr

/-- The four sources of a declaration (R146). -/
inductive RuptureSource where
  | group
  | groupLoad
  | portA
  | portB
deriving DecidableEq, Repr

/-- Held evidence (R142). -/
structure Evidence where
  deadline : Tick
  /-- The sequence number of its GROUP record, when one was written. -/
  group : Option SeqNo
deriving DecidableEq, Repr

/-- Run control (R149). The rupture flag is set while a source is held (section 7.1). -/
structure Run where
  state : RunState
  startTick : Option Tick
  rupture : Option RuptureSource
  evidence : Option Evidence
  /-- The tick at which a run in FINAL closes (R147). -/
  postEnd : Option Tick
deriving DecidableEq, Repr

/-! ### Setup table (chapter 8) -/

/-- The setup table (R150, R151, R161). -/
structure Setup where
  ch : List Nat
  gr : List Nat
  ac : List Nat
  ru : List Nat
  pt : List Nat
  generation : BitVec 32
  lockDetection : Bool
  lockCriteria : Bool
deriving DecidableEq, Repr

/-! ### Status line unit (chapter 9) -/

/-- The mode announced by a stop frame (R166). -/
inductive LineMode where
  | continuous
  | quiet
deriving DecidableEq, Repr

/-- The three phases of a slot frame (R164). -/
inductive Phase where
  | drive
  | restore
  | release
deriving DecidableEq, Repr

/-- Where the unit stands in a cycle (section 9.1): `spent` is the clocks counted of a START or STOP frame, and a STOP
frame holds the mode it announces from its first clock on (R166). -/
inductive CycleState where
  | idle
  | start (spent : Nat)
  | slot (c : ChanId) (phase : Phase)
  | stop (spent : Nat) (announced : Option LineMode)
deriving DecidableEq, Repr

/-- The status line unit (R171). -/
structure Status where
  lineMode : LineMode
  cycle : CycleState
  /-- The reports sampled so far in the current cycle; a report of true is a fault report. -/
  reports : Vector (Option Bool) 16
  refTick : Option Tick
  /-- The debounced fault state of each channel. -/
  faults : Vector Bool 16
  debounce : Vector Nat 16
  /-- The consecutive aborted count (R167). -/
  aborted : Nat
  lineDown : Bool
deriving DecidableEq, Repr

/-! ### Request ports (chapter 10) -/

/-- The thirteen notice sources, in the order of their numbers (section 10.5). -/
inductive Source where
  | autoHold
  | rupture
  | runState
  | tallyMode
  | channelFault
  | frameGap
  | clockWrap
  | setupChanged
  | lockChanged
  | resumption
  | loadStale
  | lineDown
  | ruptureEvidence
deriving DecidableEq, Repr

/-- An entry of a notice list (R182, R188). A level entry's detail is 1 when its level is asserted, else 0. -/
structure Notice where
  source : Source
  /-- The occurrence count or the change count. -/
  count : Nat
  /-- The section code of SETUP CHANGED, else 0. -/
  sect : Nat
  detail : Word32
deriving DecidableEq, Repr

/-- A request taken in (R173): its payload is empty when the declared length is over the limit (R174). -/
structure Request where
  code : Byte
  tag : Byte
  declared : Nat
  payload : List Byte
deriving DecidableEq, Repr

/-- The results a response may carry (section 10.4). -/
inductive Result where
  | ok
  | adjusted
  | unknown
  | length
  | state
  | stale
  | locked
  | range
  | timeout
  | cleared
  | detached
  | empty
deriving DecidableEq, Repr

/-- A response waiting to be shifted out (R176); its port status byte is formed at an exchange. -/
structure Response where
  tag : Byte
  code : Byte
  result : Result
  payload : List Byte
deriving DecidableEq, Repr

/-- An exchange in progress (R172): whether the queue's head response is being shifted out, and the bytes of the
outgoing frame, its port status byte first. -/
structure Exchange where
  queued : Bool
  out : List Byte
deriving DecidableEq, Repr

/-- An outstanding wait (R98). -/
structure Wait where
  n : Nat
  deadline : Tick
deriving DecidableEq, Repr

/-- A request port with its journal view and its manual hold flag (section 10.1, R88). -/
structure PortState where
  requests : List Request
  responses : List Response
  overrun : Bool
  short : Bool
  notices : List Notice
  exchange : Option Exchange
  /-- The cursor; the attached flag is set while there is one, and a detached port's cursor has no position (R88). -/
  cursor : Option SeqNo
  /-- Bit kind − 1 passes the kind (R93); a payload's further bits are ignored (R92; DEDUCED, log entry 12). -/
  kindMask : BitVec 6
  chanMask : BitVec 16
  wait : Option Wait
  /-- The manual hold flag (R127). -/
  manual : Bool
deriving DecidableEq, Repr

/-! ### The part -/

/-- The whole state of the part, and the queue of commands that are waiting, first in, first out. -/
structure State where
  /-- RESETn is held low (R14). -/
  resetHeld : Bool
  intake : Intake
  channels : Vector Channel 16
  grouping : Grouping
  journal : Journal
  rollup : Rollup
  run : Run
  setup : Setup
  status : Status
  portA : PortState
  portB : PortState
  pending : List Instr
deriving DecidableEq, Repr

/-! ### Full reset -/

/-- The frame intake after full reset (R14). -/
def Intake.reset : Intake where
  clock := 0
  seq := none
  prev := Vector.replicate 16 0
  collecting := []

/-- The default working copy (R40). -/
def ChParams.reset : ChParams where
  enable := false
  floating := false
  tfix := 200
  fm := 24
  bs := 6
  qc := 1
  qs := 64
  pdt := 200
  hdt := 400
  hlt := 1000
  maxd := 50
  es := 4

/-- A channel after full reset (R40). -/
def Channel.reset : Channel where
  st := .off
  t := 200
  b16 := 0
  glitches := 0
  reportedFault := false
  work := ChParams.reset

/-- The grouping engine after full reset (R81). -/
def Grouping.reset : Grouping where
  groups := []
  lockout := none
  placement := Vector.replicate 16 .none
  work := none

/-- The journal after full reset (R108). -/
def Journal.reset : Journal where
  recs := []
  appendPoint := 0
  tallyMode := false
  liveHits := Vector.replicate 16 0
  liveEnergy := Vector.replicate 16 0
  liveGroups := 0
  covered := 0

/-- Interval counters of 0 (R111, R121, R131). -/
def Counters.zero : Counters where
  groups := 0
  locatable := 0
  hits := 0
  energy := 0
  high := 0

/-- The rollup unit after full reset (R131). -/
def Rollup.reset : Rollup where
  work := none
  nextBoundary := none
  index := 0
  counters := Counters.zero
  sinceActivity := 0
  met := 0
  unmet := 0
  autoHold := false
  load := none
  pmax := 0
  stale := false
  armed := false

/-- Run control after full reset (R149). -/
def Run.reset : Run where
  state := .idle
  startTick := none
  rupture := none
  evidence := none
  postEnd := none

/-- The setup table after full reset (R162). -/
def Setup.reset : Setup where
  ch := Sect.defaults .ch
  gr := Sect.defaults .gr
  ac := Sect.defaults .ac
  ru := Sect.defaults .ru
  pt := Sect.defaults .pt
  generation := 0
  lockDetection := false
  lockCriteria := false

/-- The status line unit after full reset (R171). -/
def Status.reset : Status where
  lineMode := .continuous
  cycle := .idle
  reports := Vector.replicate 16 none
  refTick := none
  faults := Vector.replicate 16 false
  debounce := Vector.replicate 16 0
  aborted := 0
  lineDown := false

/-- A port after full reset (R88, R108, R131, R184). -/
def PortState.reset : PortState where
  requests := []
  responses := []
  overrun := false
  short := false
  notices := []
  exchange := none
  cursor := none
  kindMask := BitVec.allOnes 6
  chanMask := BitVec.allOnes 16
  wait := none
  manual := false

/-- The part after a full reset that is over: RESETn is high. -/
def State.reset : State where
  resetHeld := false
  intake := Intake.reset
  channels := Vector.replicate 16 Channel.reset
  grouping := Grouping.reset
  journal := Journal.reset
  rollup := Rollup.reset
  run := Run.reset
  setup := Setup.reset
  status := Status.reset
  portA := PortState.reset
  portB := PortState.reset
  pending := []

end Sys2Proof.Machine
end

