-- ==== Sys2Proof/Machine/Ops.lean ====
section
/-! DEFINITION. The named operations over the state: reading and replacing a block, a port or a channel, and the
arithmetic of ticks. -/

namespace Sys2Proof.Machine

/-! ### Blocks, ports and channels -/

/-- The state of a port. -/
def State.port (s : State) : Port → PortState
  | .a => s.portA
  | .b => s.portB

/-- The state with one port replaced. -/
def State.withPort (s : State) (p : Port) (q : PortState) : State :=
  match p with
  | .a => { s with portA := q }
  | .b => { s with portB := q }

/-- The state with one port changed. -/
def State.updPort (s : State) (p : Port) (f : PortState → PortState) : State :=
  s.withPort p (f (s.port p))

/-- The state with the frame intake replaced. -/
def State.withIntake (s : State) (x : Intake) : State := { s with intake := x }

/-- The state with all sixteen channels replaced. -/
def State.withChannels (s : State) (x : Vector Channel 16) : State := { s with channels := x }

/-- The state with the grouping engine replaced. -/
def State.withGrouping (s : State) (x : Grouping) : State := { s with grouping := x }

/-- The state with the journal replaced. -/
def State.withJournal (s : State) (x : Journal) : State := { s with journal := x }

/-- The state with the rollup unit replaced. -/
def State.withRollup (s : State) (x : Rollup) : State := { s with rollup := x }

/-- The state with run control replaced. -/
def State.withRun (s : State) (x : Run) : State := { s with run := x }

/-- The state with the setup table replaced. -/
def State.withSetup (s : State) (x : Setup) : State := { s with setup := x }

/-- The state with the status line unit replaced. -/
def State.withStatus (s : State) (x : Status) : State := { s with status := x }

/-- The state with the level of RESETn replaced. -/
def State.withResetHeld (s : State) (x : Bool) : State := { s with resetHeld := x }

/-- The state with the queue of waiting commands replaced. -/
def State.withPending (s : State) (x : List Instr) : State := { s with pending := x }

/-- A channel unit. -/
def State.chan (s : State) (c : ChanId) : Channel := s.channels[c]

/-- The state with one channel unit replaced. -/
def State.withChan (s : State) (c : ChanId) (x : Channel) : State :=
  s.withChannels (s.channels.set c x)

/-- The other port. -/
def other : Port → Port
  | .a => .b
  | .b => .a

/-- The effect of a command that the part takes while it is out of reset. While RESETn is held low the part stands in
its reset state: no link is collected, nothing is executed and no tick comes (R1, R171, R184; DESIGN CHOICE, log entry 3). -/
def State.whileReleased (s : State) (f : State → State) : State :=
  if s.resetHeld then s else f s

/-! ### Ticks (R11) -/

/-- The tick a duration of `n` ticks after `k`, modulo 2^48 (R11). -/
def tickAfter (k : Tick) (n : Nat) : Tick := k + BitVec.ofNat 48 n

/-- The difference k − r of two ticks, modulo 2^48 (R11). -/
def ticksSince (k r : Tick) : Nat := (k - r).toNat

/-- A duration of `n` blocks in ticks (R11). -/
def blocks (n : Nat) : Nat := n * Config.blockTicks

/-- Saturating addition: a counter stops at its maximum and stays there. -/
def satAdd (limit a b : Nat) : Nat := min limit (a + b)

/-- The test clock. -/
def State.clock (s : State) : Tick := s.intake.clock

/-- The run is active: RUNNING or FINAL (chapter 7). -/
def RunState.active : RunState → Bool
  | .running | .final => true
  | .idle | .closed => false

/-- The run is active (chapter 7). -/
def State.runActive (s : State) : Bool := s.run.state.active

/-- Insertion of an item into a list kept in ascending order of a key, after the items of an equal key. -/
def insertByKey {α : Type} (key : α → Nat) (x : α) : List α → List α
  | [] => [x]
  | y :: ys => if key x < key y then x :: y :: ys else y :: insertByKey key x ys

/-- The items in ascending order of a key; items of equal keys keep their order. -/
def sortByKey {α : Type} (key : α → Nat) (xs : List α) : List α :=
  xs.foldl (fun sorted x => insertByKey key x sorted) []

end Sys2Proof.Machine
end

