-- ==== Sys2Proof/Machine/Features.lean ====
section
/-! DEFINITION. Hit feature arithmetic (R44 to R58). -/

namespace Sys2Proof.Machine

/-- The arrival fraction, in sixteenths of a tick: interpolated when the previous magnitude is below T (R44), and 16 when
it is not (R45). -/
def arrivalFraction (t m0 m1 : Nat) : Nat :=
  if m0 < t then 16 * (t - m0) / (m1 - m0) else 16

/-- The arrival of a candidate started at tick k, modulo 2^52 (R46). -/
def arrivalAt (k : Tick) (frac : Nat) : SubTick :=
  BitVec.ofNat 52 (16 * (k - 1).toNat + frac)

/-- The table F of the amplitude code, in quarter-decibels (R47). -/
def ampStep : Nat → Nat
  | 0 => 0
  | 1 => 4
  | 2 => 8
  | 3 => 11
  | 4 => 14
  | 5 => 17
  | 6 => 19
  | _ => 22

/-- The amplitude code of a peak (R47): 24 to the octave of its highest set bit, refined by the next three bits. -/
def ampCode (p : Nat) : Nat :=
  24 * p.log2 + ampStep (p * 8 / 2 ^ p.log2 - 8)

/-- The energy before it saturates: floor(S / 2^ES) (R49). -/
def energyQuotient (sum es : Nat) : Nat := sum / 2 ^ es

/-- The estimator's update (R56): b16 moves by floor((16 × m − b16) / 2^BS), rounded toward minus infinity. -/
def estimate (b16 m bs : Nat) : Nat :=
  ((b16 : Int) + (16 * (m : Int) - (b16 : Int)) / (2 ^ bs : Int)).toNat

/-- The threshold in force: derived from b16 in floating mode (R57), Tfix in fixed mode (R58). -/
def threshold (w : ChParams) (b16 : Nat) : Nat :=
  if w.floating then min Config.maxMagnitude (max w.tfix (b16 * w.fm / 128)) else w.tfix

/-- The duration of a completed hit in ticks (R51). -/
def Candidate.duration (c : Candidate) : Nat := ticksSince c.kLast c.kFirst + 1

/-- The rise time of a completed hit, saturating (R52). -/
def Candidate.rise (c : Candidate) : Nat := min Config.max16 (ticksSince c.kPeak c.kFirst)

/-- Finishing (R32, R53): the features of a hit from its candidate record, its span and end mark settled by the cause of
the end; ESAT is set when the energy saturates (R49, R55). -/
def Candidate.finish (c : Candidate) (es : Nat) : Features where
  arrival := c.arrival
  counts := c.counts
  peak := c.peak
  amp := ampCode c.peak
  rise := c.rise
  duration := c.duration
  energy := min Config.max32 (energyQuotient c.sum es)
  load := c.load
  marks := { c.marks with esat := decide (Config.max32 < energyQuotient c.sum es) }

end Sys2Proof.Machine
end

