-- ==== Sys2Proof/Machine/Operands.lean ====
section
/-! DEFINITION. The operand forms: the fields of a request payload and the bytes of a response payload (R186, R187), the
values of the setup table as their owners read them (section 8.2), and the words a record packs. -/

namespace Sys2Proof.Machine

/-! ### Bytes, least significant first (R187) -/

/-- `n` bytes of a value, least significant byte first. -/
def leBytes : Nat → Nat → List Byte
  | 0, _ => []
  | n + 1, x => BitVec.ofNat 8 x :: leBytes n (x / 256)

/-- The value of bytes, least significant byte first. -/
def leNat : List Byte → Nat
  | [] => 0
  | b :: bs => b.toNat + 256 * leNat bs

/-- The value of the payload field of `n` bytes that begins at byte `i`. -/
def field (payload : List Byte) (i n : Nat) : Nat := leNat ((payload.drop i).take n)

/-- The values of 4 bytes each that a payload carries (R153). -/
def words4 : List Byte → List Nat
  | b0 :: b1 :: b2 :: b3 :: rest => leNat [b0, b1, b2, b3] :: words4 rest
  | _ => []

/-- A boolean field is one byte holding 0 or 1 (R187). -/
def boolBytes (b : Bool) : List Byte := leBytes 1 b.toNat

/-- A tick in 6 bytes (R187). -/
def tickBytes (k : Tick) : List Byte := leBytes 6 k.toNat

/-- A 32-bit word in 4 bytes (R187). -/
def wordBytes (w : Word32) : List Byte := leBytes 4 w.toNat

/-! ### Words of a record (section 11.1) -/

/-- A 32-bit word of a record. -/
def word32 (n : Nat) : Word32 := BitVec.ofNat 32 n

/-- The two words of a clock value: bits 0 to 31, then bits 32 to 47 with `upper` in bits 16 to 31. -/
def clockWords (k : Tick) (upper : Nat) : List Word32 :=
  [word32 k.toNat, word32 (k.toNat / 2 ^ 32 + upper * 2 ^ 16)]

/-- The two words of an arrival: bits 0 to 31, then bits 32 to 51. -/
def arrivalWords (a : SubTick) : List Word32 :=
  [word32 a.toNat, word32 (a.toNat / 2 ^ 32)]

/-! ### The setup table as its owners read it (section 8.2) -/

/-- The values of a section. -/
def Setup.values (t : Setup) : Sect → List Nat
  | .ch => t.ch
  | .gr => t.gr
  | .ac => t.ac
  | .ru => t.ru
  | .pt => t.pt

/-- The table with the values of a section replaced. -/
def Setup.withValues (t : Setup) (x : Sect) (vs : List Nat) : Setup :=
  match x with
  | .ch => { t with ch := vs }
  | .gr => { t with gr := vs }
  | .ac => { t with ac := vs }
  | .ru => { t with ru := vs }
  | .pt => { t with pt := vs }

/-- One item of a section. -/
def Setup.item (t : Setup) (x : Sect) (i : Nat) : Nat := (t.values x).getD i 0

/-- The CH entry of a channel (R150): index i of channel c is item 12 × c + i. -/
def Setup.entry (t : Setup) (c : ChanId) : ChParams where
  enable := t.item .ch (12 * c.val) == 1
  floating := t.item .ch (12 * c.val + 1) == 1
  tfix := t.item .ch (12 * c.val + 2)
  fm := t.item .ch (12 * c.val + 3)
  bs := t.item .ch (12 * c.val + 4)
  qc := t.item .ch (12 * c.val + 5)
  qs := t.item .ch (12 * c.val + 6)
  pdt := t.item .ch (12 * c.val + 7)
  hdt := t.item .ch (12 * c.val + 8)
  hlt := t.item .ch (12 * c.val + 9)
  maxd := t.item .ch (12 * c.val + 10)
  es := t.item .ch (12 * c.val + 11)

/-- The twelve values of a working copy in CH index order (R187). -/
def ChParams.values (w : ChParams) : List Nat :=
  [w.enable.toNat, w.floating.toNat, w.tfix, w.fm, w.bs, w.qc, w.qs, w.pdt, w.hdt, w.hlt, w.maxd, w.es]

/-- The GR section as the opening point takes it up (R67). -/
def Setup.grouping (t : Setup) : GrParams where
  w := t.item .gr 0
  gl := t.item .gr 1
  lmin := t.item .gr 2
  enable := t.item .gr 3 == 1

/-- The AC section as RUN START and a rollup take it up (R111, R114). -/
def Setup.activity (t : Setup) : AcParams where
  i := t.item .ac 0
  lg := t.item .ac 1
  le := t.item .ac 2
  lh := t.item .ac 3
  ha := t.item .ac 4
  k := t.item .ac 5
  r := t.item .ac 6

/-- LS, read at each stale check (R125). -/
def Setup.ls (t : Setup) : Nat := t.item .ac 7

/-- Nr, read at each group emission (R141). -/
def Setup.nr (t : Setup) : Nat := t.item .ru 0

/-- The load check setting, read at each group emission (R141). -/
def Setup.loadCheck (t : Setup) : Bool := t.item .ru 1 == 1

/-- DF, read at each load-drop check (R143). -/
def Setup.df (t : Setup) : Nat := t.item .ru 2

/-- RW, read when evidence is recorded (R142). -/
def Setup.rw (t : Setup) : Nat := t.item .ru 3

/-- PW, read at each declaration (R147). -/
def Setup.pw (t : Setup) : Nat := t.item .ru 4

/-- The code of a control line's source: PT items 13, 15 and 17 (R150). -/
def Setup.coSource (t : Setup) (line : Fin 3) : Nat := t.item .pt (13 + 2 * line.val)

/-- A control line is active-low: PT items 14, 16 and 18 (R150). -/
def Setup.coActiveLow (t : Setup) (line : Fin 3) : Bool := t.item .pt (14 + 2 * line.val) == 1

/-- The status mode: PT item 19 (R150). -/
def Setup.statusMode (t : Setup) : LineMode := if t.item .pt 19 = 1 then .quiet else .continuous

/-- The status period in blocks: PT item 20 (R150). -/
def Setup.statusPeriod (t : Setup) : Nat := t.item .pt 20

/-- The channels whose setup enable is on, in channel order (R135). -/
def Setup.enabled (t : Setup) : List ChanId := allChannels.filter fun c => (t.entry c).enable

/-- The lock set as a mask: bit 0 DETECTION, bit 1 CRITERIA (R187). -/
def Setup.lockSet (t : Setup) : Nat := t.lockDetection.toNat + 2 * t.lockCriteria.toNat

/-- A section is covered by a held lock (R155): DETECTION covers CH and GR, CRITERIA covers AC and RU. -/
def Setup.locked (t : Setup) : Sect → Bool
  | .ch | .gr => t.lockDetection
  | .ac | .ru => t.lockCriteria
  | .pt => false

end Sys2Proof.Machine
end

