-- ==== Sys2Proof/Machine/Flags.lean ====
section
/-! DEFINITION. Every flag and code the manual computes: the codes of its enumerations, the masks of channels and marks, the
levels of the output pins, and the flags of the port status byte and of STATUS READ. -/

namespace Sys2Proof.Machine

/-! ### Codes -/

/-- The codes of the run states (R187). -/
def RunState.code : RunState → Nat
  | .idle => 0
  | .running => 1
  | .final => 2
  | .closed => 3

/-- The codes of the rupture sources (R185). -/
def RuptureSource.code : RuptureSource → Nat
  | .group => 1
  | .groupLoad => 2
  | .portA => 3
  | .portB => 4

/-- The rupture source of a RUPTURE DECLARE (R145). -/
def declareSource : Port → RuptureSource
  | .a => .portA
  | .b => .portB

/-- The port number of a LOAD record (section 11.1). -/
def portNumber : Port → Nat
  | .a => 0
  | .b => 1

/-- The codes of the channel states (R187). -/
def ChState.code : ChState → Nat
  | .off => 0
  | .listen => 1
  | .quiet => 2
  | .pending _ => 3
  | .inHit _ => 4
  | .lockout _ => 5
  | .fault => 6

/-- The codes of the ungrouped reasons (section 11.1). -/
def Reason.code : Reason → Nat
  | .disabled => 1
  | .repeated => 2
  | .lockout => 3
  | .full => 4

/-- The codes of the record kinds (section 11.1). -/
def RecKind.code : RecKind → Nat
  | .hit => 1
  | .group => 2
  | .load => 3
  | .activity => 4
  | .tally => 5
  | .mark => 6

/-- The values of the results (section 10.4). -/
def Result.code : Result → Nat
  | .ok => 0
  | .adjusted => 1
  | .unknown => 2
  | .length => 3
  | .state => 4
  | .stale => 5
  | .locked => 6
  | .range => 7
  | .timeout => 8
  | .cleared => 9
  | .detached => 10
  | .empty => 11

/-- The numbers of the notice sources (section 10.5). -/
def Source.number : Source → Nat
  | .autoHold => 1
  | .rupture => 2
  | .runState => 3
  | .tallyMode => 4
  | .channelFault => 5
  | .frameGap => 6
  | .clockWrap => 7
  | .setupChanged => 8
  | .lockChanged => 9
  | .resumption => 10
  | .loadStale => 11
  | .lineDown => 12
  | .ruptureEvidence => 13

/-- The source is a level source (section 10.5). -/
def Source.isLevel : Source → Bool
  | .autoHold | .tallyMode | .loadStale | .lineDown => true
  | .rupture | .runState | .channelFault | .frameGap | .clockWrap | .setupChanged | .lockChanged | .resumption
  | .ruptureEvidence => false

/-! ### Masks -/

/-- The mask of the channels that meet a test, bit c for channel c. -/
def channelMask (f : ChanId → Bool) : Nat :=
  allChannels.foldl (fun m c => if f c then m + 2 ^ c.val else m) 0

/-- The marks in the order of the marks table (section 11.1). -/
def Marks.bits (m : Marks) : Nat :=
  m.coarse.toNat + 2 * m.sat.toNat + 4 * m.gap.toNat + 8 * m.loadStale.toNat + 16 * m.trunc.toNat
    + 32 * m.fault.toNat + 64 * m.cut.toNat + 128 * m.esat.toNat

/-- The fault mask: one flag for each channel whose fault state is faulted (R170). -/
def Status.faultMask (x : Status) : Nat := channelMask fun c => x.faults[c]

/-! ### Hold sources and control lines -/

/-- At least one enabled channel is in FAULT, or the line is declared down (R129); a channel in FAULT is not OFF. -/
def State.anyFault (s : State) : Bool :=
  (allChannels.any fun c => (s.chan c).st == .fault) || s.status.lineDown

/-- The auto hold, either manual flag, or rupture (R129). -/
def State.anyHold (s : State) : Bool :=
  s.rollup.autoHold || s.portA.manual || s.portB.manual || s.run.rupture.isSome

/-- The source of a control line, by its code, is active (R129). -/
def State.coActive (s : State) : Nat → Bool
  | 1 => s.rollup.autoHold
  | 2 => s.portA.manual
  | 3 => s.portB.manual
  | 4 => s.anyHold
  | 5 => s.run.rupture.isSome
  | 6 => s.runActive
  | 7 => s.journal.tallyMode
  | 8 => s.anyFault
  | _ => false

/-- The level of a control line, true for high (R128): the active level while its source is active, else the other. -/
def State.coHigh (s : State) (line : Fin 3) : Bool :=
  s.coActive (s.setup.coSource line) != s.setup.coActiveLow line

/-- The part drives the status line low at the coming status clock (R164, R166): in START, for the clocks that no node
began, and in STOP. -/
def State.drivesLineLow (s : State) : Bool :=
  match s.status.cycle with
  | .start _ | .stop _ _ => true
  | .idle | .slot _ _ => false

/-- ATTN of a port is asserted: its notice list holds an entry (R183). -/
def PortState.attn (q : PortState) : Bool := !q.notices.isEmpty

/-- The hold sources of STATUS READ: auto hold, manual A, manual B, rupture (R187). -/
def State.holdSources (s : State) : Nat :=
  s.rollup.autoHold.toNat + 2 * s.portA.manual.toNat + 4 * s.portB.manual.toNat + 8 * s.run.rupture.isSome.toNat

/-- The CO levels of STATUS READ (R187). -/
def State.coLevels (s : State) : Nat :=
  (s.coHigh 0).toNat + 2 * (s.coHigh 1).toNat + 4 * (s.coHigh 2).toNat

/-- The flags of STATUS READ at offset 1 (R187). -/
def State.statusFlags (s : State) (p : Port) : Nat :=
  s.journal.tallyMode.toNat + 2 * (s.port p).cursor.isSome.toNat + 4 * s.rollup.stale.toNat
    + 8 * s.rollup.load.isSome.toNat + 16 * (s.status.lineMode == .quiet).toNat + 32 * s.status.lineDown.toNat

/-- The port status byte (R172, R186): ATTN pending, request queue full, OVERRUN, SHORT, responses queued. -/
def PortState.statusByte (q : PortState) : Byte :=
  BitVec.ofNat 8 (q.attn.toNat + 2 * (decide (Config.queueDepth ≤ q.requests.length)).toNat + 4 * q.overrun.toNat
    + 8 * q.short.toNat + 16 * q.responses.length)

end Sys2Proof.Machine
end

