-- ==== Sys2Proof/Machine/ChannelOps.lean ====
section
/-! DEFINITION. A channel unit's handling of a tick, of a run's start and of its closing (R16 to R43). Each function acts on
one channel and answers the one report it may make. -/

namespace Sys2Proof.Machine

/-- Why a candidate is withdrawn (section 2.10). -/
inductive Withdrawal where
  | glitch
  | fault
  | closing
deriving DecidableEq, Repr

/-- A report of a channel to the grouping engine (section 2.10); a start carries its arrival and its tick k_first. -/
inductive Report where
  | started (c : ChanId) (arrival : SubTick) (tick : Tick) (confirmed : Bool)
  | confirmed (c : ChanId)
  | withdrawn (c : ChanId) (why : Withdrawal)
  | completed (c : ChanId) (f : Features)
deriving DecidableEq, Repr

/-- The items the intake hands a channel at a tick (R9). -/
structure Handed where
  m : Nat
  prev : Nat
  sat : Bool
  gap : Bool
deriving DecidableEq, Repr

/-- The load stamp as the rollup unit holds it (R54): its value, 0 when absent, and whether it is stale or absent. -/
structure LoadStamp where
  value : Nat
  stale : Bool
deriving DecidableEq, Repr

/-- QUIET in an active run, LISTEN otherwise (R18, R21). -/
def waitingState (active : Bool) : ChState := if active then .quiet else .listen

/-! ### First step: the fault state (R17, R18) -/

/-- Fault arrival (R17): a candidate is withdrawn, a hit ends with the FAULT mark, a lockout is abandoned, and the
channel enters FAULT. -/
def Channel.faultArrival (ch : Channel) (c : ChanId) : Channel × Option Report :=
  if ch.reportedFault then
    match ch.st with
    | .off | .fault => (ch, none)
    | .pending _ => ({ ch with st := .fault }, some (.withdrawn c .fault))
    | .inHit cand =>
      ({ ch with st := .fault },
        some (.completed c ({ cand with marks := { cand.marks with fault := true } }.finish ch.work.es)))
    | .lockout _ | .quiet | .listen => ({ ch with st := .fault }, none)
  else (ch, none)

/-- A channel in FAULT whose reported fault state is clear leaves FAULT (R18). -/
def Channel.faultCleared (ch : Channel) (active : Bool) : Channel :=
  if ch.st = .fault && !ch.reportedFault then { ch with st := waitingState active } else ch

/-! ### Second step: take-up (R20, R21) -/

/-- Take-up in OFF, LISTEN or QUIET (R20, R22), with the change of state of a changed enable (R21). -/
def Channel.takeUp (ch : Channel) (entry : ChParams) (active : Bool) : Channel :=
  let taken := { ch with work := entry, t := threshold entry ch.b16 }
  match ch.st with
  | .off => if entry.enable then { taken with st := waitingState active } else taken
  | .listen | .quiet => if entry.enable then taken else { taken with st := .off }
  | .pending _ | .inHit _ | .lockout _ | .fault => ch

/-! ### Third step: the sample (R23 to R34) -/

/-- The estimator's update and the recomputed T (R22 to R24). -/
def Channel.estimate (ch : Channel) (m : Nat) : Channel :=
  let b16 := Machine.estimate ch.b16 m ch.work.bs
  { ch with b16 := b16, t := threshold ch.work b16 }

/-- The candidate that an over-threshold sample in QUIET starts at tick k (R25, R44 to R46, R54). -/
def Channel.candidate (ch : Channel) (k : Tick) (load : LoadStamp) (x : Handed) : Candidate where
  kFirst := k
  arrival := arrivalAt k (arrivalFraction ch.t x.prev x.m)
  counts := 1
  peak := x.m
  kPeak := k
  frozen := false
  kLast := k
  sum := x.m
  trailing := 0
  marks := { coarse := decide (ch.t ≤ x.prev), sat := x.sat, gap := x.gap, loadStale := load.stale }
  load := load.value

/-- The start of a candidate and its report (R25, R26): with Qc of 1 it is confirmed at once. -/
def Channel.start (ch : Channel) (c : ChanId) (k : Tick) (load : LoadStamp) (x : Handed) : Channel × Option Report :=
  let cand := ch.candidate k load x
  if ch.work.qc = 1 then ({ ch with st := .inHit cand }, some (.started c cand.arrival k true))
  else ({ ch with st := .pending cand }, some (.started c cand.arrival k false))

/-- The freeze test of the peak (R27): more than PDT ticks have passed since the peak's tick. -/
def Candidate.freezePeak (cand : Candidate) (k : Tick) (pdt : Nat) : Candidate :=
  if pdt < ticksSince k cand.kPeak then { cand with frozen := true } else cand

/-- The peak after the freeze test (R27): a larger sample replaces a peak that is not frozen. -/
def Candidate.raisePeak (cand : Candidate) (k : Tick) (m : Nat) : Candidate :=
  if !cand.frozen && decide (cand.peak < m) then { cand with peak := m, kPeak := k } else cand

/-- The energy sums (R27): an over-threshold sample commits the trailing sum. -/
def Candidate.addEnergy (cand : Candidate) (k : Tick) (t m : Nat) : Candidate :=
  if t ≤ m then { cand with sum := cand.sum + cand.trailing + m, trailing := 0, kLast := k }
  else { cand with trailing := cand.trailing + m }

/-- The crossing count (R27): an over-threshold sample whose previous magnitude is below T. -/
def Candidate.addCrossing (cand : Candidate) (t : Nat) (x : Handed) : Candidate :=
  if t ≤ x.m && decide (x.prev < t) then { cand with counts := satAdd Config.max16 cand.counts 1 } else cand

/-- The SAT and GAP marks (R27). -/
def Candidate.addMarks (cand : Candidate) (x : Handed) : Candidate :=
  { cand with marks := { cand.marks with sat := cand.marks.sat || x.sat, gap := cand.marks.gap || x.gap } }

/-- What a candidate gathers at a tick, in the order of R27: peak, energy, crossing, marks. -/
def Candidate.gather (cand : Candidate) (k : Tick) (pdt t : Nat) (x : Handed) : Candidate :=
  ((((cand.freezePeak k pdt).raisePeak k x.m).addEnergy k t x.m).addCrossing t x).addMarks x

/-- The peak's freeze on its own (R27). -/
def Channel.peakFreeze (ch : Channel) (k : Tick) : Channel :=
  match ch.st with
  | .pending cand => { ch with st := .pending (cand.freezePeak k ch.work.pdt) }
  | .inHit cand => { ch with st := .inHit (cand.freezePeak k ch.work.pdt) }
  | .off | .listen | .quiet | .lockout _ | .fault => ch

/-- The candidate is confirmed at tick k (R28). -/
def Candidate.confirms (cand : Candidate) (k : Tick) (w : ChParams) : Bool :=
  decide (w.qc ≤ cand.counts) && decide (ticksSince k cand.kFirst < w.qs)

/-- The candidate, not confirmed, is a glitch at tick k (R29). -/
def Candidate.isGlitch (cand : Candidate) (k : Tick) (w : ChParams) : Bool :=
  !cand.confirms k w && (decide (w.qs ≤ ticksSince k cand.kFirst) || decide (ticksSince k cand.kLast = w.hdt))

/-- The confirmation test of PENDING (R28). -/
def Channel.confirmTest (ch : Channel) (c : ChanId) (k : Tick) : Channel × Option Report :=
  match ch.st with
  | .pending cand => if cand.confirms k ch.work then ({ ch with st := .inHit cand }, some (.confirmed c)) else (ch, none)
  | _ => (ch, none)

/-- The glitch test of PENDING (R29, R30). -/
def Channel.glitchTest (ch : Channel) (c : ChanId) (k : Tick) : Channel × Option Report :=
  match ch.st with
  | .pending cand =>
    if cand.isGlitch k ch.work then
      ({ ch with st := .quiet, glitches := satAdd Config.max16 ch.glitches 1 }, some (.withdrawn c .glitch))
    else (ch, none)
  | _ => (ch, none)

/-- The state after a normal or forced end at tick k (R33). -/
def afterHit (k : Tick) (hlt : Nat) : ChState :=
  if 1 ≤ hlt then .lockout (tickAfter k hlt) else .quiet

/-- The hit ends normally at tick k (R31). -/
def Candidate.endsNormally (cand : Candidate) (k : Tick) (w : ChParams) : Bool :=
  decide (ticksSince k cand.kLast = w.hdt)

/-- The hit ends by force at tick k: it has run for MAXD blocks and does not end normally (R31). -/
def Candidate.endsByForce (cand : Candidate) (k : Tick) (w : ChParams) : Bool :=
  !cand.endsNormally k w && decide (ticksSince k cand.kFirst + 1 = blocks w.maxd)

/-- The candidate record of a forced end (R31, R53): the trailing sum is committed and TRUNC is set. -/
def Candidate.truncate (cand : Candidate) (k : Tick) : Candidate :=
  { cand with
    sum := cand.sum + cand.trailing
    trailing := 0
    kLast := k
    marks := { cand.marks with trunc := true } }

/-- The normal end of a hit (R31 to R33). -/
def Channel.hitEndTest (ch : Channel) (c : ChanId) (k : Tick) : Channel × Option Report :=
  match ch.st with
  | .inHit cand =>
    if cand.endsNormally k ch.work then
      ({ ch with st := afterHit k ch.work.hlt }, some (.completed c (cand.finish ch.work.es)))
    else (ch, none)
  | _ => (ch, none)

/-- The forced end of a hit (R31 to R33). -/
def Channel.hitTruncTest (ch : Channel) (c : ChanId) (k : Tick) : Channel × Option Report :=
  match ch.st with
  | .inHit cand =>
    if cand.endsByForce k ch.work then
      ({ ch with st := afterHit k ch.work.hlt }, some (.completed c ((cand.truncate k).finish ch.work.es)))
    else (ch, none)
  | _ => (ch, none)

/-- The end of a lockout (R34). -/
def Channel.lockoutEndTest (ch : Channel) (k : Tick) : Channel :=
  match ch.st with
  | .lockout e => if e = k then { ch with st := .quiet } else ch
  | _ => ch

/-- Two tests of one tick in order, of which at most one reports. -/
def firstReport (a : Channel × Option Report) (f : Channel → Channel × Option Report) : Channel × Option Report :=
  match a.2 with
  | some _ => a
  | none => f a.1

/-- The third step (R16): the sample is handled by the rule of the state the channel is in after the first two. -/
def Channel.handleSample (ch : Channel) (c : ChanId) (k : Tick) (load : LoadStamp) (x : Handed) :
    Channel × Option Report :=
  match ch.st with
  | .off | .fault => (ch, none)
  | .listen => (ch.estimate x.m, none)
  | .quiet => if ch.t ≤ x.m then ch.start c k load x else (ch.estimate x.m, none)
  | .pending cand =>
    let gathered := { ch with st := .pending (cand.gather k ch.work.pdt ch.t x) }
    firstReport (gathered.confirmTest c k) fun ch => ch.glitchTest c k
  | .inHit cand =>
    let gathered := { ch with st := .inHit (cand.gather k ch.work.pdt ch.t x) }
    firstReport (gathered.hitEndTest c k) fun ch => ch.hitTruncTest c k
  | .lockout _ => (ch.lockoutEndTest k, none)

/-- A channel's handling of a tick in its three steps (R16). A fault arrival leaves the channel in FAULT, where the
other two steps do nothing. -/
def Channel.tick (ch : Channel) (c : ChanId) (k : Tick) (entry : ChParams) (active : Bool) (load : LoadStamp)
    (x : Handed) : Channel × Option Report :=
  firstReport (ch.faultArrival c) fun ch => ((ch.faultCleared active).takeUp entry active).handleSample c k load x

/-! ### Run start, closing, run clear, peek -/

/-- RUN START moves a channel in LISTEN to QUIET (R35). -/
def Channel.runStart (ch : Channel) : Channel :=
  if ch.st = .listen then { ch with st := .quiet } else ch

/-- The closing action (R37). -/
def Channel.close (ch : Channel) (c : ChanId) : Channel × Option Report :=
  match ch.st with
  | .pending _ => ({ ch with st := .listen }, some (.withdrawn c .closing))
  | .inHit cand =>
    ({ ch with st := .listen },
      some (.completed c ({ cand with marks := { cand.marks with cut := true } }.finish ch.work.es)))
  | .lockout _ | .quiet => ({ ch with st := .listen }, none)
  | .listen | .off | .fault => (ch, none)

/-- Run clear on a channel (R41). -/
def Channel.runClear (ch : Channel) : Channel :=
  { ch with glitches := 0, st := if ch.st = .off then .off else .listen }

/-- What CHANNEL PEEK returns (R38, R187). -/
def Channel.peek (ch : Channel) : List Byte :=
  leBytes 1 ch.st.code ++ leBytes 2 ch.t ++ leBytes 4 ch.b16 ++ leBytes 2 ch.glitches
    ++ (ch.work.values.map (leBytes 4)).flatten

end Sys2Proof.Machine
end

