-- ==== Sys2Proof/Machine/Notices.lean ====
section
/-! DEFINITION. Posting a notice (R181, R182). -/

namespace Sys2Proof.Machine

/-- A posting taken by a list (R182): a new entry at the tail with a count of 1, or the source's entry updated in place,
its count raised up to 255 and its detail replaced. -/
def addNotice (src : Source) (sect : Nat) (detail : Word32) : List Notice → List Notice
  | [] => [⟨src, 1, sect, detail⟩]
  | e :: es =>
    if e.source = src then ⟨src, satAdd 255 e.count 1, sect, detail⟩ :: es
    else e :: addNotice src sect detail es

/-- The list holds an entry for the source. -/
def holdsSource (src : Source) (l : List Notice) : Bool := l.any fun e => e.source == src

/-- The routing of a source: PT item n routes source n + 1 (R150). -/
def Setup.routing (t : Setup) (src : Source) : Nat := t.item .pt (src.number - 1)

/-- The ports that a posting reaches (R181): NONE, A, B, BOTH, and LESS BUSY, which follows an entry already held and
else goes to the shorter list, to Port A when both hold as many. -/
def State.routed (s : State) (src : Source) (p : Port) : Bool :=
  match s.setup.routing src with
  | 1 => p == .a
  | 2 => p == .b
  | 3 => true
  | 4 =>
    let heldA := holdsSource src s.portA.notices
    let heldB := holdsSource src s.portB.notices
    if heldA || heldB then
      match p with
      | .a => heldA
      | .b => heldB
    else
      match p with
      | .a => decide (s.portA.notices.length ≤ s.portB.notices.length)
      | .b => decide (s.portB.notices.length < s.portA.notices.length)
  | _ => false

/-- The port takes a posting into its list (R182). -/
def PortState.takeNotice (q : PortState) (src : Source) (sect : Nat) (detail : Word32) : PortState :=
  { q with notices := addNotice src sect detail q.notices }

/-- A posting with its section code and detail, routed at the moment it is made (R181). -/
def State.postWith (s : State) (src : Source) (sect : Nat) (detail : Word32) : State :=
  let toA := s.routed src .a
  let toB := s.routed src .b
  { s with
    portA := if toA then s.portA.takeNotice src sect detail else s.portA
    portB := if toB then s.portB.takeNotice src sect detail else s.portB }

/-- A posting of a source other than SETUP CHANGED, with its detail (R188). -/
def State.post (s : State) (src : Source) (detail : Nat) : State :=
  s.postWith src 0 (word32 detail)

/-- A posting of a level source, asserted or released (R182, R188). -/
def State.postLevel (s : State) (src : Source) (asserted : Bool) : State :=
  s.post src asserted.toNat

end Sys2Proof.Machine
end

