-- ==== Sys2Proof/Machine/JournalOps.lean ====
section
/-! DEFINITION. The journal's own operations: its record store, filters and reclaim, offers, waits and tally mode
(R84 to R107). -/

namespace Sys2Proof.Machine

/-! ### Records and the record store -/

/-- A record's size in words: words 0 and 1 and the producer's (section 11.1). -/
def Rec.size (r : Rec) : Nat := 2 + r.body.length

/-- The words of a record (section 11.1): kind, length and channel flags; sequence number; the producer's words. -/
def Rec.words (r : Rec) : List Word32 :=
  word32 (r.kind.code + 2 ^ 8 * r.size + 2 ^ 16 * r.flags.toNat) :: r.seq :: r.body

/-- The bytes of a record, each word least significant byte first (section 11.1). -/
def Rec.bytes (r : Rec) : List Byte := (r.words.map wordBytes).flatten

/-- The words the records occupy. -/
def recWords (recs : List Rec) : Nat := (recs.map Rec.size).sum

/-- The fill (R84): the sum of the sizes of the records held. -/
def Journal.fill (j : Journal) : Nat := recWords j.recs

/-- The retain floor: the oldest record held, or the append point of an empty journal (chapter 5). -/
def Journal.floor (j : Journal) : SeqNo :=
  match j.recs with
  | [] => j.appendPoint
  | r :: _ => r.seq

/-- The records from a cursor to the append point: the cursor's place is its distance from the retain floor (R86). -/
def Journal.recsFrom (j : Journal) (cursor : SeqNo) : List Rec :=
  j.recs.drop (cursor - j.floor).toNat

/-- The three reserved kinds (section 5.1). -/
def RecKind.reserved : RecKind → Bool
  | .activity | .tally | .mark => true
  | .hit | .group | .load => false

/-- The fill that a record of this kind may bring the journal to (R85). -/
def RecKind.limit (k : RecKind) : Nat :=
  if k.reserved then Config.journalWords else Config.ordinaryLimit

/-! ### Filters and unread counts -/

/-- The port's filter lets the record through (R93): its kind bit, and for HIT and GROUP a channel flag in common. -/
def PortState.passes (q : PortState) (r : Rec) : Bool :=
  q.kindMask.getLsbD (r.kind.code - 1) &&
    match r.kind with
    | .hit | .group => q.chanMask &&& r.flags != 0
    | .load | .activity | .tally | .mark => true

/-- The unread count (R94): the passing records from the cursor to the append point; 0 at a detached port. -/
def State.unread (s : State) (p : Port) : Nat :=
  match (s.port p).cursor with
  | none => 0
  | some cur => (s.journal.recsFrom cur).countP (s.port p).passes

/-! ### Reclaim -/

/-- The records that lie before a port's cursor; none are told by a detached port. -/
def Journal.before (j : Journal) (q : PortState) : Option Nat :=
  q.cursor.map fun cur => (cur - j.floor).toNat

/-- The number of records that lie before every attached cursor; none when no port is attached (R89). -/
def State.reclaimable (s : State) : Nat :=
  match s.journal.before s.portA, s.journal.before s.portB with
  | some m, some n => min m n
  | some m, none => m
  | none, some n => n
  | none, none => 0

/-- Reclaim (R89): the records before every attached cursor are removed. -/
def State.reclaim (s : State) : State :=
  s.withJournal { s.journal with recs := s.journal.recs.drop s.reclaimable }

/-! ### Responses and waits -/

/-- The response to the request at the head of the queue is placed at the tail of the response queue, with the
request's tag and code, and the request is removed (R176). -/
def PortState.answer (q : PortState) (result : Result) (payload : List Byte) : PortState :=
  match q.requests with
  | [] => q
  | r :: rest => { q with requests := rest, responses := q.responses ++ [⟨r.tag, r.code, result, payload⟩] }

/-- An outstanding wait ends with a result and an unread count (R99, R100, R101): the JOURNAL WAIT at the head of the
queue is answered, and the port resumes. -/
def State.endWait (s : State) (p : Port) (result : Result) (count : Nat) : State :=
  s.updPort p fun q => { q.answer result (leBytes 2 count) with wait := none }

/-- The test of a port's wait after an admission (R99): a passing record that brings the unread count to N ends it. -/
def State.testWait (s : State) (p : Port) (r : Rec) : State :=
  match (s.port p).wait with
  | none => s
  | some w => if (s.port p).passes r && decide (w.n ≤ s.unread p) then s.endWait p .ok (s.unread p) else s

/-! ### Offers -/

/-- A record as a producer offers it (R85): its kind, its channel flags and its words from word 2 on. -/
structure Offer where
  kind : RecKind
  flags : Nat
  body : List Word32
deriving DecidableEq, Repr

/-- The size of an offered record in words. -/
def Offer.size (o : Offer) : Nat := 2 + o.body.length

/-- The journal admits the record if its class allows (R85). -/
def Journal.admits (j : Journal) (o : Offer) : Bool := decide (j.fill + o.size ≤ o.kind.limit)

/-- The record that an admission writes (R86): its sequence number is the append point. -/
def Journal.record (j : Journal) (o : Offer) : Rec := ⟨o.kind, BitVec.ofNat 16 o.flags, j.appendPoint, o.body⟩

/-- The journal with the record written at the append point (R85, R86). -/
def Journal.append (j : Journal) (o : Offer) : Journal :=
  { j with recs := j.recs ++ [j.record o], appendPoint := j.appendPoint + 1 }

/-- Admission of a record, with the ending of the waits that it satisfies (R87, R99), before a TALLY ON mark (DEDUCED,
log entry 15). -/
def State.writeRecord (s : State) (o : Offer) : State :=
  ((s.withJournal (s.journal.append o)).testWait .a (s.journal.record o)).testWait .b (s.journal.record o)

/-- One offer without the entry into tally mode: the record is admitted or the state is unchanged (R85). -/
def State.offerOnce (s : State) (o : Offer) : State :=
  if s.journal.admits o then s.writeRecord o else s

/-- A MARK record (section 11.1): the clock, then the mark kind in bits 0 to 7 of word 4 with the first part of the
detail above it, then the second part (R185). -/
def markOffer (clock : Tick) (kind first second : Nat) : Offer :=
  ⟨.mark, 0, clockWords clock 0 ++ [word32 (kind + 2 ^ 8 * first), word32 second]⟩

/-- Entry into tally mode (R102): the TALLY ON mark carries the fill after the record that caused it. The mark's clock
is the test clock (DEDUCED, log entry 7). -/
def State.enterTally (s : State) : State :=
  ((s.withJournal { s.journal with tallyMode := true, covered := 0 }).offerOnce
    (markOffer s.clock 4 0 s.journal.fill)).postLevel .tallyMode true

/-- An offer taken whole (R85, R87, R102): admission, the waits it ends, and the entry into tally mode when the fill
reaches 49,152 while tally mode is off. -/
def State.offer (s : State) (o : Offer) : State :=
  let s1 := s.offerOnce o
  if s.journal.admits o && !s1.journal.tallyMode && decide (Config.tallyEnterFill ≤ s1.journal.fill) then
    s1.enterTally
  else s1

/-- The sequence number the offer takes, when it is admitted (R86). -/
def State.offerSeq (s : State) (o : Offer) : Option SeqNo :=
  if s.journal.admits o then some s.journal.appendPoint else none

/-! ### Live tallies (R103 to R106) -/

/-- A hit added to the live tallies (R70, R75): 1 to the channel's hit count, its energy to the channel's energy sum. -/
def Journal.tallyHit (j : Journal) (c : ChanId) (energy : Nat) : Journal :=
  { j with
    liveHits := j.liveHits.set c (satAdd Config.max32 j.liveHits[c] 1)
    liveEnergy := j.liveEnergy.set c (satAdd Config.max32 j.liveEnergy[c] energy) }

/-- A group added to the live group count (R75). -/
def Journal.tallyGroup (j : Journal) : Journal :=
  { j with liveGroups := satAdd Config.max32 j.liveGroups 1 }

/-- The live tallies and the count of intervals covered set to 0 (R104). -/
def Journal.zeroTallies (j : Journal) : Journal :=
  { j with
    liveHits := Vector.replicate 16 0
    liveEnergy := Vector.replicate 16 0
    liveGroups := 0
    covered := 0 }

/-- The channels that have an entry in a TALLY record: those whose live hit count is not 0 (R104). -/
def Journal.tallied (j : Journal) (c : ChanId) : Bool := j.liveHits[c] != 0

/-- The TALLY record (R104, section 11.1). -/
def Journal.tallyOffer (j : Journal) (clock : Tick) : Offer :=
  ⟨.tally, channelMask j.tallied,
    clockWords clock j.covered ++ word32 j.liveGroups ::
      ((allChannels.filter j.tallied).map fun c => [word32 j.liveHits[c], word32 j.liveEnergy[c]]).flatten⟩

/-- A TALLY record offered; the live tallies are zeroed if it is admitted and keep their values if not (R104, R106). -/
def State.offerTally (s : State) : State :=
  let o := s.journal.tallyOffer s.clock
  let s1 := s.offer o
  if s.journal.admits o then s1.withJournal s1.journal.zeroTallies else s1

/-- The exit test of a rollup (R105): with a fill of 32,768 or less tally mode ends, the TALLY OFF mark carries the fill
at exit and the TALLY MODE notice is posted released. The mark's clock is the test clock (DEDUCED, log entry 7). -/
def State.tallyExit (s : State) : State :=
  if s.journal.fill ≤ Config.tallyExitFill then
    ((s.withJournal { s.journal with tallyMode := false }).offer
      (markOffer s.clock 5 0 s.journal.fill)).postLevel .tallyMode false
  else s

/-- The tally step of a rollup (R104, R105, R120): nothing when tally mode is off. -/
def State.tallyStep (s : State) : State :=
  if s.journal.tallyMode then
    (s.withJournal { s.journal with covered := satAdd Config.max16 s.journal.covered 1 }).offerTally.tallyExit
  else s

/-- The closing TALLY record (R106): the count of intervals covered is not raised and no exit test follows. -/
def State.closingTally (s : State) : State :=
  if s.journal.tallyMode then s.offerTally else s

end Sys2Proof.Machine
end

