-- ==== Sys2Proof/Machine/RuptureOps.lean ====
section
/-! DEFINITION. Run control's operations that a group emission or a tick may call: the rupture check, evidence,
its lapse, and the declaration (R141, R142, R144, R146, R147). -/

namespace Sys2Proof.Machine

/-- The run state changes to a new state and the RUN STATE notice is posted with it (R134). -/
def State.enterRunState (s : State) (x : RunState) : State :=
  (s.withRun { s.run with state := x }).post .runState x.code

/-- A declaration (R146): the flag and source, the evidence, the RUPTURE mark, the RUPTURE notice, FINAL with its notice,
and the post-window end (R147). With PW of 0 the post-window end is the declaration tick itself, so that the closing
event follows at the end of that tick's delivery, or within the request that declares (DEDUCED, log entry 13). -/
def State.declare (s : State) (src : RuptureSource) (group : Option SeqNo) : State :=
  let s1 := s.withRun { s.run with rupture := some src, evidence := none }
  let s2 := s1.offer (markOffer s1.clock 3 (src.code + 2 ^ 8 * group.isSome.toNat)
    (match group with | some g => g.toNat | none => 0))
  let s3 := (s2.post .rupture src.code).enterRunState .final
  s3.withRun { s3.run with postEnd := some (tickAfter s3.clock (blocks s3.setup.pw)) }

/-- Evidence is recorded (R142): its deadline, its group, and the RUPTURE EVIDENCE notice. -/
def State.recordEvidence (s : State) (saturated : Nat) (group : Option SeqNo) : State :=
  (s.withRun { s.run with evidence := some ⟨tickAfter s.clock (blocks s.setup.rw), group⟩ }).post .ruptureEvidence
    saturated

/-- The rupture check of an emission outside the closing event (R141): a saturated group in RUNNING declares, or is
evidence when the load check is on. -/
def State.ruptureCheck (s : State) (saturated : Nat) (group : Option SeqNo) : State :=
  if s.run.state = .running && (decide (1 ≤ s.setup.nr) && decide (s.setup.nr ≤ saturated)) then
    if s.setup.loadCheck then s.recordEvidence saturated group else s.declare .group group
  else s

/-- Evidence lapses at the tick of its deadline (R144). -/
def State.evidenceLapse (s : State) : State :=
  match s.run.evidence with
  | none => s
  | some e => if e.deadline = s.clock then s.withRun { s.run with evidence := none } else s

end Sys2Proof.Machine
end

