-- ==== Sys2Proof/Machine/GroupingOps.lean ====
section
/-! DEFINITION. The grouping engine: its five stages, the emission of a group and the flush (R59 to R80), with the
hand-over to the interval counters (R76, R113). -/

namespace Sys2Proof.Machine

/-! ### Interval counters (R113) -/

/-- A hit is high-amplitude when its code is at or above the working HA. The working parameters are held whenever a run
has been started, so the case without them does not arise in a run (DESIGN CHOICE, log entry 18). -/
def Rollup.isHigh (x : Rollup) (amp : Nat) : Bool :=
  match x.work with
  | some w => decide (w.ha ≤ amp)
  | none => false

/-- A hit handed to the interval counters (R113). -/
def Rollup.countHit (x : Rollup) (f : Features) : Rollup :=
  { x with
    counters :=
      { x.counters with
        hits := satAdd Config.max32 x.counters.hits 1
        energy := satAdd Config.max32 x.counters.energy f.energy
        high := satAdd Config.max32 x.counters.high (x.isHigh f.amp).toNat } }

/-- A group handed to the interval counters with its members' hits (R76, R113). -/
def Rollup.countGroup (x : Rollup) (locatable : Bool) (hits : List Features) : Rollup :=
  let x1 := hits.foldl Rollup.countHit x
  { x1 with
    counters :=
      { x1.counters with
        groups := satAdd Config.max32 x1.counters.groups 1
        locatable := satAdd Config.max32 x1.counters.locatable locatable.toNat } }

/-! ### Members and groups -/

/-- The group is complete: SETTLING with every member DONE (chapter 4). -/
def Group.complete (g : Group) : Bool :=
  !g.isOpen && g.members.all fun m => match m.st with | .done _ => true | .pending | .active => false

/-- The finished features of a member in DONE. -/
def Member.features? (m : Member) : Option Features :=
  match m.st with
  | .done f => some f
  | .pending | .active => none

/-- The groups with the members that meet a test changed. -/
def updMembers (test : Member → Bool) (f : Member → Member) (gs : List Group) : List Group :=
  gs.map fun g => { g with members := g.members.map fun m => if test m then f m else m }

/-- The engine with one channel's placement replaced. -/
def Grouping.place (x : Grouping) (c : ChanId) (pl : Placement) : Grouping :=
  { x with placement := x.placement.set c pl }

/-- A confirmation turns the channel's PENDING member ACTIVE (R61). -/
def Grouping.confirm (x : Grouping) (c : ChanId) : Grouping :=
  { x with groups := updMembers (fun m => m.ch = c && m.st = .pending) (fun m => { m with st := .active }) x.groups }

/-- A completion turns the channel's ACTIVE member DONE with its features (R61). -/
def Grouping.finish (x : Grouping) (c : ChanId) (f : Features) : Grouping :=
  { x with groups := updMembers (fun m => m.ch = c && m.st = .active) (fun m => { m with st := .done f }) x.groups }

/-- A withdrawal removes the channel's PENDING member, and a group left with no member is discarded (R62). -/
def Grouping.withdraw (x : Grouping) (c : ChanId) : Grouping :=
  { x with
    groups := (x.groups.map fun g =>
      { g with members := g.members.filter fun m => !(m.ch = c && m.st = .pending) }).filter fun g => !g.members.isEmpty }

/-! ### Records (section 11.1) -/

/-- The HIT record of a completed ungrouped hit (R78). -/
def hitOffer (c : ChanId) (why : Reason) (f : Features) : Offer :=
  ⟨.hit, 2 ^ c.val, arrivalWords f.arrival ++
    [ word32 (c.val + 2 ^ 8 * f.amp + 2 ^ 24 * why.code)
    , word32 (f.counts + 2 ^ 16 * f.rise)
    , word32 f.duration
    , word32 f.energy
    , word32 f.load
    , word32 f.marks.bits ]⟩

/-- A member as it is emitted: its channel, arrival and features. -/
structure Emitted where
  ch : ChanId
  arrival : SubTick
  f : Features
deriving DecidableEq, Repr

/-- The members of a group in the order of R72: by (arrival − A_open) mod 2^52, and by channel among equal values. -/
def Group.emitted (g : Group) : List Emitted :=
  sortByKey (fun e => 16 * (e.arrival - g.aOpen).toNat + e.ch.val)
    (g.members.filterMap fun m => m.features?.map fun f => ⟨m.ch, m.arrival, f⟩)

/-- The five words of a member entry (section 11.1), with its delta from the first arrival (R72). -/
def Emitted.entry (first : SubTick) (e : Emitted) : List Word32 :=
  [ word32 (e.ch.val + 2 ^ 8 * e.f.amp + 2 ^ 24 * e.f.marks.bits)
  , word32 (e.arrival - first).toNat
  , word32 e.f.duration
  , word32 e.f.energy
  , word32 (e.f.counts + 2 ^ 16 * e.f.rise) ]

/-- The saturated member count: the members whose hits carry SAT (R73). -/
def saturatedCount (es : List Emitted) : Nat := es.countP fun e => e.f.marks.sat

/-- The GROUP record (R74): the group's load stamp is the first member's (R72). -/
def groupOffer (locatable : Bool) (es : List Emitted) : Offer :=
  let first := match es with | e :: _ => e.arrival | [] => 0
  let load := match es with | e :: _ => e.f.load | [] => 0
  let stale := match es with | e :: _ => e.f.marks.loadStale | [] => false
  ⟨.group, channelMask fun c => es.any fun e => e.ch = c, arrivalWords first ++
    [ word32 (es.length + 2 ^ 8 * locatable.toNat + 2 ^ 16 * saturatedCount es)
    , word32 (load + 2 ^ 24 * stale.toNat) ] ++ (es.map (Emitted.entry first)).flatten⟩

/-! ### First stage: confirmations, withdrawals and completions (R61, R62, R70) -/

/-- A completed ungrouped hit (R70): a HIT record, or the live tallies in tally mode; the interval counters in either. -/
def State.ungroupedHit (s : State) (c : ChanId) (why : Reason) (f : Features) : State :=
  let s1 := if s.journal.tallyMode then s.withJournal (s.journal.tallyHit c f.energy) else s.offer (hitOffer c why f)
  s1.withRollup (s1.rollup.countHit f)

/-- A report of the first stage; a start is left to the second (R60). -/
def State.takeReport (s : State) (r : Report) : State :=
  match r with
  | .started _ _ _ _ => s
  | .confirmed c =>
    match s.grouping.placement[c] with
    | .grouped => s.withGrouping (s.grouping.confirm c)
    | .none | .ungrouped _ => s
  | .withdrawn c _ =>
    match s.grouping.placement[c] with
    | .grouped => s.withGrouping ((s.grouping.withdraw c).place c .none)
    | .ungrouped _ => s.withGrouping (s.grouping.place c .none)
    | .none => s
  | .completed c f =>
    match s.grouping.placement[c] with
    | .grouped => s.withGrouping ((s.grouping.finish c f).place c .none)
    | .ungrouped why => (s.ungroupedHit c why f).withGrouping (s.grouping.place c .none)
    | .none => s

/-- The reports of a tick or of the closing actions, in channel order (R60, R79). -/
def State.takeReports (s : State) (rs : List Report) : State := rs.foldl State.takeReport s

/-! ### Second stage: joining the OPEN group (R63, R64) -/

/-- A candidate start as the engine takes it (R63). -/
structure Start where
  ch : ChanId
  arrival : SubTick
  tick : Tick
  confirmed : Bool
deriving DecidableEq, Repr

/-- The start that a report carries. -/
def Report.start? : Report → Option Start
  | .started c arrival tick atOnce => some ⟨c, arrival, tick, atOnce⟩
  | .confirmed _ | .withdrawn _ _ | .completed _ _ => none

/-- The starts of tick k in order of arrival fraction, and of channel among equal fractions (R63). -/
def startsOf (k : Tick) (rs : List Report) : List Start :=
  sortByKey (fun x => 16 * (x.arrival - arrivalAt k 0).toNat + x.ch.val) (rs.filterMap Report.start?)

/-- The OPEN group of the list. -/
def Grouping.openGroup (x : Grouping) : Option Group := x.groups.find? fun g => g.isOpen

/-- An arrival or a tick's end is at or after a limit, by distance modulo 2^52 (R64, R65). -/
def atOrAfter (a limit : SubTick) : Bool := decide ((a - limit).toNat < 2 ^ 51)

/-- The member that a start becomes (R64, R68). -/
def Start.member (x : Start) : Member := ⟨x.ch, x.arrival, if x.confirmed then .active else .pending⟩

/-- The start joins the OPEN group at the end of its member list (R64). -/
def Grouping.join (x : Grouping) (st : Start) : Grouping :=
  let placed := x.place st.ch .grouped
  { placed with
    groups := x.groups.map fun g => if g.isOpen then { g with members := g.members ++ [st.member] } else g }

/-- The outcome of the second stage for one start (R64). -/
inductive JoinOutcome where
  | notPlaced
  | repeated
  | joins
deriving DecidableEq, Repr

/-- A start tested against the OPEN group (R64). -/
def Grouping.joinTest (x : Grouping) (st : Start) : JoinOutcome :=
  match x.openGroup with
  | none => .notPlaced
  | some g =>
    if atOrAfter g.limit st.arrival then
      if g.members.any fun m => m.ch = st.ch then .repeated else .joins
    else .notPlaced

/-- The second stage for one start, with the starts it has not placed so far (R64). -/
def joinStart (acc : Grouping × List Start) (st : Start) : Grouping × List Start :=
  match acc.1.joinTest st with
  | .notPlaced => (acc.1, acc.2 ++ [st])
  | .repeated => (acc.1.place st.ch (.ungrouped .repeated), acc.2)
  | .joins => (acc.1.join st, acc.2)

/-- The second stage (R60): the starts not placed go to the opening point. -/
def Grouping.joinStage (x : Grouping) (starts : List Start) : Grouping × List Start :=
  starts.foldl joinStart (x, [])

/-! ### Third stage: window close (R65) -/

/-- The end of tick k in sub-ticks: 16 × k, modulo 2^52 (R65). -/
def tickEnd (k : Tick) : SubTick := BitVec.ofNat 52 (16 * k.toNat)

/-- The window close test at tick k (R65): the OPEN group becomes SETTLING, and with a GL of 1 or more the group lockout
starts. A group opened at this tick is first tested at the next. -/
def Grouping.windowClose (x : Grouping) (k : Tick) : Grouping :=
  match x.openGroup with
  | none => x
  | some g =>
    if g.opened ≠ k && atOrAfter (tickEnd k) g.limit then
      { x with
        groups := x.groups.map fun g => { g with isOpen := false }
        lockout := if 1 ≤ g.gl then some (tickAfter k g.gl) else x.lockout }
    else x

/-! ### Fourth stage: emission (R71 to R77) -/

/-- The hand-over of an emitted group to the live tallies (R75). -/
def Journal.tallyEmission (j : Journal) (es : List Emitted) : Journal :=
  (es.foldl (fun j e => j.tallyHit e.ch e.f.energy) j).tallyGroup

/-- The emission of a complete group (R72 to R77): a GROUP record or the live tallies, the interval counters, and the
rupture check, which is not made within the closing event (R138). -/
def State.emit (s : State) (closing : Bool) (g : Group) : State :=
  let es := g.emitted
  let locatable := decide (g.lmin ≤ es.length)
  let o := groupOffer locatable es
  let s1 := if s.journal.tallyMode then s.withJournal (s.journal.tallyEmission es) else s.offer o
  let seq := if s.journal.tallyMode then none else s.offerSeq o
  let s2 := s1.withRollup (s1.rollup.countGroup locatable (es.map Emitted.f))
  if closing then s2 else s2.ruptureCheck (saturatedCount es) seq

/-- Emission from the head of a list until a group that is not complete (R71). -/
def emitFrom (closing : Bool) : List Group → State → State
  | [], s => s
  | g :: gs, s =>
    if g.complete then emitFrom closing gs ((s.emit closing g).withGrouping { s.grouping with groups := gs })
    else s

/-- The fourth stage (R71). -/
def State.emitStage (s : State) (closing : Bool) : State := emitFrom closing s.grouping.groups s

/-! ### Fifth stage: the opening point and the lockout's end (R66 to R68) -/

/-- A new group at the tail of the list (R68). -/
def Grouping.openWith (x : Grouping) (st : Start) (w : GrParams) : Grouping :=
  let placed := x.place st.ch .grouped
  { placed with
    groups := x.groups ++
      [⟨true, st.tick, st.arrival, st.arrival + BitVec.ofNat 52 (16 * w.w), w.gl, w.lmin, [st.member]⟩] }

/-- A start at the opening point (R67): the GR section is taken up, and the first condition that holds decides. -/
def Grouping.openingPoint (gr : GrParams) (x : Grouping) (st : Start) : Grouping :=
  let x := { x with work := some gr }
  if x.openGroup.isSome then x.join st
  else if !gr.enable then x.place st.ch (.ungrouped .disabled)
  else if x.lockout.isSome then x.place st.ch (.ungrouped .lockout)
  else if x.groups.length < Config.maxGroups then x.openWith st gr
  else x.place st.ch (.ungrouped .full)

/-- The group lockout ends at the tick of its end (R66). -/
def Grouping.lockoutEnd (x : Grouping) (k : Tick) : Grouping :=
  if x.lockout = some k then { x with lockout := none } else x

/-- The fifth stage (R60). -/
def Grouping.openStage (x : Grouping) (k : Tick) (gr : GrParams) (starts : List Start) : Grouping :=
  (starts.foldl (Grouping.openingPoint gr) x).lockoutEnd k

/-! ### The engine's handling of a tick and its flush -/

/-- The five stages of a tick in order (R60). -/
def State.groupingStages (s : State) (rs : List Report) : State :=
  let k := s.clock
  let s1 := s.takeReports rs
  let joined := s1.grouping.joinStage (startsOf k rs)
  let s2 := s1.withGrouping (joined.1.windowClose k)
  let s3 := s2.emitStage false
  s3.withGrouping (s3.grouping.openStage k s3.setup.grouping joined.2)

/-- The flush within the closing event (R80): every group becomes SETTLING, the lockout ends, all are emitted in order. -/
def State.flush (s : State) : State :=
  (s.withGrouping
    { s.grouping with
      groups := s.grouping.groups.map fun g => { g with isOpen := false }
      lockout := none }).emitStage true

end Sys2Proof.Machine
end

