-- ==== Sys2Proof/Machine/ClosingOps.lean ====
section
/-! DEFINITION. The closing event (R37, R79, R80, R106, R130, R138), and a declaration made within a request, which may
close the run (R143, R145, R147). -/

namespace Sys2Proof.Machine

/-- The cause that a RUN CLOSED mark carries (R138, R185). -/
inductive Cause where
  | runStop (p : Port)
  | postWindow
deriving DecidableEq, Repr

/-- The codes of the causes (R185). -/
def Cause.code : Cause → Nat
  | .runStop .a => 1
  | .runStop .b => 2
  | .postWindow => 3

/-- Every channel's closing action (R37). -/
def State.closeChannels (s : State) : Vector (Channel × Option Report) 16 :=
  perChannel fun c => (s.chan c).close c

/-- The reports of a handling of all sixteen channels, in channel order. -/
def reportsOf (r : Vector (Channel × Option Report) 16) : List Report := allChannels.filterMap fun c => r[c].2

/-- The channels after a handling of all sixteen. -/
def channelsOf (r : Vector (Channel × Option Report) 16) : Vector Channel 16 := perChannel fun c => r[c].1

/-- The release of the auto hold at closing (R130). -/
def State.releaseHold (s : State) : State :=
  let s1 := s.withRollup { s.rollup with autoHold := false, met := 0, unmet := 0 }
  if s.rollup.autoHold then s1.postLevel .autoHold false else s1

/-- Evidence and the post-window end discarded (R138, step 8). -/
def State.discardPlans (s : State) : State := s.withRun { s.run with evidence := none, postEnd := none }

/-- The closing event in its eight steps (R138). -/
def State.close (s : State) (cause : Cause) : State :=
  let r := s.closeChannels
  let s1 := ((s.withChannels (channelsOf r)).takeReports (reportsOf r)).flush.closingTally
  let s2 := s1.offer (markOffer s1.clock 2 cause.code 0)
  ((s2.enterRunState .closed).releaseHold).discardPlans

/-- A declaration made within the execution of a request (R147): with PW of 0 the closing event follows it there. -/
def State.declareNow (s : State) (src : RuptureSource) (group : Option SeqNo) : State :=
  let s1 := s.declare src group
  if s1.setup.pw = 0 then s1.close .postWindow else s1

/-- The drop level: floor(Pmax × DF / 256) (R143). -/
def State.dropLevel (s : State) : Nat := s.rollup.pmax * s.setup.df / 256

/-- The load-drop check (R143): with evidence held in RUNNING, a value at or below the drop level declares. -/
def State.loadDropCheck (s : State) (value : Nat) : State :=
  match s.run.evidence with
  | none => s
  | some e => if s.run.state = .running && decide (value ≤ s.dropLevel) then s.declareNow .groupLoad e.group else s

/-- The closing event at the post-window end tick (R138, R147). -/
def State.postWindowEnd (s : State) : State :=
  if s.runActive && s.run.postEnd == some s.clock then s.close .postWindow else s

end Sys2Proof.Machine
end

