-- ==== Sys2Proof/Machine/RollupOps.lean ====
section
/-! DEFINITION. The rollup unit: the six steps of a rollup, the stale watch and the posting of a load (R111 to R126). -/

namespace Sys2Proof.Machine

/-! ### The rollup -/

/-- The rollup of this tick is due (R112). -/
def State.rollupDue (s : State) : Bool := s.runActive && s.rollup.nextBoundary == some s.clock

/-- LG is reached (R115). -/
def reachedLg (w : AcParams) (x : Counters) : Bool := decide (w.lg ≠ 0) && decide (w.lg ≤ x.groups)

/-- LE is reached (R115). -/
def reachedLe (w : AcParams) (x : Counters) : Bool := decide (w.le ≠ 0) && decide (w.le ≤ x.energy)

/-- LH is reached (R115). -/
def reachedLh (w : AcParams) (x : Counters) : Bool := decide (w.lh ≠ 0) && decide (w.lh ≤ x.high)

/-- The criterion is met: at least one limit is reached (R115). -/
def criterionMet (w : AcParams) (x : Counters) : Bool := reachedLg w x || reachedLe w x || reachedLh w x

/-- The criteria mask: bit 0 LG, bit 1 LE, bit 2 LH (R115, section 11.1). -/
def criteriaMask (w : AcParams) (x : Counters) : Nat :=
  (reachedLg w x).toNat + 2 * (reachedLe w x).toNat + 4 * (reachedLh w x).toNat

/-- Take-up of the AC section at a rollup or at RUN START (R111, R114). -/
def State.takeUpActivity (s : State) : State := s.withRollup { s.rollup with work := some s.setup.activity }

/-- The hysteresis table (R116). -/
def Rollup.hysteresis (x : Rollup) (w : AcParams) (met : Bool) : Rollup :=
  if x.autoHold then
    if met then { x with unmet := 0 }
    else if w.r ≤ x.unmet + 1 then { x with autoHold := false, unmet := 0 }
    else { x with unmet := x.unmet + 1 }
  else if met then
    if w.k ≤ x.met + 1 then { x with autoHold := true, met := 0 } else { x with met := x.met + 1 }
  else { x with met := 0 }

/-- The hysteresis step: a change of the auto hold posts its notice (R116, R117). -/
def State.hysteresis (s : State) (w : AcParams) (met : Bool) : State :=
  let s1 := s.withRollup (s.rollup.hysteresis w met)
  if s1.rollup.autoHold = s.rollup.autoHold then s1 else s1.postLevel .autoHold s1.rollup.autoHold

/-- The resumption ratio, when the four conditions of R118 hold. -/
def Rollup.ratio (x : Rollup) (met : Bool) : Option Nat :=
  match x.load with
  | none => none
  | some l => if x.armed && met && decide (l.value < x.pmax) then some (1000 * l.value / x.pmax) else none

/-- The resumption step (R118): a measured ratio disarms the unit and posts the RESUMPTION notice. -/
def State.resumption (s : State) (ratio : Option Nat) : State :=
  match ratio with
  | none => s
  | some q => (s.withRollup { s.rollup with armed := false }).post .resumption q

/-- The ACTIVITY record (R119, section 11.1). -/
def Rollup.activityOffer (x : Rollup) (clock : Tick) (mask : Nat) (ratio : Option Nat) : Offer :=
  ⟨.activity, 0, clockWords clock x.sinceActivity ++
    [ x.index
    , word32 x.counters.groups
    , word32 x.counters.locatable
    , word32 x.counters.hits
    , word32 x.counters.energy
    , word32 x.counters.high
    , word32 ((match x.load with | some l => l.value | none => 0) + 2 ^ 24 * (x.stale || x.load.isNone).toNat)
    , word32 x.pmax
    , word32 ((match ratio with | some q => q | none => 0) + 2 ^ 10 * ratio.isSome.toNat + 2 ^ 11 * mask
        + 2 ^ 14 * x.autoHold.toNat) ]⟩

/-- The ACTIVITY record step (R119): the count of intervals rises, and an admitted record sets it to 0. -/
def State.activityStep (s : State) (mask : Nat) (ratio : Option Nat) : State :=
  let s1 := s.withRollup { s.rollup with sinceActivity := satAdd Config.max16 s.rollup.sinceActivity 1 }
  let o := s1.rollup.activityOffer s1.clock mask ratio
  let s2 := s1.offer o
  if s1.journal.admits o then s2.withRollup { s2.rollup with sinceActivity := 0 } else s2

/-- The reset and advance step (R121). -/
def State.advanceInterval (s : State) (boundary : Tick) (i : Nat) : State :=
  s.withRollup
    { s.rollup with
      counters := Counters.zero
      index := s.rollup.index + 1
      nextBoundary := some (tickAfter boundary (blocks i)) }

/-- The six steps of a rollup at the tick being delivered (R114 to R121). -/
def State.rollupSteps (s : State) : State :=
  let w := s.setup.activity
  let met := criterionMet w s.rollup.counters
  let mask := criteriaMask w s.rollup.counters
  let held := s.takeUpActivity.hysteresis w met
  let ratio := held.rollup.ratio met
  ((((held.resumption ratio).activityStep mask ratio).tallyStep).advanceInterval s.clock w.i)

/-- The rollup of a tick, when it is due (R112). -/
def State.rollupAtTick (s : State) : State := if s.rollupDue then s.rollupSteps else s

/-- The first interval of a run (R111). -/
def State.firstInterval (s : State) (start : Tick) : State :=
  let s1 := s.takeUpActivity
  s1.withRollup
    { s1.rollup with
      counters := Counters.zero
      index := 1
      sinceActivity := 0
      met := 0
      unmet := 0
      armed := false
      nextBoundary := some (tickAfter start (blocks s.setup.activity.i)) }

/-! ### Load (R122 to R126) -/

/-- The load stamp of a candidate started at this tick (R25, R54). -/
def Rollup.stamp (x : Rollup) : LoadStamp where
  value := match x.load with | some l => l.value | none => 0
  stale := x.stale || x.load.isNone

/-- The reference tick of the stale watch (R125): the latest load's, else the start tick of the run. -/
def State.staleReference (s : State) : Option Tick :=
  match s.rollup.load with
  | some l => some l.tick
  | none => s.run.startTick

/-- The stale check of a tick (R125). -/
def State.staleCheck (s : State) : State :=
  match s.staleReference with
  | none => s
  | some r =>
    if !s.rollup.stale && decide (blocks s.setup.ls ≤ ticksSince s.clock r) then
      (s.withRollup { s.rollup with stale := true }).postLevel .loadStale true
    else s

/-- The latest load set and the stale flag cleared, with its notice when it was set (R123). -/
def State.setLoad (s : State) (value : Nat) : State :=
  let s1 := s.withRollup { s.rollup with load := some ⟨value, s.clock⟩, stale := false }
  if s.rollup.stale then s1.postLevel .loadStale false else s1

/-- A value above Pmax raises it and arms the resumption measurement (R124). -/
def Rollup.raisePmax (x : Rollup) (value : Nat) : Rollup :=
  if x.pmax < value then { x with pmax := value, armed := true } else x

/-- The LOAD record (R124, section 11.1). -/
def loadOffer (clock : Tick) (value : Nat) (p : Port) : Offer :=
  ⟨.load, 0, clockWords clock 0 ++ [word32 (value + 2 ^ 24 * portNumber p)]⟩

/-- The post of a value taken (R123, R124): in an active run Pmax, the LOAD record and the load-drop check follow. -/
def State.postLoad (s : State) (p : Port) (value : Nat) : State :=
  let s1 := s.setLoad value
  if s1.runActive then
    let s2 := s1.withRollup (s1.rollup.raisePmax value)
    let s3 := if s2.journal.tallyMode then s2 else s2.offer (loadOffer s2.clock value p)
    s3.loadDropCheck value
  else s1

end Sys2Proof.Machine
end

