-- ==== Sys2Proof/Machine/StatusOps.lean ====
section
/-! DEFINITION. The preamplifier status line: the phases of a cycle, its starts, its end and its abort (R164 to R170). -/

namespace Sys2Proof.Machine

/-- The unit with its cycle given up or completed: IDLE with no pending reports. -/
def Status.toIdle (x : Status) : Status := { x with cycle := .idle, reports := Vector.replicate 16 none }

/-- The part begins a cycle of its own at this tick (R165): from IDLE, in continuous line mode or with continuous status
mode set up, once the status period has run or when no reference is held. -/
def State.cycleDue (s : State) : Bool :=
  s.status.cycle == .idle &&
    (s.status.lineMode == .continuous || s.setup.statusMode == .continuous) &&
      match s.status.refTick with
      | none => true
      | some r => decide (blocks s.setup.statusPeriod ≤ ticksSince s.clock r)

/-- The part's own start (R165): START with all four clocks to drive. -/
def State.startCycle (s : State) : State :=
  if s.cycleDue then s.withStatus { s.status with cycle := .start 0 } else s

/-- A node's start (R165): a low sampled in quiet line mode from IDLE is the first clock of the start frame, and so is a
low at the clock at which the part's own start falls. -/
def State.nodeStart (s : State) : State :=
  if s.status.lineMode = .quiet && (s.status.cycle == .idle || s.status.cycle == .start 0) then
    s.withStatus { s.status with cycle := .start 1 }
  else s

/-- The report of a channel counted at the end of a completed cycle (R169): the changed fault state and debounce count,
and whether the fault state changed. -/
def debounce (off : Bool) (report fault : Bool) (count : Nat) : Bool × Nat × Bool :=
  if off then (fault, 0, false)
  else if report = fault then (fault, 0, false)
  else if 2 ≤ count + 1 then (report, 0, true)
  else (fault, count + 1, false)

/-- A change of a fault state delivered (R170): to the channel unit, to the journal as a CHANNEL FAULT mark, and as a
notice, both with the fault mask after the change. -/
def State.deliverFault (s : State) (c : ChanId) (faulted : Bool) : State :=
  let s1 := s.withChan c { s.chan c with reportedFault := faulted }
  (s1.offer (markOffer s1.clock 8 (c.val + 2 ^ 8 * faulted.toNat) s1.status.faultMask)).post .channelFault
    s1.status.faultMask

/-- One channel at the end of a completed cycle (R169, R170). A report not sampled, which no completed cycle has, reads
healthy. -/
def State.debounceChannel (s : State) (c : ChanId) : State :=
  let r := debounce ((s.chan c).st == .off) (s.status.reports[c] == some true) s.status.faults[c] s.status.debounce[c]
  let s1 := s.withStatus
    { s.status with
      faults := s.status.faults.set c r.1
      debounce := s.status.debounce.set c r.2.1 }
  if r.2.2 then s1.deliverFault c r.1 else s1

/-- The aborted count cleared at a completed cycle, and line-down with its notice (R168). -/
def State.lineUp (s : State) : State :=
  let s1 := s.withStatus { s.status with aborted := 0, lineDown := false }
  if s.status.lineDown then s1.postLevel .lineDown false else s1

/-- The end of a completed cycle (R164, R166, R168 to R170). -/
def State.completeCycle (s : State) (announced : LineMode) : State :=
  let s1 := (allChannels.foldl State.debounceChannel s).lineUp
  s1.withStatus { s1.status.toIdle with refTick := some s1.clock, lineMode := announced }

/-- The width of a stop frame in status clocks (R166). -/
def LineMode.stopWidth : LineMode → Nat
  | .quiet => 2
  | .continuous => 3

/-- The mode a stop frame announces: chosen at its first clock from the setup table and held from then on (R166). -/
def State.announces (s : State) (held : Option LineMode) : LineMode :=
  match held with
  | some m => m
  | none => s.setup.statusMode

/-- The last clock of the stop frame has come (R164). -/
def State.stopEnds (s : State) (spent : Nat) (held : Option LineMode) : Bool :=
  decide ((s.announces held).stopWidth ≤ spent + 1)

/-- An aborted cycle (R167), and line-down at the third in a row (R168). -/
def State.abortCycle (s : State) : State :=
  let count := satAdd 255 s.status.aborted 1
  let s1 := s.withStatus { s.status.toIdle with aborted := count, refTick := some s.clock }
  if count = 3 && !s.status.lineDown then
    (s1.withStatus { s1.status with lineDown := true }).postLevel .lineDown true
  else s1

/-- The status clock of a START frame (R164). -/
def CycleState.afterStart (spent : Nat) : CycleState :=
  if 4 ≤ spent + 1 then .slot 0 .drive else .start (spent + 1)

/-- Where a slot's RELEASE phase goes on to when it samples high (R164). -/
def CycleState.afterSlot (c : ChanId) : CycleState :=
  if h : c.val + 1 < 16 then .slot ⟨c.val + 1, h⟩ .drive else .stop 0 none

/-- One status clock with the level the part samples (R164 to R167). -/
def State.statusTick (s : State) (level : LineLevel) : State :=
  match s.status.cycle with
  | .idle => if level = .low then s.nodeStart else s
  | .start spent => s.withStatus { s.status with cycle := CycleState.afterStart spent }
  | .slot c .drive =>
    s.withStatus
      { s.status with cycle := .slot c .restore, reports := s.status.reports.set c (some (level == .low)) }
  | .slot c .restore => s.withStatus { s.status with cycle := .slot c .release }
  | .slot c .release =>
    match level with
    | .low => s.abortCycle
    | .high => s.withStatus { s.status with cycle := CycleState.afterSlot c }
  | .stop spent held =>
    if s.stopEnds spent held then s.completeCycle (s.announces held)
    else s.withStatus { s.status with cycle := .stop (spent + 1) (some (s.announces held)) }

end Sys2Proof.Machine
end

