-- ==== Sys2Proof/Machine/IntakeOps.lean ====
section
/-! DEFINITION. The frame intake and the delivery of a tick to every block (R1 to R15). -/

namespace Sys2Proof.Machine

/-! ### Samples (R8) -/

/-- A channel's sample at a tick: its magnitude, its saturated flag and the gap mark (R9). -/
structure Sample where
  m : Nat
  sat : Bool
  gap : Bool
deriving DecidableEq, Repr

/-- The magnitude of a sample: its absolute value, limited to 32,767 (R8). -/
def magnitude (w : Word16) : Nat := min Config.maxMagnitude w.toInt.natAbs

/-- The converter sat at either end of its range (R8). -/
def saturated (w : Word16) : Bool := w == 0x7FFF || w == 0x8000

/-- A channel's sample in a received frame: word c + 1 (R1, R8). -/
def receivedSample (words : List Word16) (gap : Bool) (c : ChanId) : Sample :=
  let w := words.getD (c.val + 1) 0
  ⟨magnitude w, saturated w, gap⟩

/-- A channel's sample in a synthetic frame (R5). -/
def syntheticSample (_c : ChanId) : Sample := ⟨0, false, true⟩

/-! ### The delivery of a tick -/

/-- The wrap of the test clock (R12): the clock becomes 0, and the CLOCK WRAP mark and notice are made. -/
def State.wrapClock (s : State) : State :=
  let s1 := s.withIntake { s.intake with clock := 0 }
  (s1.offer (markOffer 0 7 0 0)).post .clockWrap 0

/-- The clock stands at its last value, 2^48 − 1 (R12). -/
def State.atLastTick (s : State) : Bool := s.clock == BitVec.allOnes 48

/-- The advance of the test clock by one tick (R10, R12). -/
def State.advanceClock (s : State) : State :=
  if s.atLastTick then s.wrapClock else s.withIntake { s.intake with clock := s.clock + 1 }

/-- The items handed to a channel at a tick (R9). -/
def State.handed (s : State) (xs : ChanId → Sample) (c : ChanId) : Handed :=
  ⟨(xs c).m, s.intake.prev[c], (xs c).sat, (xs c).gap⟩

/-- Every channel's handling of the tick (R16). -/
def State.tickChannels (s : State) (xs : ChanId → Sample) : Vector (Channel × Option Report) 16 :=
  perChannel fun c =>
    (s.chan c).tick c s.clock (s.setup.entry c) s.runActive s.rollup.stamp (s.handed xs c)

/-- The previous magnitudes replaced after the items have been handed over (R9). -/
def Intake.handOver (x : Intake) (xs : ChanId → Sample) : Intake := { x with prev := perChannel fun c => (xs c).m }

/-- The channels' part in a tick and the grouping engine's (R16, R60). -/
def State.detect (s : State) (xs : ChanId → Sample) : State :=
  let r := s.tickChannels xs
  ((s.withChannels (channelsOf r)).withIntake (s.intake.handOver xs)).groupingStages (reportsOf r)

/-- The timeout test of a port's wait at a tick (R100). -/
def State.waitTimeout (s : State) (p : Port) : State :=
  match (s.port p).wait with
  | none => s
  | some w => if w.deadline = s.clock then s.endWait p .timeout (s.unread p) else s

/-- What every block does before the tick's items are handed to the channels: the clock with its wrap, the start of a
status cycle, the stale check, the lapse of evidence (R10, R12, R125, R144, R165; their order: DESIGN CHOICE, log entry 6). -/
def State.beforeChannels (s : State) : State := s.advanceClock.startCycle.staleCheck.evidenceLapse

/-- What every block does after the grouping engine has handled the tick: the rollup, the closing event, the timeouts
(R100, R112, R138). -/
def State.afterGrouping (s : State) : State :=
  ((s.rollupAtTick.postWindowEnd).waitTimeout .a).waitTimeout .b

/-- The delivery of a tick to every block (R7, R10, R15). -/
def State.deliverTick (s : State) (xs : ChanId → Sample) : State :=
  (s.beforeChannels.detect xs).afterGrouping

/-! ### Frames (R1 to R7) -/

/-- The sum of a frame's words as unsigned values, modulo 65,536 (R2). -/
def checkSum (words : List Word16) : Nat := (words.map BitVec.toNat).sum % 65536

/-- The frame number: the low 8 bits of word 0 (chapter 1). -/
def frameNumber (words : List Word16) : BitVec 8 := (words.getD 0 0).setWidth 8

/-- The sequence numbers after a frame of this number has been accepted (R3, R4). -/
def State.accepted (s : State) (n : BitVec 8) : State := s.withIntake { s.intake with seq := some ⟨n, n + 1⟩ }

/-- `d` synthetic ticks (R5). -/
def State.synthetic : Nat → State → State
  | 0, s => s
  | d + 1, s => State.synthetic d (s.deliverTick syntheticSample)

/-- The FRAME GAP mark and notice (R6). The mark's clock is the tick of the received frame, which is yet to be
processed (its place before that tick: DEDUCED, log entry 11). -/
def State.markGap (s : State) (d : Nat) : State :=
  (s.offer (markOffer (s.clock + 1) 6 0 d)).post .frameGap d

/-- A gap of `d` ticks before the received frame (R5, R6). -/
def State.gapFrame (s : State) (d : Nat) (words : List Word16) : State :=
  ((State.synthetic d s).markGap d).deliverTick (receivedSample words true)

/-- The evaluation of a collected frame (R2 to R5). -/
def State.evaluate (s : State) (words : List Word16) : State :=
  let n := frameNumber words
  if checkSum words ≠ 0 then s
  else
    match s.intake.seq with
    | none => (s.deliverTick (receivedSample words false)).accepted n
    | some q =>
      if n = q.last then s
      else if n = q.expected then (s.deliverTick (receivedSample words false)).accepted n
      else (s.gapFrame (n - q.expected).toNat words).accepted n

/-- The words that follow one assertion of SFSY, taken in (R1; the form of the operand: DESIGN CHOICE, log entry 4). The
assertion discards a frame in progress and its own marked word is word 0; with eighteen words the frame is evaluated, and words
after word 17 are ignored; with fewer it stays in collection. No word, no assertion. -/
def State.frame (s : State) (words : List Word16) : State :=
  if words.isEmpty then s
  else if words.length < Config.frameWords then s.withIntake { s.intake with collecting := words }
  else (s.withIntake { s.intake with collecting := [] }).evaluate (words.take Config.frameWords)

end Sys2Proof.Machine
end

