-- ==== Sys2Proof/Machine/Execution.lean ====
section
/-! DEFINITION. The exchanges of a port and the execution of its requests (R172 to R178), shared by every request. -/

namespace Sys2Proof.Machine

/-- What a command answers. -/
abbrev Answer := Host.Outcome State Fault Refusal

/-! ### The outgoing side of an exchange (R172, R186) -/

/-- The bytes of a response frame (R186): port status byte, tag, code, result, payload length, payload. -/
def Response.frame (r : Response) (status : Byte) : List Byte :=
  [status, r.tag, r.code, BitVec.ofNat 8 r.result.code] ++ leBytes 2 r.payload.length ++ r.payload

/-- The EMPTY frame's response: tag 0, code 0, result EMPTY and no payload (R172). -/
def Response.none : Response := ⟨0, 0, .empty, []⟩

/-- The frame chosen at the falling of select (R172). -/
def PortState.outgoing (q : PortState) : Exchange :=
  match q.responses with
  | [] => ⟨false, Response.none.frame q.statusByte⟩
  | r :: _ => ⟨true, r.frame q.statusByte⟩

/-- The falling of select (R172); within an exchange select is low and cannot fall. -/
def PortState.startExchange (q : PortState) : PortState :=
  match q.exchange with
  | some _ => q
  | none => { q with exchange := some q.outgoing }

/-- The byte that an exchange shifts out at a place (R172): the outgoing frame's, and 0 once it has been shifted out in
full. -/
def Exchange.byteOut (x : Exchange) (i : Nat) : Byte := x.out.getD i 0

/-- The bytes shifted out in an exchange of `n` complete bytes (R172). -/
def Exchange.shiftedOut (x : Exchange) (n : Nat) : List Byte := (List.range n).map x.byteOut

/-- The byte that the port's data output carries at a place of the exchange; none while select is high, when the output is
undriven (R172, R186). -/
def PortState.dataOut (q : PortState) (i : Nat) : Option Byte := q.exchange.map fun x => x.byteOut i

/-! ### The incoming side of an exchange (R173, R174, R178) -/

/-- What the bytes shifted in amount to. -/
inductive Incoming where
  | nothing
  | short
  | request (r : Request)
  | portReset (tag : Byte)
deriving DecidableEq, Repr

/-- The code of PORT RESET (section 10.4). -/
def portResetCode : Byte := 20

/-- The bytes shifted in, judged (R173): no request, a request cut short, a complete request, or PORT RESET, which is
complete with its header (R178). A header that declares more than 1,020 bytes completes its frame (R174). -/
def judge : List Byte → Incoming
  | [] => .nothing
  | code :: rest =>
    if code = 0 then .nothing
    else
      match rest with
      | tag :: l0 :: l1 :: payload =>
        let declared := leNat [l0, l1]
        if code = portResetCode then .portReset tag
        else if Config.maxPayload < declared then .request ⟨code, tag, declared, []⟩
        else if payload.length < declared then .short
        else .request ⟨code, tag, declared, payload.take declared⟩
      | _ => .short

/-- A complete request taken into the queue, or discarded for a full queue (R173). -/
def PortState.takeIn (q : PortState) (r : Request) : PortState :=
  if q.requests.length < Config.queueDepth then
    { q with requests := q.requests ++ [r], overrun := false, short := false }
  else { q with overrun := true, short := false }

/-- PORT RESET (R178): queues and notice list emptied, the wait abandoned, the flags cleared, and its own response placed
as the only one. -/
def PortState.portReset (q : PortState) (tag : Byte) : PortState :=
  { q with
    requests := []
    responses := [⟨tag, portResetCode, .ok, []⟩]
    overrun := false
    short := false
    notices := []
    wait := none }

/-- The response side of an exchange's end (R175): a response shifted out in full is removed. As many bytes have been
shifted out as in (section 10.2; DEDUCED, log entry 16). -/
def PortState.settleResponse (q : PortState) (x : Exchange) (shifted : Nat) : PortState :=
  if x.queued && decide (x.out.length ≤ shifted) then { q with responses := q.responses.tail } else q

/-- The request side of an exchange's end (R173, R178). -/
def PortState.takeBytes (q : PortState) (bytes : List Byte) : PortState :=
  match judge bytes with
  | .nothing => q
  | .short => { q with short := true }
  | .request r => q.takeIn r
  | .portReset tag => q.portReset tag

/-- The rising of select after complete bytes have been shifted in (R173, R175, R178): the response side is settled first,
and the exchange is over. With no exchange in progress select cannot rise. -/
def PortState.endExchange (q : PortState) (bytes : List Byte) : PortState :=
  match q.exchange with
  | none => q
  | some x => { (q.settleResponse x bytes.length).takeBytes bytes with exchange := none }

/-! ### Execution (R176, R177) -/

/-- The request that a port is ready to execute (R176, R177): the head of its queue, while no wait is outstanding and the
response queue has room. -/
def State.ready (s : State) (p : Port) : Option Request :=
  let q := s.port p
  if q.wait.isSome || decide (Config.queueDepth ≤ q.responses.length) then none else q.requests.head?

/-- The result and the payload of a response. -/
structure Reply where
  result : Result
  payload : List Byte
deriving DecidableEq, Repr

/-- An execution (R176): the request's effect, then its response placed and the request removed. -/
def State.finish (r : State × Reply) (p : Port) : State :=
  r.1.updPort p fun q => q.answer r.2.result r.2.payload

/-- The request is one of this code that LENGTH does not answer (R174). -/
def Request.hasCode (r : Request) (code : Nat) : Bool :=
  r.code == BitVec.ofNat 8 code && decide (r.declared ≤ Config.maxPayload)

/-- The execution of a request of a code at a port: its effect when such a request is ready at the head of the queue, and
nothing otherwise, since the execution is then not made (R176, R177). -/
def State.serve (s : State) (p : Port) (code : Nat) (body : Request → State → State × Reply) : State :=
  match s.ready p with
  | none => s
  | some r => if r.hasCode code then State.finish (body r s) p else s

end Sys2Proof.Machine
end

