-- ==== Sys2Proof/Machine/ChannelCommands.lean ====
section
/-! DEFINITION. The commands of the channel units: the events a channel makes within a tick, each with the hand-over of
its report to the grouping engine, and CHANNEL_PEEK (R17 to R38). A command whose condition does not hold changes nothing
(DESIGN CHOICE, log entry 1). -/

namespace Sys2Proof.Machine

/-- A channel's event with the report it makes, which the grouping engine takes as in its first stage (R60). -/
def State.channelEvent (s : State) (c : ChanId) (r : Channel × Option Report) : State :=
  (s.withChan c r.1).takeReports r.2.toList

/-- FAULT_ARRIVAL (R17). -/
def execFaultArrival (c : ChanId) (s : State) : Answer :=
  .next (s.whileReleased fun s => s.channelEvent c ((s.chan c).faultArrival c))

/-- FAULT_CLEARED (R18). -/
def execFaultCleared (c : ChanId) (s : State) : Answer :=
  .next (s.whileReleased fun s => s.withChan c ((s.chan c).faultCleared s.runActive))

/-- PEAK_FREEZE (R27). -/
def execPeakFreeze (c : ChanId) (s : State) : Answer :=
  .next (s.whileReleased fun s => s.withChan c ((s.chan c).peakFreeze s.clock))

/-- GLITCH (R29). -/
def execGlitch (c : ChanId) (s : State) : Answer :=
  .next (s.whileReleased fun s => s.channelEvent c ((s.chan c).glitchTest c s.clock))

/-- HIT_END (R31). -/
def execHitEnd (c : ChanId) (s : State) : Answer :=
  .next (s.whileReleased fun s => s.channelEvent c ((s.chan c).hitEndTest c s.clock))

/-- HIT_TRUNC (R31). -/
def execHitTrunc (c : ChanId) (s : State) : Answer :=
  .next (s.whileReleased fun s => s.channelEvent c ((s.chan c).hitTruncTest c s.clock))

/-- LOCKOUT_END (R34). -/
def execLockoutEnd (c : ChanId) (s : State) : Answer :=
  .next (s.whileReleased fun s => s.withChan c ((s.chan c).lockoutEndTest s.clock))

/-- The response of CHANNEL PEEK (R38): RANGE for a channel above 15 or no payload. -/
def State.peekReply (s : State) (payload : List Byte) : Reply :=
  match payload with
  | [] => ⟨.range, []⟩
  | b :: _ => if h : b.toNat < 16 then ⟨.ok, (s.chan ⟨b.toNat, h⟩).peek⟩ else ⟨.range, []⟩

/-- CHANNEL_PEEK (R38). -/
def execChannelPeek (p : Port) (s : State) : Answer :=
  .next (s.whileReleased fun s => s.serve p 4 fun r s => (s, s.peekReply r.payload))

end Sys2Proof.Machine
end

