-- ==== Sys2Proof/Machine/GroupingCommands.lean ====
section
/-! DEFINITION. The commands of the grouping engine: WINDOW_CLOSE and GROUP_LOCKOUT_END (R65, R66). -/

namespace Sys2Proof.Machine

/-- WINDOW_CLOSE (R65). -/
def execWindowClose (s : State) : Answer :=
  .next (s.whileReleased fun s => s.withGrouping (s.grouping.windowClose s.clock))

/-- GROUP_LOCKOUT_END (R66). -/
def execGroupLockoutEnd (s : State) : Answer :=
  .next (s.whileReleased fun s => s.withGrouping (s.grouping.lockoutEnd s.clock))

end Sys2Proof.Machine
end

