-- ==== Sys2Proof/Machine/IntakeCommands.lean ====
section
/-! DEFINITION. The commands of the frame intake: PARTIAL_FRAME, FRAME, CLOCK_WRAP, CLOCK_READ (R1 to R13). -/

namespace Sys2Proof.Machine

/-- PARTIAL_FRAME: the partial frame is discarded without effect and collection restarts with the newly marked word
(R1). -/
def execPartialFrame (word0 : Word16) (s : State) : Answer :=
  .next (s.whileReleased fun s => s.withIntake { s.intake with collecting := [word0] })

/-- FRAME: the collected frame is evaluated as one event (R1 to R7). -/
def execFrame (words : List Word16) (s : State) : Answer :=
  .next (s.whileReleased fun s => s.frame words)

/-- CLOCK_WRAP: the clock passes from 2^48 − 1 to 0 with its mark and notice (R12). -/
def execClockWrap (s : State) : Answer :=
  .next (s.whileReleased fun s => if s.atLastTick then s.wrapClock else s)

/-- The response of CLOCK READ (R13, R187). -/
def State.clockReply (s : State) : Reply :=
  ⟨.ok, tickBytes s.clock ++ boolBytes s.intake.seq.isSome
    ++ leBytes 1 (match s.intake.seq with | some q => q.expected.toNat | none => 0)⟩

/-- CLOCK_READ (R13). -/
def execClockRead (p : Port) (s : State) : Answer :=
  .next (s.whileReleased fun s => s.serve p 3 fun _ s => (s, s.clockReply))

end Sys2Proof.Machine
end

