-- ==== Sys2Proof/Machine/JournalCommands.lean ====
section
/-! DEFINITION. The commands of the journal: WAIT_SATISFIED, WAIT_TIMEOUT and the five journal requests (R89 to R100). -/

namespace Sys2Proof.Machine

/-- A wait whose count has been reached (R99). -/
def State.waitSatisfied (s : State) (p : Port) : State :=
  match (s.port p).wait with
  | none => s
  | some w => if w.n ≤ s.unread p then s.endWait p .ok (s.unread p) else s

/-- WAIT_SATISFIED (R99). -/
def execWaitSatisfied (p : Port) (s : State) : Answer :=
  .next (s.whileReleased fun s => s.waitSatisfied p)

/-- WAIT_TIMEOUT (R100). -/
def execWaitTimeout (p : Port) (s : State) : Answer :=
  .next (s.whileReleased fun s => s.waitTimeout p)

/-- The cursor and the unread count of a port, as JOURNAL ATTACH answers them (R187). -/
def State.cursorPayload (s : State) (p : Port) : List Byte :=
  wordBytes (match (s.port p).cursor with | some cur => cur | none => 0) ++ leBytes 2 (s.unread p)

/-- The port attached with its cursor, then reclaim (R89, R90). -/
def State.attach (s : State) (p : Port) (cursor : SeqNo) : State :=
  (s.updPort p fun q => { q with cursor := some cursor }).reclaim

/-- The cursor that a mode sets: OLDEST 0 the retain floor, NEWEST 1 the append point (R90, R187). -/
def Journal.attachCursor (j : Journal) (mode : Nat) : Option SeqNo :=
  match mode with
  | 0 => some j.floor
  | 1 => some j.appendPoint
  | _ => none

/-- The effect of JOURNAL ATTACH (R90). -/
def journalAttachBody (p : Port) (r : Request) (s : State) : State × Reply :=
  match r.payload with
  | [] => (s, ⟨.range, []⟩)
  | b :: _ =>
    match s.journal.attachCursor b.toNat with
    | none => (s, ⟨.range, []⟩)
    | some cur => (s.attach p cur, ⟨.ok, (s.attach p cur).cursorPayload p⟩)

/-- JOURNAL_ATTACH (R90). -/
def execJournalAttach (p : Port) (s : State) : Answer :=
  .next (s.whileReleased fun s => s.serve p 14 (journalAttachBody p))

/-- The effect of JOURNAL DETACH (R91). -/
def journalDetachBody (p : Port) (_r : Request) (s : State) : State × Reply :=
  ((s.updPort p fun q => { q with cursor := none }).reclaim, ⟨.ok, []⟩)

/-- JOURNAL_DETACH (R91). -/
def execJournalDetach (p : Port) (s : State) : Answer :=
  .next (s.whileReleased fun s => s.serve p 15 (journalDetachBody p))

/-- The effect of JOURNAL FILTER (R92): the bits of the kind mask beyond the six kinds are ignored. -/
def journalFilterBody (p : Port) (r : Request) (s : State) : State × Reply :=
  if r.payload.length < 3 then (s, ⟨.range, []⟩)
  else
    let kinds := BitVec.ofNat 6 (field r.payload 0 1)
    let chans := BitVec.ofNat 16 (field r.payload 1 2)
    (s.updPort p fun q => { q with kindMask := kinds, chanMask := chans },
      ⟨.ok, leBytes 1 kinds.toNat ++ leBytes 2 chans.toNat⟩)

/-- JOURNAL_FILTER (R92). -/
def execJournalFilter (p : Port) (s : State) : Answer :=
  .next (s.whileReleased fun s => s.serve p 16 (journalFilterBody p))

/-- What a walk of the journal finds (R95): the records returned, the records moved past, and the size of a passing record
that stopped the walk. -/
structure Walk where
  returned : List Rec
  moved : Nat
  blocked : Option Nat
deriving DecidableEq, Repr

/-- The walk of JOURNAL READ with the words still left of the maximum (R95). -/
def walk (passes : Rec → Bool) : Nat → List Rec → Walk
  | _, [] => ⟨[], 0, none⟩
  | left, r :: rs =>
    if passes r then
      if r.size ≤ left then
        let w := walk passes (left - r.size) rs
        ⟨r :: w.returned, w.moved + 1, w.blocked⟩
      else ⟨[], 0, some r.size⟩
    else
      let w := walk passes left rs
      ⟨w.returned, w.moved + 1, w.blocked⟩

/-- The state after a walk that has moved the cursor (R95): reclaim follows a cursor that moves (R89). -/
def State.moveCursor (s : State) (p : Port) (cursor : SeqNo) (moved : Nat) : State :=
  if moved = 0 then s else s.attach p (cursor + BitVec.ofNat 32 moved)

/-- The response of a read (R95, R187): records returned, cursor and unread count, the records. -/
def State.readReply (s : State) (p : Port) (recs : List Rec) : Reply :=
  ⟨.ok, leBytes 2 recs.length ++ s.cursorPayload p ++ (recs.map Rec.bytes).flatten⟩

/-- A read at an attached port (R95, R96): a first passing record larger than the maximum is refused with RANGE, which
carries its size, and moves nothing. -/
def State.read (s : State) (p : Port) (cursor : SeqNo) (maximum : Nat) : State × Reply :=
  let w := walk (s.port p).passes maximum (s.journal.recsFrom cursor)
  match w.returned, w.blocked with
  | [], some size => (s, ⟨.range, leBytes 1 size⟩)
  | _, _ => (s.moveCursor p cursor w.moved, (s.moveCursor p cursor w.moved).readReply p w.returned)

/-- The effect of JOURNAL READ (R95, R96); DETACHED is tested before the payload (DEDUCED, log entry 10). -/
def journalReadBody (p : Port) (r : Request) (s : State) : State × Reply :=
  match (s.port p).cursor with
  | none => (s, ⟨.detached, []⟩)
  | some cur =>
    match r.payload with
    | [] => (s, ⟨.range, []⟩)
    | b :: _ =>
      if b.toNat = 0 || decide (Config.maxReadWords < b.toNat) then (s, ⟨.range, []⟩) else s.read p cur b.toNat

/-- JOURNAL_READ (R95, R96). -/
def execJournalRead (p : Port) (s : State) : Answer :=
  .next (s.whileReleased fun s => s.serve p 17 (journalReadBody p))

/-- N and the timeout of a JOURNAL WAIT, when both are in range (R98). -/
def waitFields (payload : List Byte) : Option (Nat × Nat) :=
  let n := field payload 0 2
  let timeout := field payload 2 2
  if payload.length < 4 then none
  else if decide (1 ≤ n) && decide (n ≤ 1024) && decide (1 ≤ timeout) then some (n, timeout)
  else none

/-- The effect of JOURNAL WAIT (R98): refused or answered at once, or deferred with a deadline. DETACHED is
tested before the payload (DEDUCED, log entry 10). -/
def State.waitRequest (s : State) (p : Port) (r : Request) : State :=
  match (s.port p).cursor with
  | none => State.finish (s, ⟨.detached, []⟩) p
  | some _ =>
    match waitFields r.payload with
    | none => State.finish (s, ⟨.range, []⟩) p
    | some (n, timeout) =>
      if n ≤ s.unread p then State.finish (s, ⟨.ok, leBytes 2 (s.unread p)⟩) p
      else s.updPort p fun q => { q with wait := some ⟨n, tickAfter s.clock (blocks timeout)⟩ }

/-- JOURNAL_WAIT (R98): made when such a request is ready at the head of the port's queue. -/
def execJournalWait (p : Port) (s : State) : Answer :=
  .next (s.whileReleased fun s =>
    match s.ready p with
    | none => s
    | some r => if r.hasCode 18 then s.waitRequest p r else s)

end Sys2Proof.Machine
end

