-- ==== Sys2Proof/Machine/PortCommands.lean ====
section
/-! DEFINITION. The commands of the request ports: the two ends of an exchange, and the requests that their chapter owns
(R172 to R183). -/

namespace Sys2Proof.Machine

/-- EXCHANGE_START (R172). -/
def execExchangeStart (p : Port) (s : State) : Answer :=
  .next (s.whileReleased fun s => s.updPort p PortState.startExchange)

/-- EXCHANGE_END (R173, R175, R178). -/
def execExchangeEnd (p : Port) (bytes : List Byte) (s : State) : Answer :=
  .next (s.whileReleased fun s => s.updPort p fun q => q.endExchange bytes)

/-- The code is listed in the catalogue (section 10.4). -/
def listedCode (code : Byte) : Bool := decide (code.toNat ≤ 20)

/-- UNKNOWN (R174): a request of an unlisted code is answered UNKNOWN with no effect. -/
def execUnknown (p : Port) (s : State) : Answer :=
  .next (s.whileReleased fun s =>
    match s.ready p with
    | none => s
    | some r =>
      if !listedCode r.code && decide (r.declared ≤ Config.maxPayload) then State.finish (s, ⟨.unknown, []⟩) p else s)

/-- LENGTH (R174): a request that declares more than 1,020 bytes is answered LENGTH with no effect, whatever its code
(DEDUCED, log entry 8). -/
def execLength (p : Port) (s : State) : Answer :=
  .next (s.whileReleased fun s =>
    match s.ready p with
    | none => s
    | some r => if Config.maxPayload < r.declared then State.finish (s, ⟨.length, []⟩) p else s)

/-- The response of IDENTIFY (R179, R187). -/
def identifyReply : Reply :=
  ⟨.ok, leBytes 2 Config.partCode ++ leBytes 1 Config.revision ++ leBytes 1 Config.channelCount
    ++ leBytes 4 Config.journalWords ++ leBytes 1 Config.queueDepth ++ leBytes 2 Config.maxPayload⟩

/-- IDENTIFY (R179). -/
def execIdentify (p : Port) (s : State) : Answer :=
  .next (s.whileReleased fun s => s.serve p 1 fun _ s => (s, identifyReply))

/-- A channel in STATUS READ (R187): its state in bits 0 to 6, its fault state in bit 7. -/
def State.channelByte (s : State) (c : ChanId) : Nat := (s.chan c).st.code + 128 * s.status.faults[c].toNat

/-- The 46 bytes of STATUS READ (R180, R187). -/
def State.statusPayload (s : State) (p : Port) : List Byte :=
  leBytes 1 s.run.state.code ++ leBytes 1 (s.statusFlags p) ++ leBytes 4 s.journal.fill ++ leBytes 2 (s.unread p)
    ++ leBytes 1 s.grouping.groups.length ++ leBytes 1 s.holdSources ++ leBytes 1 s.coLevels
    ++ leBytes 4 (match s.rollup.load with | some l => l.value | none => 0) ++ leBytes 4 s.rollup.pmax
    ++ wordBytes s.setup.generation ++ leBytes 1 s.setup.lockSet
    ++ (allChannels.map fun c => leBytes 1 (s.channelByte c)).flatten ++ tickBytes s.clock

/-- STATUS_READ (R180). -/
def execStatusRead (p : Port) (s : State) : Answer :=
  .next (s.whileReleased fun s => s.serve p 2 fun _ s => (s, ⟨.ok, s.statusPayload p⟩))

/-- A notice entry in 8 bytes (R188). -/
def Notice.bytes (e : Notice) : List Byte :=
  leBytes 1 e.source.number ++ boolBytes e.source.isLevel ++ leBytes 1 e.count ++ leBytes 1 e.sect ++ wordBytes e.detail

/-- The response of NOTICES READ (R183, R187). -/
def PortState.noticesReply (q : PortState) : Reply :=
  ⟨.ok, leBytes 1 q.notices.length ++ (q.notices.map Notice.bytes).flatten⟩

/-- The effect of NOTICES READ (R183). -/
def noticesReadBody (p : Port) (_r : Request) (s : State) : State × Reply :=
  (s.updPort p fun q => { q with notices := [] }, (s.port p).noticesReply)

/-- NOTICES_READ (R183). -/
def execNoticesRead (p : Port) (s : State) : Answer :=
  .next (s.whileReleased fun s => s.serve p 19 (noticesReadBody p))

end Sys2Proof.Machine
end

