-- ==== Sys2Proof/Machine/ResetCommands.lean ====
section
/-! DEFINITION. FULL_RESET and RESET_RELEASE (R14, R40, R81, R108, R131, R149, R162, R171, R184). -/

namespace Sys2Proof.Machine

/-- FULL_RESET: every block returns to its full-reset state; with RESETn low the part is held there. The queue of waiting
commands is the model's own and stays. -/
def execFullReset (cause : ResetCause) (s : State) : Answer :=
  .next { State.reset with resetHeld := cause == .resetnLow, pending := s.pending }

/-- RESET_RELEASE: RESETn returns high (R1, R184). -/
def execResetRelease (s : State) : Answer :=
  .next (s.withResetHeld false)

end Sys2Proof.Machine
end

