-- ==== Sys2Proof/Machine/RollupCommands.lean ====
section
/-! DEFINITION. The commands of the rollup unit: ROLLUP, LOAD_STALE, LOAD_POST, HOLD (R112 to R127). -/

namespace Sys2Proof.Machine

/-- ROLLUP (R112). -/
def execRollup (s : State) : Answer :=
  .next (s.whileReleased fun s => s.rollupAtTick)

/-- LOAD_STALE (R125). -/
def execLoadStale (s : State) : Answer :=
  .next (s.whileReleased fun s => s.staleCheck)

/-- The response of an accepted LOAD POST (R122, R187), from the state after the post. -/
def State.loadReply (s : State) (clock : Tick) (sent taken : Nat) : Reply :=
  ⟨if sent = taken then .ok else .adjusted, leBytes 4 taken ++ tickBytes clock ++ leBytes 4 s.rollup.pmax⟩

/-- The effect of LOAD POST (R122): a payload shorter than four bytes is refused with RANGE, a value above 16,777,215 is
taken as that. -/
def loadPostBody (p : Port) (r : Request) (s : State) : State × Reply :=
  if r.payload.length < 4 then (s, ⟨.range, []⟩)
  else
    let sent := field r.payload 0 4
    let taken := min Config.maxLoad sent
    let s1 := s.postLoad p taken
    (s1, s1.loadReply s.clock sent taken)

/-- LOAD_POST (R122 to R124). -/
def execLoadPost (p : Port) (s : State) : Answer :=
  .next (s.whileReleased fun s => s.serve p 12 (loadPostBody p))

/-- The manual flag after a HOLD (R127): set with set alone, cleared with clear alone, unchanged otherwise. -/
def manualAfter (flag set clear : Bool) : Bool :=
  if set && !clear then true else if clear && !set then false else flag

/-- The effect of HOLD (R127). -/
def holdBody (p : Port) (r : Request) (s : State) : State × Reply :=
  match r.payload with
  | [] => (s, ⟨.range, []⟩)
  | b :: _ =>
    let flag := manualAfter (s.port p).manual (b.getLsbD 0) (b.getLsbD 1)
    (s.updPort p fun q => { q with manual := flag }, ⟨.ok, boolBytes flag⟩)

/-- HOLD (R127). -/
def execHold (p : Port) (s : State) : Answer :=
  .next (s.whileReleased fun s => s.serve p 13 (holdBody p))

end Sys2Proof.Machine
end

