-- ==== Sys2Proof/Machine/RunCommands.lean ====
section
/-! DEFINITION. The commands of run control: EVIDENCE_LAPSE, POST_WINDOW_END, RUN_START, RUN_STOP, RUN_CLEAR and
RUPTURE_DECLARE (R134 to R149). -/

namespace Sys2Proof.Machine

/-- EVIDENCE_LAPSE (R144). -/
def execEvidenceLapse (s : State) : Answer :=
  .next (s.whileReleased fun s => s.evidenceLapse)

/-- POST_WINDOW_END (R138, R147). -/
def execPostWindowEnd (s : State) : Answer :=
  .next (s.whileReleased fun s => s.postWindowEnd)

/-- A refusal with STATE that carries the run state (R135, R187). -/
def State.stateReply (s : State) : Reply := ⟨.state, leBytes 1 s.run.state.code⟩

/-- The effect of an accepted RUN START (R136): the start tick and RUNNING, the first interval, LISTEN channels to QUIET,
the RUN START mark, the RUN STATE notice. -/
def State.startRun (s : State) : State :=
  let s1 := (s.withRun { s.run with state := .running, startTick := some s.clock }).firstInterval s.clock
  let s2 := s1.withChannels (perChannel fun c => (s1.chan c).runStart)
  (s2.offer (markOffer s2.clock 1 0 (channelMask fun c => (s2.setup.entry c).enable))).post .runState
    RunState.running.code

/-- The effect of RUN START (R135). -/
def runStartBody (_r : Request) (s : State) : State × Reply :=
  if s.run.state = .idle && !s.setup.enabled.isEmpty then (s.startRun, ⟨.ok, tickBytes s.clock⟩)
  else (s, s.stateReply)

/-- RUN_START (R135, R136). -/
def execRunStart (p : Port) (s : State) : Answer :=
  .next (s.whileReleased fun s => s.serve p 8 runStartBody)

/-- The effect of RUN STOP (R137). -/
def runStopBody (p : Port) (_r : Request) (s : State) : State × Reply :=
  if s.runActive then (s.close (.runStop p), ⟨.ok, tickBytes s.clock⟩) else (s, ⟨.state, []⟩)

/-- RUN_STOP (R137). -/
def execRunStop (p : Port) (s : State) : Answer :=
  .next (s.whileReleased fun s => s.serve p 9 (runStopBody p))

/-- An outstanding wait ended by run clear (R101). -/
def State.clearWait (s : State) (p : Port) : State :=
  if (s.port p).wait.isSome then s.endWait p .cleared 0 else s

/-- A port's part in run clear (R109, R132): an attached cursor at 0, the manual flag clear. -/
def PortState.runClear (q : PortState) : PortState :=
  { q with cursor := q.cursor.map fun _ => 0, manual := false }

/-- The journal's part in run clear (R109): emptied, with the TALLY MODE notice released if tally mode was on. -/
def State.clearJournal (s : State) : State :=
  let s1 := s.withJournal Journal.reset
  if s.journal.tallyMode then s1.postLevel .tallyMode false else s1

/-- The rollup unit after run clear (R132): the working parameters and the next boundary are kept (DEDUCED, log
entry 14). -/
def Rollup.runClear (x : Rollup) : Rollup :=
  { Rollup.reset with work := x.work, nextBoundary := x.nextBoundary }

/-- The rollup unit's part in run clear (R126, R132). -/
def State.clearRollup (s : State) : State :=
  let s1 := s.withRollup s.rollup.runClear
  if s.rollup.stale then s1.postLevel .loadStale false else s1

/-- The setup table's part in run clear (R162). -/
def State.clearLocks (s : State) : State :=
  let s1 := s.withSetup { s.setup with lockDetection := false, lockCriteria := false }
  if s.setup.lockDetection || s.setup.lockCriteria then s1.post .lockChanged 0 else s1

/-- The grouping engine's part in run clear (R82). -/
def Grouping.runClear (x : Grouping) : Grouping := { Grouping.reset with work := x.work }

/-- The effect of an accepted RUN CLEAR on every block (R139, R140). The postings are made in the order of the blocks in
the table of R140 (DESIGN CHOICE, log entry 5). -/
def State.clearRun (s : State) : State :=
  let s1 := (((s.clearWait .a).clearWait .b).updPort .a PortState.runClear).updPort .b PortState.runClear
  let s2 := (s1.withChannels (perChannel fun c => (s1.chan c).runClear)).withGrouping s1.grouping.runClear
  let s3 := s2.clearJournal.clearRollup
  ((s3.withRun Run.reset).post .runState RunState.idle.code).clearLocks

/-- The effect of RUN CLEAR (R139). -/
def runClearBody (_r : Request) (s : State) : State × Reply :=
  if s.runActive then (s, ⟨.state, []⟩) else (s.clearRun, ⟨.ok, []⟩)

/-- RUN_CLEAR (R139). -/
def execRunClear (p : Port) (s : State) : Answer :=
  .next (s.whileReleased fun s => s.serve p 10 runClearBody)

/-- The payload of RUPTURE DECLARE's response (R145, R187): the run state and the rupture source, 0 when none. -/
def State.rupturePayload (s : State) : List Byte :=
  leBytes 1 s.run.state.code ++ leBytes 1 (match s.run.rupture with | some x => x.code | none => 0)

/-- The effect of RUPTURE DECLARE (R145). -/
def ruptureDeclareBody (p : Port) (_r : Request) (s : State) : State × Reply :=
  match s.run.state with
  | .running =>
    let s1 := s.declareNow (declareSource p) none
    (s1, ⟨.ok, s1.rupturePayload⟩)
  | .final => (s, ⟨.ok, s.rupturePayload⟩)
  | .idle | .closed => (s, ⟨.state, s.rupturePayload⟩)

/-- RUPTURE_DECLARE (R145). -/
def execRuptureDeclare (p : Port) (s : State) : Answer :=
  .next (s.whileReleased fun s => s.serve p 11 (ruptureDeclareBody p))

end Sys2Proof.Machine
end

