-- ==== Sys2Proof/Machine/SetupCommands.lean ====
section
/-! DEFINITION. The commands of the setup table: SETUP_READ, SETUP_WRITE, SETUP_LOCK (R152 to R161). -/

namespace Sys2Proof.Machine

/-- The generation and the lock set, as every setup response carries them (R151, R161, R187). -/
def Setup.header (t : Setup) : List Byte := wordBytes t.generation ++ leBytes 1 t.lockSet

/-- The response of SETUP READ (R152). -/
def Setup.readReply (t : Setup) (payload : List Byte) : Reply :=
  if payload.length < 5 then ⟨.range, t.header⟩
  else
    let start := field payload 1 2
    let count := field payload 3 2
    match Sect.ofCode (field payload 0 1) with
    | none => ⟨.range, t.header⟩
    | some x =>
      if decide (1 ≤ count) && decide (start + count ≤ x.items.length) then
        ⟨.ok, t.header ++ ((((t.values x).drop start).take count).map (leBytes 4)).flatten⟩
      else ⟨.range, t.header⟩

/-- SETUP_READ (R152). -/
def execSetupRead (p : Port) (s : State) : Answer :=
  .next (s.whileReleased fun s => s.serve p 5 fun r s => (s, s.setup.readReply r.payload))

/-- The items that a list of values is written to: those of the section from the starting item on. -/
def Sect.span (x : Sect) (start : Nat) : List ItemSpec := x.items.drop start

/-- The place of the first value at fault in a list (R156). -/
def firstFault : List ItemSpec → List Nat → Nat → Option Nat
  | i :: is, v :: vs, k => if i.faulty v then some k else firstFault is vs (k + 1)
  | _, _, _ => none

/-- The values as stored (R157). -/
def clampAll (items : List ItemSpec) (vs : List Nat) : List Nat := List.zipWith ItemSpec.clamp items vs

/-- The number of values clamped (R157). -/
def clampedCount (items : List ItemSpec) (vs : List Nat) : Nat :=
  (List.zipWith (fun i v => (i.clamp v != v)) items vs).countP id

/-- The values of a section after a write (R157). -/
def spliced (old : List Nat) (start : Nat) (new : List Nat) : List Nat :=
  old.take start ++ new ++ old.drop (start + new.length)

/-- The table after an applied write (R151, R157). -/
def Setup.write (t : Setup) (x : Sect) (start : Nat) (vs : List Nat) : Setup :=
  let t1 := t.withValues x (spliced (t.values x) start (clampAll (x.span start) vs))
  { t1 with generation := t.generation + 1 }

/-- An applied write (R157, R158): the values, the generation, and the SETUP CHANGED notice, which is routed by the table
as it stands after the write. -/
def State.applyWrite (s : State) (x : Sect) (start : Nat) (vs : List Nat) : State × Reply :=
  let s1 := s.withSetup (s.setup.write x start vs)
  let count := clampedCount (x.span start) vs
  (s1.postWith .setupChanged x.code s1.setup.generation,
    ⟨if count = 0 then .ok else .adjusted, s1.setup.header ++ leBytes 2 count⟩)

/-- The structural test of a write (R156): the item number of the first value at fault, or the section code when the
section is unknown or the span runs past its end. -/
def writeFault (code start : Nat) (vs : List Nat) : Option Nat :=
  match Sect.ofCode code with
  | none => some code
  | some x =>
    if decide (start < x.items.length) && decide (start + vs.length ≤ x.items.length) then firstFault (x.span start) vs start
    else some code

/-- The section that a write names is locked (R155); an unknown section is covered by no lock. -/
def Setup.lockedCode (t : Setup) (code : Nat) : Bool :=
  match Sect.ofCode code with
  | none => false
  | some x => t.locked x

/-- The effect of SETUP WRITE, by the four tests of R153 in their order. Every refusal carries the generation and the lock
set, as R151 and R153 state (DEDUCED, log entry 9). -/
def setupWriteBody (r : Request) (s : State) : State × Reply :=
  let code := field r.payload 0 1
  let start := field r.payload 1 2
  let expected := BitVec.ofNat 32 (field r.payload 3 4)
  let rest := r.payload.drop 7
  let vs := words4 rest
  if decide (rest.length = 0) || decide (rest.length % 4 ≠ 0) then (s, ⟨.range, s.setup.header⟩)
  else if expected ≠ s.setup.generation then (s, ⟨.stale, s.setup.header⟩)
  else if s.setup.lockedCode code then (s, ⟨.locked, s.setup.header⟩)
  else
    match writeFault code start vs, Sect.ofCode code with
    | some n, _ => (s, ⟨.range, s.setup.header ++ leBytes 2 n⟩)
    | none, some x => s.applyWrite x start vs
    | none, none => (s, ⟨.range, s.setup.header⟩)

/-- SETUP_WRITE (R153 to R160). -/
def execSetupWrite (p : Port) (s : State) : Answer :=
  .next (s.whileReleased fun s => s.serve p 6 setupWriteBody)

/-- The effect of SETUP LOCK (R161): each named lock is added, and LOCK CHANGED is posted when one is new. -/
def setupLockBody (r : Request) (s : State) : State × Reply :=
  match r.payload with
  | [] => (s, ⟨.range, leBytes 1 s.setup.lockSet⟩)
  | b :: _ =>
    let d := b.getLsbD 0
    let c := b.getLsbD 1
    if !d && !c then (s, ⟨.range, leBytes 1 s.setup.lockSet⟩)
    else
      let s1 := s.withSetup
        { s.setup with lockDetection := s.setup.lockDetection || d, lockCriteria := s.setup.lockCriteria || c }
      let s2 := if s1.setup.lockSet = s.setup.lockSet then s1 else s1.post .lockChanged s1.setup.lockSet
      (s2, ⟨.ok, leBytes 1 s1.setup.lockSet⟩)

/-- SETUP_LOCK (R161). -/
def execSetupLock (p : Port) (s : State) : Answer :=
  .next (s.whileReleased fun s => s.serve p 7 setupLockBody)

end Sys2Proof.Machine
end

