-- ==== Sys2Proof/Machine/StatusCommands.lean ====
section
/-! DEFINITION. The commands of the status line unit: STATUS_CYCLE_START, NODE_START, STATUS_CYCLE_END, CYCLE_ABORT and
STATUS_CLOCK (R164 to R168). -/

namespace Sys2Proof.Machine

/-- STATUS_CYCLE_START (R165). -/
def execStatusCycleStart (s : State) : Answer :=
  .next (s.whileReleased fun s => s.startCycle)

/-- NODE_START (R165). -/
def execNodeStart (s : State) : Answer :=
  .next (s.whileReleased fun s => s.nodeStart)

/-- The end of the cycle at the last clock of its stop frame (R164). -/
def State.cycleEnd (s : State) : State :=
  match s.status.cycle with
  | .stop spent held => if s.stopEnds spent held then s.completeCycle (s.announces held) else s
  | .idle | .start _ | .slot _ _ => s

/-- STATUS_CYCLE_END (R164). -/
def execStatusCycleEnd (s : State) : Answer :=
  .next (s.whileReleased fun s => s.cycleEnd)

/-- The abort of a cycle in a RELEASE phase that samples low (R167). -/
def State.cycleAbort (s : State) : State :=
  match s.status.cycle with
  | .slot _ .release => s.abortCycle
  | _ => s

/-- CYCLE_ABORT (R167). -/
def execCycleAbort (s : State) : Answer :=
  .next (s.whileReleased fun s => s.cycleAbort)

/-- STATUS_CLOCK (R164 to R167). -/
def execStatusClock (level : LineLevel) (s : State) : Answer :=
  .next (s.whileReleased fun s => s.statusTick level)

end Sys2Proof.Machine
end

