-- ==== Sys2Proof/Machine/Dispatch.lean ====
section
/-! DEFINITION. One arm for each command: a direct call of its meaning. -/

namespace Sys2Proof.Machine

def exec (i : Instr) (s : State) : Host.Outcome State Fault Refusal :=
  match i with
  | .fullReset cause => Sys2Proof.Machine.execFullReset cause s
  | .partialFrame word0 => Sys2Proof.Machine.execPartialFrame word0 s
  | .frame words => Sys2Proof.Machine.execFrame words s
  | .clockWrap => Sys2Proof.Machine.execClockWrap s
  | .faultArrival c => Sys2Proof.Machine.execFaultArrival c s
  | .faultCleared c => Sys2Proof.Machine.execFaultCleared c s
  | .peakFreeze c => Sys2Proof.Machine.execPeakFreeze c s
  | .glitch c => Sys2Proof.Machine.execGlitch c s
  | .hitEnd c => Sys2Proof.Machine.execHitEnd c s
  | .hitTrunc c => Sys2Proof.Machine.execHitTrunc c s
  | .lockoutEnd c => Sys2Proof.Machine.execLockoutEnd c s
  | .windowClose => Sys2Proof.Machine.execWindowClose s
  | .groupLockoutEnd => Sys2Proof.Machine.execGroupLockoutEnd s
  | .evidenceLapse => Sys2Proof.Machine.execEvidenceLapse s
  | .postWindowEnd => Sys2Proof.Machine.execPostWindowEnd s
  | .waitSatisfied p => Sys2Proof.Machine.execWaitSatisfied p s
  | .waitTimeout p => Sys2Proof.Machine.execWaitTimeout p s
  | .rollup => Sys2Proof.Machine.execRollup s
  | .loadStale => Sys2Proof.Machine.execLoadStale s
  | .statusCycleStart => Sys2Proof.Machine.execStatusCycleStart s
  | .nodeStart => Sys2Proof.Machine.execNodeStart s
  | .statusCycleEnd => Sys2Proof.Machine.execStatusCycleEnd s
  | .cycleAbort => Sys2Proof.Machine.execCycleAbort s
  | .exchangeStart p => Sys2Proof.Machine.execExchangeStart p s
  | .exchangeEnd p bytes => Sys2Proof.Machine.execExchangeEnd p bytes s
  | .unknown p => Sys2Proof.Machine.execUnknown p s
  | .length p => Sys2Proof.Machine.execLength p s
  | .identify p => Sys2Proof.Machine.execIdentify p s
  | .statusRead p => Sys2Proof.Machine.execStatusRead p s
  | .clockRead p => Sys2Proof.Machine.execClockRead p s
  | .channelPeek p => Sys2Proof.Machine.execChannelPeek p s
  | .setupRead p => Sys2Proof.Machine.execSetupRead p s
  | .setupWrite p => Sys2Proof.Machine.execSetupWrite p s
  | .setupLock p => Sys2Proof.Machine.execSetupLock p s
  | .runStart p => Sys2Proof.Machine.execRunStart p s
  | .runStop p => Sys2Proof.Machine.execRunStop p s
  | .runClear p => Sys2Proof.Machine.execRunClear p s
  | .ruptureDeclare p => Sys2Proof.Machine.execRuptureDeclare p s
  | .loadPost p => Sys2Proof.Machine.execLoadPost p s
  | .hold p => Sys2Proof.Machine.execHold p s
  | .journalAttach p => Sys2Proof.Machine.execJournalAttach p s
  | .journalDetach p => Sys2Proof.Machine.execJournalDetach p s
  | .journalFilter p => Sys2Proof.Machine.execJournalFilter p s
  | .journalRead p => Sys2Proof.Machine.execJournalRead p s
  | .journalWait p => Sys2Proof.Machine.execJournalWait p s
  | .noticesRead p => Sys2Proof.Machine.execNoticesRead p s
  | .statusClock level => Sys2Proof.Machine.execStatusClock level s
  | .resetRelease => Sys2Proof.Machine.execResetRelease s

end Sys2Proof.Machine
end

