-- ==== Sys2Proof/Safety.lean ====
section
/-! DEFINITION. What counts as a sound state of the part: the bounds and agreements that the manual's rules keep. Each is a
property of every state that a step keeps, not of runs from reset alone. -/

namespace Sys2Proof.Machine

/-- A port's notice list holds at most one entry for each source (R182). -/
def PortState.NoticesOk (q : PortState) : Prop := (q.notices.map Notice.source).Nodup

/-- Both notice lists hold at most one entry for each source (R182). -/
def State.NoticesOk (s : State) : Prop := ∀ p, (s.port p).NoticesOk

/-- Each queue of a port holds at most four frames (section 10.1); while a wait is outstanding its request is held in the
request queue and the response queue has room for its response (R98). -/
def PortState.QueuesOk (q : PortState) : Prop :=
  q.requests.length ≤ 4 ∧ q.responses.length ≤ 4 ∧ (q.wait.isSome = true → q.responses.length ≤ 3 ∧ q.requests ≠ [])

/-- The queues of both ports are within their depth (R176, R177). -/
def State.QueuesOk (s : State) : Prop := ∀ p, (s.port p).QueuesOk

/-- The journal holds at most 65,536 words (R85), and fewer than 49,152 whenever tally mode is off (R102). -/
def Journal.Bounded (j : Journal) : Prop :=
  j.fill ≤ 65536 ∧ (j.tallyMode = false → j.fill < 49152)

/-- The journal is within its bounds. -/
def State.JournalBounded (s : State) : Prop := s.journal.Bounded

/-- The records carry consecutive sequence numbers up to the append point (R86). -/
def Journal.Numbered (j : Journal) : Prop :=
  ∀ i, (h : i < j.recs.length) → (j.recs[i]).seq = j.appendPoint - BitVec.ofNat 32 (j.recs.length - i)

/-- The cursor of an attached port lies from the retain floor to the append point (R88). -/
def State.CursorsOk (s : State) : Prop :=
  ∀ p cur, (s.port p).cursor = some cur → (cur - s.journal.floor).toNat ≤ s.journal.recs.length

/-- The journal is bounded and numbered, and every attached cursor lies within it (R85, R86, R88). -/
def State.JournalOk (s : State) : Prop := s.journal.Bounded ∧ s.journal.Numbered ∧ s.CursorsOk

/-- Every value of a section lies within its item's range or codes, one value to an item (R150). -/
def Setup.SectOk (t : Setup) (x : Sect) : Prop :=
  (t.values x).length = x.items.length ∧ ∀ i, (h : i < x.items.length) → (x.items[i]).holds (t.item x i) = true

/-- Every value of the setup table lies within its item's range or codes (R150, R157). -/
def State.SetupOk (s : State) : Prop := ∀ x, s.setup.SectOk x

/-- The channel is in OFF, LISTEN or FAULT. -/
def ChState.resting : ChState → Bool
  | .off | .listen | .fault => true
  | .quiet | .pending _ | .inHit _ | .lockout _ => false

/-- A channel is in OFF, LISTEN or FAULT whenever the run is not active (R35). -/
def State.ChannelsRest (s : State) : Prop := s.runActive = false → ∀ c, (s.chan c).st.resting = true

/-- Each channel holds the fault state of the status line unit as its reported fault state (R170), and the fault state of a
channel in OFF is clear (R17, R169). -/
def State.FaultsAgree (s : State) : Prop :=
  ∀ c, (s.chan c).reportedFault = s.status.faults[c] ∧ ((s.chan c).st = .off → s.status.faults[c] = false)

/-- Every previous magnitude is at most 32,767 (R8) and every b16 at most 524,272 (R24, R56). -/
def State.MagnitudesOk (s : State) : Prop :=
  ∀ c : ChanId, s.intake.prev[c] ≤ 32767 ∧ (s.chan c).b16 ≤ 524272

/-- The pending group list holds at most 4 groups, each with a member (R59, R62); an OPEN group is the tail of the list (R59),
and a group lockout runs only while no group is OPEN (R66). -/
def Grouping.Ok (x : Grouping) : Prop :=
  x.groups.length ≤ 4 ∧ (∀ g ∈ x.groups, g.members ≠ []) ∧ (∀ g ∈ x.groups.dropLast, g.isOpen = false) ∧
    (x.lockout ≠ none → ∀ g ∈ x.groups, g.isOpen = false)

/-- The grouping engine's list is sound. -/
def State.GroupsOk (s : State) : Prop := s.grouping.Ok

/-- What a channel has in progress. -/
inductive InProgress where
  | nothing
  | candidate
  | hit
deriving DecidableEq, Repr

/-- A candidate in PENDING, a hit in IN_HIT, nothing in the other states (section 2.1). -/
def ChState.inProgress : ChState → InProgress
  | .pending _ => .candidate
  | .inHit _ => .hit
  | .off | .listen | .quiet | .lockout _ | .fault => .nothing

/-- What a member awaits from its channel: PENDING a confirmation, ACTIVE a completion, DONE nothing (R61). -/
def MemberState.awaits : MemberState → InProgress
  | .pending => .candidate
  | .active => .hit
  | .done _ => .nothing

/-- The engine agrees with what the channels have in progress: a placement is NONE exactly when its channel has nothing in
progress, a PENDING or ACTIVE member stands for what its channel has in progress and that channel is GROUPED, and a GROUPED channel
has such a member (R61, R62, R64, R68, R70). -/
def Grouping.Follows (x : Grouping) (work : ChanId → InProgress) : Prop :=
  (∀ c : ChanId, x.placement[c] = .none ↔ work c = .nothing) ∧
  (∀ g ∈ x.groups, ∀ m ∈ g.members, m.st.awaits ≠ .nothing →
    m.st.awaits = work m.ch ∧ x.placement[m.ch] = .grouped) ∧
  ∀ c : ChanId, x.placement[c] = .grouped → ∃ g ∈ x.groups, ∃ m ∈ g.members, m.ch = c ∧ m.st.awaits ≠ .nothing

/-- Placements and members agree with the channels. -/
def State.PlacementsOk (s : State) : Prop := s.grouping.Follows fun c => (s.chan c).st.inProgress

end Sys2Proof.Machine
end

