-- ==== Sys2Proof/Certificates/Slice0/Obligations.lean ====
section
/-! DEFINITION. The statements for the provers, and the few words they share: when a port executes a request, the state in
which it is answered, and the frame that a FRAME completes. Where a statement rests on a choice of the model, its docstring
names the log entry. -/

open Sys2Proof Sys2Proof.Machine

namespace Sys2Proof.Machine.Claims

/-- `n` bytes of a value, least significant byte first (R187). -/
def lsbFirst (n x : Nat) : List Byte := (List.range n).map fun i => BitVec.ofNat 8 (x / 256 ^ i)

/-- Port `p` is ready to execute the request `r` with `rest` behind it (R176, R177): the part is out of reset, `r` stands at
the head of the queue, no wait is outstanding and the response queue has room. -/
structure Ready (s : State) (p : Port) (r : Request) (rest : List Request) : Prop where
  released : s.resetHeld = false
  queue : (s.port p).requests = r :: rest
  room : (s.port p).responses.length < 4
  noWait : (s.port p).wait = none

/-- Port `p` is ready to execute the request `r` of code `code`, whose length is not one that LENGTH answers (R174). -/
structure Executes (s : State) (p : Port) (code : Nat) (r : Request) (rest : List Request) : Prop
    extends Ready s p r rest where
  code : r.code = BitVec.ofNat 8 code
  length : r.declared ≤ 1020

/-- The state with the request answered (R176): the response echoes tag and code and stands at the tail of the response
queue, and the request is gone from the request queue. -/
def answered (t : State) (p : Port) (r : Request) (rest : List Request) (x : Result) (payload : List Byte) : State :=
  t.withPort p
    { t.port p with requests := rest, responses := (t.port p).responses ++ [⟨r.tag, r.code, x, payload⟩] }

/-- The words of the frame that a FRAME completes: the first eighteen of its assertion of SFSY (R1; that the command carries
them as one list is log entry 4). -/
def frameOf (ws : List Word16) : List Word16 := ws.take 18

/-- The state that a command answers. Every command answers one (EveryCommandCompletes). -/
def ran (c : Instr) (s : State) : State :=
  match exec c s with
  | .next t => t
  | .fault _ | .refused _ => s

/-- A good frame: eighteen words that sum to 0 modulo 65,536 (R2). -/
def goodFrame (f : List Word16) : Prop := f.length = 18 ∧ (f.map BitVec.toNat).sum % 65536 = 0

/-- The frame number: the low 8 bits of word 0. -/
def numberOf (f : List Word16) : BitVec 8 := (f.getD 0 0).setWidth 8

/-- The ticks that a good frame of number `n` covers (R3, R4, R5). -/
def ticksCovered (seq : Option FrameSeq) (n : BitVec 8) : Nat :=
  match seq with
  | none => 1
  | some q => if n = q.expected then 1 else (n - q.expected).toNat + 1

/-- The magnitude of a sample (R8). -/
def magnitudeOf (w : Word16) : Nat := if w.toInt = -32768 then 32767 else w.toInt.natAbs

/-- The items of a received frame for a channel (R8, R9). -/
def sampleOf (f : List Word16) (gap : Bool) (c : ChanId) : Sample :=
  let w := f.getD (c.val + 1) 0
  ⟨magnitudeOf w, decide (w.toInt = 32767 ∨ w.toInt = -32768), gap⟩

/-- A MARK record (section 11.1): the clock in words 2 and 3, the kind and the two parts of the detail in words 4 and 5. -/
def mark (clock : Tick) (kind first second : Nat) : Offer where
  kind := .mark
  flags := 0
  body :=
    [ BitVec.ofNat 32 clock.toNat
    , BitVec.ofNat 32 (clock.toNat / 2 ^ 32)
    , BitVec.ofNat 32 (kind + 256 * first)
    , BitVec.ofNat 32 second ]

/-- The numbers of the thirteen notice sources (section 10.5). -/
def sourceNumber : Source → Nat
  | .autoHold => 1
  | .rupture => 2
  | .runState => 3
  | .tallyMode => 4
  | .channelFault => 5
  | .frameGap => 6
  | .clockWrap => 7
  | .setupChanged => 8
  | .lockChanged => 9
  | .resumption => 10
  | .loadStale => 11
  | .lineDown => 12
  | .ruptureEvidence => 13

/-- The codes of the rupture sources (R185). -/
def ruptureCode : RuptureSource → Nat
  | .group => 1
  | .groupLoad => 2
  | .portA => 3
  | .portB => 4

/-- The codes of the results (section 11.2). -/
def resultCode : Result → Nat
  | .ok => 0
  | .adjusted => 1
  | .unknown => 2
  | .length => 3
  | .state => 4
  | .stale => 5
  | .locked => 6
  | .range => 7
  | .timeout => 8
  | .cleared => 9
  | .detached => 10
  | .empty => 11

/-- The codes of the sections (R150). -/
def sectCode : Sect → Nat
  | .ch => 1
  | .gr => 2
  | .ac => 3
  | .ru => 4
  | .pt => 5

/-- The items of the sections with their ranges or codes and their defaults (R150). -/
def itemTable : Sect → List ItemSpec
  | .ch =>
    (List.replicate 16
      [ .codes 1 0, .codes 1 0, .numeric 1 32767 200, .numeric 8 255 24, .numeric 4 12 6, .numeric 1 15 1
      , .numeric 1 1023 64, .numeric 1 65535 200, .numeric 1 65535 400, .numeric 0 65535 1000, .numeric 1 16383 50
      , .numeric 0 15 4 ]).flatten
  | .gr => [.numeric 1 65535 500, .numeric 0 65535 0, .numeric 1 16 2, .codes 1 1]
  | .ac =>
    [ .numeric 1 65535 4096, .numeric 0 65535 0, .numeric 0 4294967295 0, .numeric 0 65535 0, .numeric 0 358 240
    , .numeric 1 8 2, .numeric 1 8 3, .numeric 1 65535 5000 ]
  | .ru => [.numeric 0 16 0, .codes 1 0, .numeric 1 255 192, .numeric 1 65535 5000, .numeric 0 65535 10000]
  | .pt =>
    List.replicate 13 (.codes 4 0) ++
      [.codes 8 0, .codes 1 0, .codes 8 0, .codes 1 0, .codes 8 0, .codes 1 0, .codes 1 0, .numeric 1 255 10]

/-- The TALLY record of the live tallies with a count of intervals covered (R104, section 11.1). -/
def tallyOf (j : Journal) (clock : Tick) (covered : Nat) : Offer where
  kind := .tally
  flags := ((allChannels.filter fun c => j.liveHits[c] ≠ 0).map fun c => 2 ^ c.val).sum
  body :=
    [ BitVec.ofNat 32 clock.toNat
    , BitVec.ofNat 32 (clock.toNat / 2 ^ 32 + covered * 65536)
    , BitVec.ofNat 32 j.liveGroups ] ++
      ((allChannels.filter fun c => j.liveHits[c] ≠ 0).map fun c =>
        [BitVec.ofNat 32 j.liveHits[c], BitVec.ofNat 32 j.liveEnergy[c]]).flatten

/-- The report that a channel's closing action makes (R37). -/
def closingReport (s : State) (c : ChanId) : Option Report :=
  match (s.chan c).st with
  | .pending _ => some (.withdrawn c .closing)
  | .inHit cand =>
    some (.completed c ({ cand with marks := { cand.marks with cut := true } }.finish (s.chan c).work.es))
  | .off | .listen | .quiet | .lockout _ | .fault => none

/-- The part after a declaration's own actions (R146, R147): flag and source, evidence discarded, the RUPTURE mark, the RUPTURE
notice, FINAL with its notice, and the post-window end. -/
def declared (s : State) (source : RuptureSource) (group : Option SeqNo) : State :=
  let k := s.intake.clock
  let s1 : State := { s with run := { s.run with rupture := some source, evidence := none } }
  let s2 := s1.offer (mark k 3 (ruptureCode source + 256 * if group = none then 0 else 1)
    (match group with | some g => g.toNat | none => 0))
  let s3 := s2.postWith .rupture 0 (BitVec.ofNat 32 (ruptureCode source))
  let s4 := (s3.withRun { s3.run with state := .final }).postWith .runState 0 2
  s4.withRun { s4.run with postEnd := some (k + BitVec.ofNat 48 (s.setup.item .ru 4 * 1024)) }

/-- The part after the first three steps of the closing event (R138): every channel has taken its closing action (R37), the
reports are taken in channel order (R79), every group is SETTLING and the lockout over, and the list is flushed (R80). -/
def flushed (s : State) : State :=
  let s0 : State :=
    { s with
      channels := Vector.ofFn fun c =>
        { s.chan c with
          st := if (s.chan c).st = .off ∨ (s.chan c).st = .fault then (s.chan c).st else .listen } }
  let s1 := (allChannels.filterMap (closingReport s)).foldl State.takeReport s0
  let settling := s1.grouping.groups.map fun g => { g with isOpen := false }
  let s2 : State := { s1 with grouping := { s1.grouping with groups := settling, lockout := none } }
  s2.emitStage true

/-- The part after the closing event with its cause as the mark carries it: 1 RUN STOP A, 2 RUN STOP B, 3 POST-WINDOW (R138,
R185). In tally mode the closing TALLY record, whose admission zeroes the tallies, with the count of intervals covered as it
stands and no exit test (R106); the RUN CLOSED mark; CLOSED with its RUN STATE notice (R134); the auto hold released, with its
notice when it was asserted (R130); evidence and post-window end discarded. -/
def closed (s : State) (cause : Nat) : State :=
  let k := s.intake.clock
  let s3 := flushed s
  let tally := tallyOf s3.journal k s3.journal.covered
  let s4 := s3.offer tally
  let zeroed : Journal :=
    { s4.journal with
      liveHits := Vector.replicate 16 0, liveEnergy := Vector.replicate 16 0, liveGroups := 0, covered := 0 }
  let s5 : State :=
    if s3.journal.tallyMode then
      if s3.journal.fill + tally.size ≤ 65536 then { s4 with journal := zeroed } else s4
    else s3
  let s6 := s5.offer (mark k 2 cause 0)
  let s7 := (s6.withRun { s6.run with state := .closed }).postWith .runState 0 3
  let s8 := s7.withRollup { s7.rollup with autoHold := false, met := 0, unmet := 0 }
  let s9 := if s.rollup.autoHold then s8.postWith .autoHold 0 0 else s8
  s9.withRun { s9.run with evidence := none, postEnd := none }

/-- The requests of a port, as commands. -/
def requestsOf (p : Port) : List Instr :=
  [ .unknown p, .length p, .identify p, .statusRead p, .clockRead p, .channelPeek p, .setupRead p, .setupWrite p
  , .setupLock p, .runStart p, .runStop p, .runClear p, .ruptureDeclare p, .loadPost p, .hold p, .journalAttach p
  , .journalDetach p, .journalFilter p, .journalRead p, .journalWait p, .noticesRead p ]

/-- The settings of a port that only its own requests change. -/
def sameSettings (s t : State) : Prop :=
  ∀ p, (t.port p).cursor = (s.port p).cursor ∧ (t.port p).kindMask = (s.port p).kindMask ∧
    (t.port p).chanMask = (s.port p).chanMask ∧ (t.port p).manual = (s.port p).manual ∧
    (t.port p).exchange = (s.port p).exchange ∧ (t.port p).overrun = (s.port p).overrun ∧
    (t.port p).short = (s.port p).short

end Sys2Proof.Machine.Claims

open Sys2Proof.Machine.Claims

/-! ### The machine as a whole -/

/-- The command at the front of the queue runs on the state with the queue's rest. On an empty queue the block idles, which
is the model's choice (log entry 2). -/
def Obligations.StepRunsFrontCommand : Prop :=
  (∀ (s : State) (c : Instr) (rest : List Instr), s.pending = c :: rest → step s = exec c { s with pending := rest }) ∧
  (∀ s : State, s.pending = [] → step s = .next s)

/-- Every command completes: none faults, none is refused, and none touches the queue of waiting commands. That a command of
the part's own answers as well where its condition does not hold is the model's choice (log entry 1), and so is that full reset
keeps the queue (log entry 3). -/
def Obligations.EveryCommandCompletes : Prop :=
  ∀ (c : Instr) (s : State), ∃ t, exec c s = .next t ∧ t.pending = s.pending

/-- Full reset leaves every block with the values of R14, R40, R81, R108, R131, R149, R162, R171 and R184; RESETn low holds
the part and power-on does not (log entry 3). -/
def Obligations.FullResetSetsEveryBlock : Prop :=
  ∀ (cause : ResetCause) (s : State), ∃ t, exec (.fullReset cause) s = .next t ∧
    t.resetHeld = decide (cause = .resetnLow) ∧ t.pending = s.pending ∧
    (t.intake.clock = 0 ∧ t.intake.seq = none ∧ t.intake.collecting = [] ∧ ∀ c : ChanId, t.intake.prev[c] = 0) ∧
    (∀ c, t.chan c = ⟨.off, 200, 0, 0, false, ⟨false, false, 200, 24, 6, 1, 64, 200, 400, 1000, 50, 4⟩⟩) ∧
    (t.grouping.groups = [] ∧ t.grouping.lockout = none ∧ t.grouping.work = none ∧
      ∀ c : ChanId, t.grouping.placement[c] = .none) ∧
    (t.journal.recs = [] ∧ t.journal.appendPoint = 0 ∧ t.journal.tallyMode = false ∧ t.journal.liveGroups = 0 ∧
      t.journal.covered = 0 ∧ ∀ c : ChanId, t.journal.liveHits[c] = 0 ∧ t.journal.liveEnergy[c] = 0) ∧
    t.rollup = ⟨none, none, 0, ⟨0, 0, 0, 0, 0⟩, 0, 0, 0, false, none, 0, false, false⟩ ∧
    t.run = ⟨.idle, none, none, none, none⟩ ∧
    (t.setup.ch = (List.replicate 16 [0, 0, 200, 24, 6, 1, 64, 200, 400, 1000, 50, 4]).flatten ∧
      t.setup.gr = [500, 0, 2, 1] ∧ t.setup.ac = [4096, 0, 0, 0, 240, 2, 3, 5000] ∧
      t.setup.ru = [0, 0, 192, 5000, 10000] ∧ t.setup.pt = List.replicate 20 0 ++ [10] ∧
      t.setup.generation = 0 ∧ t.setup.lockDetection = false ∧ t.setup.lockCriteria = false) ∧
    (t.status.lineMode = .continuous ∧ t.status.cycle = .idle ∧ t.status.refTick = none ∧ t.status.aborted = 0 ∧
      t.status.lineDown = false ∧
      ∀ c : ChanId, t.status.faults[c] = false ∧ t.status.debounce[c] = 0 ∧ t.status.reports[c] = none) ∧
    (∀ p, t.port p = ⟨[], [], false, false, [], none, none, 63, 65535, none, false⟩) ∧
    ∀ line, t.coHigh line = false

/-- The release of RESETn changes that level alone (R184), and while it is held low every other command changes nothing
(R1, R14, R171; log entry 3). -/
def Obligations.ResetHoldsThePart : Prop :=
  (∀ s : State, exec .resetRelease s = .next { s with resetHeld := false }) ∧
  (∀ (c : Instr) (s : State), s.resetHeld = true → (∀ cause, c ≠ .fullReset cause) → c ≠ .resetRelease →
    exec c s = .next s)

/-! ### Frame intake (chapter 1) -/

/-- A new assertion of SFSY discards a partial frame, and its own marked word is word 0 (R1): a PARTIAL_FRAME starts collection
with its word, a FRAME short of eighteen words stands in collection as it is, and neither has another effect; no word is no
assertion (the form of the operand: log entry 4). A bad frame (R2) and a duplicate (R4) change nothing but the collection. -/
def Obligations.DiscardedFramesChangeNothing : Prop :=
  ∀ s : State, s.resetHeld = false →
    (∀ w, exec (.partialFrame w) s = .next { s with intake := { s.intake with collecting := [w] } }) ∧
    exec (.frame []) s = .next s ∧
    ∀ ws : List Word16, ws ≠ [] →
      let f := frameOf ws
      (f.length < 18 → exec (.frame ws) s = .next { s with intake := { s.intake with collecting := ws } }) ∧
      (f.length = 18 → ¬ goodFrame f → exec (.frame ws) s = .next { s with intake := { s.intake with collecting := [] } }) ∧
      (goodFrame f → ∀ q, s.intake.seq = some q → numberOf f = q.last →
        exec (.frame ws) s = .next { s with intake := { s.intake with collecting := [] } })

/-- A good frame that is no duplicate moves the clock by its ticks (R3 to R5, R10), sets the sequence numbers (R3, R4) and
leaves the magnitudes of its samples as the previous magnitudes (R9), whatever part of a frame stood in collection (R1); the
setup table and the ports' settings stay. The form of the operand is log entry 4. -/
def Obligations.GoodFrameAdvancesTheIntake : Prop :=
  ∀ (s : State) (ws : List Word16), s.resetHeld = false →
    let f := frameOf ws
    let n := numberOf f
    goodFrame f → (∀ q, s.intake.seq = some q → n ≠ q.last) →
    ∃ t, exec (.frame ws) s = .next t ∧
      t.intake.clock = s.intake.clock + BitVec.ofNat 48 (ticksCovered s.intake.seq n) ∧
      t.intake.seq = some ⟨n, n + 1⟩ ∧ t.intake.collecting = [] ∧
      (∀ c : ChanId, t.intake.prev[c] = magnitudeOf (f.getD (c.val + 1) 0)) ∧
      t.setup = s.setup ∧ t.resetHeld = false ∧ t.pending = s.pending ∧ sameSettings s t

/-- What a good frame delivers: one tick with its own samples, and for a gap of d ticks first d synthetic ticks, then the
FRAME GAP mark and notice, then the tick of the frame with the gap mark set (R5, R6). The mark's clock is one beyond the
last synthetic tick, and the mark comes ahead of all of the received tick, a CLOCK WRAP at it included (log entry 11); the form of
the operand is log entry 4. -/
def Obligations.FrameDeliversItsTicks : Prop :=
  ∀ (s : State) (ws : List Word16), s.resetHeld = false →
    let f := frameOf ws
    let n := numberOf f
    let s0 : State := { s with intake := { s.intake with collecting := [] } }
    let number : State → State := fun t => t.withIntake { t.intake with seq := some ⟨n, n + 1⟩ }
    goodFrame f →
    (s.intake.seq = none → exec (.frame ws) s = .next (number (s0.deliverTick (sampleOf f false)))) ∧
    ∀ q, s.intake.seq = some q → n ≠ q.last →
      (n = q.expected → exec (.frame ws) s = .next (number (s0.deliverTick (sampleOf f false)))) ∧
      (n ≠ q.expected →
        let d := (n - q.expected).toNat
        let s1 := (fun t => t.deliverTick fun _ => ⟨0, false, true⟩)^[d] s0
        let s2 := (s1.offer (mark (s1.intake.clock + 1) 6 0 d)).postWith .frameGap 0 (BitVec.ofNat 32 d)
        exec (.frame ws) s = .next (number (s2.deliverTick (sampleOf f true))))

/-- The wrap of the clock from 2^48 − 1 to 0 with its mark and notice (R12), and what falls due at a tick: the stale watch with
its notice (R125), the lapse of evidence (R144) and the post-window end, which closes the run with cause 3
POST-WINDOW (R138, R147, R185). At any other moment the
commands change nothing (log entry 1). -/
def Obligations.WrapAndTimedEventsFallDue : Prop :=
  ∀ s : State, s.resetHeld = false →
    let k := s.intake.clock
    let reference := match s.rollup.load with | some l => some l.tick | none => s.run.startTick
    let late := ∃ r, reference = some r ∧ s.setup.item .ac 7 * 1024 ≤ (k - r).toNat
    (k.toNat = 2 ^ 48 - 1 →
      exec .clockWrap s =
        .next (({ s with intake := { s.intake with clock := 0 } }.offer (mark 0 7 0 0)).postWith .clockWrap 0 0)) ∧
    (k.toNat ≠ 2 ^ 48 - 1 → exec .clockWrap s = .next s) ∧
    (s.rollup.stale = false → late →
      exec .loadStale s = .next ({ s with rollup := { s.rollup with stale := true } }.postWith .loadStale 0 1)) ∧
    (s.rollup.stale = true ∨ ¬ late → exec .loadStale s = .next s) ∧
    (∀ e, s.run.evidence = some e → e.deadline = k →
      exec .evidenceLapse s = .next { s with run := { s.run with evidence := none } }) ∧
    ((∀ e, s.run.evidence = some e → e.deadline ≠ k) → exec .evidenceLapse s = .next s) ∧
    (s.run.state = .running ∨ s.run.state = .final → s.run.postEnd = some k →
      exec .postWindowEnd s = .next (closed s 3)) ∧
    ((s.run.state ≠ .running ∧ s.run.state ≠ .final) ∨ s.run.postEnd ≠ some k → exec .postWindowEnd s = .next s)

/-- What the delivery of a tick does, block by block in the order of the rules (R9, R10, R16, R60, R100, R112, R138): the clock
with its wrap, the part's own start of a status cycle, the stale check, the lapse of evidence; every channel handles the items
handed to it, its previous magnitude among them, under its CH entry, which is items 12c to 12c + 11 of the CH section in the order
of R150 (R20), and the magnitudes become the previous ones; the grouping engine takes the
reports in channel order; the rollup, the post-window end, the timeouts of the waits of Port A and Port B. Each event is the one
its own command makes. The order of what comes before the channels is the model's choice (log entry 6). -/
def Obligations.TickIsDeliveredInOrder : Prop :=
  ∀ (s : State) (xs : ChanId → Sample), s.resetHeld = false →
    let s1 := if s.intake.clock.toNat = 2 ^ 48 - 1 then ran .clockWrap s
      else { s with intake := { s.intake with clock := s.intake.clock + 1 } }
    let s2 := ran .evidenceLapse (ran .loadStale (ran .statusCycleStart s1))
    let stamp : LoadStamp :=
      match s2.rollup.load with
      | some l => ⟨l.value, s2.rollup.stale⟩
      | none => ⟨0, true⟩
    let active := decide (s.run.state = .running ∨ s.run.state = .final)
    let entry : ChanId → ChParams := fun c =>
      let item := fun i => s.setup.item .ch (12 * c.val + i)
      { enable := decide (item 0 = 1), floating := decide (item 1 = 1), tfix := item 2, fm := item 3, bs := item 4
        qc := item 5, qs := item 6, pdt := item 7, hdt := item 8, hlt := item 9, maxd := item 10, es := item 11 }
    let handled : ChanId → Channel × Option Report := fun c =>
      (s.chan c).tick c (s.intake.clock + 1) (entry c) active stamp
        ⟨(xs c).m, s.intake.prev[c], (xs c).sat, (xs c).gap⟩
    let s3 : State :=
      { s2 with
        channels := Vector.ofFn fun c => (handled c).1
        intake := { s2.intake with prev := Vector.ofFn fun c => (xs c).m } }
    let s4 := s3.groupingStages (allChannels.filterMap fun c => (handled c).2)
    s.deliverTick xs = ran (.waitTimeout .b) (ran (.waitTimeout .a) (ran .postWindowEnd (ran .rollup s4)))

/-- The magnitude and the saturated flag of every sample of a frame (R8). -/
def Obligations.SampleMagnitudeAndSaturation : Prop :=
  (∀ w : Word16, magnitude w = (if w.toInt = -32768 then 32767 else w.toInt.natAbs) ∧ magnitude w ≤ 32767 ∧
    (saturated w = true ↔ w.toInt = 32767 ∨ w.toInt = -32768)) ∧
  (∀ (f : List Word16) (gap : Bool) (c : ChanId),
    receivedSample f gap c = ⟨magnitude (f.getD (c.val + 1) 0), saturated (f.getD (c.val + 1) 0), gap⟩) ∧
  ∀ (s : State) (f : List Word16) (gap : Bool) (c : ChanId),
    (s.handed (receivedSample f gap) c).m = magnitude (f.getD (c.val + 1) 0) ∧
    (s.handed (receivedSample f gap) c).sat = saturated (f.getD (c.val + 1) 0)


/-! ### Channel units (chapters 2 and 3) -/

/-- Fault arrival by the state of the channel (R17) and the clearance of a fault (R18); with no fault reported, or none
cleared, nothing changes (log entry 1). The withdrawal or completion is handed to the grouping engine. -/
def Obligations.FaultArrivalAndClearance : Prop :=
  ∀ (s : State) (c : ChanId), s.resetHeld = false →
    let ch := s.chan c
    (ch.reportedFault = true →
      (ch.st = .off ∨ ch.st = .fault → exec (.faultArrival c) s = .next s) ∧
      (ch.st = .listen ∨ ch.st = .quiet ∨ (∃ e, ch.st = .lockout e) →
        exec (.faultArrival c) s = .next (s.withChan c { ch with st := .fault })) ∧
      (∀ cand, ch.st = .pending cand →
        exec (.faultArrival c) s =
          .next ((s.withChan c { ch with st := .fault }).takeReport (.withdrawn c .fault))) ∧
      (∀ cand, ch.st = .inHit cand →
        exec (.faultArrival c) s =
          .next ((s.withChan c { ch with st := .fault }).takeReport
            (.completed c ({ cand with marks := { cand.marks with fault := true } }.finish ch.work.es))))) ∧
    (ch.reportedFault = false → exec (.faultArrival c) s = .next s) ∧
    (ch.st = .fault → ch.reportedFault = false →
      exec (.faultCleared c) s =
        .next (s.withChan c { ch with
          st := if s.run.state = .running ∨ s.run.state = .final then .quiet else .listen })) ∧
    (ch.st ≠ .fault ∨ ch.reportedFault = true → exec (.faultCleared c) s = .next s)

/-- The peak freezes when more than PDT ticks have passed since its tick (R27), and a lockout ends at its end tick (R34). A
PENDING candidate that is not confirmed and whose span has run out, or whose signal has stayed below threshold for HDT ticks, is
a glitch: the channel returns to QUIET with its glitch count risen, saturating, and the withdrawal is reported (R29, R30). At any
other moment the commands change nothing (log entry 1). -/
def Obligations.PeakGlitchAndLockoutEnd : Prop :=
  ∀ (s : State) (c : ChanId), s.resetHeld = false →
    let ch := s.chan c
    let late : Candidate → Bool := fun cand => decide (ch.work.pdt < (s.intake.clock - cand.kPeak).toNat)
    (∀ cand, ch.st = .pending cand →
      exec (.peakFreeze c) s =
        .next (s.withChan c { ch with st := .pending { cand with frozen := cand.frozen || late cand } })) ∧
    (∀ cand, ch.st = .inHit cand →
      exec (.peakFreeze c) s =
        .next (s.withChan c { ch with st := .inHit { cand with frozen := cand.frozen || late cand } })) ∧
    ((∀ cand, ch.st ≠ .pending cand ∧ ch.st ≠ .inHit cand) → exec (.peakFreeze c) s = .next s) ∧
    (ch.st = .lockout s.intake.clock → exec (.lockoutEnd c) s = .next (s.withChan c { ch with st := .quiet })) ∧
    (ch.st ≠ .lockout s.intake.clock → exec (.lockoutEnd c) s = .next s) ∧
    (∀ cand, ch.st = .pending cand →
      let span := (s.intake.clock - cand.kFirst).toNat
      let below := (s.intake.clock - cand.kLast).toNat
      let glitch := ¬ (ch.work.qc ≤ cand.counts ∧ span < ch.work.qs) ∧ (ch.work.qs ≤ span ∨ below = ch.work.hdt)
      (glitch → exec (.glitch c) s =
        .next ((s.withChan c { ch with st := .quiet, glitches := min 65535 (ch.glitches + 1) }).takeReport
          (.withdrawn c .glitch))) ∧
      (¬ glitch → exec (.glitch c) s = .next s)) ∧
    ((∀ cand, ch.st ≠ .pending cand) → exec (.glitch c) s = .next s)

/-- The normal end of a hit at HDT and its forced end at MAXD × 1,024 ticks, which commits the trailing sum and sets TRUNC;
the hit is finished and reported, and the channel enters LOCKOUT for HLT ticks, or QUIET when HLT is 0 (R31 to R33, R53). At
any other moment the commands change nothing (log entry 1). -/
def Obligations.HitsEndNormallyOrByForce : Prop :=
  ∀ (s : State) (c : ChanId), s.resetHeld = false →
    let ch := s.chan c
    let k := s.intake.clock
    let after : Channel :=
      { ch with st := if 1 ≤ ch.work.hlt then .lockout (k + BitVec.ofNat 48 ch.work.hlt) else .quiet }
    (∀ cand, ch.st = .inHit cand →
      let normal := (k - cand.kLast).toNat = ch.work.hdt
      let forced := (k - cand.kFirst).toNat + 1 = ch.work.maxd * 1024
      (normal → exec (.hitEnd c) s =
        .next ((s.withChan c after).takeReport (.completed c (cand.finish ch.work.es)))) ∧
      (¬ normal → exec (.hitEnd c) s = .next s) ∧
      (forced → ¬ normal → exec (.hitTrunc c) s =
        .next ((s.withChan c after).takeReport (.completed c
          ({ cand with
              sum := cand.sum + cand.trailing, trailing := 0, kLast := k
              marks := { cand.marks with trunc := true } }.finish ch.work.es)))) ∧
      (¬ forced ∨ normal → exec (.hitTrunc c) s = .next s)) ∧
    ((∀ cand, ch.st ≠ .inHit cand) → exec (.hitEnd c) s = .next s ∧ exec (.hitTrunc c) s = .next s)

/-- A channel's handling of a tick in every state (R16 to R34). A reported fault ends what is in progress, and the channel enters
FAULT (R17), where it stays (R19); a clear one lets it leave FAULT (R18). OFF, LISTEN and QUIET, and a channel leaving FAULT, take
up their parameters with the recomputed threshold (R20 to R22): LISTEN moves the estimate (R23), QUIET moves it or starts a
candidate, confirmed at once with Qc of 1 (R24 to R26). PENDING gathers the sample and is confirmed, a glitch, or stays (R27 to
R30); IN_HIT gathers it and ends normally, by force, or stays (R31 to R33); LOCKOUT ends at its tick (R34). -/
def Obligations.ChannelHandlesATick : Prop :=
  ∀ (ch : Channel) (c : ChanId) (k : Tick) (w : ChParams) (active : Bool) (load : LoadStamp) (x : Handed),
    let result := ch.tick c k w active load x
    let t := threshold w ch.b16
    let taken : Channel := { ch with work := w, t := t }
    let frac := if x.prev < t then 16 * (t - x.prev) / (x.m - x.prev) else 16
    let cand : Candidate :=
      { kFirst := k, arrival := BitVec.ofNat 52 (16 * (k - 1).toNat + frac), counts := 1, peak := x.m, kPeak := k
        frozen := false, kLast := k, sum := x.m, trailing := 0
        marks := { coarse := decide (t ≤ x.prev), sat := x.sat, gap := x.gap, loadStale := load.stale }
        load := load.value }
    let b := estimate ch.b16 x.m w.bs
    let off : Channel × Option Report := ({ taken with st := .off }, none)
    let listen : Channel × Option Report := ({ taken with st := .listen, b16 := b, t := threshold w b }, none)
    let quiet : Channel × Option Report :=
      if x.m < t then ({ taken with st := .quiet, b16 := b, t := threshold w b }, none)
      else if w.qc = 1 then ({ taken with st := .inHit cand }, some (.started c cand.arrival k true))
      else ({ taken with st := .pending cand }, some (.started c cand.arrival k false))
    let waiting := if active then quiet else listen
    (ch.st = .off → result = if w.enable then waiting else off) ∧
    (ch.reportedFault = true →
      (ch.st = .fault → result = (ch, none)) ∧
      (ch.st = .listen ∨ ch.st = .quiet ∨ (∃ e, ch.st = .lockout e) → result = ({ ch with st := .fault }, none)) ∧
      (∀ y, ch.st = .pending y → result = ({ ch with st := .fault }, some (.withdrawn c .fault))) ∧
      (∀ y, ch.st = .inHit y →
        result = ({ ch with st := .fault },
          some (.completed c ({ y with marks := { y.marks with fault := true } }.finish ch.work.es))))) ∧
    (ch.reportedFault = false →
      (ch.st = .fault → result = if w.enable then waiting else off) ∧
      (ch.st = .listen → result = if w.enable then listen else off) ∧
      (ch.st = .quiet → result = if w.enable then quiet else off) ∧
      (∀ e, ch.st = .lockout e → result = (if e = k then { ch with st := .quiet } else ch, none)) ∧
      (∀ y, ch.st = .pending y →
        let g := y.gather k ch.work.pdt ch.t x
        let span := (k - y.kFirst).toNat
        result =
          if ch.work.qc ≤ g.counts ∧ span < ch.work.qs then ({ ch with st := .inHit g }, some (.confirmed c))
          else if ch.work.qs ≤ span ∨ (k - g.kLast).toNat = ch.work.hdt then
            ({ ch with st := .quiet, glitches := min 65535 (ch.glitches + 1) }, some (.withdrawn c .glitch))
          else ({ ch with st := .pending g }, none)) ∧
      ∀ y, ch.st = .inHit y →
        let g := y.gather k ch.work.pdt ch.t x
        let after : Channel :=
          { ch with st := if 1 ≤ ch.work.hlt then .lockout (k + BitVec.ofNat 48 ch.work.hlt) else .quiet }
        result =
          if (k - g.kLast).toNat = ch.work.hdt then (after, some (.completed c (g.finish ch.work.es)))
          else if (k - y.kFirst).toNat + 1 = ch.work.maxd * 1024 then
            (after, some (.completed c
              ({ g with
                  sum := g.sum + g.trailing, trailing := 0, kLast := k
                  marks := { g.marks with trunc := true } }.finish ch.work.es)))
          else ({ ch with st := .inHit g }, none))

/-- What a candidate gathers at a tick, in the order of R27: the freeze test before the comparison of the peak, the energy
sums, the crossing and the marks; nothing else of its record changes. -/
def Obligations.CandidateGathersASample : Prop :=
  ∀ (cand : Candidate) (k : Tick) (pdt t : Nat) (x : Handed),
    let frozen := cand.frozen || decide (pdt < (k - cand.kPeak).toNat)
    let raised := !frozen && decide (cand.peak < x.m)
    let above := decide (t ≤ x.m)
    cand.gather k pdt t x =
      { kFirst := cand.kFirst
        arrival := cand.arrival
        counts := if above && decide (x.prev < t) then min 65535 (cand.counts + 1) else cand.counts
        peak := if raised then x.m else cand.peak
        kPeak := if raised then k else cand.kPeak
        frozen := frozen
        kLast := if above then k else cand.kLast
        sum := if above then cand.sum + cand.trailing + x.m else cand.sum
        trailing := if above then 0 else cand.trailing + x.m
        marks := { cand.marks with sat := cand.marks.sat || x.sat, gap := cand.marks.gap || x.gap }
        load := cand.load }

/-- The arrival fraction and its extremes (R44, R45), the arrival modulo 2^52 (R46), and the features that finishing forms
(R49, R51, R52, R55). -/
def Obligations.ArrivalAndFinishedFeatures : Prop :=
  (∀ t m0 m1, m0 < t → t ≤ m1 →
    arrivalFraction t m0 m1 = 16 * (t - m0) / (m1 - m0) ∧ arrivalFraction t m0 m1 ≤ 16 ∧
    (arrivalFraction t m0 m1 = 16 ↔ m1 = t) ∧ (arrivalFraction t m0 m1 = 0 ↔ 16 * (t - m0) < m1 - m0)) ∧
  (∀ t m0 m1, t ≤ m0 → arrivalFraction t m0 m1 = 16) ∧
  (∀ (k : Tick) (frac : Nat), (arrivalAt k frac).toNat = (16 * (k - 1).toNat + frac) % 2 ^ 52) ∧
  ∀ (cand : Candidate) (es : Nat),
    let f := cand.finish es
    f.arrival = cand.arrival ∧ f.counts = cand.counts ∧ f.peak = cand.peak ∧ f.amp = ampCode cand.peak ∧
    f.load = cand.load ∧ f.duration = (cand.kLast - cand.kFirst).toNat + 1 ∧
    f.rise = min 65535 (cand.kPeak - cand.kFirst).toNat ∧
    f.energy = min 4294967295 (cand.sum / 2 ^ es) ∧
    f.marks = { cand.marks with esat := decide (4294967295 < cand.sum / 2 ^ es) }

/-- The amplitude code of a peak from 1 to 32,767 (R47): 24 to the octave and the table F, from 0 to 358, and a larger peak
never gives a smaller code; finishing forms it from the peak. -/
def Obligations.AmplitudeCodeIsMonotone : Prop :=
  (∀ p, 1 ≤ p → p ≤ 32767 → ∃ h ≤ 14, 2 ^ h ≤ p ∧ p < 2 ^ (h + 1) ∧ p * 8 / 2 ^ h - 8 ≤ 7 ∧
    ampCode p = 24 * h + [0, 4, 8, 11, 14, 17, 19, 22].getD (p * 8 / 2 ^ h - 8) 0 ∧ ampCode p ≤ 358) ∧
  (∀ p q, 1 ≤ p → p ≤ q → q ≤ 32767 → ampCode p ≤ ampCode q) ∧
  ampCode 1 = 0 ∧ ampCode 32767 = 358 ∧ ∀ (cand : Candidate) (es : Nat), (cand.finish es).amp = ampCode cand.peak

/-- The estimator rounds toward minus infinity, never passes sixteen times the magnitude, falls by at least 1 and rests up to
2^BS − 1 short when it rises (R56); the threshold is Tfix in fixed mode, the clamped product in floating mode, and lies from
Tfix to 32,767 (R22, R57, R58). -/
def Obligations.EstimatorAndThresholdStayInRange : Prop :=
  (∀ b m bs : Nat, b ≤ 524272 → m ≤ 32767 →
    ((estimate b m bs : Nat) : Int) = (b : Int) + Int.fdiv (16 * (m : Int) - b) (2 ^ bs) ∧
    estimate b m bs ≤ 524272 ∧
    (16 * m < b → 16 * m ≤ estimate b m bs ∧ estimate b m bs < b) ∧
    (b ≤ 16 * m → b ≤ estimate b m bs ∧ estimate b m bs ≤ 16 * m) ∧
    (b ≤ 16 * m → 16 * m - b < 2 ^ bs → estimate b m bs = b)) ∧
  ∀ (w : ChParams) (b : Nat),
    (w.floating = false → threshold w b = w.tfix) ∧
    (w.floating = true → threshold w b = min 32767 (max w.tfix (b * w.fm / 128))) ∧
    (w.tfix ≤ 32767 → w.tfix ≤ threshold w b ∧ threshold w b ≤ 32767)

/-! ### Grouping (chapter 4) -/

/-- What the grouping engine does with a confirmation, a withdrawal and a completion, by the channel's placement (R61, R62,
R70): a member's state, its removal with a group left empty, or a HIT record or live tally with the interval counters. A start
is left to the second stage (R60). -/
def Obligations.ReportsReachTheEngine : Prop :=
  ∀ (s : State) (c : ChanId) (why : Withdrawal) (f : Features),
    let g := s.grouping
    let turn : (Member → Bool) → MemberState → List Group := fun test st =>
      g.groups.map fun x => { x with members := x.members.map fun m => if test m then { m with st := st } else m }
    let kept : List Group := (g.groups.map fun x =>
      { x with members := x.members.filter fun m => !(m.ch = c && m.st = .pending) }).filter fun x => x.members ≠ []
    (∀ arrival tick confirmed, s.takeReport (.started c arrival tick confirmed) = s) ∧
    (g.placement[c] = .none → s.takeReport (.confirmed c) = s ∧ s.takeReport (.withdrawn c why) = s ∧
      s.takeReport (.completed c f) = s) ∧
    (g.placement[c] = .grouped →
      s.takeReport (.confirmed c) =
        { s with grouping := { g with groups := turn (fun m => m.ch = c && m.st = .pending) .active } } ∧
      s.takeReport (.withdrawn c why) =
        { s with grouping := { g with groups := kept, placement := g.placement.set c .none } } ∧
      s.takeReport (.completed c f) =
        { s with grouping :=
          { g with
            groups := turn (fun m => m.ch = c && m.st = .active) (.done f)
            placement := g.placement.set c .none } }) ∧
    ∀ reason, g.placement[c] = .ungrouped reason →
      s.takeReport (.confirmed c) = s ∧
      s.takeReport (.withdrawn c why) = { s with grouping := { g with placement := g.placement.set c .none } } ∧
      let j := s.journal
      let s1 : State :=
        if j.tallyMode then
          { s with journal :=
            { j with
              liveHits := j.liveHits.set c (min 4294967295 (j.liveHits[c] + 1))
              liveEnergy := j.liveEnergy.set c (min 4294967295 (j.liveEnergy[c] + f.energy)) } }
        else s.offer (hitOffer c reason f)
      s.takeReport (.completed c f) =
        (s1.withRollup (s1.rollup.countHit f)).withGrouping { g with placement := g.placement.set c .none }

/-- The OPEN group's window closes once the tick's end is at or after its limit, from the tick after its opening on, with the
group lockout when GL is 1 or more (R65), and the group lockout ends at its end tick (R66); at any other moment the commands
change nothing (log entry 1). -/
def Obligations.WindowCloseAndGroupLockoutEnd : Prop :=
  ∀ s : State, s.resetHeld = false →
    let x := s.grouping
    let k := s.intake.clock
    ((∀ g ∈ x.groups, g.isOpen = false) → exec .windowClose s = .next s) ∧
    (∀ (older : List Group) (g : Group), x.groups = older ++ [g] → (∀ y ∈ older, y.isOpen = false) → g.isOpen = true →
      let due := g.opened ≠ k ∧ (BitVec.ofNat 52 (16 * k.toNat) - g.limit).toNat < 2 ^ 51
      (due → exec .windowClose s =
        .next { s with grouping :=
          { x with
            groups := older ++ [{ g with isOpen := false }]
            lockout := if 1 ≤ g.gl then some (k + BitVec.ofNat 48 g.gl) else x.lockout } }) ∧
      (¬ due → exec .windowClose s = .next s)) ∧
    (x.lockout = some k → exec .groupLockoutEnd s = .next { s with grouping := { x with lockout := none } }) ∧
    (x.lockout ≠ some k → exec .groupLockoutEnd s = .next s)

/-- The second stage for one start (R64): not placed without an OPEN group or after its limit, REPEAT for a channel already a
member, and otherwise a member at the end of the list, ACTIVE when it was reported confirmed. The opening point (R67, R68): the
first condition of the table decides, under the GR values taken up, which are items 0 to 3 of the GR section; a group opened
holds the tick of its start. -/
def Obligations.StartsJoinOrReachTheOpeningPoint : Prop :=
  (∀ (x : Grouping) (later : List Start) (st : Start),
      ((∀ g ∈ x.groups, g.isOpen = false) → joinStart (x, later) st = (x, later ++ [st])) ∧
      ∀ (older : List Group) (g : Group), x.groups = older ++ [g] → (∀ y ∈ older, y.isOpen = false) → g.isOpen = true →
        let within := (g.limit - st.arrival).toNat < 2 ^ 51
        let member := ∃ m ∈ g.members, m.ch = st.ch
        (¬ within → joinStart (x, later) st = (x, later ++ [st])) ∧
        (within → member →
          joinStart (x, later) st =
            ({ x with placement := x.placement.set st.ch (.ungrouped .repeated) }, later)) ∧
        (within → ¬ member →
          joinStart (x, later) st =
            ({ x with
                placement := x.placement.set st.ch .grouped
                groups := older ++ [{ g with
                  members := g.members ++ [⟨st.ch, st.arrival, if st.confirmed then .active else .pending⟩] }] }, later))) ∧
  (∀ t : Setup, t.grouping = ⟨t.item .gr 0, t.item .gr 1, t.item .gr 2, decide (t.item .gr 3 = 1)⟩) ∧
  ∀ (x : Grouping) (gr : GrParams) (st : Start),
    let y : Grouping := { x with work := some gr }
    let member : Member := ⟨st.ch, st.arrival, if st.confirmed then .active else .pending⟩
    let left : Reason → Grouping := fun why => { y with placement := x.placement.set st.ch (.ungrouped why) }
    ((∀ g ∈ x.groups, g.isOpen = false) →
      (gr.enable = false → Grouping.openingPoint gr x st = left .disabled) ∧
      (gr.enable = true → x.lockout ≠ none → Grouping.openingPoint gr x st = left .lockout) ∧
      (gr.enable = true → x.lockout = none → x.groups.length < 4 →
        Grouping.openingPoint gr x st =
          { y with
            placement := x.placement.set st.ch .grouped
            groups := x.groups ++
              [⟨true, st.tick, st.arrival, st.arrival + BitVec.ofNat 52 (16 * gr.w), gr.gl, gr.lmin, [member]⟩] }) ∧
      (gr.enable = true → x.lockout = none → 4 ≤ x.groups.length → Grouping.openingPoint gr x st = left .full)) ∧
    ∀ (older : List Group) (g : Group), x.groups = older ++ [g] → (∀ z ∈ older, z.isOpen = false) → g.isOpen = true →
      Grouping.openingPoint gr x st =
        { y with
          placement := x.placement.set st.ch .grouped
          groups := older ++ [{ g with members := g.members ++ [member] }] }

namespace Sys2Proof.Machine.Claims

/-- The marks of a hit as a byte, in the order of the marks table (section 11.1). -/
def markByte (m : Marks) : Nat :=
  (if m.coarse then 1 else 0) + (if m.sat then 2 else 0) + (if m.gap then 4 else 0) + (if m.loadStale then 8 else 0) +
    (if m.trunc then 16 else 0) + (if m.fault then 32 else 0) + (if m.cut then 64 else 0) + if m.esat then 128 else 0

/-- The ungrouped reasons by their codes (section 11.1). -/
def reasonCode : Reason → Nat
  | .disabled => 1
  | .repeated => 2
  | .lockout => 3
  | .full => 4

/-- A member entry of a GROUP record (section 11.1). -/
def memberWords (first : SubTick) (e : Emitted) : List Word32 :=
  [ BitVec.ofNat 32 (e.ch.val + 256 * e.f.amp + 2 ^ 24 * markByte e.f.marks), BitVec.ofNat 32 (e.arrival - first).toNat
  , BitVec.ofNat 32 e.f.duration, BitVec.ofNat 32 e.f.energy, BitVec.ofNat 32 (e.f.counts + 65536 * e.f.rise) ]

end Sys2Proof.Machine.Claims

/-- The members of an emitted group stand in order of arrival from A_open and, among equal arrivals, of channel, and are the
group's DONE members (R72); the words of the HIT and GROUP records (R73, R74, R78, section 11.1), and the sizes of all six kinds
(R104, R119, R124, section 11.1). -/
def Obligations.EmittedOrderAndRecords : Prop :=
  (∀ g : Group,
    g.emitted.Pairwise (fun a b =>
      (a.arrival - g.aOpen).toNat < (b.arrival - g.aOpen).toNat ∨
      (a.arrival = b.arrival ∧ a.ch.val ≤ b.ch.val)) ∧
    g.emitted.Perm (g.members.filterMap fun m =>
      match m.st with
      | .done f => some ⟨m.ch, m.arrival, f⟩
      | .pending | .active => none)) ∧
  (∀ c why f, hitOffer c why f =
    ⟨.hit, 2 ^ c.val,
      [ BitVec.ofNat 32 f.arrival.toNat, BitVec.ofNat 32 (f.arrival.toNat / 2 ^ 32)
      , BitVec.ofNat 32 (c.val + 256 * f.amp + 2 ^ 24 * reasonCode why), BitVec.ofNat 32 (f.counts + 65536 * f.rise)
      , BitVec.ofNat 32 f.duration, BitVec.ofNat 32 f.energy, BitVec.ofNat 32 f.load
      , BitVec.ofNat 32 (markByte f.marks) ]⟩) ∧
  (∀ (loc : Bool) (e : Emitted) (es : List Emitted),
    let o := groupOffer loc (e :: es)
    let all := e :: es
    o.kind = .group ∧ (∀ c : ChanId, (BitVec.ofNat 16 o.flags).getLsbD c.val = true ↔ ∃ x ∈ all, x.ch = c) ∧
    o.body =
      [ BitVec.ofNat 32 e.arrival.toNat, BitVec.ofNat 32 (e.arrival.toNat / 2 ^ 32)
      , BitVec.ofNat 32 (all.length + (if loc then 256 else 0) + 65536 * all.countP fun x => x.f.marks.sat)
      , BitVec.ofNat 32 (e.f.load + if e.f.marks.loadStale then 2 ^ 24 else 0) ] ++
        (all.map (memberWords e.arrival)).flatten) ∧
  (∀ (loc : Bool) (es : List Emitted), (groupOffer loc es).size = 6 + 5 * es.length) ∧
  (∀ c why f, (hitOffer c why f).size = 10) ∧
  (∀ k v p, (loadOffer k v p).size = 5) ∧
  (∀ k a b d, (markOffer k a b d).size = 6) ∧
  (∀ (x : Rollup) k m q, (x.activityOffer k m q).size = 13) ∧
  ∀ (j : Journal) k, (j.tallyOffer k).size = 5 + 2 * (allChannels.countP fun c => j.liveHits[c] ≠ 0)

/-- An emission outside tally mode offers the GROUP record of its members in order, with the locatable flag set at the group's own
Lmin or more members (R73, R74); in tally mode it adds each member to its channel's live tallies and the group to the live group
count, and offers nothing (R75). In either it hands the group to the interval counters: 1 group, 1 locatable group by the same
flag, the hits, their energies and those at or above HA, each saturating (R76, R113). -/
def Obligations.EmissionIsRecordedAndCounted : Prop :=
  (∀ (s : State) (g : Group),
    let es := g.emitted
    let t := s.emit true g
    let j := s.journal
    (j.tallyMode = false →
      let u := s.offer (groupOffer (decide (g.lmin ≤ es.length)) es)
      t.journal = u.journal ∧ ∀ p, t.port p = u.port p) ∧
    (j.tallyMode = true →
      (∀ p, t.port p = s.port p) ∧ t.journal.recs = j.recs ∧ t.journal.appendPoint = j.appendPoint ∧
      t.journal.tallyMode = true ∧ t.journal.covered = j.covered ∧
      t.journal.liveGroups = min 4294967295 (j.liveGroups + 1) ∧
      ∀ c : ChanId, j.liveHits[c] ≤ 4294967295 → j.liveEnergy[c] ≤ 4294967295 →
        let mine := es.filter fun e => e.ch = c
        t.journal.liveHits[c] = min 4294967295 (j.liveHits[c] + mine.length) ∧
        t.journal.liveEnergy[c] = min 4294967295 (j.liveEnergy[c] + (mine.map fun e => e.f.energy).sum))) ∧
  ∀ (s : State) (closing : Bool) (g : Group) (w : AcParams),
    let x := s.rollup.counters
    let es := g.emitted
    s.rollup.work = some w →
    x.hits ≤ 4294967295 → x.energy ≤ 4294967295 → x.high ≤ 4294967295 →
    (s.emit closing g).rollup =
      { s.rollup with counters :=
        { groups := min 4294967295 (x.groups + 1)
          locatable := min 4294967295 (x.locatable + if g.lmin ≤ es.length then 1 else 0)
          hits := min 4294967295 (x.hits + es.length)
          energy := min 4294967295 (x.energy + (es.map fun e => e.f.energy).sum)
          high := min 4294967295 (x.high + es.countP fun e => w.ha ≤ e.f.amp) } }

namespace Sys2Proof.Machine.Claims

/-- The group is complete: SETTLING with every member DONE (section 4.1). -/
def completeGroup (g : Group) : Prop := g.isOpen = false ∧ ∀ m ∈ g.members, ∃ f, m.st = .done f

end Sys2Proof.Machine.Claims

/-- The five stages of a tick in their order (R60): the reports, the joins of the starts, the window close, the emissions, and the
opening point for the starts not placed, under items 0 to 3 of the GR section, with the lockout's end. The starts are taken in
order of arrival fraction and of channel among equal fractions (R63). Emission goes on from the head of the list until a group
that is not complete (R71). -/
def Obligations.StagesRunInOrder : Prop :=
  (∀ (s : State) (rs : List Report), s.resetHeld = false →
    let k := s.intake.clock
    let gr : GrParams :=
      ⟨s.setup.item .gr 0, s.setup.item .gr 1, s.setup.item .gr 2, decide (s.setup.item .gr 3 = 1)⟩
    let s1 := rs.foldl State.takeReport s
    let joined := (startsOf k rs).foldl joinStart (s1.grouping, [])
    let s2 := (ran .windowClose { s1 with grouping := joined.1 }).emitStage false
    s.groupingStages rs =
      ran .groupLockoutEnd { s2 with grouping := joined.2.foldl (Grouping.openingPoint gr) s2.grouping }) ∧
  (∀ (k : Tick) (rs : List Report),
    let base := BitVec.ofNat 52 (16 * (k - 1).toNat)
    (startsOf k rs).Pairwise (fun a b =>
      (a.arrival - base).toNat < (b.arrival - base).toNat ∨ (a.arrival = b.arrival ∧ a.ch.val ≤ b.ch.val)) ∧
    (startsOf k rs).Perm (rs.filterMap fun r =>
      match r with
      | .started c arrival tick confirmed => some ⟨c, arrival, tick, confirmed⟩
      | .confirmed _ | .withdrawn _ _ | .completed _ _ => none)) ∧
  ∀ (s : State) (closing : Bool),
    (s.grouping.groups = [] → s.emitStage closing = s) ∧
    ∀ g gs, s.grouping.groups = g :: gs →
      (¬ completeGroup g → s.emitStage closing = s) ∧
      (completeGroup g →
        s.emitStage closing =
          ({ s.emit closing g with grouping := { s.grouping with groups := gs } } : State).emitStage closing)

/-! ### Journal (chapter 5) -/

/-- An offer (R85, R86): refused, it changes nothing; admitted without an entry into tally mode, the record stands at the end
with the append point as its number. Nothing but the journal, the queues and the waits changes. -/
def Obligations.OfferIsAdmittedByClass : Prop :=
  ∀ (s : State) (o : Offer),
    let j := s.journal
    let reserved := o.kind = .activity ∨ o.kind = .tally ∨ o.kind = .mark
    let fits := j.fill + o.size ≤ if reserved then 65536 else 65280
    (¬ fits → s.offer o = s) ∧
    (fits → j.tallyMode = true ∨ j.fill + o.size < 49152 →
      (s.offer o).journal =
        { j with
          recs := j.recs ++ [⟨o.kind, BitVec.ofNat 16 o.flags, j.appendPoint, o.body⟩]
          appendPoint := j.appendPoint + 1 } ∧
      (s.offer o).journal.fill = j.fill + o.size ∧
      ∀ p, ((s.offer o).port p).notices = (s.port p).notices) ∧
    (s.offer o).resetHeld = s.resetHeld ∧ (s.offer o).intake = s.intake ∧ (s.offer o).channels = s.channels ∧
    (s.offer o).grouping = s.grouping ∧ (s.offer o).rollup = s.rollup ∧ (s.offer o).run = s.run ∧
    (s.offer o).setup = s.setup ∧ (s.offer o).status = s.status ∧ (s.offer o).pending = s.pending ∧
    sameSettings s (s.offer o)

/-- The entry into tally mode (R102): the record that brings the fill to 49,152 is followed by the TALLY ON mark with that
fill, when the journal has room for it, and the TALLY MODE notice is posted asserted. The mark's clock is the test clock
(log entry 7). -/
def Obligations.TallyModeIsEntered : Prop :=
  ∀ (s : State) (o : Offer),
    let j := s.journal
    let fill := j.fill + o.size
    let rec1 : Rec := ⟨o.kind, BitVec.ofNat 16 o.flags, j.appendPoint, o.body⟩
    let on : Rec := ⟨.mark, 0, j.appendPoint + 1, (mark s.intake.clock 4 0 fill).body⟩
    let room := fill + 6 ≤ 65536
    j.tallyMode = false → 49152 ≤ fill →
    (fill ≤ if o.kind = .activity ∨ o.kind = .tally ∨ o.kind = .mark then 65536 else 65280) →
    (s.offer o).journal =
      { j with
        recs := j.recs ++ rec1 :: if room then [on] else []
        appendPoint := if room then j.appendPoint + 2 else j.appendPoint + 1
        tallyMode := true
        covered := 0 } ∧
    ∀ p, ((s.offer o).port p).notices = ((s.postWith .tallyMode 0 1).port p).notices

/-- A posting reaches the ports by the routing of its source, PT item n routing source n + 1 in the
numbering of section 10.5 (R150, R181), and makes or updates one entry (R182); nothing but the
notice lists changes. -/
def Obligations.PostingIsRoutedAndCoalesced : Prop :=
  ∀ (s : State) (src : Source) (sect : Nat) (d : Word32),
    let held : Port → Prop := fun p => ∃ e ∈ (s.port p).notices, e.source = src
    let size : Port → Nat := fun p => (s.port p).notices.length
    let reaches : Port → Prop := fun p =>
      match s.setup.item .pt (sourceNumber src - 1) with
      | 1 => p = .a
      | 2 => p = .b
      | 3 => True
      | 4 => held p ∨ (¬ held (other p) ∧ (size p < size (other p) ∨ (size p = size (other p) ∧ p = .a)))
      | _ => False
    let t := s.postWith src sect d
    (∀ p, (¬ reaches p → t.port p = s.port p) ∧
      (reaches p → ¬ held p → t.port p = { s.port p with notices := (s.port p).notices ++ [⟨src, 1, sect, d⟩] }) ∧
      (reaches p → ∀ before e after, (s.port p).notices = before ++ e :: after → e.source = src →
        (∀ y ∈ before, y.source ≠ src) →
        t.port p =
          { s.port p with notices := before ++ ⟨src, min 255 (e.count + 1), sect, d⟩ :: after })) ∧
    t = { s with portA := t.portA, portB := t.portB }

/-- A wait ends within an admission whose passing record brings the unread count to N, and within no other (R99): the JOURNAL WAIT
at the head of the queue is answered OK with the count, the port's other state standing; the count rises by 1 with each passing
record (R94). An offer makes one admission, and one more for the TALLY ON mark of an entry into tally mode (R102); the wait is
tested before that mark (log entry 15). A wait at its deadline tick ends with TIMEOUT and the count (R100). Sent by itself,
WAIT_SATISFIED ends a wait whose count stands at N; at any other moment the two commands change nothing (log entry 1). -/
def Obligations.WaitsEndByCountOrDeadline : Prop :=
  (∀ (s : State) (o : Offer) (p : Port),
    let j := s.journal
    let new : Rec := ⟨o.kind, BitVec.ofNat 16 o.flags, j.appendPoint, o.body⟩
    let t := s.offerOnce o
    let count := t.unread p
    let fits := j.fill + o.size ≤ if o.kind = .activity ∨ o.kind = .tally ∨ o.kind = .mark then 65536 else 65280
    let enters := fits ∧ j.tallyMode = false ∧ 49152 ≤ j.fill + o.size
    (¬ enters → s.offer o = t) ∧
    (enters → s.offer o =
      (({ t with journal := { t.journal with tallyMode := true, covered := 0 } } : State).offerOnce
        (mark s.intake.clock 4 0 (j.fill + o.size))).postWith .tallyMode 0 1) ∧
    (¬ fits → t = s) ∧
    (fits →
      t.journal = { j with recs := j.recs ++ [new], appendPoint := j.appendPoint + 1 } ∧
      (s.JournalOk → ∀ cur, (s.port p).cursor = some cur →
        count = s.unread p + if (s.port p).passes new then 1 else 0) ∧
      ((s.port p).wait = none → t.port p = s.port p) ∧
      ∀ w, (s.port p).wait = some w →
        (¬ ((s.port p).passes new = true ∧ w.n ≤ count) → t.port p = s.port p) ∧
        ((s.port p).passes new = true → w.n ≤ count → ∀ r rest, (s.port p).requests = r :: rest →
          t.port p =
            { s.port p with
              requests := rest
              responses := (s.port p).responses ++ [⟨r.tag, r.code, .ok, lsbFirst 2 count⟩]
              wait := none }))) ∧
  ∀ (s : State) (p : Port), s.resetHeld = false →
    ((s.port p).wait = none → exec (.waitSatisfied p) s = .next s ∧ exec (.waitTimeout p) s = .next s) ∧
    ∀ (w : Wait) (r : Request) (rest : List Request), (s.port p).wait = some w → (s.port p).requests = r :: rest →
      let ended : State := s.withPort p { s.port p with wait := none }
      let count := lsbFirst 2 (s.unread p)
      (w.n ≤ s.unread p → exec (.waitSatisfied p) s = .next (answered ended p r rest .ok count)) ∧
      (¬ w.n ≤ s.unread p → exec (.waitSatisfied p) s = .next s) ∧
      (w.deadline = s.intake.clock → exec (.waitTimeout p) s = .next (answered ended p r rest .timeout count)) ∧
      (w.deadline ≠ s.intake.clock → exec (.waitTimeout p) s = .next s)

/-- JOURNAL ATTACH at the retain floor or the append point (R90) and JOURNAL DETACH (R91), each with the reclaim that follows; a
mode that is neither, or no payload, is refused with RANGE and changes nothing. Reclaim (R89) removes the records before the
oldest attached cursor, the one nearest the retain floor, which becomes the retain floor, and none when no port is attached; the
records from an attached cursor on, and its unread count, stay (R94). -/
def Obligations.AttachAndDetachReclaim : Prop :=
  (∀ s : State,
    let place : SeqNo → Nat := fun cur =>
      (cur - match s.journal.recs with | [] => s.journal.appendPoint | x :: _ => x.seq).toNat
    let t := s.reclaim
    ((∀ p, (s.port p).cursor = none) → t = s) ∧
    (∀ p cur, (s.port p).cursor = some cur → (∀ q old, (s.port q).cursor = some old → place cur ≤ place old) →
      t = { s with journal := { s.journal with recs := s.journal.recs.drop (place cur) } } ∧
      (s.JournalOk → (match t.journal.recs with | [] => t.journal.appendPoint | x :: _ => x.seq) = cur)) ∧
    (s.JournalOk → ∀ p cur, (s.port p).cursor = some cur →
      t.journal.recsFrom cur = s.journal.recsFrom cur ∧ t.unread p = s.unread p)) ∧
  ∀ (s : State) (p : Port) (r : Request) (rest : List Request),
    (Executes s p 14 r rest →
      ∀ mode : Nat, ∀ cur : SeqNo,
      ((r.payload = [] ∨ ∃ b tl, r.payload = b :: tl ∧ 1 < b.toNat) →
        exec (.journalAttach p) s = .next (answered s p r rest .range [])) ∧
      ((∃ b tl, r.payload = b :: tl ∧ b.toNat = mode) →
        ((mode = 0 ∧ cur = match s.journal.recs with | [] => s.journal.appendPoint | x :: _ => x.seq) ∨
          (mode = 1 ∧ cur = s.journal.appendPoint)) →
        let t := (s.withPort p { s.port p with cursor := some cur }).reclaim
        exec (.journalAttach p) s =
          .next (answered t p r rest .ok (lsbFirst 4 cur.toNat ++ lsbFirst 2 (t.unread p))))) ∧
    (Executes s p 15 r rest →
      exec (.journalDetach p) s =
        .next (answered (s.withPort p { s.port p with cursor := none }).reclaim p r rest .ok []))

/-- A record is a passing record for a port by its kind bit and, for HIT and GROUP records, by the bits of its channel or of
at least one member's channel (R93). -/
def Obligations.PassingRecords : Prop :=
  ∀ (q : PortState) (j : Journal),
    (∀ c why f, q.passes (j.record (hitOffer c why f)) = true ↔
      q.kindMask.getLsbD 0 = true ∧ q.chanMask.getLsbD c.val = true) ∧
    (∀ loc es, q.passes (j.record (groupOffer loc es)) = true ↔
      q.kindMask.getLsbD 1 = true ∧ ∃ e ∈ es, q.chanMask.getLsbD e.ch.val = true) ∧
    ∀ r : Rec,
      (r.kind = .load → (q.passes r = true ↔ q.kindMask.getLsbD 2 = true)) ∧
      (r.kind = .activity → (q.passes r = true ↔ q.kindMask.getLsbD 3 = true)) ∧
      (r.kind = .tally → (q.passes r = true ↔ q.kindMask.getLsbD 4 = true)) ∧
      (r.kind = .mark → (q.passes r = true ↔ q.kindMask.getLsbD 5 = true))

namespace Sys2Proof.Machine.Claims

/-- The codes of the record kinds (section 11.1). -/
def kindCode : RecKind → Nat
  | .hit => 1
  | .group => 2
  | .load => 3
  | .activity => 4
  | .tally => 5
  | .mark => 6

end Sys2Proof.Machine.Claims

/-- Words 0 and 1 of a record: kind, length, channel flags and sequence number, with the producer's words after them, and its
bytes, least significant first (section 11.1). The records from a cursor are those held whose sequence number is at or after it by
the distance from the retain floor (R86, R95), and the unread count is the number of passing ones among them, 0 at a detached port
(R94). -/
def Obligations.RecordsAndUnreadCounts : Prop :=
  (∀ r : Rec, r.body.length ≤ 253 → ∃ w0,
    r.words = w0 :: r.seq :: r.body ∧ (w0.setWidth 8 : Byte).toNat = kindCode r.kind ∧
    ((w0 >>> 8).setWidth 8 : Byte).toNat = r.words.length ∧ (w0 >>> 16).setWidth 16 = r.flags) ∧
  (∀ r : Rec, r.size = r.words.length ∧
    r.bytes = (r.words.map fun w : Word32 =>
      [(w.setWidth 8 : Byte), (w >>> 8).setWidth 8, (w >>> 16).setWidth 8, (w >>> 24).setWidth 8]).flatten) ∧
  (∀ (s : State) (p : Port),
    ((s.port p).cursor = none → s.unread p = 0) ∧
    ∀ cur, (s.port p).cursor = some cur → s.unread p = ((s.journal.recsFrom cur).filter (s.port p).passes).length) ∧
  ∀ (s : State) (cur : SeqNo), s.JournalOk →
    let floor := match s.journal.recs with | [] => s.journal.appendPoint | x :: _ => x.seq
    s.journal.recsFrom cur = s.journal.recs.filter fun r => (cur - floor).toNat ≤ (r.seq - floor).toNat

/-- JOURNAL READ (R95, R96): refused when detached or out of range; otherwise the records from the cursor are split into those
moved past and the rest, the passing ones among the former are returned within the maximum, and the walk stops at the end or
at a passing record that does not fit. A first record that does not fit is refused with its size and moves nothing. At a
detached port DETACHED comes before the test of the maximum (log entry 10). -/
def Obligations.JournalReadWalks : Prop :=
  ∀ (s : State) (p : Port) (r : Request) (rest : List Request), Executes s p 17 r rest →
    ((s.port p).cursor = none → exec (.journalRead p) s = .next (answered s p r rest .detached [])) ∧
    ∀ cur, (s.port p).cursor = some cur →
      ((r.payload = [] ∨ ∃ b tl, r.payload = b :: tl ∧ (b.toNat = 0 ∨ b.toNat = 255)) →
        exec (.journalRead p) s = .next (answered s p r rest .range [])) ∧
      ∀ b tl, r.payload = b :: tl → 1 ≤ b.toNat → b.toNat ≤ 254 →
        ∀ passed ahead, s.journal.recsFrom cur = passed ++ ahead →
          let out := passed.filter (s.port p).passes
          (out.map Rec.size).sum ≤ b.toNat →
          (∀ x xs, ahead = x :: xs → (s.port p).passes x = true ∧ b.toNat < (out.map Rec.size).sum + x.size) →
          (out = [] → ∀ x xs, ahead = x :: xs →
            exec (.journalRead p) s = .next (answered s p r rest .range (lsbFirst 1 x.size))) ∧
          (out ≠ [] ∨ ahead = [] →
            let cur1 := cur + BitVec.ofNat 32 passed.length
            let t := if passed = [] then s else (s.withPort p { s.port p with cursor := some cur1 }).reclaim
            exec (.journalRead p) s =
              .next (answered t p r rest .ok
                (lsbFirst 2 out.length ++ lsbFirst 4 cur1.toNat ++ lsbFirst 2 (t.unread p) ++
                  (out.map Rec.bytes).flatten)))

/-- JOURNAL WAIT (R98): refused when detached or out of range, answered at once when the unread count is at least N, and else
deferred with N and its deadline, the request staying at the head of the queue. At a detached port DETACHED comes before the
test of the fields (log entry 10). -/
def Obligations.JournalWaitAnswersOrDefers : Prop :=
  ∀ (s : State) (p : Port) (r : Request) (rest : List Request), Executes s p 18 r rest →
    ((s.port p).cursor = none → exec (.journalWait p) s = .next (answered s p r rest .detached [])) ∧
    ((s.port p).cursor ≠ none →
      (r.payload.length < 4 → exec (.journalWait p) s = .next (answered s p r rest .range [])) ∧
      ∀ n0 n1 t0 t1 tl, r.payload = n0 :: n1 :: t0 :: t1 :: tl →
        let n := n0.toNat + 256 * n1.toNat
        let timeout := t0.toNat + 256 * t1.toNat
        (n = 0 ∨ 1024 < n ∨ timeout = 0 → exec (.journalWait p) s = .next (answered s p r rest .range [])) ∧
        (1 ≤ n → n ≤ 1024 → 1 ≤ timeout → n ≤ s.unread p →
          exec (.journalWait p) s = .next (answered s p r rest .ok (lsbFirst 2 (s.unread p)))) ∧
        (1 ≤ n → n ≤ 1024 → 1 ≤ timeout → s.unread p < n →
          exec (.journalWait p) s =
            .next (s.withPort p
              { s.port p with wait := some ⟨n, s.intake.clock + BitVec.ofNat 48 (timeout * 1024)⟩ })))

/-- The tally step of a rollup in tally mode (R104, R105): the count of intervals covered rises, the TALLY record is offered,
the live tallies are zeroed with the count if it is admitted, and at a fill of 32,768 or less tally mode ends with the TALLY
OFF mark and the notice. The mark's clock is the test clock (log entry 7). -/
def Obligations.TallyStepWritesAndExits : Prop :=
  ∀ s : State,
    let j := s.journal
    let covered := min 65535 (j.covered + 1)
    let o := tallyOf j s.intake.clock covered
    let tally : Rec := ⟨.tally, BitVec.ofNat 16 o.flags, j.appendPoint, o.body⟩
    let fill := j.fill + 5 + 2 * allChannels.countP fun c => j.liveHits[c] ≠ 0
    (j.tallyMode = false → s.tallyStep = s) ∧
    (j.tallyMode = true → 65536 < fill → s.tallyStep = { s with journal := { j with covered := covered } }) ∧
    (j.tallyMode = true → fill ≤ 65536 →
      let j1 := s.tallyStep.journal
      j1.liveGroups = 0 ∧ j1.covered = 0 ∧ (∀ c : ChanId, j1.liveHits[c] = 0 ∧ j1.liveEnergy[c] = 0) ∧
      (32768 < fill → j1.tallyMode = true ∧ j1.recs = j.recs ++ [tally] ∧ j1.appendPoint = j.appendPoint + 1) ∧
      (fill ≤ 32768 → j1.tallyMode = false ∧ j1.appendPoint = j.appendPoint + 2 ∧
        j1.recs = j.recs ++ [tally, ⟨.mark, 0, j.appendPoint + 1, (mark s.intake.clock 5 0 fill).body⟩] ∧
        ∀ p, (s.tallyStep.port p).notices = ((s.postWith .tallyMode 0 0).port p).notices))

/-! ### Rollup, load and hold (chapter 6) -/

/-- The hysteresis table (R116): the counter of the state in force rises and is compared with K or R, the opposite outcome
zeroes it, and so the hold asserts at the K-th consecutive interval with the criterion met and releases at the R-th with it not
met; the met counter is 0 while the hold is asserted and the unmet counter while it is released. -/
def Obligations.HysteresisTable : Prop :=
  ∀ (x : Rollup) (w : AcParams),
    (x.autoHold = false → x.met + 1 < w.k → x.hysteresis w true = { x with met := x.met + 1 }) ∧
    (x.autoHold = false → w.k ≤ x.met + 1 → x.hysteresis w true = { x with autoHold := true, met := 0 }) ∧
    (x.autoHold = false → x.hysteresis w false = { x with met := 0 }) ∧
    (x.autoHold = true → x.unmet + 1 < w.r → x.hysteresis w false = { x with unmet := x.unmet + 1 }) ∧
    (x.autoHold = true → w.r ≤ x.unmet + 1 → x.hysteresis w false = { x with autoHold := false, unmet := 0 }) ∧
    (x.autoHold = true → x.hysteresis w true = { x with unmet := 0 }) ∧
    ((x.autoHold = true → x.met = 0) → (x.autoHold = false → x.unmet = 0) → ∀ met,
      ((x.hysteresis w met).autoHold = true → (x.hysteresis w met).met = 0) ∧
      ((x.hysteresis w met).autoHold = false → (x.hysteresis w met).unmet = 0)) ∧
    (x.autoHold = false → x.met = 0 → 1 ≤ w.k → ∀ n,
      ((fun y : Rollup => y.hysteresis w true)^[n] x).autoHold = decide (w.k ≤ n)) ∧
    (x.autoHold = true → x.unmet = 0 → 1 ≤ w.r → ∀ n,
      ((fun y : Rollup => y.hysteresis w false)^[n] x).autoHold = decide (n < w.r))

/-- A rollup at its boundary tick in an active run (R112 to R121): the AC values taken up, the hysteresis of the criteria test,
the resumption ratio, the ACTIVITY record, the counters at 0, the index and the next boundary advanced. At any other moment the
command changes nothing (log entry 1). In every journal mode the journal and the ports stand as after the AUTO HOLD and RESUMPTION
postings, the offer of the ACTIVITY record and the tally step, which takes its mode after that offer (R120); with tally mode off
and room below the entry fill this is the record alone. -/
def Obligations.RollupMakesItsSteps : Prop :=
  ∀ s : State, s.resetHeld = false →
    let x := s.rollup
    let n := x.counters
    let k := s.intake.clock
    let item := fun i => s.setup.item .ac i
    let w : AcParams := ⟨item 0, item 1, item 2, item 3, item 4, item 5, item 6⟩
    let lg := decide (w.lg ≠ 0 ∧ w.lg ≤ n.groups)
    let le := decide (w.le ≠ 0 ∧ w.le ≤ n.energy)
    let lh := decide (w.lh ≠ 0 ∧ w.lh ≤ n.high)
    let met := lg || le || lh
    let held := x.hysteresis w met
    let value := match x.load with | some l => l.value | none => 0
    let measured := decide (x.armed = true ∧ met = true ∧ x.load ≠ none ∧ value < x.pmax)
    let ratio := if measured then 1000 * value / x.pmax else 0
    let since := min 65535 (x.sinceActivity + 1)
    let activity : Offer :=
      ⟨.activity, 0,
        [ BitVec.ofNat 32 k.toNat, BitVec.ofNat 32 (k.toNat / 2 ^ 32 + since * 65536), x.index
        , BitVec.ofNat 32 n.groups, BitVec.ofNat 32 n.locatable, BitVec.ofNat 32 n.hits, BitVec.ofNat 32 n.energy
        , BitVec.ofNat 32 n.high
        , BitVec.ofNat 32 (value + 2 ^ 24 * if x.stale = true ∨ x.load = none then 1 else 0)
        , BitVec.ofNat 32 x.pmax
        , BitVec.ofNat 32 (ratio + 2 ^ 10 * measured.toNat +
            2 ^ 11 * (lg.toNat + 2 * le.toNat + 4 * lh.toNat) + 2 ^ 14 * held.autoHold.toNat) ]⟩
    let s1 := if held.autoHold = x.autoHold then s else s.postWith .autoHold 0 (if held.autoHold then 1 else 0)
    let s2 := if measured then s1.postWith .resumption 0 (BitVec.ofNat 32 ratio) else s1
    let u := (s2.offer activity).tallyStep
    let due := (s.run.state = .running ∨ s.run.state = .final) ∧ x.nextBoundary = some k
    (¬ due → exec .rollup s = .next s) ∧
    (due → ∃ t, exec .rollup s = .next t ∧
      t.rollup =
        { held with
          work := some w
          nextBoundary := some (k + BitVec.ofNat 48 (w.i * 1024))
          index := x.index + 1
          counters := ⟨0, 0, 0, 0, 0⟩
          sinceActivity := if s.journal.fill + 13 ≤ 65536 then 0 else since
          armed := x.armed && !measured } ∧
      t.journal = u.journal ∧ (∀ p, t.port p = u.port p) ∧
      (s.journal.tallyMode = false → s.journal.fill + 13 < 49152 →
        t.journal =
          { s.journal with
            recs := s.journal.recs ++ [⟨.activity, 0, s.journal.appendPoint, activity.body⟩]
            appendPoint := s.journal.appendPoint + 1 } ∧
        ∀ p, (t.port p).notices = (s2.port p).notices) ∧
      t.intake = s.intake ∧ t.channels = s.channels ∧ t.grouping = s.grouping ∧ t.run = s.run ∧ t.setup = s.setup ∧
      t.status = s.status ∧ t.resetHeld = false ∧ sameSettings s t)

/-- LOAD POST (R122 to R124, R143): the value limited to 16,777,215 becomes the latest load and clears the stale flag; in an
active run it raises Pmax, arms the measurement, is offered as a LOAD record outside tally mode, and at or below the drop level
it confirms held evidence: the declaration with source 2 GROUP+LOAD and the evidence's group, and with PW of 0 the closing event
with cause 3 POST-WINDOW within the request (R146, R147, R185), its post-window end being the declaration tick (log entry 13). The
response carries the value, the clock and Pmax. -/
def Obligations.LoadPostSetsTheLoad : Prop :=
  ∀ (s : State) (p : Port) (r : Request) (rest : List Request), Executes s p 12 r rest →
    (r.payload.length < 4 → exec (.loadPost p) s = .next (answered s p r rest .range [])) ∧
    ∀ b0 b1 b2 b3 tl, r.payload = b0 :: b1 :: b2 :: b3 :: tl →
      let sent := (b3 ++ b2 ++ b1 ++ b0).toNat
      let value := min 16777215 sent
      let result : Result := if sent ≤ 16777215 then .ok else .adjusted
      let k := s.intake.clock
      let reply := fun pmax => lsbFirst 4 value ++ lsbFirst 6 k.toNat ++ lsbFirst 4 pmax
      let loaded : Rollup := { s.rollup with load := some ⟨value, k⟩, stale := false }
      let post : State → State := fun t => if s.rollup.stale then t.postWith .loadStale 0 0 else t
      let record : Offer :=
        ⟨.load, 0, [BitVec.ofNat 32 k.toNat, BitVec.ofNat 32 (k.toNat / 2 ^ 32),
          BitVec.ofNat 32 (value + 2 ^ 24 * if p = .a then 0 else 1)]⟩
      let active := s.run.state = .running ∨ s.run.state = .final
      let pmax := max s.rollup.pmax value
      let drop := s.run.state = .running ∧ value ≤ pmax * s.setup.item .ru 2 / 256
      let s1 := post { s with rollup := loaded }
      let s2 := s1.withRollup
        { loaded with pmax := pmax, armed := loaded.armed || decide (s.rollup.pmax < value) }
      let s3 := if s.journal.tallyMode then s2 else s2.offer record
      (¬ active → exec (.loadPost p) s = .next (answered s1 p r rest result (reply s.rollup.pmax))) ∧
      (active → s.run.evidence = none ∨ ¬ drop →
        exec (.loadPost p) s = .next (answered s3 p r rest result (reply pmax))) ∧
      (∀ e, s.run.evidence = some e → drop →
        let d := declared s3 .groupLoad e.group
        exec (.loadPost p) s =
          .next (answered (if s.setup.item .ru 4 = 0 then closed d 3 else d) p r rest result (reply pmax)))

/-- The sources that a control line may follow, by their codes in the order of R150, when each is active (R129), and the level
of a line: its active level, by its polarity, while its source is active, and the other level else (R128). -/
def Obligations.ControlLineSources : Prop :=
  ∀ s : State,
    s.coActive 0 = false ∧
    (s.coActive 1 = true ↔ s.rollup.autoHold = true) ∧
    (s.coActive 2 = true ↔ s.portA.manual = true) ∧
    (s.coActive 3 = true ↔ s.portB.manual = true) ∧
    (s.coActive 4 = true ↔ s.rollup.autoHold = true ∨ s.portA.manual = true ∨ s.portB.manual = true ∨
      s.run.rupture ≠ none) ∧
    (s.coActive 5 = true ↔ s.run.rupture ≠ none) ∧
    (s.coActive 6 = true ↔ s.run.state = .running ∨ s.run.state = .final) ∧
    (s.coActive 7 = true ↔ s.journal.tallyMode = true) ∧
    (s.coActive 8 = true ↔ (∃ c, (s.chan c).st = .fault) ∨ s.status.lineDown = true) ∧
    ∀ line : Fin 3,
      let active := s.coActive (s.setup.item .pt (13 + 2 * line.val))
      s.coHigh line = true ↔ if s.setup.item .pt (14 + 2 * line.val) = 1 then active = false else active = true

/-! ### Run control (chapter 7) -/

namespace Sys2Proof.Machine.Claims

/-- The code of the run state (R187). -/
def runCode : RunState → Byte
  | .idle => 0
  | .running => 1
  | .final => 2
  | .closed => 3

end Sys2Proof.Machine.Claims

/-- The rupture check of an emission (R77, R141, R142): outside the closing event and in RUNNING, a group with at least Nr
saturated members declares rupture with the load check off, and is recorded as evidence with its notice when it is on; the group's
sequence number goes with it when a GROUP record was written. Within the closing event there is no check (R138). The post-window
end with PW of 0 is the declaration tick (log entry 13). -/
def Obligations.SaturatedGroupsAreChecked : Prop :=
  (∀ (s : State) (sat : Nat) (group : Option SeqNo),
    let nr := s.setup.item .ru 0
    let deadline := s.intake.clock + BitVec.ofNat 48 (s.setup.item .ru 3 * 1024)
    let saturated := s.run.state = .running ∧ 1 ≤ nr ∧ nr ≤ sat
    (¬ saturated → s.ruptureCheck sat group = s) ∧
    (saturated → s.setup.item .ru 1 = 0 → s.ruptureCheck sat group = declared s .group group) ∧
    (saturated → s.setup.item .ru 1 = 1 →
      s.ruptureCheck sat group =
        { s with run := { s.run with evidence := some ⟨deadline, group⟩ } }.postWith .ruptureEvidence 0
          (BitVec.ofNat 32 sat))) ∧
  ∀ (s : State) (g : Group),
    let es := g.emitted
    let t := s.emit true g
    let check := t.ruptureCheck (es.countP fun e => e.f.marks.sat)
    t.run = s.run ∧ t.setup = s.setup ∧ t.intake = s.intake ∧
    (s.journal.tallyMode = true → s.emit false g = check none) ∧
    (s.journal.tallyMode = false → s.journal.fill + (6 + 5 * es.length) ≤ 65280 →
      s.emit false g = check (some s.journal.appendPoint))

/-- RUN START (R111, R135, R136): in IDLE with a setup enable on it records the start tick, prepares the first interval, moves
LISTEN channels to QUIET, offers the RUN START mark with the enable mask and posts RUN STATE; otherwise it is refused. -/
def Obligations.RunStartBeginsARun : Prop :=
  ∀ (s : State) (p : Port) (r : Request) (rest : List Request), Executes s p 8 r rest →
    let k := s.intake.clock
    let item := fun i => s.setup.item .ac i
    let on : ChanId → Bool := fun c => s.setup.item .ch (12 * c.val) == 1
    let s1 : State :=
      { s with
        run := { s.run with state := .running, startTick := some k }
        rollup :=
          { s.rollup with
            work := some ⟨item 0, item 1, item 2, item 3, item 4, item 5, item 6⟩
            nextBoundary := some (k + BitVec.ofNat 48 (item 0 * 1024))
            index := 1, counters := ⟨0, 0, 0, 0, 0⟩, sinceActivity := 0, met := 0, unmet := 0, armed := false }
        channels := Vector.ofFn fun c =>
          { s.chan c with st := if (s.chan c).st = .listen then .quiet else (s.chan c).st } }
    let mask := ((allChannels.filter on).map fun c => 2 ^ c.val).sum
    let started := (s1.offer (mark k 1 0 mask)).postWith .runState 0 1
    (s.run.state = .idle → (∃ c, on c = true) →
      exec (.runStart p) s = .next (answered started p r rest .ok (lsbFirst 6 k.toNat))) ∧
    (s.run.state ≠ .idle ∨ (∀ c, on c = false) →
      exec (.runStart p) s = .next (answered s p r rest .state [runCode s.run.state]))

/-- RUN STOP (R137) makes the closing event in its eight steps (R138) with the cause of its port, 1 or 2 (R185); outside an active
run it is refused. Whatever its cause, the closing event leaves CLOSED with evidence and post-window end discarded, every channel
after its closing action (R37), no lockout, the counters as the flush left them and the auto hold released (R130); and when every
placement and every PENDING or ACTIVE member agrees with its channel, as every command keeps them (GroupsStayOrdered), the list is
empty and every placement NONE (R80). The rest of the rollup unit stays, the next boundary among it (log entry 14). -/
def Obligations.RunStopClosesTheRun : Prop :=
  (∀ (s : State) (cause : Nat),
    let t := closed s cause
    t.run = { s.run with state := .closed, evidence := none, postEnd := none } ∧
    (∀ c, t.chan c =
      { s.chan c with
        st := if (s.chan c).st = .off ∨ (s.chan c).st = .fault then (s.chan c).st else .listen }) ∧
    t.grouping = (flushed s).grouping ∧ t.grouping.lockout = none ∧ t.grouping.work = s.grouping.work ∧
    (s.PlacementsOk → t.grouping.groups = [] ∧ ∀ c : ChanId, t.grouping.placement[c] = .none) ∧
    t.rollup =
      { s.rollup with counters := (flushed s).rollup.counters, autoHold := false, met := 0, unmet := 0 } ∧
    t.intake = s.intake ∧ t.setup = s.setup ∧ t.status = s.status ∧ t.resetHeld = s.resetHeld ∧ t.pending = s.pending ∧
    sameSettings s t) ∧
  ∀ (s : State) (p : Port) (r : Request) (rest : List Request), Executes s p 9 r rest →
    let active := s.run.state = .running ∨ s.run.state = .final
    (¬ active → exec (.runStop p) s = .next (answered s p r rest .state [])) ∧
    (active → exec (.runStop p) s =
      .next (answered (closed s (if p = .a then 1 else 2)) p r rest .ok (lsbFirst 6 s.intake.clock.toNat)))

/-- RUN CLEAR (R139, R140 and the rules it gathers): in IDLE and CLOSED every block is cleared or kept as the table says, a
wait at the other port ends with CLEARED, and the postings follow; in RUNNING and FINAL it is refused. The order of the
postings is the model's choice (log entry 5), and so is the next boundary that the rollup unit keeps (log entry 14). -/
def Obligations.RunClearClearsTheRun : Prop :=
  ∀ (s : State) (p : Port) (r : Request) (rest : List Request), Executes s p 10 r rest →
    let active := s.run.state = .running ∨ s.run.state = .final
    (active → exec (.runClear p) s = .next (answered s p r rest .state [])) ∧
    (¬ active → ∃ t, exec (.runClear p) s = .next (answered t p r rest .ok []) ∧
      t.run = ⟨.idle, none, none, none, none⟩ ∧
      t.rollup = ⟨s.rollup.work, s.rollup.nextBoundary, 0, ⟨0, 0, 0, 0, 0⟩, 0, 0, 0, false, none, 0, false, false⟩ ∧
      (t.journal.recs = [] ∧ t.journal.appendPoint = 0 ∧ t.journal.tallyMode = false ∧ t.journal.liveGroups = 0 ∧
        t.journal.covered = 0 ∧ ∀ c : ChanId, t.journal.liveHits[c] = 0 ∧ t.journal.liveEnergy[c] = 0) ∧
      (t.grouping.groups = [] ∧ t.grouping.lockout = none ∧ t.grouping.work = s.grouping.work ∧
        ∀ c : ChanId, t.grouping.placement[c] = .none) ∧
      (∀ c, t.chan c = { s.chan c with glitches := 0, st := if (s.chan c).st = .off then .off else .listen }) ∧
      t.setup = { s.setup with lockDetection := false, lockCriteria := false } ∧
      t.intake = s.intake ∧ t.status = s.status ∧ t.resetHeld = false ∧
      (∀ q,
        let old := s.port q
        let posts : List (Source × Word32) :=
          (if s.journal.tallyMode then [(.tallyMode, 0)] else []) ++
          (if s.rollup.stale then [(.loadStale, 0)] else []) ++ [(.runState, 0)] ++
          (if s.setup.lockDetection || s.setup.lockCriteria then [(.lockChanged, 0)] else [])
        let posted := posts.foldl (fun u x => u.postWith x.1 0 x.2) s
        let cleared := match old.wait with | some _ => old.answer .cleared [0, 0] | none => old
        t.port q =
          { cleared with
            wait := none
            notices := (posted.port q).notices
            cursor := old.cursor.map fun _ => 0
            manual := false }))

/-- RUPTURE DECLARE (R145 to R147): in RUNNING it declares with the port as the source, and with PW of 0 the closing event
follows within the request with cause 3 POST-WINDOW (R185), its post-window end being the declaration tick (log entry 13); in
FINAL it changes nothing; in IDLE and CLOSED it is refused. -/
def Obligations.RuptureDeclareDeclares : Prop :=
  ∀ (s : State) (p : Port) (r : Request) (rest : List Request), Executes s p 11 r rest →
    let source : RuptureSource := if p = .a then .portA else .portB
    let code : Byte := if p = .a then 3 else 4
    let old : Byte := match s.run.rupture with | some x => BitVec.ofNat 8 (ruptureCode x) | none => 0
    (s.run.state = .running → s.setup.item .ru 4 ≠ 0 →
      exec (.ruptureDeclare p) s = .next (answered (declared s source none) p r rest .ok [2, code])) ∧
    (s.run.state = .running → s.setup.item .ru 4 = 0 →
      exec (.ruptureDeclare p) s =
        .next (answered (closed (declared s source none) 3) p r rest .ok [3, code])) ∧
    (s.run.state = .final → exec (.ruptureDeclare p) s = .next (answered s p r rest .ok [2, old])) ∧
    (s.run.state = .idle ∨ s.run.state = .closed →
      exec (.ruptureDeclare p) s = .next (answered s p r rest .state [runCode s.run.state, old]))

/-! ### Setup table (chapter 8) -/

namespace Sys2Proof.Machine.Claims

/-- The number of items of a section (R150). -/
def itemCount : Sect → Nat
  | .ch => 192
  | .gr => 4
  | .ac => 8
  | .ru => 5
  | .pt => 21

/-- The lock set as a byte (R187). -/
def lockByte (detection criteria : Bool) : Byte := (if detection then 1 else 0) + if criteria then 2 else 0

/-- The generation and the lock set, as the responses of the setup table begin (R187). -/
def setupHeader (t : Setup) : List Byte :=
  lsbFirst 4 t.generation.toNat ++ [lockByte t.lockDetection t.lockCriteria]

/-- The values of a section after a write of `vs` from item `start` on. -/
def overwritten (old : List Nat) (start : Nat) (vs : List Nat) : List Nat :=
  old.take start ++ vs ++ old.drop (start + vs.length)

/-- The codes of the channel states (R187). -/
def stateCode : ChState → Nat
  | .off => 0
  | .listen => 1
  | .quiet => 2
  | .pending _ => 3
  | .inHit _ => 4
  | .lockout _ => 5
  | .fault => 6

end Sys2Proof.Machine.Claims

/-- IDENTIFY returns its fixed values (R179), CLOCK READ the clock and the sequence state (R13), and SETUP READ the header
with a span of values or RANGE (R152); none of them changes anything else. -/
def Obligations.IdentifyClockAndSetupRead : Prop :=
  ∀ (s : State) (p : Port) (r : Request) (rest : List Request),
    (Executes s p 1 r rest →
      exec (.identify p) s =
        .next (answered s p r rest .ok [0x40, 0x16, 1, 16, 0, 0, 1, 0, 4, 0xFC, 0x03])) ∧
    (Executes s p 3 r rest →
      exec (.clockRead p) s =
        .next (answered s p r rest .ok
          (lsbFirst 6 s.intake.clock.toNat ++
            match s.intake.seq with | some q => [1, q.expected] | none => [0, 0]))) ∧
    (Executes s p 5 r rest →
      (r.payload.length < 5 → exec (.setupRead p) s = .next (answered s p r rest .range (setupHeader s.setup))) ∧
      ∀ b s0 s1 n0 n1 tl, r.payload = b :: s0 :: s1 :: n0 :: n1 :: tl →
        let start := s0.toNat + 256 * s1.toNat
        let count := n0.toNat + 256 * n1.toNat
        ((∀ x : Sect, b.toNat ≠ sectCode x) → exec (.setupRead p) s =
          .next (answered s p r rest .range (setupHeader s.setup))) ∧
        ∀ x : Sect, b.toNat = sectCode x →
          (count = 0 ∨ itemCount x < start + count → exec (.setupRead p) s =
            .next (answered s p r rest .range (setupHeader s.setup))) ∧
          (1 ≤ count → start + count ≤ itemCount x → exec (.setupRead p) s =
            .next (answered s p r rest .ok
              (setupHeader s.setup ++ ((((s.setup.values x).drop start).take count).map (lsbFirst 4)).flatten))))

/-- CHANNEL PEEK returns the state, T, b16, the glitch count and the working copy of a channel (R38), and STATUS READ its 46
bytes (R180, R187), each field read here from its place; neither changes anything else. -/
def Obligations.PeekAndStatusRead : Prop :=
  ∀ (s : State) (p : Port) (r : Request) (rest : List Request),
    (Executes s p 4 r rest →
      ((r.payload = [] ∨ ∃ b tl, r.payload = b :: tl ∧ 16 ≤ b.toNat) →
        exec (.channelPeek p) s = .next (answered s p r rest .range [])) ∧
      ∀ (c : ChanId) b tl, r.payload = b :: tl → b.toNat = c.val →
        let ch := s.chan c
        let w := ch.work
        ∃ pl, exec (.channelPeek p) s = .next (answered s p r rest .ok pl) ∧ pl.length = 57 ∧
          field pl 0 1 = stateCode ch.st ∧
          field pl 1 2 = ch.t % 65536 ∧ field pl 3 4 = ch.b16 % 2 ^ 32 ∧ field pl 7 2 = ch.glitches % 65536 ∧
          ∀ i, i < 12 → field pl (9 + 4 * i) 4 =
            [w.enable.toNat, w.floating.toNat, w.tfix, w.fm, w.bs, w.qc, w.qs, w.pdt, w.hdt, w.hlt, w.maxd, w.es].getD
              i 0 % 2 ^ 32) ∧
    (Executes s p 2 r rest →
      ∃ pl, exec (.statusRead p) s = .next (answered s p r rest .ok pl) ∧ pl.length = 46 ∧
        field pl 0 1 = (runCode s.run.state).toNat ∧
        field pl 1 1 = s.journal.tallyMode.toNat + 2 * (s.port p).cursor.isSome.toNat + 4 * s.rollup.stale.toNat +
          8 * s.rollup.load.isSome.toNat + 16 * (if s.status.lineMode = .quiet then 1 else 0) +
          32 * s.status.lineDown.toNat ∧
        field pl 2 4 = s.journal.fill % 2 ^ 32 ∧ field pl 6 2 = s.unread p % 65536 ∧
        field pl 8 1 = s.grouping.groups.length % 256 ∧
        field pl 9 1 = s.rollup.autoHold.toNat + 2 * s.portA.manual.toNat + 4 * s.portB.manual.toNat +
          8 * s.run.rupture.isSome.toNat ∧
        field pl 10 1 = (s.coHigh 0).toNat + 2 * (s.coHigh 1).toNat + 4 * (s.coHigh 2).toNat ∧
        field pl 11 4 = (match s.rollup.load with | some l => l.value | none => 0) % 2 ^ 32 ∧
        field pl 15 4 = s.rollup.pmax % 2 ^ 32 ∧
        field pl 19 4 = s.setup.generation.toNat ∧
        field pl 23 1 = s.setup.lockDetection.toNat + 2 * s.setup.lockCriteria.toNat ∧
        (∀ c : ChanId, field pl (24 + c.val) 1 = stateCode (s.chan c).st + 128 * s.status.faults[c].toNat) ∧
        field pl 40 6 = s.intake.clock.toNat)

/-- SETUP WRITE applied (R157, R158): a write of listed codes with the current generation to an unlocked section stores its
values, the numeric ones clamped, raises the generation, posts SETUP CHANGED by the table as it then stands, and answers the
new header with the number of values clamped. -/
def Obligations.SetupWriteIsApplied : Prop :=
  ∀ (s : State) (p : Port) (r : Request) (rest : List Request), Executes s p 6 r rest →
    ∀ b s0 s1 g0 g1 g2 g3 tl, r.payload = b :: s0 :: s1 :: g0 :: g1 :: g2 :: g3 :: tl →
      let start := s0.toNat + 256 * s1.toNat
      let vs := words4 tl
      ∀ x : Sect, b.toNat = sectCode x → tl ≠ [] → tl.length % 4 = 0 → g3 ++ g2 ++ g1 ++ g0 = s.setup.generation →
        ¬ (s.setup.lockDetection = true ∧ (x = .ch ∨ x = .gr)) →
        ¬ (s.setup.lockCriteria = true ∧ (x = .ac ∨ x = .ru)) →
        start + vs.length ≤ itemCount x →
        (∀ i v, vs[i]? = some v → ∀ last d, (itemTable x)[start + i]? = some (.codes last d) → v ≤ last) →
        let stored := List.zipWith (fun (i : ItemSpec) v =>
          match i with | .numeric lo hi _ => max lo (min hi v) | .codes _ _ => v) ((itemTable x).drop start) vs
        let clamped := (List.zipWith (fun a b => decide (a ≠ b)) stored vs).countP id
        ∃ t : State, exec (.setupWrite p) s =
            .next (answered (t.postWith .setupChanged (sectCode x) t.setup.generation) p r rest
              (if clamped = 0 then .ok else .adjusted) (setupHeader t.setup ++ lsbFirst 2 clamped)) ∧
          t = { s with setup := t.setup } ∧
          t.setup.generation = s.setup.generation + 1 ∧
          t.setup.values x = overwritten (s.setup.values x) start stored ∧
          (∀ y, y ≠ x → t.setup.values y = s.setup.values y) ∧
          t.setup.lockDetection = s.setup.lockDetection ∧ t.setup.lockCriteria = s.setup.lockCriteria

/-- SETUP WRITE refused, by the four tests in their order (R153 to R156): length, generation, lock, section with span and
codes. No refusal changes the table or posts a notice. The RANGE of the first test carries the header (log entry 9). -/
def Obligations.SetupWriteIsRefusedInOrder : Prop :=
  ∀ (s : State) (p : Port) (r : Request) (rest : List Request), Executes s p 6 r rest →
    let header := setupHeader s.setup
    (r.payload.length < 11 ∨ (r.payload.length - 7) % 4 ≠ 0 →
      exec (.setupWrite p) s = .next (answered s p r rest .range header)) ∧
    ∀ b s0 s1 g0 g1 g2 g3 tl, r.payload = b :: s0 :: s1 :: g0 :: g1 :: g2 :: g3 :: tl → tl ≠ [] → tl.length % 4 = 0 →
      let start := s0.toNat + 256 * s1.toNat
      let vs := words4 tl
      let locked := (s.setup.lockDetection = true ∧ (b = 1 ∨ b = 2)) ∨ (s.setup.lockCriteria = true ∧ (b = 3 ∨ b = 4))
      (g3 ++ g2 ++ g1 ++ g0 ≠ s.setup.generation →
        exec (.setupWrite p) s = .next (answered s p r rest .stale header)) ∧
      (g3 ++ g2 ++ g1 ++ g0 = s.setup.generation →
        (locked → exec (.setupWrite p) s = .next (answered s p r rest .locked header)) ∧
        (¬ locked →
          ((∀ x : Sect, b.toNat ≠ sectCode x) →
            exec (.setupWrite p) s = .next (answered s p r rest .range (header ++ [b, 0]))) ∧
          ∀ x : Sect, b.toNat = sectCode x →
            (itemCount x ≤ start ∨ itemCount x < start + vs.length →
              exec (.setupWrite p) s = .next (answered s p r rest .range (header ++ [b, 0]))) ∧
            (start + vs.length ≤ itemCount x → ∀ before v after last d, vs = before ++ v :: after →
              (itemTable x)[start + before.length]? = some (.codes last d) → last < v →
              (∀ i u, before[i]? = some u → ∀ last' d', (itemTable x)[start + i]? = some (.codes last' d') → u ≤ last') →
              exec (.setupWrite p) s =
                .next (answered s p r rest .range (header ++ lsbFirst 2 (start + before.length))))))

/-- JOURNAL FILTER sets both masks and echoes them (R92), HOLD sets, clears or leaves the manual flag and answers it (R127), and
SETUP LOCK adds the named locks and posts LOCK CHANGED when one is new (R161); a payload too short, or one that names no lock, is
refused with RANGE and changes nothing. Bits of a payload that no rule names are ignored, and the echo of the kind mask has six
bits (log entry 12). -/
def Obligations.FilterHoldAndLockSetTheirFlags : Prop :=
  ∀ (s : State) (p : Port) (r : Request) (rest : List Request),
    (Executes s p 16 r rest →
      (r.payload.length < 3 → exec (.journalFilter p) s = .next (answered s p r rest .range [])) ∧
      ∀ k c0 c1 tl, r.payload = k :: c0 :: c1 :: tl →
        exec (.journalFilter p) s =
          .next (answered (s.withPort p { s.port p with kindMask := k.setWidth 6, chanMask := c1 ++ c0 })
            p r rest .ok [(k.setWidth 6).setWidth 8, c0, c1])) ∧
    (Executes s p 13 r rest →
      (r.payload = [] → exec (.hold p) s = .next (answered s p r rest .range [])) ∧
      ∀ b tl, r.payload = b :: tl →
        let flag :=
          if b.getLsbD 0 = true ∧ b.getLsbD 1 = false then true
          else if b.getLsbD 0 = false ∧ b.getLsbD 1 = true then false
          else (s.port p).manual
        exec (.hold p) s =
          .next (answered (s.withPort p { s.port p with manual := flag }) p r rest .ok [if flag then 1 else 0])) ∧
    (Executes s p 7 r rest →
      let d := s.setup.lockDetection
      let c := s.setup.lockCriteria
      (r.payload = [] → exec (.setupLock p) s = .next (answered s p r rest .range [lockByte d c])) ∧
      ∀ b tl, r.payload = b :: tl →
        let d1 := d || b.getLsbD 0
        let c1 := c || b.getLsbD 1
        let t : State := { s with setup := { s.setup with lockDetection := d1, lockCriteria := c1 } }
        (b.getLsbD 0 = false → b.getLsbD 1 = false →
          exec (.setupLock p) s = .next (answered s p r rest .range [lockByte d c])) ∧
        (b.getLsbD 0 = true ∨ b.getLsbD 1 = true →
          (d1 = d ∧ c1 = c → exec (.setupLock p) s = .next (answered s p r rest .ok [lockByte d c])) ∧
          (d1 ≠ d ∨ c1 ≠ c → exec (.setupLock p) s =
            .next (answered (t.postWith .lockChanged 0 ((lockByte d1 c1).setWidth 32)) p r rest .ok [lockByte d1 c1]))))
/-! ### Preamplifier status line (chapter 9) -/

namespace Sys2Proof.Machine.Claims

/-- The state with the status line unit in another cycle state. -/
def inCycle (s : State) (x : CycleState) : State := { s with status := { s.status with cycle := x } }

end Sys2Proof.Machine.Claims

/-- The starts of a cycle, by the part at a tick and by a node (R165), and one status clock in every phase short of the end and
the abort of a cycle (R164, R166). The part drives the line low in START and STOP and releases it at IDLE and in every phase of a
slot (R164, R166). A start that is not due, a node's start elsewhere and a high at IDLE change nothing, and a
node's start is a command of its own (log entry 1). -/
def Obligations.StatusClocksAdvanceTheCycle : Prop :=
  ∀ s : State, s.resetHeld = false →
    let x := s.status
    let setupMode : LineMode := if s.setup.item .pt 19 = 1 then .quiet else .continuous
    let period := s.setup.item .pt 20 * 1024
    let due := x.cycle = .idle ∧ (x.lineMode = .continuous ∨ setupMode = .continuous) ∧
      ∀ k, x.refTick = some k → period ≤ (s.intake.clock - k).toNat
    (s.drivesLineLow = true ↔ (∃ n, x.cycle = .start n) ∨ ∃ n held, x.cycle = .stop n held) ∧
    (due → exec .statusCycleStart s = .next (inCycle s (.start 0))) ∧
    (¬ due → exec .statusCycleStart s = .next s) ∧
    (x.lineMode = .quiet → x.cycle = .idle ∨ x.cycle = .start 0 → exec .nodeStart s = .next (inCycle s (.start 1))) ∧
    (x.lineMode = .continuous ∨ (x.cycle ≠ .idle ∧ x.cycle ≠ .start 0) → exec .nodeStart s = .next s) ∧
    (x.cycle = .idle →
      exec (.statusClock .high) s = .next s ∧
      (x.lineMode = .quiet → exec (.statusClock .low) s = .next (inCycle s (.start 1))) ∧
      (x.lineMode = .continuous → exec (.statusClock .low) s = .next s)) ∧
    ∀ level,
      (∀ n, x.cycle = .start n → n < 3 → exec (.statusClock level) s = .next (inCycle s (.start (n + 1)))) ∧
      (∀ n, x.cycle = .start n → 3 ≤ n → exec (.statusClock level) s = .next (inCycle s (.slot 0 .drive))) ∧
      (∀ c, x.cycle = .slot c .drive → exec (.statusClock level) s =
        .next { s with status :=
          { x with cycle := .slot c .restore, reports := x.reports.set c (some (decide (level = .low))) } }) ∧
      (∀ c, x.cycle = .slot c .restore → exec (.statusClock level) s = .next (inCycle s (.slot c .release))) ∧
      (∀ c d : ChanId, x.cycle = .slot c .release → d.val = c.val + 1 →
        exec (.statusClock .high) s = .next (inCycle s (.slot d .drive))) ∧
      (x.cycle = .slot 15 .release → exec (.statusClock .high) s = .next (inCycle s (.stop 0 none))) ∧
      ∀ n held, x.cycle = .stop n held →
        let mode := held.getD setupMode
        n + 1 < (if mode = .quiet then 2 else 3) →
          exec (.statusClock level) s = .next (inCycle s (.stop (n + 1) (some mode)))

/-- The end of a completed cycle debounces every report, passes each change to its channel with the CHANNEL FAULT mark and
notice, in channel order, each with the fault mask after the change, clears the aborted count and line-down, with the LINE DOWN
notice released when it was down, and takes the announced mode (R164, R166, R168 to R170). A low RELEASE aborts the cycle with
no delivery, and the third abort in a row declares the line down (R167, R168). Elsewhere the two commands change nothing (log
entry 1). -/
def Obligations.CyclesEndOrAbort : Prop :=
  ∀ s : State, s.resetHeld = false →
    let x := s.status
    let setupMode : LineMode := if s.setup.item .pt 19 = 1 then .quiet else .continuous
    let report : ChanId → Bool := fun c => decide (x.reports[c] = some true)
    let changes : ChanId → Prop := fun c => (s.chan c).st ≠ .off ∧ report c ≠ x.faults[c] ∧ 1 ≤ x.debounce[c]
    let maskAfter : ChanId → Nat := fun c =>
      ((allChannels.filter fun d => if d.val ≤ c.val ∧ changes d then report d else x.faults[d]).map fun d => 2 ^ d.val).sum
    let told := (allChannels.filter fun c => changes c).foldl
      (fun u c => (u.offer (mark u.intake.clock 8 (c.val + 256 * (report c).toNat) (maskAfter c))).postWith .channelFault 0
        (BitVec.ofNat 32 (maskAfter c))) s
    let up := if x.lineDown then told.postWith .lineDown 0 0 else told
    (∀ n held, x.cycle = .stop n held →
      let mode := held.getD setupMode
      (if mode = .quiet then 2 else 3) ≤ n + 1 → ∀ level, ∃ t,
        exec .statusCycleEnd s = .next t ∧ exec (.statusClock level) s = .next t ∧
        t.status.cycle = .idle ∧ t.status.lineMode = mode ∧ t.status.refTick = some s.intake.clock ∧
        t.status.aborted = 0 ∧ t.status.lineDown = false ∧
        (∀ c : ChanId,
          t.status.reports[c] = none ∧
          (changes c → t.status.faults[c] = report c ∧ t.status.debounce[c] = 0 ∧
            t.chan c = { s.chan c with reportedFault := report c }) ∧
          (¬ changes c → t.status.faults[c] = x.faults[c] ∧ t.chan c = s.chan c ∧
            t.status.debounce[c] = if (s.chan c).st = .off ∨ report c = x.faults[c] then 0 else x.debounce[c] + 1)) ∧
        t.journal = up.journal ∧ (∀ p, t.port p = up.port p) ∧
        t.intake = s.intake ∧ t.grouping = s.grouping ∧ t.rollup = s.rollup ∧ t.run = s.run ∧ t.setup = s.setup ∧
        t.resetHeld = false ∧ sameSettings s t) ∧
    (∀ c, x.cycle = .slot c .release →
      let n := min 255 (x.aborted + 1)
      let t : State :=
        { s with status :=
          { x with
            cycle := .idle, reports := Vector.replicate 16 none, aborted := n, refTick := some s.intake.clock } }
      let down : State := { t with status := { t.status with lineDown := true } }
      let aborted := if n = 3 ∧ x.lineDown = false then down.postWith .lineDown 0 1 else t
      exec .cycleAbort s = .next aborted ∧ exec (.statusClock .low) s = .next aborted) ∧
    ((∀ c, x.cycle ≠ .slot c .release) → exec .cycleAbort s = .next s) ∧
    ((∀ n held, x.cycle = .stop n held →
        n + 1 < if held.getD setupMode = .quiet then 2 else 3) → exec .statusCycleEnd s = .next s)

/-! ### Request ports and notices (chapter 10) -/

/-- The two ends of an exchange: the frame chosen at the falling of select with its port status byte (R172, R186); at the
rising the response side settled (R175), and the bytes shifted in judged: nothing, a short request, a request taken in or
discarded (R173, R174), or PORT RESET (R178). Within the exchange the data output carries the bytes of the frame and bytes of 0
after it, and it is undriven while select is high (R172). A response counts as shifted out in full when as many bytes came in as
its frame has (log entry 16). -/
def Obligations.ExchangesBeginAndEnd : Prop :=
  ∀ (s : State) (p : Port), s.resetHeld = false →
    let q := s.port p
    let status : Byte := BitVec.ofNat 8
      ((if q.notices = [] then 0 else 1) + (if 4 ≤ q.requests.length then 2 else 0) + (if q.overrun then 4 else 0) +
        (if q.short then 8 else 0) + 16 * q.responses.length)
    ((q.exchange = none → ∀ i, q.dataOut i = none) ∧
      ∀ x, q.exchange = some x →
        (∀ i, q.dataOut i = some (if h : i < x.out.length then x.out[i] else 0)) ∧
        ∀ n, x.shiftedOut n = (x.out ++ List.replicate n 0).take n) ∧
    (∀ x, q.exchange = some x → exec (.exchangeStart p) s = .next s) ∧
    (q.exchange = none → q.responses = [] → exec (.exchangeStart p) s =
      .next (s.withPort p { q with exchange := some ⟨false, [status, 0, 0, 11, 0, 0]⟩ })) ∧
    (∀ a as, q.exchange = none → q.responses = a :: as → exec (.exchangeStart p) s =
      let out := [status, a.tag, a.code, BitVec.ofNat 8 (resultCode a.result)] ++ lsbFirst 2 a.payload.length ++ a.payload
      .next (s.withPort p { q with exchange := some ⟨true, out⟩ })) ∧
    (q.exchange = none → ∀ bytes, exec (.exchangeEnd p bytes) s = .next s) ∧
    ∀ x bytes, q.exchange = some x →
      let sent := x.queued = true ∧ x.out.length ≤ bytes.length
      let q1 := { q with exchange := none, responses := if sent then q.responses.tail else q.responses }
      let short := { q1 with short := true }
      let taken : Request → PortState := fun r =>
        if q.requests.length < 4 then { q1 with requests := q.requests ++ [r], overrun := false, short := false }
        else { q1 with overrun := true, short := false }
      (bytes = [] ∨ bytes.head? = some 0 → exec (.exchangeEnd p bytes) s = .next (s.withPort p q1)) ∧
      (bytes ≠ [] → bytes.head? ≠ some 0 → bytes.length < 4 →
        exec (.exchangeEnd p bytes) s = .next (s.withPort p short)) ∧
      ∀ code tag l0 l1 payload, bytes = code :: tag :: l0 :: l1 :: payload → code ≠ 0 →
        let length := l0.toNat + 256 * l1.toNat
        (code = 20 → exec (.exchangeEnd p bytes) s =
          .next (s.withPort p
            { q1 with
              requests := []
              responses := [Response.mk tag 20 .ok []]
              overrun := false
              short := false
              notices := []
              wait := none })) ∧
        (code ≠ 20 →
          (1020 < length → exec (.exchangeEnd p bytes) s = .next (s.withPort p (taken ⟨code, tag, length, []⟩))) ∧
          (length ≤ 1020 → payload.length < length → exec (.exchangeEnd p bytes) s = .next (s.withPort p short)) ∧
          (length ≤ 1020 → length ≤ payload.length → exec (.exchangeEnd p bytes) s =
            .next (s.withPort p (taken ⟨code, tag, length, payload.take length⟩))))

/-- A request of an unlisted code is answered UNKNOWN and one that declares more than 1,020 bytes LENGTH, with no other effect
(R174; LENGTH first, log entry 8). A port with a wait outstanding, a full response queue or no request executes nothing (R176,
R177). -/
def Obligations.UnknownLengthAndStall : Prop :=
  ∀ (s : State) (p : Port) (r : Request) (rest : List Request),
    (Ready s p r rest →
      (20 < r.code.toNat → r.declared ≤ 1020 → exec (.unknown p) s = .next (answered s p r rest .unknown [])) ∧
      (1020 < r.declared → exec (.length p) s = .next (answered s p r rest .length []))) ∧
    ((s.port p).wait ≠ none ∨ 4 ≤ (s.port p).responses.length ∨ (s.port p).requests = [] →
      ∀ c ∈ requestsOf p, exec c s = .next s)

/-- NOTICES READ returns every entry in list order, eight bytes each with its source's number (section 10.5), and empties the
list (R183, R188); the other port is not touched, and ATTN is asserted exactly while the list holds an entry. -/
def Obligations.NoticesReadEmptiesTheList : Prop :=
  ∀ (s : State) (p : Port) (r : Request) (rest : List Request), Executes s p 19 r rest →
    let entries := (s.port p).notices
    let level : Source → Byte := fun x =>
      if x = .autoHold ∨ x = .tallyMode ∨ x = .loadStale ∨ x = .lineDown then 1 else 0
    exec (.noticesRead p) s =
      .next (answered (s.withPort p { s.port p with notices := [] }) p r rest .ok
        (lsbFirst 1 entries.length ++ (entries.map fun e =>
          [BitVec.ofNat 8 (sourceNumber e.source), level e.source, BitVec.ofNat 8 e.count, BitVec.ofNat 8 e.sect] ++
            lsbFirst 4 e.detail.toNat).flatten)) ∧
    (∀ q : PortState, q.attn = true ↔ q.notices ≠ []) ∧
    (s.withPort p { s.port p with notices := [] }).port (other p) = s.port (other p)

/-! ### What every command keeps -/

/-- Every command keeps the ports bounded: at most one entry to a notice source (R182), four frames to a queue and room for a
waiting response (R98, R176, R177). -/
def Obligations.PortsStayBounded : Prop :=
  ∀ (c : Instr) (s t : State), s.NoticesOk → s.QueuesOk → exec c s = .next t → t.NoticesOk ∧ t.QueuesOk

/-- Every command keeps the journal sound: at most 65,536 words, fewer than 49,152 whenever tally mode is off (R85, R102),
consecutive sequence numbers up to the append point (R86), and each attached cursor from the retain floor to the append point
(R88). -/
def Obligations.JournalStaysSound : Prop :=
  ∀ (c : Instr) (s t : State), s.JournalOk → exec c s = .next t → t.JournalOk

/-- Every command keeps every value of the setup table within its item's range or codes (R150, R157), and only SETUP WRITE and
full reset change a value or the generation, a write by 1 (R151). -/
def Obligations.SetupStaysInRange : Prop :=
  ∀ (c : Instr) (s t : State), exec c s = .next t →
    (s.SetupOk → t.SetupOk) ∧
    ((∀ cause, c ≠ .fullReset cause) →
      t.setup.generation = s.setup.generation ∨
        ((∃ p, c = .setupWrite p) ∧ t.setup.generation = s.setup.generation + 1)) ∧
    ((∀ cause, c ≠ .fullReset cause) → (∀ p, c ≠ .setupWrite p) →
      ∀ x, t.setup.values x = s.setup.values x)

/-- The run state changes only as R134 allows, besides full reset, and by the commands that the rules name: IDLE to RUNNING by
RUN START, to FINAL by a declaration, to CLOSED by the closing event, to IDLE by RUN CLEAR. -/
def Obligations.RunStateChangesAsAllowed : Prop :=
  ∀ (c : Instr) (s t : State), (∀ cause, c ≠ .fullReset cause) → exec c s = .next t →
    t.run.state = s.run.state ∨
    (s.run.state = .idle ∧ t.run.state = .running ∧ ∃ p, c = .runStart p) ∨
    (s.run.state = .running ∧ t.run.state = .final ∧
      ((∃ ws, c = .frame ws) ∨ ∃ p, c = .loadPost p ∨ c = .ruptureDeclare p)) ∨
    ((s.run.state = .running ∨ s.run.state = .final) ∧ t.run.state = .closed ∧
      ((∃ ws, c = .frame ws) ∨ c = .postWindowEnd ∨ ∃ p, c = .runStop p ∨ c = .loadPost p ∨ c = .ruptureDeclare p)) ∨
    (s.run.state = .closed ∧ t.run.state = .idle ∧ ∃ p, c = .runClear p)

/-- Every command keeps the channels sound: OFF, LISTEN or FAULT whenever the run is not active (R35), the reported fault state
as the status line unit holds it and clear in OFF (R17, R169, R170), and the previous magnitudes and b16 within their ranges (R8,
R24). -/
def Obligations.ChannelsStaySound : Prop :=
  ∀ (c : Instr) (s t : State), exec c s = .next t →
    (s.ChannelsRest → t.ChannelsRest) ∧ (s.FaultsAgree → t.FaultsAgree) ∧ (s.MagnitudesOk → t.MagnitudesOk)

/-- Every command keeps the pending group list sound: at most four groups, none of them empty, the OPEN group at the tail, and
a group lockout running only while no group is OPEN (R59, R62, R66). And it keeps the placements in agreement with the
channels: NONE exactly without a candidate, GROUPED exactly with a member not DONE, each PENDING member's channel in PENDING
and each ACTIVE member's in IN_HIT (R61 to R64, R68, R70). -/
def Obligations.GroupsStayOrdered : Prop :=
  ∀ (c : Instr) (s t : State), exec c s = .next t →
    (s.GroupsOk → t.GroupsOk) ∧ (s.PlacementsOk → t.PlacementsOk)

/-- The state after full reset meets everything that the invariants of this file keep. -/
def Obligations.ResetIsSound : Prop :=
  State.reset.NoticesOk ∧ State.reset.QueuesOk ∧ State.reset.JournalOk ∧ State.reset.SetupOk ∧
    State.reset.ChannelsRest ∧ State.reset.FaultsAgree ∧ State.reset.MagnitudesOk ∧ State.reset.GroupsOk ∧
    State.reset.PlacementsOk
end

