-- ==== Sys2Proof/Laws/State.lean ====
section
/-! SUPPORT. What each update of the state does to each of its fields: one lemma a field an update, all by definition. -/

namespace Sys2Proof.Machine

section Updates

variable (s : State)

/-! ### withIntake -/

@[simp] theorem State.withIntake_resetHeld (x : Intake) : (s.withIntake x).resetHeld = s.resetHeld := rfl
@[simp] theorem State.withIntake_intake (x : Intake) : (s.withIntake x).intake = x := rfl
@[simp] theorem State.withIntake_channels (x : Intake) : (s.withIntake x).channels = s.channels := rfl
@[simp] theorem State.withIntake_grouping (x : Intake) : (s.withIntake x).grouping = s.grouping := rfl
@[simp] theorem State.withIntake_journal (x : Intake) : (s.withIntake x).journal = s.journal := rfl
@[simp] theorem State.withIntake_rollup (x : Intake) : (s.withIntake x).rollup = s.rollup := rfl
@[simp] theorem State.withIntake_run (x : Intake) : (s.withIntake x).run = s.run := rfl
@[simp] theorem State.withIntake_setup (x : Intake) : (s.withIntake x).setup = s.setup := rfl
@[simp] theorem State.withIntake_status (x : Intake) : (s.withIntake x).status = s.status := rfl
@[simp] theorem State.withIntake_portA (x : Intake) : (s.withIntake x).portA = s.portA := rfl
@[simp] theorem State.withIntake_portB (x : Intake) : (s.withIntake x).portB = s.portB := rfl
@[simp] theorem State.withIntake_pending (x : Intake) : (s.withIntake x).pending = s.pending := rfl
@[simp] theorem State.withIntake_port (x : Intake) (p : Port) : (s.withIntake x).port p = s.port p := by cases p <;> rfl
@[simp] theorem State.withIntake_chan (x : Intake) (c : ChanId) : (s.withIntake x).chan c = s.chan c := rfl
@[simp] theorem State.withIntake_clock (x : Intake) : (s.withIntake x).clock = x.clock := rfl
@[simp] theorem State.withIntake_runActive (x : Intake) : (s.withIntake x).runActive = s.runActive := rfl

/-! ### withChannels -/

@[simp] theorem State.withChannels_resetHeld (x : Vector Channel 16) : (s.withChannels x).resetHeld = s.resetHeld := rfl
@[simp] theorem State.withChannels_intake (x : Vector Channel 16) : (s.withChannels x).intake = s.intake := rfl
@[simp] theorem State.withChannels_channels (x : Vector Channel 16) : (s.withChannels x).channels = x := rfl
@[simp] theorem State.withChannels_grouping (x : Vector Channel 16) : (s.withChannels x).grouping = s.grouping := rfl
@[simp] theorem State.withChannels_journal (x : Vector Channel 16) : (s.withChannels x).journal = s.journal := rfl
@[simp] theorem State.withChannels_rollup (x : Vector Channel 16) : (s.withChannels x).rollup = s.rollup := rfl
@[simp] theorem State.withChannels_run (x : Vector Channel 16) : (s.withChannels x).run = s.run := rfl
@[simp] theorem State.withChannels_setup (x : Vector Channel 16) : (s.withChannels x).setup = s.setup := rfl
@[simp] theorem State.withChannels_status (x : Vector Channel 16) : (s.withChannels x).status = s.status := rfl
@[simp] theorem State.withChannels_portA (x : Vector Channel 16) : (s.withChannels x).portA = s.portA := rfl
@[simp] theorem State.withChannels_portB (x : Vector Channel 16) : (s.withChannels x).portB = s.portB := rfl
@[simp] theorem State.withChannels_pending (x : Vector Channel 16) : (s.withChannels x).pending = s.pending := rfl
@[simp] theorem State.withChannels_port (x : Vector Channel 16) (p : Port) : (s.withChannels x).port p = s.port p := by cases p <;> rfl
@[simp] theorem State.withChannels_chan (x : Vector Channel 16) (c : ChanId) : (s.withChannels x).chan c = x[c] := rfl
@[simp] theorem State.withChannels_clock (x : Vector Channel 16) : (s.withChannels x).clock = s.clock := rfl
@[simp] theorem State.withChannels_runActive (x : Vector Channel 16) : (s.withChannels x).runActive = s.runActive := rfl

/-! ### withGrouping -/

@[simp] theorem State.withGrouping_resetHeld (x : Grouping) : (s.withGrouping x).resetHeld = s.resetHeld := rfl
@[simp] theorem State.withGrouping_intake (x : Grouping) : (s.withGrouping x).intake = s.intake := rfl
@[simp] theorem State.withGrouping_channels (x : Grouping) : (s.withGrouping x).channels = s.channels := rfl
@[simp] theorem State.withGrouping_grouping (x : Grouping) : (s.withGrouping x).grouping = x := rfl
@[simp] theorem State.withGrouping_journal (x : Grouping) : (s.withGrouping x).journal = s.journal := rfl
@[simp] theorem State.withGrouping_rollup (x : Grouping) : (s.withGrouping x).rollup = s.rollup := rfl
@[simp] theorem State.withGrouping_run (x : Grouping) : (s.withGrouping x).run = s.run := rfl
@[simp] theorem State.withGrouping_setup (x : Grouping) : (s.withGrouping x).setup = s.setup := rfl
@[simp] theorem State.withGrouping_status (x : Grouping) : (s.withGrouping x).status = s.status := rfl
@[simp] theorem State.withGrouping_portA (x : Grouping) : (s.withGrouping x).portA = s.portA := rfl
@[simp] theorem State.withGrouping_portB (x : Grouping) : (s.withGrouping x).portB = s.portB := rfl
@[simp] theorem State.withGrouping_pending (x : Grouping) : (s.withGrouping x).pending = s.pending := rfl
@[simp] theorem State.withGrouping_port (x : Grouping) (p : Port) : (s.withGrouping x).port p = s.port p := by cases p <;> rfl
@[simp] theorem State.withGrouping_chan (x : Grouping) (c : ChanId) : (s.withGrouping x).chan c = s.chan c := rfl
@[simp] theorem State.withGrouping_clock (x : Grouping) : (s.withGrouping x).clock = s.clock := rfl
@[simp] theorem State.withGrouping_runActive (x : Grouping) : (s.withGrouping x).runActive = s.runActive := rfl

/-! ### withJournal -/

@[simp] theorem State.withJournal_resetHeld (x : Journal) : (s.withJournal x).resetHeld = s.resetHeld := rfl
@[simp] theorem State.withJournal_intake (x : Journal) : (s.withJournal x).intake = s.intake := rfl
@[simp] theorem State.withJournal_channels (x : Journal) : (s.withJournal x).channels = s.channels := rfl
@[simp] theorem State.withJournal_grouping (x : Journal) : (s.withJournal x).grouping = s.grouping := rfl
@[simp] theorem State.withJournal_journal (x : Journal) : (s.withJournal x).journal = x := rfl
@[simp] theorem State.withJournal_rollup (x : Journal) : (s.withJournal x).rollup = s.rollup := rfl
@[simp] theorem State.withJournal_run (x : Journal) : (s.withJournal x).run = s.run := rfl
@[simp] theorem State.withJournal_setup (x : Journal) : (s.withJournal x).setup = s.setup := rfl
@[simp] theorem State.withJournal_status (x : Journal) : (s.withJournal x).status = s.status := rfl
@[simp] theorem State.withJournal_portA (x : Journal) : (s.withJournal x).portA = s.portA := rfl
@[simp] theorem State.withJournal_portB (x : Journal) : (s.withJournal x).portB = s.portB := rfl
@[simp] theorem State.withJournal_pending (x : Journal) : (s.withJournal x).pending = s.pending := rfl
@[simp] theorem State.withJournal_port (x : Journal) (p : Port) : (s.withJournal x).port p = s.port p := by cases p <;> rfl
@[simp] theorem State.withJournal_chan (x : Journal) (c : ChanId) : (s.withJournal x).chan c = s.chan c := rfl
@[simp] theorem State.withJournal_clock (x : Journal) : (s.withJournal x).clock = s.clock := rfl
@[simp] theorem State.withJournal_runActive (x : Journal) : (s.withJournal x).runActive = s.runActive := rfl

/-! ### withRollup -/

@[simp] theorem State.withRollup_resetHeld (x : Rollup) : (s.withRollup x).resetHeld = s.resetHeld := rfl
@[simp] theorem State.withRollup_intake (x : Rollup) : (s.withRollup x).intake = s.intake := rfl
@[simp] theorem State.withRollup_channels (x : Rollup) : (s.withRollup x).channels = s.channels := rfl
@[simp] theorem State.withRollup_grouping (x : Rollup) : (s.withRollup x).grouping = s.grouping := rfl
@[simp] theorem State.withRollup_journal (x : Rollup) : (s.withRollup x).journal = s.journal := rfl
@[simp] theorem State.withRollup_rollup (x : Rollup) : (s.withRollup x).rollup = x := rfl
@[simp] theorem State.withRollup_run (x : Rollup) : (s.withRollup x).run = s.run := rfl
@[simp] theorem State.withRollup_setup (x : Rollup) : (s.withRollup x).setup = s.setup := rfl
@[simp] theorem State.withRollup_status (x : Rollup) : (s.withRollup x).status = s.status := rfl
@[simp] theorem State.withRollup_portA (x : Rollup) : (s.withRollup x).portA = s.portA := rfl
@[simp] theorem State.withRollup_portB (x : Rollup) : (s.withRollup x).portB = s.portB := rfl
@[simp] theorem State.withRollup_pending (x : Rollup) : (s.withRollup x).pending = s.pending := rfl
@[simp] theorem State.withRollup_port (x : Rollup) (p : Port) : (s.withRollup x).port p = s.port p := by cases p <;> rfl
@[simp] theorem State.withRollup_chan (x : Rollup) (c : ChanId) : (s.withRollup x).chan c = s.chan c := rfl
@[simp] theorem State.withRollup_clock (x : Rollup) : (s.withRollup x).clock = s.clock := rfl
@[simp] theorem State.withRollup_runActive (x : Rollup) : (s.withRollup x).runActive = s.runActive := rfl

/-! ### withRun -/

@[simp] theorem State.withRun_resetHeld (x : Run) : (s.withRun x).resetHeld = s.resetHeld := rfl
@[simp] theorem State.withRun_intake (x : Run) : (s.withRun x).intake = s.intake := rfl
@[simp] theorem State.withRun_channels (x : Run) : (s.withRun x).channels = s.channels := rfl
@[simp] theorem State.withRun_grouping (x : Run) : (s.withRun x).grouping = s.grouping := rfl
@[simp] theorem State.withRun_journal (x : Run) : (s.withRun x).journal = s.journal := rfl
@[simp] theorem State.withRun_rollup (x : Run) : (s.withRun x).rollup = s.rollup := rfl
@[simp] theorem State.withRun_run (x : Run) : (s.withRun x).run = x := rfl
@[simp] theorem State.withRun_setup (x : Run) : (s.withRun x).setup = s.setup := rfl
@[simp] theorem State.withRun_status (x : Run) : (s.withRun x).status = s.status := rfl
@[simp] theorem State.withRun_portA (x : Run) : (s.withRun x).portA = s.portA := rfl
@[simp] theorem State.withRun_portB (x : Run) : (s.withRun x).portB = s.portB := rfl
@[simp] theorem State.withRun_pending (x : Run) : (s.withRun x).pending = s.pending := rfl
@[simp] theorem State.withRun_port (x : Run) (p : Port) : (s.withRun x).port p = s.port p := by cases p <;> rfl
@[simp] theorem State.withRun_chan (x : Run) (c : ChanId) : (s.withRun x).chan c = s.chan c := rfl
@[simp] theorem State.withRun_clock (x : Run) : (s.withRun x).clock = s.clock := rfl
@[simp] theorem State.withRun_runActive (x : Run) : (s.withRun x).runActive = x.state.active := rfl

/-! ### withSetup -/

@[simp] theorem State.withSetup_resetHeld (x : Setup) : (s.withSetup x).resetHeld = s.resetHeld := rfl
@[simp] theorem State.withSetup_intake (x : Setup) : (s.withSetup x).intake = s.intake := rfl
@[simp] theorem State.withSetup_channels (x : Setup) : (s.withSetup x).channels = s.channels := rfl
@[simp] theorem State.withSetup_grouping (x : Setup) : (s.withSetup x).grouping = s.grouping := rfl
@[simp] theorem State.withSetup_journal (x : Setup) : (s.withSetup x).journal = s.journal := rfl
@[simp] theorem State.withSetup_rollup (x : Setup) : (s.withSetup x).rollup = s.rollup := rfl
@[simp] theorem State.withSetup_run (x : Setup) : (s.withSetup x).run = s.run := rfl
@[simp] theorem State.withSetup_setup (x : Setup) : (s.withSetup x).setup = x := rfl
@[simp] theorem State.withSetup_status (x : Setup) : (s.withSetup x).status = s.status := rfl
@[simp] theorem State.withSetup_portA (x : Setup) : (s.withSetup x).portA = s.portA := rfl
@[simp] theorem State.withSetup_portB (x : Setup) : (s.withSetup x).portB = s.portB := rfl
@[simp] theorem State.withSetup_pending (x : Setup) : (s.withSetup x).pending = s.pending := rfl
@[simp] theorem State.withSetup_port (x : Setup) (p : Port) : (s.withSetup x).port p = s.port p := by cases p <;> rfl
@[simp] theorem State.withSetup_chan (x : Setup) (c : ChanId) : (s.withSetup x).chan c = s.chan c := rfl
@[simp] theorem State.withSetup_clock (x : Setup) : (s.withSetup x).clock = s.clock := rfl
@[simp] theorem State.withSetup_runActive (x : Setup) : (s.withSetup x).runActive = s.runActive := rfl

/-! ### withStatus -/

@[simp] theorem State.withStatus_resetHeld (x : Status) : (s.withStatus x).resetHeld = s.resetHeld := rfl
@[simp] theorem State.withStatus_intake (x : Status) : (s.withStatus x).intake = s.intake := rfl
@[simp] theorem State.withStatus_channels (x : Status) : (s.withStatus x).channels = s.channels := rfl
@[simp] theorem State.withStatus_grouping (x : Status) : (s.withStatus x).grouping = s.grouping := rfl
@[simp] theorem State.withStatus_journal (x : Status) : (s.withStatus x).journal = s.journal := rfl
@[simp] theorem State.withStatus_rollup (x : Status) : (s.withStatus x).rollup = s.rollup := rfl
@[simp] theorem State.withStatus_run (x : Status) : (s.withStatus x).run = s.run := rfl
@[simp] theorem State.withStatus_setup (x : Status) : (s.withStatus x).setup = s.setup := rfl
@[simp] theorem State.withStatus_status (x : Status) : (s.withStatus x).status = x := rfl
@[simp] theorem State.withStatus_portA (x : Status) : (s.withStatus x).portA = s.portA := rfl
@[simp] theorem State.withStatus_portB (x : Status) : (s.withStatus x).portB = s.portB := rfl
@[simp] theorem State.withStatus_pending (x : Status) : (s.withStatus x).pending = s.pending := rfl
@[simp] theorem State.withStatus_port (x : Status) (p : Port) : (s.withStatus x).port p = s.port p := by cases p <;> rfl
@[simp] theorem State.withStatus_chan (x : Status) (c : ChanId) : (s.withStatus x).chan c = s.chan c := rfl
@[simp] theorem State.withStatus_clock (x : Status) : (s.withStatus x).clock = s.clock := rfl
@[simp] theorem State.withStatus_runActive (x : Status) : (s.withStatus x).runActive = s.runActive := rfl

/-! ### withResetHeld -/

@[simp] theorem State.withResetHeld_resetHeld (x : Bool) : (s.withResetHeld x).resetHeld = x := rfl
@[simp] theorem State.withResetHeld_intake (x : Bool) : (s.withResetHeld x).intake = s.intake := rfl
@[simp] theorem State.withResetHeld_channels (x : Bool) : (s.withResetHeld x).channels = s.channels := rfl
@[simp] theorem State.withResetHeld_grouping (x : Bool) : (s.withResetHeld x).grouping = s.grouping := rfl
@[simp] theorem State.withResetHeld_journal (x : Bool) : (s.withResetHeld x).journal = s.journal := rfl
@[simp] theorem State.withResetHeld_rollup (x : Bool) : (s.withResetHeld x).rollup = s.rollup := rfl
@[simp] theorem State.withResetHeld_run (x : Bool) : (s.withResetHeld x).run = s.run := rfl
@[simp] theorem State.withResetHeld_setup (x : Bool) : (s.withResetHeld x).setup = s.setup := rfl
@[simp] theorem State.withResetHeld_status (x : Bool) : (s.withResetHeld x).status = s.status := rfl
@[simp] theorem State.withResetHeld_portA (x : Bool) : (s.withResetHeld x).portA = s.portA := rfl
@[simp] theorem State.withResetHeld_portB (x : Bool) : (s.withResetHeld x).portB = s.portB := rfl
@[simp] theorem State.withResetHeld_pending (x : Bool) : (s.withResetHeld x).pending = s.pending := rfl
@[simp] theorem State.withResetHeld_port (x : Bool) (p : Port) : (s.withResetHeld x).port p = s.port p := by cases p <;> rfl
@[simp] theorem State.withResetHeld_chan (x : Bool) (c : ChanId) : (s.withResetHeld x).chan c = s.chan c := rfl
@[simp] theorem State.withResetHeld_clock (x : Bool) : (s.withResetHeld x).clock = s.clock := rfl
@[simp] theorem State.withResetHeld_runActive (x : Bool) : (s.withResetHeld x).runActive = s.runActive := rfl

/-! ### withPending -/

@[simp] theorem State.withPending_resetHeld (x : List Instr) : (s.withPending x).resetHeld = s.resetHeld := rfl
@[simp] theorem State.withPending_intake (x : List Instr) : (s.withPending x).intake = s.intake := rfl
@[simp] theorem State.withPending_channels (x : List Instr) : (s.withPending x).channels = s.channels := rfl
@[simp] theorem State.withPending_grouping (x : List Instr) : (s.withPending x).grouping = s.grouping := rfl
@[simp] theorem State.withPending_journal (x : List Instr) : (s.withPending x).journal = s.journal := rfl
@[simp] theorem State.withPending_rollup (x : List Instr) : (s.withPending x).rollup = s.rollup := rfl
@[simp] theorem State.withPending_run (x : List Instr) : (s.withPending x).run = s.run := rfl
@[simp] theorem State.withPending_setup (x : List Instr) : (s.withPending x).setup = s.setup := rfl
@[simp] theorem State.withPending_status (x : List Instr) : (s.withPending x).status = s.status := rfl
@[simp] theorem State.withPending_portA (x : List Instr) : (s.withPending x).portA = s.portA := rfl
@[simp] theorem State.withPending_portB (x : List Instr) : (s.withPending x).portB = s.portB := rfl
@[simp] theorem State.withPending_pending (x : List Instr) : (s.withPending x).pending = x := rfl
@[simp] theorem State.withPending_port (x : List Instr) (p : Port) : (s.withPending x).port p = s.port p := by cases p <;> rfl
@[simp] theorem State.withPending_chan (x : List Instr) (c : ChanId) : (s.withPending x).chan c = s.chan c := rfl
@[simp] theorem State.withPending_clock (x : List Instr) : (s.withPending x).clock = s.clock := rfl
@[simp] theorem State.withPending_runActive (x : List Instr) : (s.withPending x).runActive = s.runActive := rfl

/-! ### withPort and updPort -/

@[simp] theorem State.withPort_resetHeld (p : Port) (q : PortState) : (s.withPort p q).resetHeld = s.resetHeld := by cases p <;> rfl
@[simp] theorem State.updPort_resetHeld (p : Port) (f : PortState → PortState) : (s.updPort p f).resetHeld = s.resetHeld := by cases p <;> rfl
@[simp] theorem State.withPort_intake (p : Port) (q : PortState) : (s.withPort p q).intake = s.intake := by cases p <;> rfl
@[simp] theorem State.updPort_intake (p : Port) (f : PortState → PortState) : (s.updPort p f).intake = s.intake := by cases p <;> rfl
@[simp] theorem State.withPort_channels (p : Port) (q : PortState) : (s.withPort p q).channels = s.channels := by cases p <;> rfl
@[simp] theorem State.updPort_channels (p : Port) (f : PortState → PortState) : (s.updPort p f).channels = s.channels := by cases p <;> rfl
@[simp] theorem State.withPort_grouping (p : Port) (q : PortState) : (s.withPort p q).grouping = s.grouping := by cases p <;> rfl
@[simp] theorem State.updPort_grouping (p : Port) (f : PortState → PortState) : (s.updPort p f).grouping = s.grouping := by cases p <;> rfl
@[simp] theorem State.withPort_journal (p : Port) (q : PortState) : (s.withPort p q).journal = s.journal := by cases p <;> rfl
@[simp] theorem State.updPort_journal (p : Port) (f : PortState → PortState) : (s.updPort p f).journal = s.journal := by cases p <;> rfl
@[simp] theorem State.withPort_rollup (p : Port) (q : PortState) : (s.withPort p q).rollup = s.rollup := by cases p <;> rfl
@[simp] theorem State.updPort_rollup (p : Port) (f : PortState → PortState) : (s.updPort p f).rollup = s.rollup := by cases p <;> rfl
@[simp] theorem State.withPort_run (p : Port) (q : PortState) : (s.withPort p q).run = s.run := by cases p <;> rfl
@[simp] theorem State.updPort_run (p : Port) (f : PortState → PortState) : (s.updPort p f).run = s.run := by cases p <;> rfl
@[simp] theorem State.withPort_setup (p : Port) (q : PortState) : (s.withPort p q).setup = s.setup := by cases p <;> rfl
@[simp] theorem State.updPort_setup (p : Port) (f : PortState → PortState) : (s.updPort p f).setup = s.setup := by cases p <;> rfl
@[simp] theorem State.withPort_status (p : Port) (q : PortState) : (s.withPort p q).status = s.status := by cases p <;> rfl
@[simp] theorem State.updPort_status (p : Port) (f : PortState → PortState) : (s.updPort p f).status = s.status := by cases p <;> rfl
@[simp] theorem State.withPort_pending (p : Port) (q : PortState) : (s.withPort p q).pending = s.pending := by cases p <;> rfl
@[simp] theorem State.updPort_pending (p : Port) (f : PortState → PortState) : (s.updPort p f).pending = s.pending := by cases p <;> rfl
@[simp] theorem State.withPort_chan (p : Port) (q : PortState) (c : ChanId) : (s.withPort p q).chan c = s.chan c := by cases p <;> rfl
@[simp] theorem State.withPort_clock (p : Port) (q : PortState) : (s.withPort p q).clock = s.clock := by cases p <;> rfl
@[simp] theorem State.withPort_runActive (p : Port) (q : PortState) : (s.withPort p q).runActive = s.runActive := by cases p <;> rfl
@[simp] theorem State.updPort_chan (p : Port) (q : PortState → PortState) (c : ChanId) : (s.updPort p q).chan c = s.chan c := by cases p <;> rfl
@[simp] theorem State.updPort_clock (p : Port) (q : PortState → PortState) : (s.updPort p q).clock = s.clock := by cases p <;> rfl
@[simp] theorem State.updPort_runActive (p : Port) (q : PortState → PortState) : (s.updPort p q).runActive = s.runActive := by cases p <;> rfl

@[simp] theorem State.port_a : s.port .a = s.portA := rfl
@[simp] theorem State.port_b : s.port .b = s.portB := rfl
@[simp] theorem State.withPort_port (p : Port) (q : PortState) : (s.withPort p q).port p = q := by cases p <;> rfl
@[simp] theorem State.withPort_port_other (p : Port) (q : PortState) : (s.withPort p q).port (other p) = s.port (other p) := by
  cases p <;> rfl
@[simp] theorem State.updPort_port (p : Port) (f : PortState → PortState) : (s.updPort p f).port p = f (s.port p) := by
  cases p <;> rfl
@[simp] theorem State.updPort_port_other (p : Port) (f : PortState → PortState) :
    (s.updPort p f).port (other p) = s.port (other p) := by
  cases p <;> rfl

/-- A port is unchanged by an update of another port. -/
theorem State.updPort_port_ne {p r : Port} (f : PortState → PortState) (h : r ≠ p) : (s.updPort p f).port r = s.port r := by
  cases p <;> cases r <;> first | rfl | exact absurd rfl h

/-- A property of every port is kept by an update of one port that keeps it there. -/
theorem State.updPort_all {P : PortState → Prop} (p : Port) (f : PortState → PortState) (h : ∀ r, P (s.port r))
    (hf : P (s.port p) → P (f (s.port p))) (r : Port) : P ((s.updPort p f).port r) := by
  by_cases e : r = p
  · subst e; simpa using hf (h r)
  · rw [s.updPort_port_ne f e]; exact h r

@[simp] theorem State.withChan_chan (c : ChanId) (x : Channel) : (s.withChan c x).chan c = x := by
  simp [State.withChan, State.chan]

/-- A channel is unchanged by an update of another channel. -/
theorem State.withChan_chan_ne {c d : ChanId} (x : Channel) (h : d ≠ c) : (s.withChan c x).chan d = s.chan d := by
  have : c.val ≠ d.val := fun e => h (Fin.ext e.symm)
  simp [State.withChan, State.chan, this]

@[simp] theorem State.withChan_resetHeld (c : ChanId) (x : Channel) : (s.withChan c x).resetHeld = s.resetHeld := rfl
@[simp] theorem State.withChan_intake (c : ChanId) (x : Channel) : (s.withChan c x).intake = s.intake := rfl
@[simp] theorem State.withChan_grouping (c : ChanId) (x : Channel) : (s.withChan c x).grouping = s.grouping := rfl
@[simp] theorem State.withChan_journal (c : ChanId) (x : Channel) : (s.withChan c x).journal = s.journal := rfl
@[simp] theorem State.withChan_rollup (c : ChanId) (x : Channel) : (s.withChan c x).rollup = s.rollup := rfl
@[simp] theorem State.withChan_run (c : ChanId) (x : Channel) : (s.withChan c x).run = s.run := rfl
@[simp] theorem State.withChan_setup (c : ChanId) (x : Channel) : (s.withChan c x).setup = s.setup := rfl
@[simp] theorem State.withChan_status (c : ChanId) (x : Channel) : (s.withChan c x).status = s.status := rfl
@[simp] theorem State.withChan_portA (c : ChanId) (x : Channel) : (s.withChan c x).portA = s.portA := rfl
@[simp] theorem State.withChan_portB (c : ChanId) (x : Channel) : (s.withChan c x).portB = s.portB := rfl
@[simp] theorem State.withChan_pending (c : ChanId) (x : Channel) : (s.withChan c x).pending = s.pending := rfl
@[simp] theorem State.withChan_port (c : ChanId) (x : Channel) (p : Port) : (s.withChan c x).port p = s.port p := by cases p <;> rfl
@[simp] theorem State.withChan_clock (c : ChanId) (x : Channel) : (s.withChan c x).clock = s.clock := rfl
@[simp] theorem State.withChan_runActive (c : ChanId) (x : Channel) : (s.withChan c x).runActive = s.runActive := rfl

end Updates

/-! ### One value for each channel -/

@[simp] theorem perChannel_get {α : Type} (f : ChanId → α) (c : ChanId) : (perChannel f)[c] = f c := by
  fin_cases c <;> rfl

theorem mem_allChannels (c : ChanId) : c ∈ allChannels := by
  fin_cases c <;> decide

end Sys2Proof.Machine
end

