-- ==== Sys2Proof/Laws/Notices.lean ====
section
/-! SUPPORT. Posting a notice: what it does to a list, and that it changes the notice lists alone (R181, R182). -/

namespace Sys2Proof.Machine

/-! ### A posting in a list -/

/-- The sources of a list after a posting: the same in the same places, or the new one at the tail (R182). -/
theorem addNotice_sources (src : Source) (sect : Nat) (d : Word32) (l : List Notice) :
    (addNotice src sect d l).map Notice.source =
      if src ∈ l.map Notice.source then l.map Notice.source else l.map Notice.source ++ [src] := by
  induction l with
  | nil => simp [addNotice]
  | cons e es ih =>
    by_cases h : e.source = src
    · simp [addNotice, h]
    · have h' : ¬ src = e.source := fun x => h x.symm
      simp only [addNotice, h, if_false, List.map_cons, ih, List.mem_cons, h', false_or]
      split <;> simp

/-- A posting leaves at most one entry for each source (R182). -/
theorem addNotice_nodup (src : Source) (sect : Nat) (d : Word32) (l : List Notice)
    (h : (l.map Notice.source).Nodup) : ((addNotice src sect d l).map Notice.source).Nodup := by
  rw [addNotice_sources]
  split
  · exact h
  · next hn => exact List.nodup_append.2 ⟨h, by simp, by
      intro a ha b hb e
      simp only [List.mem_singleton] at hb
      subst hb; subst e
      exact hn ha⟩

/-- A list that a posting reaches is not empty, so ATTN is asserted (R183). -/
theorem addNotice_ne_nil (src : Source) (sect : Nat) (d : Word32) (l : List Notice) : addNotice src sect d l ≠ [] := by
  cases l with
  | nil => simp [addNotice]
  | cons e es => simp only [addNotice]; split <;> simp

/-! ### A posting in the state -/

/-- All that a posting does: each port it is routed to takes it into its list (R181). -/
theorem State.postWith_port (s : State) (src : Source) (sect : Nat) (d : Word32) (p : Port) :
    (s.postWith src sect d).port p =
      if s.routed src p then (s.port p).takeNotice src sect d else s.port p := by
  cases p <;> rfl

/-! ### postWith: what it leaves as it is -/

@[simp] theorem State.postWith_resetHeld (s : State) (src : Source) (sect : Nat) (d : Word32) : (s.postWith src sect d).resetHeld = s.resetHeld := rfl
@[simp] theorem State.postWith_intake (s : State) (src : Source) (sect : Nat) (d : Word32) : (s.postWith src sect d).intake = s.intake := rfl
@[simp] theorem State.postWith_channels (s : State) (src : Source) (sect : Nat) (d : Word32) : (s.postWith src sect d).channels = s.channels := rfl
@[simp] theorem State.postWith_grouping (s : State) (src : Source) (sect : Nat) (d : Word32) : (s.postWith src sect d).grouping = s.grouping := rfl
@[simp] theorem State.postWith_journal (s : State) (src : Source) (sect : Nat) (d : Word32) : (s.postWith src sect d).journal = s.journal := rfl
@[simp] theorem State.postWith_rollup (s : State) (src : Source) (sect : Nat) (d : Word32) : (s.postWith src sect d).rollup = s.rollup := rfl
@[simp] theorem State.postWith_run (s : State) (src : Source) (sect : Nat) (d : Word32) : (s.postWith src sect d).run = s.run := rfl
@[simp] theorem State.postWith_setup (s : State) (src : Source) (sect : Nat) (d : Word32) : (s.postWith src sect d).setup = s.setup := rfl
@[simp] theorem State.postWith_status (s : State) (src : Source) (sect : Nat) (d : Word32) : (s.postWith src sect d).status = s.status := rfl
@[simp] theorem State.postWith_pending (s : State) (src : Source) (sect : Nat) (d : Word32) : (s.postWith src sect d).pending = s.pending := rfl
@[simp] theorem State.postWith_clock (s : State) (src : Source) (sect : Nat) (d : Word32) : (s.postWith src sect d).clock = s.clock := by simp [State.clock]
@[simp] theorem State.postWith_runActive (s : State) (src : Source) (sect : Nat) (d : Word32) : (s.postWith src sect d).runActive = s.runActive := by simp [State.runActive]
@[simp] theorem State.postWith_chan (s : State) (src : Source) (sect : Nat) (d : Word32) (c : ChanId) : (s.postWith src sect d).chan c = s.chan c := by simp [State.chan]

@[simp] theorem State.postWith_port_requests (s : State) (src : Source) (sect : Nat) (d : Word32) (r : Port) : ((s.postWith src sect d).port r).requests = (s.port r).requests := by
  rw [State.postWith_port]; split <;> rfl
@[simp] theorem State.postWith_port_responses (s : State) (src : Source) (sect : Nat) (d : Word32) (r : Port) : ((s.postWith src sect d).port r).responses = (s.port r).responses := by
  rw [State.postWith_port]; split <;> rfl
@[simp] theorem State.postWith_port_overrun (s : State) (src : Source) (sect : Nat) (d : Word32) (r : Port) : ((s.postWith src sect d).port r).overrun = (s.port r).overrun := by
  rw [State.postWith_port]; split <;> rfl
@[simp] theorem State.postWith_port_short (s : State) (src : Source) (sect : Nat) (d : Word32) (r : Port) : ((s.postWith src sect d).port r).short = (s.port r).short := by
  rw [State.postWith_port]; split <;> rfl
@[simp] theorem State.postWith_port_exchange (s : State) (src : Source) (sect : Nat) (d : Word32) (r : Port) : ((s.postWith src sect d).port r).exchange = (s.port r).exchange := by
  rw [State.postWith_port]; split <;> rfl
@[simp] theorem State.postWith_port_cursor (s : State) (src : Source) (sect : Nat) (d : Word32) (r : Port) : ((s.postWith src sect d).port r).cursor = (s.port r).cursor := by
  rw [State.postWith_port]; split <;> rfl
@[simp] theorem State.postWith_port_kindMask (s : State) (src : Source) (sect : Nat) (d : Word32) (r : Port) : ((s.postWith src sect d).port r).kindMask = (s.port r).kindMask := by
  rw [State.postWith_port]; split <;> rfl
@[simp] theorem State.postWith_port_chanMask (s : State) (src : Source) (sect : Nat) (d : Word32) (r : Port) : ((s.postWith src sect d).port r).chanMask = (s.port r).chanMask := by
  rw [State.postWith_port]; split <;> rfl
@[simp] theorem State.postWith_port_wait (s : State) (src : Source) (sect : Nat) (d : Word32) (r : Port) : ((s.postWith src sect d).port r).wait = (s.port r).wait := by
  rw [State.postWith_port]; split <;> rfl
@[simp] theorem State.postWith_port_manual (s : State) (src : Source) (sect : Nat) (d : Word32) (r : Port) : ((s.postWith src sect d).port r).manual = (s.port r).manual := by
  rw [State.postWith_port]; split <;> rfl

/-! ### post: what it leaves as it is -/

@[simp] theorem State.post_resetHeld (s : State) (src : Source) (d : Nat) : (s.post src d).resetHeld = s.resetHeld := rfl
@[simp] theorem State.post_intake (s : State) (src : Source) (d : Nat) : (s.post src d).intake = s.intake := rfl
@[simp] theorem State.post_channels (s : State) (src : Source) (d : Nat) : (s.post src d).channels = s.channels := rfl
@[simp] theorem State.post_grouping (s : State) (src : Source) (d : Nat) : (s.post src d).grouping = s.grouping := rfl
@[simp] theorem State.post_journal (s : State) (src : Source) (d : Nat) : (s.post src d).journal = s.journal := rfl
@[simp] theorem State.post_rollup (s : State) (src : Source) (d : Nat) : (s.post src d).rollup = s.rollup := rfl
@[simp] theorem State.post_run (s : State) (src : Source) (d : Nat) : (s.post src d).run = s.run := rfl
@[simp] theorem State.post_setup (s : State) (src : Source) (d : Nat) : (s.post src d).setup = s.setup := rfl
@[simp] theorem State.post_status (s : State) (src : Source) (d : Nat) : (s.post src d).status = s.status := rfl
@[simp] theorem State.post_pending (s : State) (src : Source) (d : Nat) : (s.post src d).pending = s.pending := rfl
@[simp] theorem State.post_clock (s : State) (src : Source) (d : Nat) : (s.post src d).clock = s.clock := by simp [State.clock]
@[simp] theorem State.post_runActive (s : State) (src : Source) (d : Nat) : (s.post src d).runActive = s.runActive := by simp [State.runActive]
@[simp] theorem State.post_chan (s : State) (src : Source) (d : Nat) (c : ChanId) : (s.post src d).chan c = s.chan c := by simp [State.chan]

@[simp] theorem State.post_port_requests (s : State) (src : Source) (d : Nat) (r : Port) : ((s.post src d).port r).requests = (s.port r).requests := by
  simp [State.post]
@[simp] theorem State.post_port_responses (s : State) (src : Source) (d : Nat) (r : Port) : ((s.post src d).port r).responses = (s.port r).responses := by
  simp [State.post]
@[simp] theorem State.post_port_overrun (s : State) (src : Source) (d : Nat) (r : Port) : ((s.post src d).port r).overrun = (s.port r).overrun := by
  simp [State.post]
@[simp] theorem State.post_port_short (s : State) (src : Source) (d : Nat) (r : Port) : ((s.post src d).port r).short = (s.port r).short := by
  simp [State.post]
@[simp] theorem State.post_port_exchange (s : State) (src : Source) (d : Nat) (r : Port) : ((s.post src d).port r).exchange = (s.port r).exchange := by
  simp [State.post]
@[simp] theorem State.post_port_cursor (s : State) (src : Source) (d : Nat) (r : Port) : ((s.post src d).port r).cursor = (s.port r).cursor := by
  simp [State.post]
@[simp] theorem State.post_port_kindMask (s : State) (src : Source) (d : Nat) (r : Port) : ((s.post src d).port r).kindMask = (s.port r).kindMask := by
  simp [State.post]
@[simp] theorem State.post_port_chanMask (s : State) (src : Source) (d : Nat) (r : Port) : ((s.post src d).port r).chanMask = (s.port r).chanMask := by
  simp [State.post]
@[simp] theorem State.post_port_wait (s : State) (src : Source) (d : Nat) (r : Port) : ((s.post src d).port r).wait = (s.port r).wait := by
  simp [State.post]
@[simp] theorem State.post_port_manual (s : State) (src : Source) (d : Nat) (r : Port) : ((s.post src d).port r).manual = (s.port r).manual := by
  simp [State.post]

/-! ### postLevel: what it leaves as it is -/

@[simp] theorem State.postLevel_resetHeld (s : State) (src : Source) (up : Bool) : (s.postLevel src up).resetHeld = s.resetHeld := rfl
@[simp] theorem State.postLevel_intake (s : State) (src : Source) (up : Bool) : (s.postLevel src up).intake = s.intake := rfl
@[simp] theorem State.postLevel_channels (s : State) (src : Source) (up : Bool) : (s.postLevel src up).channels = s.channels := rfl
@[simp] theorem State.postLevel_grouping (s : State) (src : Source) (up : Bool) : (s.postLevel src up).grouping = s.grouping := rfl
@[simp] theorem State.postLevel_journal (s : State) (src : Source) (up : Bool) : (s.postLevel src up).journal = s.journal := rfl
@[simp] theorem State.postLevel_rollup (s : State) (src : Source) (up : Bool) : (s.postLevel src up).rollup = s.rollup := rfl
@[simp] theorem State.postLevel_run (s : State) (src : Source) (up : Bool) : (s.postLevel src up).run = s.run := rfl
@[simp] theorem State.postLevel_setup (s : State) (src : Source) (up : Bool) : (s.postLevel src up).setup = s.setup := rfl
@[simp] theorem State.postLevel_status (s : State) (src : Source) (up : Bool) : (s.postLevel src up).status = s.status := rfl
@[simp] theorem State.postLevel_pending (s : State) (src : Source) (up : Bool) : (s.postLevel src up).pending = s.pending := rfl
@[simp] theorem State.postLevel_clock (s : State) (src : Source) (up : Bool) : (s.postLevel src up).clock = s.clock := by simp [State.clock]
@[simp] theorem State.postLevel_runActive (s : State) (src : Source) (up : Bool) : (s.postLevel src up).runActive = s.runActive := by simp [State.runActive]
@[simp] theorem State.postLevel_chan (s : State) (src : Source) (up : Bool) (c : ChanId) : (s.postLevel src up).chan c = s.chan c := by simp [State.chan]

@[simp] theorem State.postLevel_port_requests (s : State) (src : Source) (up : Bool) (r : Port) : ((s.postLevel src up).port r).requests = (s.port r).requests := by
  simp [State.postLevel]
@[simp] theorem State.postLevel_port_responses (s : State) (src : Source) (up : Bool) (r : Port) : ((s.postLevel src up).port r).responses = (s.port r).responses := by
  simp [State.postLevel]
@[simp] theorem State.postLevel_port_overrun (s : State) (src : Source) (up : Bool) (r : Port) : ((s.postLevel src up).port r).overrun = (s.port r).overrun := by
  simp [State.postLevel]
@[simp] theorem State.postLevel_port_short (s : State) (src : Source) (up : Bool) (r : Port) : ((s.postLevel src up).port r).short = (s.port r).short := by
  simp [State.postLevel]
@[simp] theorem State.postLevel_port_exchange (s : State) (src : Source) (up : Bool) (r : Port) : ((s.postLevel src up).port r).exchange = (s.port r).exchange := by
  simp [State.postLevel]
@[simp] theorem State.postLevel_port_cursor (s : State) (src : Source) (up : Bool) (r : Port) : ((s.postLevel src up).port r).cursor = (s.port r).cursor := by
  simp [State.postLevel]
@[simp] theorem State.postLevel_port_kindMask (s : State) (src : Source) (up : Bool) (r : Port) : ((s.postLevel src up).port r).kindMask = (s.port r).kindMask := by
  simp [State.postLevel]
@[simp] theorem State.postLevel_port_chanMask (s : State) (src : Source) (up : Bool) (r : Port) : ((s.postLevel src up).port r).chanMask = (s.port r).chanMask := by
  simp [State.postLevel]
@[simp] theorem State.postLevel_port_wait (s : State) (src : Source) (up : Bool) (r : Port) : ((s.postLevel src up).port r).wait = (s.port r).wait := by
  simp [State.postLevel]
@[simp] theorem State.postLevel_port_manual (s : State) (src : Source) (up : Bool) (r : Port) : ((s.postLevel src up).port r).manual = (s.port r).manual := by
  simp [State.postLevel]

/-- Every port keeps at most one entry for each source through a posting (R182). -/
theorem State.postWith_nodup (s : State) (src : Source) (sect : Nat) (d : Word32)
    (h : ∀ r, ((s.port r).notices.map Notice.source).Nodup) (r : Port) :
    (((s.postWith src sect d).port r).notices.map Notice.source).Nodup := by
  rw [State.postWith_port]
  split
  · exact addNotice_nodup src sect d _ (h r)
  · exact h r

end Sys2Proof.Machine
end

