-- ==== Sys2Proof/Laws/Journal.lean ====
section
/-! SUPPORT. The journal's operations: what each does, what it leaves as it is, and the bounds it keeps (R84 to R107). -/

namespace Sys2Proof.Machine

/-! ### answer and endWait -/

/-- All that placing a response does (R176). -/
theorem PortState.answer_cons (q : PortState) (r : Request) (rest : List Request) (x : Result) (pl : List Byte)
    (h : q.requests = r :: rest) :
    q.answer x pl = { q with requests := rest, responses := q.responses ++ [⟨r.tag, r.code, x, pl⟩] } := by
  simp [PortState.answer, h]

@[simp] theorem PortState.answer_overrun (q : PortState) (x : Result) (pl : List Byte) : (q.answer x pl).overrun = q.overrun := by
  unfold PortState.answer; split <;> rfl
@[simp] theorem PortState.answer_short (q : PortState) (x : Result) (pl : List Byte) : (q.answer x pl).short = q.short := by
  unfold PortState.answer; split <;> rfl
@[simp] theorem PortState.answer_notices (q : PortState) (x : Result) (pl : List Byte) : (q.answer x pl).notices = q.notices := by
  unfold PortState.answer; split <;> rfl
@[simp] theorem PortState.answer_exchange (q : PortState) (x : Result) (pl : List Byte) : (q.answer x pl).exchange = q.exchange := by
  unfold PortState.answer; split <;> rfl
@[simp] theorem PortState.answer_cursor (q : PortState) (x : Result) (pl : List Byte) : (q.answer x pl).cursor = q.cursor := by
  unfold PortState.answer; split <;> rfl
@[simp] theorem PortState.answer_kindMask (q : PortState) (x : Result) (pl : List Byte) : (q.answer x pl).kindMask = q.kindMask := by
  unfold PortState.answer; split <;> rfl
@[simp] theorem PortState.answer_chanMask (q : PortState) (x : Result) (pl : List Byte) : (q.answer x pl).chanMask = q.chanMask := by
  unfold PortState.answer; split <;> rfl
@[simp] theorem PortState.answer_wait (q : PortState) (x : Result) (pl : List Byte) : (q.answer x pl).wait = q.wait := by
  unfold PortState.answer; split <;> rfl
@[simp] theorem PortState.answer_manual (q : PortState) (x : Result) (pl : List Byte) : (q.answer x pl).manual = q.manual := by
  unfold PortState.answer; split <;> rfl

/-- Placing a response keeps the queues within their depth when there is room for it. -/
theorem PortState.answer_queuesOk (q : PortState) (x : Result) (pl : List Byte) (h : q.QueuesOk)
    (room : q.responses.length ≤ 3) (hw : q.wait = none) : (q.answer x pl).QueuesOk := by
  obtain ⟨h1, h2, h3⟩ := h
  unfold PortState.answer
  split
  · exact ⟨h1, h2, h3⟩
  · next r rest e =>
    rw [e] at h1
    exact ⟨by simp at h1 ⊢; omega, by simp; omega, by simp [hw]⟩

theorem State.endWait_port (s : State) (p : Port) (x : Result) (n : Nat) :
    (s.endWait p x n).port p = { (s.port p).answer x (leBytes 2 n) with wait := none } := by
  simp [State.endWait]

@[simp] theorem State.endWait_resetHeld (s : State) (p : Port) (x : Result) (n : Nat) : (s.endWait p x n).resetHeld = s.resetHeld := by simp [State.endWait]
@[simp] theorem State.endWait_intake (s : State) (p : Port) (x : Result) (n : Nat) : (s.endWait p x n).intake = s.intake := by simp [State.endWait]
@[simp] theorem State.endWait_channels (s : State) (p : Port) (x : Result) (n : Nat) : (s.endWait p x n).channels = s.channels := by simp [State.endWait]
@[simp] theorem State.endWait_grouping (s : State) (p : Port) (x : Result) (n : Nat) : (s.endWait p x n).grouping = s.grouping := by simp [State.endWait]
@[simp] theorem State.endWait_journal (s : State) (p : Port) (x : Result) (n : Nat) : (s.endWait p x n).journal = s.journal := by simp [State.endWait]
@[simp] theorem State.endWait_rollup (s : State) (p : Port) (x : Result) (n : Nat) : (s.endWait p x n).rollup = s.rollup := by simp [State.endWait]
@[simp] theorem State.endWait_run (s : State) (p : Port) (x : Result) (n : Nat) : (s.endWait p x n).run = s.run := by simp [State.endWait]
@[simp] theorem State.endWait_setup (s : State) (p : Port) (x : Result) (n : Nat) : (s.endWait p x n).setup = s.setup := by simp [State.endWait]
@[simp] theorem State.endWait_status (s : State) (p : Port) (x : Result) (n : Nat) : (s.endWait p x n).status = s.status := by simp [State.endWait]
@[simp] theorem State.endWait_pending (s : State) (p : Port) (x : Result) (n : Nat) : (s.endWait p x n).pending = s.pending := by simp [State.endWait]
@[simp] theorem State.endWait_clock (s : State) (p : Port) (x : Result) (n : Nat) : (s.endWait p x n).clock = s.clock := by simp [State.clock]
@[simp] theorem State.endWait_runActive (s : State) (p : Port) (x : Result) (n : Nat) : (s.endWait p x n).runActive = s.runActive := by simp [State.runActive]
@[simp] theorem State.endWait_chan (s : State) (p : Port) (x : Result) (n : Nat) (c : ChanId) : (s.endWait p x n).chan c = s.chan c := by simp [State.chan]

@[simp] theorem State.endWait_port_overrun (s : State) (p : Port) (x : Result) (n : Nat) (r : Port) : ((s.endWait p x n).port r).overrun = (s.port r).overrun := by
  by_cases h : r = p
  · subst h; simp [State.endWait]
  · simp [State.endWait, State.updPort_port_ne _ _ h]
@[simp] theorem State.endWait_port_short (s : State) (p : Port) (x : Result) (n : Nat) (r : Port) : ((s.endWait p x n).port r).short = (s.port r).short := by
  by_cases h : r = p
  · subst h; simp [State.endWait]
  · simp [State.endWait, State.updPort_port_ne _ _ h]
@[simp] theorem State.endWait_port_notices (s : State) (p : Port) (x : Result) (n : Nat) (r : Port) : ((s.endWait p x n).port r).notices = (s.port r).notices := by
  by_cases h : r = p
  · subst h; simp [State.endWait]
  · simp [State.endWait, State.updPort_port_ne _ _ h]
@[simp] theorem State.endWait_port_exchange (s : State) (p : Port) (x : Result) (n : Nat) (r : Port) : ((s.endWait p x n).port r).exchange = (s.port r).exchange := by
  by_cases h : r = p
  · subst h; simp [State.endWait]
  · simp [State.endWait, State.updPort_port_ne _ _ h]
@[simp] theorem State.endWait_port_cursor (s : State) (p : Port) (x : Result) (n : Nat) (r : Port) : ((s.endWait p x n).port r).cursor = (s.port r).cursor := by
  by_cases h : r = p
  · subst h; simp [State.endWait]
  · simp [State.endWait, State.updPort_port_ne _ _ h]
@[simp] theorem State.endWait_port_kindMask (s : State) (p : Port) (x : Result) (n : Nat) (r : Port) : ((s.endWait p x n).port r).kindMask = (s.port r).kindMask := by
  by_cases h : r = p
  · subst h; simp [State.endWait]
  · simp [State.endWait, State.updPort_port_ne _ _ h]
@[simp] theorem State.endWait_port_chanMask (s : State) (p : Port) (x : Result) (n : Nat) (r : Port) : ((s.endWait p x n).port r).chanMask = (s.port r).chanMask := by
  by_cases h : r = p
  · subst h; simp [State.endWait]
  · simp [State.endWait, State.updPort_port_ne _ _ h]
@[simp] theorem State.endWait_port_manual (s : State) (p : Port) (x : Result) (n : Nat) (r : Port) : ((s.endWait p x n).port r).manual = (s.port r).manual := by
  by_cases h : r = p
  · subst h; simp [State.endWait]
  · simp [State.endWait, State.updPort_port_ne _ _ h]

/-- The end of a wait keeps the queues within their depth. -/
theorem State.endWait_queuesOk (s : State) (p : Port) (x : Result) (n : Nat) (h : s.QueuesOk)
    (hw : (s.port p).wait.isSome = true) : (s.endWait p x n).QueuesOk := by
  intro r
  refine State.updPort_all (P := PortState.QueuesOk) _ _ _ h (fun hq => ?_) r
  obtain ⟨h1, h2, h3⟩ := hq
  obtain ⟨h4, h5⟩ := h3 hw
  obtain ⟨a, as, e⟩ := List.exists_cons_of_ne_nil h5
  rw [PortState.answer_cons _ a as _ _ e]
  rw [e] at h1
  exact ⟨by simp at h1 ⊢; omega, by simp; omega, by simp⟩

/-! ### testWait -/

/-- All that the test of a wait does: nothing, or the wait ends with OK (R99). -/
theorem State.testWait_cases (s : State) (p : Port) (r : Rec) :
    s.testWait p r = s ∨ ((s.port p).wait.isSome = true ∧ s.testWait p r = s.endWait p .ok (s.unread p)) := by
  unfold State.testWait
  cases h : (s.port p).wait with
  | none => exact .inl rfl
  | some w =>
    by_cases c : ((s.port p).passes r && decide (w.n ≤ s.unread p)) = true
    · exact .inr ⟨rfl, by simp [c]⟩
    · exact .inl (by simp only [c]; rfl)

@[simp] theorem State.testWait_resetHeld (s : State) (p : Port) (r0 : Rec) : (s.testWait p r0).resetHeld = s.resetHeld := by
  rcases s.testWait_cases p r0 with h | ⟨-, h⟩ <;> simp [h]
@[simp] theorem State.testWait_intake (s : State) (p : Port) (r0 : Rec) : (s.testWait p r0).intake = s.intake := by
  rcases s.testWait_cases p r0 with h | ⟨-, h⟩ <;> simp [h]
@[simp] theorem State.testWait_channels (s : State) (p : Port) (r0 : Rec) : (s.testWait p r0).channels = s.channels := by
  rcases s.testWait_cases p r0 with h | ⟨-, h⟩ <;> simp [h]
@[simp] theorem State.testWait_grouping (s : State) (p : Port) (r0 : Rec) : (s.testWait p r0).grouping = s.grouping := by
  rcases s.testWait_cases p r0 with h | ⟨-, h⟩ <;> simp [h]
@[simp] theorem State.testWait_journal (s : State) (p : Port) (r0 : Rec) : (s.testWait p r0).journal = s.journal := by
  rcases s.testWait_cases p r0 with h | ⟨-, h⟩ <;> simp [h]
@[simp] theorem State.testWait_rollup (s : State) (p : Port) (r0 : Rec) : (s.testWait p r0).rollup = s.rollup := by
  rcases s.testWait_cases p r0 with h | ⟨-, h⟩ <;> simp [h]
@[simp] theorem State.testWait_run (s : State) (p : Port) (r0 : Rec) : (s.testWait p r0).run = s.run := by
  rcases s.testWait_cases p r0 with h | ⟨-, h⟩ <;> simp [h]
@[simp] theorem State.testWait_setup (s : State) (p : Port) (r0 : Rec) : (s.testWait p r0).setup = s.setup := by
  rcases s.testWait_cases p r0 with h | ⟨-, h⟩ <;> simp [h]
@[simp] theorem State.testWait_status (s : State) (p : Port) (r0 : Rec) : (s.testWait p r0).status = s.status := by
  rcases s.testWait_cases p r0 with h | ⟨-, h⟩ <;> simp [h]
@[simp] theorem State.testWait_pending (s : State) (p : Port) (r0 : Rec) : (s.testWait p r0).pending = s.pending := by
  rcases s.testWait_cases p r0 with h | ⟨-, h⟩ <;> simp [h]
@[simp] theorem State.testWait_clock (s : State) (p : Port) (r0 : Rec) : (s.testWait p r0).clock = s.clock := by simp [State.clock]
@[simp] theorem State.testWait_runActive (s : State) (p : Port) (r0 : Rec) : (s.testWait p r0).runActive = s.runActive := by simp [State.runActive]
@[simp] theorem State.testWait_chan (s : State) (p : Port) (r0 : Rec) (c : ChanId) : (s.testWait p r0).chan c = s.chan c := by simp [State.chan]

@[simp] theorem State.testWait_port_overrun (s : State) (p : Port) (r0 : Rec) (r : Port) : ((s.testWait p r0).port r).overrun = (s.port r).overrun := by
  rcases s.testWait_cases p r0 with h | ⟨-, h⟩ <;> simp [h]
@[simp] theorem State.testWait_port_short (s : State) (p : Port) (r0 : Rec) (r : Port) : ((s.testWait p r0).port r).short = (s.port r).short := by
  rcases s.testWait_cases p r0 with h | ⟨-, h⟩ <;> simp [h]
@[simp] theorem State.testWait_port_notices (s : State) (p : Port) (r0 : Rec) (r : Port) : ((s.testWait p r0).port r).notices = (s.port r).notices := by
  rcases s.testWait_cases p r0 with h | ⟨-, h⟩ <;> simp [h]
@[simp] theorem State.testWait_port_exchange (s : State) (p : Port) (r0 : Rec) (r : Port) : ((s.testWait p r0).port r).exchange = (s.port r).exchange := by
  rcases s.testWait_cases p r0 with h | ⟨-, h⟩ <;> simp [h]
@[simp] theorem State.testWait_port_cursor (s : State) (p : Port) (r0 : Rec) (r : Port) : ((s.testWait p r0).port r).cursor = (s.port r).cursor := by
  rcases s.testWait_cases p r0 with h | ⟨-, h⟩ <;> simp [h]
@[simp] theorem State.testWait_port_kindMask (s : State) (p : Port) (r0 : Rec) (r : Port) : ((s.testWait p r0).port r).kindMask = (s.port r).kindMask := by
  rcases s.testWait_cases p r0 with h | ⟨-, h⟩ <;> simp [h]
@[simp] theorem State.testWait_port_chanMask (s : State) (p : Port) (r0 : Rec) (r : Port) : ((s.testWait p r0).port r).chanMask = (s.port r).chanMask := by
  rcases s.testWait_cases p r0 with h | ⟨-, h⟩ <;> simp [h]
@[simp] theorem State.testWait_port_manual (s : State) (p : Port) (r0 : Rec) (r : Port) : ((s.testWait p r0).port r).manual = (s.port r).manual := by
  rcases s.testWait_cases p r0 with h | ⟨-, h⟩ <;> simp [h]

theorem State.testWait_queuesOk (s : State) (p : Port) (r : Rec) (h : s.QueuesOk) : (s.testWait p r).QueuesOk := by
  rcases s.testWait_cases p r with e | ⟨hw, e⟩ <;> rw [e]
  · exact h
  · exact s.endWait_queuesOk p _ _ h hw

/-! ### writeRecord and offerOnce -/

@[simp] theorem State.writeRecord_resetHeld (s : State) (o : Offer) : (s.writeRecord o).resetHeld = s.resetHeld := by simp [State.writeRecord]
@[simp] theorem State.writeRecord_intake (s : State) (o : Offer) : (s.writeRecord o).intake = s.intake := by simp [State.writeRecord]
@[simp] theorem State.writeRecord_channels (s : State) (o : Offer) : (s.writeRecord o).channels = s.channels := by simp [State.writeRecord]
@[simp] theorem State.writeRecord_grouping (s : State) (o : Offer) : (s.writeRecord o).grouping = s.grouping := by simp [State.writeRecord]
@[simp] theorem State.writeRecord_rollup (s : State) (o : Offer) : (s.writeRecord o).rollup = s.rollup := by simp [State.writeRecord]
@[simp] theorem State.writeRecord_run (s : State) (o : Offer) : (s.writeRecord o).run = s.run := by simp [State.writeRecord]
@[simp] theorem State.writeRecord_setup (s : State) (o : Offer) : (s.writeRecord o).setup = s.setup := by simp [State.writeRecord]
@[simp] theorem State.writeRecord_status (s : State) (o : Offer) : (s.writeRecord o).status = s.status := by simp [State.writeRecord]
@[simp] theorem State.writeRecord_pending (s : State) (o : Offer) : (s.writeRecord o).pending = s.pending := by simp [State.writeRecord]
@[simp] theorem State.writeRecord_clock (s : State) (o : Offer) : (s.writeRecord o).clock = s.clock := by simp [State.clock]
@[simp] theorem State.writeRecord_runActive (s : State) (o : Offer) : (s.writeRecord o).runActive = s.runActive := by simp [State.runActive]
@[simp] theorem State.writeRecord_chan (s : State) (o : Offer) (c : ChanId) : (s.writeRecord o).chan c = s.chan c := by simp [State.chan]

@[simp] theorem State.writeRecord_journal (s : State) (o : Offer) : (s.writeRecord o).journal = s.journal.append o := by simp [State.writeRecord]
@[simp] theorem State.writeRecord_port_overrun (s : State) (o : Offer) (r : Port) : ((s.writeRecord o).port r).overrun = (s.port r).overrun := by simp [State.writeRecord]
@[simp] theorem State.writeRecord_port_short (s : State) (o : Offer) (r : Port) : ((s.writeRecord o).port r).short = (s.port r).short := by simp [State.writeRecord]
@[simp] theorem State.writeRecord_port_notices (s : State) (o : Offer) (r : Port) : ((s.writeRecord o).port r).notices = (s.port r).notices := by simp [State.writeRecord]
@[simp] theorem State.writeRecord_port_exchange (s : State) (o : Offer) (r : Port) : ((s.writeRecord o).port r).exchange = (s.port r).exchange := by simp [State.writeRecord]
@[simp] theorem State.writeRecord_port_cursor (s : State) (o : Offer) (r : Port) : ((s.writeRecord o).port r).cursor = (s.port r).cursor := by simp [State.writeRecord]
@[simp] theorem State.writeRecord_port_kindMask (s : State) (o : Offer) (r : Port) : ((s.writeRecord o).port r).kindMask = (s.port r).kindMask := by simp [State.writeRecord]
@[simp] theorem State.writeRecord_port_chanMask (s : State) (o : Offer) (r : Port) : ((s.writeRecord o).port r).chanMask = (s.port r).chanMask := by simp [State.writeRecord]
@[simp] theorem State.writeRecord_port_manual (s : State) (o : Offer) (r : Port) : ((s.writeRecord o).port r).manual = (s.port r).manual := by simp [State.writeRecord]

theorem State.writeRecord_queuesOk (s : State) (o : Offer) (h : s.QueuesOk) : (s.writeRecord o).QueuesOk :=
  State.testWait_queuesOk _ _ _ (State.testWait_queuesOk _ _ _ (by intro r; simpa using h r))

/-- All that an offer does before the entry into tally mode: the record is admitted, or the state is unchanged (R85). -/
theorem State.offerOnce_cases (s : State) (o : Offer) :
    (s.journal.admits o = true ∧ s.offerOnce o = s.writeRecord o) ∨ (s.journal.admits o = false ∧ s.offerOnce o = s) := by
  unfold State.offerOnce
  by_cases h : s.journal.admits o = true
  · exact .inl ⟨h, by simp [h]⟩
  · exact .inr ⟨by simpa using h, by simp [h]⟩

@[simp] theorem State.offerOnce_resetHeld (s : State) (o : Offer) : (s.offerOnce o).resetHeld = s.resetHeld := by
  rcases s.offerOnce_cases o with ⟨-, h⟩ | ⟨-, h⟩ <;> simp [h]
@[simp] theorem State.offerOnce_intake (s : State) (o : Offer) : (s.offerOnce o).intake = s.intake := by
  rcases s.offerOnce_cases o with ⟨-, h⟩ | ⟨-, h⟩ <;> simp [h]
@[simp] theorem State.offerOnce_channels (s : State) (o : Offer) : (s.offerOnce o).channels = s.channels := by
  rcases s.offerOnce_cases o with ⟨-, h⟩ | ⟨-, h⟩ <;> simp [h]
@[simp] theorem State.offerOnce_grouping (s : State) (o : Offer) : (s.offerOnce o).grouping = s.grouping := by
  rcases s.offerOnce_cases o with ⟨-, h⟩ | ⟨-, h⟩ <;> simp [h]
@[simp] theorem State.offerOnce_rollup (s : State) (o : Offer) : (s.offerOnce o).rollup = s.rollup := by
  rcases s.offerOnce_cases o with ⟨-, h⟩ | ⟨-, h⟩ <;> simp [h]
@[simp] theorem State.offerOnce_run (s : State) (o : Offer) : (s.offerOnce o).run = s.run := by
  rcases s.offerOnce_cases o with ⟨-, h⟩ | ⟨-, h⟩ <;> simp [h]
@[simp] theorem State.offerOnce_setup (s : State) (o : Offer) : (s.offerOnce o).setup = s.setup := by
  rcases s.offerOnce_cases o with ⟨-, h⟩ | ⟨-, h⟩ <;> simp [h]
@[simp] theorem State.offerOnce_status (s : State) (o : Offer) : (s.offerOnce o).status = s.status := by
  rcases s.offerOnce_cases o with ⟨-, h⟩ | ⟨-, h⟩ <;> simp [h]
@[simp] theorem State.offerOnce_pending (s : State) (o : Offer) : (s.offerOnce o).pending = s.pending := by
  rcases s.offerOnce_cases o with ⟨-, h⟩ | ⟨-, h⟩ <;> simp [h]
@[simp] theorem State.offerOnce_clock (s : State) (o : Offer) : (s.offerOnce o).clock = s.clock := by simp [State.clock]
@[simp] theorem State.offerOnce_runActive (s : State) (o : Offer) : (s.offerOnce o).runActive = s.runActive := by simp [State.runActive]
@[simp] theorem State.offerOnce_chan (s : State) (o : Offer) (c : ChanId) : (s.offerOnce o).chan c = s.chan c := by simp [State.chan]

@[simp] theorem State.offerOnce_port_overrun (s : State) (o : Offer) (r : Port) : ((s.offerOnce o).port r).overrun = (s.port r).overrun := by
  rcases s.offerOnce_cases o with ⟨-, h⟩ | ⟨-, h⟩ <;> simp [h]
@[simp] theorem State.offerOnce_port_short (s : State) (o : Offer) (r : Port) : ((s.offerOnce o).port r).short = (s.port r).short := by
  rcases s.offerOnce_cases o with ⟨-, h⟩ | ⟨-, h⟩ <;> simp [h]
@[simp] theorem State.offerOnce_port_notices (s : State) (o : Offer) (r : Port) : ((s.offerOnce o).port r).notices = (s.port r).notices := by
  rcases s.offerOnce_cases o with ⟨-, h⟩ | ⟨-, h⟩ <;> simp [h]
@[simp] theorem State.offerOnce_port_exchange (s : State) (o : Offer) (r : Port) : ((s.offerOnce o).port r).exchange = (s.port r).exchange := by
  rcases s.offerOnce_cases o with ⟨-, h⟩ | ⟨-, h⟩ <;> simp [h]
@[simp] theorem State.offerOnce_port_cursor (s : State) (o : Offer) (r : Port) : ((s.offerOnce o).port r).cursor = (s.port r).cursor := by
  rcases s.offerOnce_cases o with ⟨-, h⟩ | ⟨-, h⟩ <;> simp [h]
@[simp] theorem State.offerOnce_port_kindMask (s : State) (o : Offer) (r : Port) : ((s.offerOnce o).port r).kindMask = (s.port r).kindMask := by
  rcases s.offerOnce_cases o with ⟨-, h⟩ | ⟨-, h⟩ <;> simp [h]
@[simp] theorem State.offerOnce_port_chanMask (s : State) (o : Offer) (r : Port) : ((s.offerOnce o).port r).chanMask = (s.port r).chanMask := by
  rcases s.offerOnce_cases o with ⟨-, h⟩ | ⟨-, h⟩ <;> simp [h]
@[simp] theorem State.offerOnce_port_manual (s : State) (o : Offer) (r : Port) : ((s.offerOnce o).port r).manual = (s.port r).manual := by
  rcases s.offerOnce_cases o with ⟨-, h⟩ | ⟨-, h⟩ <;> simp [h]

theorem State.offerOnce_journal (s : State) (o : Offer) :
    (s.offerOnce o).journal = if s.journal.admits o then s.journal.append o else s.journal := by
  rcases s.offerOnce_cases o with ⟨a, h⟩ | ⟨a, h⟩ <;> simp [h, a]

@[simp] theorem State.offerOnce_tallyMode (s : State) (o : Offer) :
    (s.offerOnce o).journal.tallyMode = s.journal.tallyMode := by
  rw [State.offerOnce_journal]; split <;> rfl

theorem State.offerOnce_queuesOk (s : State) (o : Offer) (h : s.QueuesOk) : (s.offerOnce o).QueuesOk := by
  rcases s.offerOnce_cases o with ⟨-, e⟩ | ⟨-, e⟩ <;> rw [e]
  · exact s.writeRecord_queuesOk o h
  · exact h

/-- The fill after an admission: the record's size is added to it (R85). -/
@[simp] theorem Journal.append_fill (j : Journal) (o : Offer) : (j.append o).fill = j.fill + o.size := by
  simp [Journal.append, Journal.fill, recWords, Journal.record, Rec.size, Offer.size]

theorem RecKind.limit_le (k : RecKind) : k.limit ≤ 65536 := by cases k <;> decide

theorem State.offerOnce_fill_le (s : State) (o : Offer) (h : s.journal.fill ≤ 65536) :
    (s.offerOnce o).journal.fill ≤ 65536 := by
  rw [State.offerOnce_journal]
  split
  · next a =>
    have := o.kind.limit_le
    simp only [Journal.admits, decide_eq_true_eq] at a
    simp only [Journal.append_fill]; omega
  · exact h

/-! ### enterTally and offer -/

@[simp] theorem State.enterTally_resetHeld (s : State) : (s.enterTally).resetHeld = s.resetHeld := by simp [State.enterTally]
@[simp] theorem State.enterTally_intake (s : State) : (s.enterTally).intake = s.intake := by simp [State.enterTally]
@[simp] theorem State.enterTally_channels (s : State) : (s.enterTally).channels = s.channels := by simp [State.enterTally]
@[simp] theorem State.enterTally_grouping (s : State) : (s.enterTally).grouping = s.grouping := by simp [State.enterTally]
@[simp] theorem State.enterTally_rollup (s : State) : (s.enterTally).rollup = s.rollup := by simp [State.enterTally]
@[simp] theorem State.enterTally_run (s : State) : (s.enterTally).run = s.run := by simp [State.enterTally]
@[simp] theorem State.enterTally_setup (s : State) : (s.enterTally).setup = s.setup := by simp [State.enterTally]
@[simp] theorem State.enterTally_status (s : State) : (s.enterTally).status = s.status := by simp [State.enterTally]
@[simp] theorem State.enterTally_pending (s : State) : (s.enterTally).pending = s.pending := by simp [State.enterTally]
@[simp] theorem State.enterTally_clock (s : State) : (s.enterTally).clock = s.clock := by simp [State.clock]
@[simp] theorem State.enterTally_runActive (s : State) : (s.enterTally).runActive = s.runActive := by simp [State.runActive]
@[simp] theorem State.enterTally_chan (s : State) (c : ChanId) : (s.enterTally).chan c = s.chan c := by simp [State.chan]

@[simp] theorem State.enterTally_port_overrun (s : State) (r : Port) : ((s.enterTally).port r).overrun = (s.port r).overrun := by simp [State.enterTally]
@[simp] theorem State.enterTally_port_short (s : State) (r : Port) : ((s.enterTally).port r).short = (s.port r).short := by simp [State.enterTally]
@[simp] theorem State.enterTally_port_exchange (s : State) (r : Port) : ((s.enterTally).port r).exchange = (s.port r).exchange := by simp [State.enterTally]
@[simp] theorem State.enterTally_port_cursor (s : State) (r : Port) : ((s.enterTally).port r).cursor = (s.port r).cursor := by simp [State.enterTally]
@[simp] theorem State.enterTally_port_kindMask (s : State) (r : Port) : ((s.enterTally).port r).kindMask = (s.port r).kindMask := by simp [State.enterTally]
@[simp] theorem State.enterTally_port_chanMask (s : State) (r : Port) : ((s.enterTally).port r).chanMask = (s.port r).chanMask := by simp [State.enterTally]
@[simp] theorem State.enterTally_port_manual (s : State) (r : Port) : ((s.enterTally).port r).manual = (s.port r).manual := by simp [State.enterTally]

@[simp] theorem State.enterTally_tallyMode (s : State) : s.enterTally.journal.tallyMode = true := by
  simp [State.enterTally]

theorem State.enterTally_fill_le (s : State) (h : s.journal.fill ≤ 65536) : s.enterTally.journal.fill ≤ 65536 := by
  simp only [State.enterTally, State.postLevel_journal]
  exact State.offerOnce_fill_le _ _ (by simpa [Journal.fill] using h)

theorem State.postLevel_queuesOk (s : State) (src : Source) (up : Bool) (h : s.QueuesOk) :
    (s.postLevel src up).QueuesOk := by
  intro r; simpa [PortState.QueuesOk] using h r

theorem State.post_queuesOk (s : State) (src : Source) (d : Nat) (h : s.QueuesOk) : (s.post src d).QueuesOk := by
  intro r; simpa [PortState.QueuesOk] using h r

theorem State.enterTally_queuesOk (s : State) (h : s.QueuesOk) : s.enterTally.QueuesOk := by
  unfold State.enterTally
  exact State.postLevel_queuesOk _ _ _ (State.offerOnce_queuesOk _ _ (by intro r; simpa using h r))

theorem State.enterTally_noticesOk (s : State) (h : s.NoticesOk) : s.enterTally.NoticesOk := by
  unfold State.enterTally
  exact fun r => State.postWith_nodup _ _ _ _ (fun r => by simpa [PortState.NoticesOk] using h r) r

/-- All that an offer does (R85, R87, R102): the one offer, with the entry into tally mode after an admission that brings
the fill to 49,152 while tally mode is off. -/
theorem State.offer_cases (s : State) (o : Offer) :
    (s.offer o = s.offerOnce o ∧
      (s.journal.admits o = false ∨ (s.offerOnce o).journal.tallyMode = true ∨ (s.offerOnce o).journal.fill < 49152)) ∨
    (s.journal.admits o = true ∧ s.offer o = (s.offerOnce o).enterTally) := by
  unfold State.offer
  by_cases h : (s.journal.admits o && !(s.offerOnce o).journal.tallyMode &&
      decide (Config.tallyEnterFill ≤ (s.offerOnce o).journal.fill)) = true
  · refine .inr ⟨?_, by simp only [h, if_true]⟩
    simp only [Bool.and_eq_true] at h
    exact h.1.1
  · refine .inl ⟨by simp only [h]; rfl, ?_⟩
    simp only [Bool.and_eq_true, Bool.not_eq_true', decide_eq_true_eq, not_and, not_le] at h
    by_cases a : s.journal.admits o = true
    · by_cases b : (s.offerOnce o).journal.tallyMode = true
      · exact .inr (.inl b)
      · exact .inr (.inr (h ⟨a, by simpa using b⟩))
    · exact .inl (by simpa using a)

@[simp] theorem State.offer_resetHeld (s : State) (o : Offer) : (s.offer o).resetHeld = s.resetHeld := by
  rcases s.offer_cases o with ⟨h, -⟩ | ⟨-, h⟩ <;> simp [h]
@[simp] theorem State.offer_intake (s : State) (o : Offer) : (s.offer o).intake = s.intake := by
  rcases s.offer_cases o with ⟨h, -⟩ | ⟨-, h⟩ <;> simp [h]
@[simp] theorem State.offer_channels (s : State) (o : Offer) : (s.offer o).channels = s.channels := by
  rcases s.offer_cases o with ⟨h, -⟩ | ⟨-, h⟩ <;> simp [h]
@[simp] theorem State.offer_grouping (s : State) (o : Offer) : (s.offer o).grouping = s.grouping := by
  rcases s.offer_cases o with ⟨h, -⟩ | ⟨-, h⟩ <;> simp [h]
@[simp] theorem State.offer_rollup (s : State) (o : Offer) : (s.offer o).rollup = s.rollup := by
  rcases s.offer_cases o with ⟨h, -⟩ | ⟨-, h⟩ <;> simp [h]
@[simp] theorem State.offer_run (s : State) (o : Offer) : (s.offer o).run = s.run := by
  rcases s.offer_cases o with ⟨h, -⟩ | ⟨-, h⟩ <;> simp [h]
@[simp] theorem State.offer_setup (s : State) (o : Offer) : (s.offer o).setup = s.setup := by
  rcases s.offer_cases o with ⟨h, -⟩ | ⟨-, h⟩ <;> simp [h]
@[simp] theorem State.offer_status (s : State) (o : Offer) : (s.offer o).status = s.status := by
  rcases s.offer_cases o with ⟨h, -⟩ | ⟨-, h⟩ <;> simp [h]
@[simp] theorem State.offer_pending (s : State) (o : Offer) : (s.offer o).pending = s.pending := by
  rcases s.offer_cases o with ⟨h, -⟩ | ⟨-, h⟩ <;> simp [h]
@[simp] theorem State.offer_clock (s : State) (o : Offer) : (s.offer o).clock = s.clock := by simp [State.clock]
@[simp] theorem State.offer_runActive (s : State) (o : Offer) : (s.offer o).runActive = s.runActive := by simp [State.runActive]
@[simp] theorem State.offer_chan (s : State) (o : Offer) (c : ChanId) : (s.offer o).chan c = s.chan c := by simp [State.chan]

@[simp] theorem State.offer_port_overrun (s : State) (o : Offer) (r : Port) : ((s.offer o).port r).overrun = (s.port r).overrun := by
  rcases s.offer_cases o with ⟨h, -⟩ | ⟨-, h⟩ <;> simp [h]
@[simp] theorem State.offer_port_short (s : State) (o : Offer) (r : Port) : ((s.offer o).port r).short = (s.port r).short := by
  rcases s.offer_cases o with ⟨h, -⟩ | ⟨-, h⟩ <;> simp [h]
@[simp] theorem State.offer_port_exchange (s : State) (o : Offer) (r : Port) : ((s.offer o).port r).exchange = (s.port r).exchange := by
  rcases s.offer_cases o with ⟨h, -⟩ | ⟨-, h⟩ <;> simp [h]
@[simp] theorem State.offer_port_cursor (s : State) (o : Offer) (r : Port) : ((s.offer o).port r).cursor = (s.port r).cursor := by
  rcases s.offer_cases o with ⟨h, -⟩ | ⟨-, h⟩ <;> simp [h]
@[simp] theorem State.offer_port_kindMask (s : State) (o : Offer) (r : Port) : ((s.offer o).port r).kindMask = (s.port r).kindMask := by
  rcases s.offer_cases o with ⟨h, -⟩ | ⟨-, h⟩ <;> simp [h]
@[simp] theorem State.offer_port_chanMask (s : State) (o : Offer) (r : Port) : ((s.offer o).port r).chanMask = (s.port r).chanMask := by
  rcases s.offer_cases o with ⟨h, -⟩ | ⟨-, h⟩ <;> simp [h]
@[simp] theorem State.offer_port_manual (s : State) (o : Offer) (r : Port) : ((s.offer o).port r).manual = (s.port r).manual := by
  rcases s.offer_cases o with ⟨h, -⟩ | ⟨-, h⟩ <;> simp [h]

theorem State.offer_queuesOk (s : State) (o : Offer) (h : s.QueuesOk) : (s.offer o).QueuesOk := by
  rcases s.offer_cases o with ⟨e, -⟩ | ⟨-, e⟩ <;> rw [e]
  · exact s.offerOnce_queuesOk o h
  · exact State.enterTally_queuesOk _ (s.offerOnce_queuesOk o h)

theorem State.offer_noticesOk (s : State) (o : Offer) (h : s.NoticesOk) : (s.offer o).NoticesOk := by
  have h1 : (s.offerOnce o).NoticesOk := by intro r; simpa [PortState.NoticesOk] using h r
  rcases s.offer_cases o with ⟨e, -⟩ | ⟨-, e⟩ <;> rw [e]
  · exact h1
  · exact State.enterTally_noticesOk _ h1

/-- An offer keeps the journal within its bounds (R85, R102). -/
theorem State.offer_bounded (s : State) (o : Offer) (h : s.journal.Bounded) : (s.offer o).journal.Bounded := by
  have h1 := s.offerOnce_fill_le o h.1
  rcases s.offer_cases o with ⟨e, c⟩ | ⟨-, e⟩ <;> rw [e]
  · refine ⟨h1, fun t => ?_⟩
    rcases c with c | c | c
    · rw [State.offerOnce_journal, c]
      exact h.2 (by simpa using t)
    · rw [t] at c; exact absurd c (by simp)
    · exact c
  · exact ⟨State.enterTally_fill_le _ h1, fun t => by simp at t⟩

/-! ### Tallies -/

@[simp] theorem State.offerTally_resetHeld (s : State) : (s.offerTally).resetHeld = s.resetHeld := by
  simp only [State.offerTally]; split <;> simp
@[simp] theorem State.offerTally_intake (s : State) : (s.offerTally).intake = s.intake := by
  simp only [State.offerTally]; split <;> simp
@[simp] theorem State.offerTally_channels (s : State) : (s.offerTally).channels = s.channels := by
  simp only [State.offerTally]; split <;> simp
@[simp] theorem State.offerTally_grouping (s : State) : (s.offerTally).grouping = s.grouping := by
  simp only [State.offerTally]; split <;> simp
@[simp] theorem State.offerTally_rollup (s : State) : (s.offerTally).rollup = s.rollup := by
  simp only [State.offerTally]; split <;> simp
@[simp] theorem State.offerTally_run (s : State) : (s.offerTally).run = s.run := by
  simp only [State.offerTally]; split <;> simp
@[simp] theorem State.offerTally_setup (s : State) : (s.offerTally).setup = s.setup := by
  simp only [State.offerTally]; split <;> simp
@[simp] theorem State.offerTally_status (s : State) : (s.offerTally).status = s.status := by
  simp only [State.offerTally]; split <;> simp
@[simp] theorem State.offerTally_pending (s : State) : (s.offerTally).pending = s.pending := by
  simp only [State.offerTally]; split <;> simp
@[simp] theorem State.offerTally_clock (s : State) : (s.offerTally).clock = s.clock := by simp [State.clock]
@[simp] theorem State.offerTally_runActive (s : State) : (s.offerTally).runActive = s.runActive := by simp [State.runActive]
@[simp] theorem State.offerTally_chan (s : State) (c : ChanId) : (s.offerTally).chan c = s.chan c := by simp [State.chan]

@[simp] theorem State.offerTally_port_overrun (s : State) (r : Port) : ((s.offerTally).port r).overrun = (s.port r).overrun := by
  simp only [State.offerTally]; split <;> simp
@[simp] theorem State.offerTally_port_short (s : State) (r : Port) : ((s.offerTally).port r).short = (s.port r).short := by
  simp only [State.offerTally]; split <;> simp
@[simp] theorem State.offerTally_port_exchange (s : State) (r : Port) : ((s.offerTally).port r).exchange = (s.port r).exchange := by
  simp only [State.offerTally]; split <;> simp
@[simp] theorem State.offerTally_port_cursor (s : State) (r : Port) : ((s.offerTally).port r).cursor = (s.port r).cursor := by
  simp only [State.offerTally]; split <;> simp
@[simp] theorem State.offerTally_port_kindMask (s : State) (r : Port) : ((s.offerTally).port r).kindMask = (s.port r).kindMask := by
  simp only [State.offerTally]; split <;> simp
@[simp] theorem State.offerTally_port_chanMask (s : State) (r : Port) : ((s.offerTally).port r).chanMask = (s.port r).chanMask := by
  simp only [State.offerTally]; split <;> simp
@[simp] theorem State.offerTally_port_manual (s : State) (r : Port) : ((s.offerTally).port r).manual = (s.port r).manual := by
  simp only [State.offerTally]; split <;> simp

@[simp] theorem State.tallyExit_resetHeld (s : State) : (s.tallyExit).resetHeld = s.resetHeld := by
  simp only [State.tallyExit]; split <;> simp
@[simp] theorem State.tallyExit_intake (s : State) : (s.tallyExit).intake = s.intake := by
  simp only [State.tallyExit]; split <;> simp
@[simp] theorem State.tallyExit_channels (s : State) : (s.tallyExit).channels = s.channels := by
  simp only [State.tallyExit]; split <;> simp
@[simp] theorem State.tallyExit_grouping (s : State) : (s.tallyExit).grouping = s.grouping := by
  simp only [State.tallyExit]; split <;> simp
@[simp] theorem State.tallyExit_rollup (s : State) : (s.tallyExit).rollup = s.rollup := by
  simp only [State.tallyExit]; split <;> simp
@[simp] theorem State.tallyExit_run (s : State) : (s.tallyExit).run = s.run := by
  simp only [State.tallyExit]; split <;> simp
@[simp] theorem State.tallyExit_setup (s : State) : (s.tallyExit).setup = s.setup := by
  simp only [State.tallyExit]; split <;> simp
@[simp] theorem State.tallyExit_status (s : State) : (s.tallyExit).status = s.status := by
  simp only [State.tallyExit]; split <;> simp
@[simp] theorem State.tallyExit_pending (s : State) : (s.tallyExit).pending = s.pending := by
  simp only [State.tallyExit]; split <;> simp
@[simp] theorem State.tallyExit_clock (s : State) : (s.tallyExit).clock = s.clock := by simp [State.clock]
@[simp] theorem State.tallyExit_runActive (s : State) : (s.tallyExit).runActive = s.runActive := by simp [State.runActive]
@[simp] theorem State.tallyExit_chan (s : State) (c : ChanId) : (s.tallyExit).chan c = s.chan c := by simp [State.chan]

@[simp] theorem State.tallyExit_port_overrun (s : State) (r : Port) : ((s.tallyExit).port r).overrun = (s.port r).overrun := by
  simp only [State.tallyExit]; split <;> simp
@[simp] theorem State.tallyExit_port_short (s : State) (r : Port) : ((s.tallyExit).port r).short = (s.port r).short := by
  simp only [State.tallyExit]; split <;> simp
@[simp] theorem State.tallyExit_port_exchange (s : State) (r : Port) : ((s.tallyExit).port r).exchange = (s.port r).exchange := by
  simp only [State.tallyExit]; split <;> simp
@[simp] theorem State.tallyExit_port_cursor (s : State) (r : Port) : ((s.tallyExit).port r).cursor = (s.port r).cursor := by
  simp only [State.tallyExit]; split <;> simp
@[simp] theorem State.tallyExit_port_kindMask (s : State) (r : Port) : ((s.tallyExit).port r).kindMask = (s.port r).kindMask := by
  simp only [State.tallyExit]; split <;> simp
@[simp] theorem State.tallyExit_port_chanMask (s : State) (r : Port) : ((s.tallyExit).port r).chanMask = (s.port r).chanMask := by
  simp only [State.tallyExit]; split <;> simp
@[simp] theorem State.tallyExit_port_manual (s : State) (r : Port) : ((s.tallyExit).port r).manual = (s.port r).manual := by
  simp only [State.tallyExit]; split <;> simp

@[simp] theorem State.tallyStep_resetHeld (s : State) : (s.tallyStep).resetHeld = s.resetHeld := by
  simp only [State.tallyStep]; split <;> simp
@[simp] theorem State.tallyStep_intake (s : State) : (s.tallyStep).intake = s.intake := by
  simp only [State.tallyStep]; split <;> simp
@[simp] theorem State.tallyStep_channels (s : State) : (s.tallyStep).channels = s.channels := by
  simp only [State.tallyStep]; split <;> simp
@[simp] theorem State.tallyStep_grouping (s : State) : (s.tallyStep).grouping = s.grouping := by
  simp only [State.tallyStep]; split <;> simp
@[simp] theorem State.tallyStep_rollup (s : State) : (s.tallyStep).rollup = s.rollup := by
  simp only [State.tallyStep]; split <;> simp
@[simp] theorem State.tallyStep_run (s : State) : (s.tallyStep).run = s.run := by
  simp only [State.tallyStep]; split <;> simp
@[simp] theorem State.tallyStep_setup (s : State) : (s.tallyStep).setup = s.setup := by
  simp only [State.tallyStep]; split <;> simp
@[simp] theorem State.tallyStep_status (s : State) : (s.tallyStep).status = s.status := by
  simp only [State.tallyStep]; split <;> simp
@[simp] theorem State.tallyStep_pending (s : State) : (s.tallyStep).pending = s.pending := by
  simp only [State.tallyStep]; split <;> simp
@[simp] theorem State.tallyStep_clock (s : State) : (s.tallyStep).clock = s.clock := by simp [State.clock]
@[simp] theorem State.tallyStep_runActive (s : State) : (s.tallyStep).runActive = s.runActive := by simp [State.runActive]
@[simp] theorem State.tallyStep_chan (s : State) (c : ChanId) : (s.tallyStep).chan c = s.chan c := by simp [State.chan]

@[simp] theorem State.tallyStep_port_overrun (s : State) (r : Port) : ((s.tallyStep).port r).overrun = (s.port r).overrun := by
  simp only [State.tallyStep]; split <;> simp
@[simp] theorem State.tallyStep_port_short (s : State) (r : Port) : ((s.tallyStep).port r).short = (s.port r).short := by
  simp only [State.tallyStep]; split <;> simp
@[simp] theorem State.tallyStep_port_exchange (s : State) (r : Port) : ((s.tallyStep).port r).exchange = (s.port r).exchange := by
  simp only [State.tallyStep]; split <;> simp
@[simp] theorem State.tallyStep_port_cursor (s : State) (r : Port) : ((s.tallyStep).port r).cursor = (s.port r).cursor := by
  simp only [State.tallyStep]; split <;> simp
@[simp] theorem State.tallyStep_port_kindMask (s : State) (r : Port) : ((s.tallyStep).port r).kindMask = (s.port r).kindMask := by
  simp only [State.tallyStep]; split <;> simp
@[simp] theorem State.tallyStep_port_chanMask (s : State) (r : Port) : ((s.tallyStep).port r).chanMask = (s.port r).chanMask := by
  simp only [State.tallyStep]; split <;> simp
@[simp] theorem State.tallyStep_port_manual (s : State) (r : Port) : ((s.tallyStep).port r).manual = (s.port r).manual := by
  simp only [State.tallyStep]; split <;> simp

@[simp] theorem State.closingTally_resetHeld (s : State) : (s.closingTally).resetHeld = s.resetHeld := by
  simp only [State.closingTally]; split <;> simp
@[simp] theorem State.closingTally_intake (s : State) : (s.closingTally).intake = s.intake := by
  simp only [State.closingTally]; split <;> simp
@[simp] theorem State.closingTally_channels (s : State) : (s.closingTally).channels = s.channels := by
  simp only [State.closingTally]; split <;> simp
@[simp] theorem State.closingTally_grouping (s : State) : (s.closingTally).grouping = s.grouping := by
  simp only [State.closingTally]; split <;> simp
@[simp] theorem State.closingTally_rollup (s : State) : (s.closingTally).rollup = s.rollup := by
  simp only [State.closingTally]; split <;> simp
@[simp] theorem State.closingTally_run (s : State) : (s.closingTally).run = s.run := by
  simp only [State.closingTally]; split <;> simp
@[simp] theorem State.closingTally_setup (s : State) : (s.closingTally).setup = s.setup := by
  simp only [State.closingTally]; split <;> simp
@[simp] theorem State.closingTally_status (s : State) : (s.closingTally).status = s.status := by
  simp only [State.closingTally]; split <;> simp
@[simp] theorem State.closingTally_pending (s : State) : (s.closingTally).pending = s.pending := by
  simp only [State.closingTally]; split <;> simp
@[simp] theorem State.closingTally_clock (s : State) : (s.closingTally).clock = s.clock := by simp [State.clock]
@[simp] theorem State.closingTally_runActive (s : State) : (s.closingTally).runActive = s.runActive := by simp [State.runActive]
@[simp] theorem State.closingTally_chan (s : State) (c : ChanId) : (s.closingTally).chan c = s.chan c := by simp [State.chan]

@[simp] theorem State.closingTally_port_overrun (s : State) (r : Port) : ((s.closingTally).port r).overrun = (s.port r).overrun := by
  simp only [State.closingTally]; split <;> simp
@[simp] theorem State.closingTally_port_short (s : State) (r : Port) : ((s.closingTally).port r).short = (s.port r).short := by
  simp only [State.closingTally]; split <;> simp
@[simp] theorem State.closingTally_port_exchange (s : State) (r : Port) : ((s.closingTally).port r).exchange = (s.port r).exchange := by
  simp only [State.closingTally]; split <;> simp
@[simp] theorem State.closingTally_port_cursor (s : State) (r : Port) : ((s.closingTally).port r).cursor = (s.port r).cursor := by
  simp only [State.closingTally]; split <;> simp
@[simp] theorem State.closingTally_port_kindMask (s : State) (r : Port) : ((s.closingTally).port r).kindMask = (s.port r).kindMask := by
  simp only [State.closingTally]; split <;> simp
@[simp] theorem State.closingTally_port_chanMask (s : State) (r : Port) : ((s.closingTally).port r).chanMask = (s.port r).chanMask := by
  simp only [State.closingTally]; split <;> simp
@[simp] theorem State.closingTally_port_manual (s : State) (r : Port) : ((s.closingTally).port r).manual = (s.port r).manual := by
  simp only [State.closingTally]; split <;> simp

theorem State.offerTally_journal_fill (s : State) : s.offerTally.journal.fill = (s.offer (s.journal.tallyOffer s.clock)).journal.fill := by
  simp only [State.offerTally]; split <;> rfl

/-- The tally step keeps the journal within its bounds (R104, R105). -/
theorem State.tallyStep_bounded (s : State) (h : s.journal.Bounded) : s.tallyStep.journal.Bounded := by
  have zero : ∀ u : State, u.journal.Bounded → u.offerTally.journal.Bounded := by
    intro u hu
    have := u.offer_bounded (u.journal.tallyOffer u.clock) hu
    simp only [State.offerTally]
    split
    · exact this
    · exact this
  have out : ∀ u : State, u.journal.Bounded → u.tallyExit.journal.Bounded := by
    intro u hu
    simp only [State.tallyExit]
    split
    · next c =>
      simp only [State.postLevel_journal]
      exact State.offer_bounded _ _ ⟨hu.1, fun _ => by
        simp only [Config.tallyExitFill] at c
        simp only [State.withJournal_journal, Journal.fill] at c ⊢
        omega⟩
    · exact hu
  simp only [State.tallyStep]
  split
  · exact out _ (zero _ h)
  · exact h

/-- The closing tally keeps the journal within its bounds (R106). -/
theorem State.closingTally_bounded (s : State) (h : s.journal.Bounded) : s.closingTally.journal.Bounded := by
  have := s.offer_bounded (s.journal.tallyOffer s.clock) h
  simp only [State.closingTally, State.offerTally]
  split
  · split
    · exact this
    · exact this
  · exact h

theorem State.withJournal_queuesOk (s : State) (j : Journal) (h : s.QueuesOk) : (s.withJournal j).QueuesOk := by
  intro r; simpa using h r

theorem State.withJournal_noticesOk (s : State) (j : Journal) (h : s.NoticesOk) : (s.withJournal j).NoticesOk := by
  intro r; simpa using h r

theorem State.postLevel_noticesOk (s : State) (src : Source) (up : Bool) (h : s.NoticesOk) :
    (s.postLevel src up).NoticesOk := fun r => State.postWith_nodup s src 0 _ h r

theorem State.post_noticesOk (s : State) (src : Source) (d : Nat) (h : s.NoticesOk) : (s.post src d).NoticesOk :=
  fun r => State.postWith_nodup s src 0 _ h r

theorem State.offerTally_queuesOk (s : State) (h : s.QueuesOk) : s.offerTally.QueuesOk := by
  simp only [State.offerTally]; split
  · exact State.withJournal_queuesOk _ _ (State.offer_queuesOk _ _ h)
  · exact State.offer_queuesOk _ _ h

theorem State.offerTally_noticesOk (s : State) (h : s.NoticesOk) : s.offerTally.NoticesOk := by
  simp only [State.offerTally]; split
  · exact State.withJournal_noticesOk _ _ (State.offer_noticesOk _ _ h)
  · exact State.offer_noticesOk _ _ h

theorem State.tallyStep_queuesOk (s : State) (h : s.QueuesOk) : s.tallyStep.QueuesOk := by
  simp only [State.tallyStep, State.tallyExit]; split
  · have := State.offerTally_queuesOk _ (s.withJournal_queuesOk
      { s.journal with covered := satAdd Config.max16 s.journal.covered 1 } h)
    split
    · exact State.postLevel_queuesOk _ _ _ (State.offer_queuesOk _ _ (State.withJournal_queuesOk _ _ this))
    · exact this
  · exact h

theorem State.tallyStep_noticesOk (s : State) (h : s.NoticesOk) : s.tallyStep.NoticesOk := by
  simp only [State.tallyStep, State.tallyExit]; split
  · have := State.offerTally_noticesOk _ (s.withJournal_noticesOk
      { s.journal with covered := satAdd Config.max16 s.journal.covered 1 } h)
    split
    · exact State.postLevel_noticesOk _ _ _ (State.offer_noticesOk _ _ (State.withJournal_noticesOk _ _ this))
    · exact this
  · exact h

theorem State.closingTally_queuesOk (s : State) (h : s.QueuesOk) : s.closingTally.QueuesOk := by
  simp only [State.closingTally]; split
  · exact State.offerTally_queuesOk _ h
  · exact h

theorem State.closingTally_noticesOk (s : State) (h : s.NoticesOk) : s.closingTally.NoticesOk := by
  simp only [State.closingTally]; split
  · exact State.offerTally_noticesOk _ h
  · exact h

/-! ### reclaim -/

@[simp] theorem State.reclaim_resetHeld (s : State) : (s.reclaim).resetHeld = s.resetHeld := rfl
@[simp] theorem State.reclaim_intake (s : State) : (s.reclaim).intake = s.intake := rfl
@[simp] theorem State.reclaim_channels (s : State) : (s.reclaim).channels = s.channels := rfl
@[simp] theorem State.reclaim_grouping (s : State) : (s.reclaim).grouping = s.grouping := rfl
@[simp] theorem State.reclaim_rollup (s : State) : (s.reclaim).rollup = s.rollup := rfl
@[simp] theorem State.reclaim_run (s : State) : (s.reclaim).run = s.run := rfl
@[simp] theorem State.reclaim_setup (s : State) : (s.reclaim).setup = s.setup := rfl
@[simp] theorem State.reclaim_status (s : State) : (s.reclaim).status = s.status := rfl
@[simp] theorem State.reclaim_pending (s : State) : (s.reclaim).pending = s.pending := rfl
@[simp] theorem State.reclaim_clock (s : State) : (s.reclaim).clock = s.clock := by simp [State.clock]
@[simp] theorem State.reclaim_runActive (s : State) : (s.reclaim).runActive = s.runActive := by simp [State.runActive]
@[simp] theorem State.reclaim_chan (s : State) (c : ChanId) : (s.reclaim).chan c = s.chan c := by simp [State.chan]

@[simp] theorem State.reclaim_port (s : State) (p : Port) : s.reclaim.port p = s.port p := by cases p <;> rfl

/-- Reclaim removes records from the front of the store alone (R89). -/
theorem State.reclaim_recs (s : State) : s.reclaim.journal.recs = s.journal.recs.drop s.reclaimable := rfl

@[simp] theorem State.reclaim_tallyMode (s : State) : s.reclaim.journal.tallyMode = s.journal.tallyMode := rfl

@[simp] theorem State.reclaim_appendPoint (s : State) : s.reclaim.journal.appendPoint = s.journal.appendPoint := rfl

theorem recWords_drop_le (n : Nat) (recs : List Rec) : recWords (recs.drop n) ≤ recWords recs := by
  induction recs generalizing n with
  | nil => simp
  | cons r rs ih =>
    cases n with
    | zero => simp
    | succ n =>
      have := ih n
      simp only [List.drop_succ_cons, recWords, List.map_cons, List.sum_cons] at this ⊢
      omega

/-- Reclaim keeps the journal within its bounds (R89). -/
theorem State.reclaim_bounded (s : State) (h : s.journal.Bounded) : s.reclaim.journal.Bounded := by
  have := recWords_drop_le s.reclaimable s.journal.recs
  refine ⟨?_, fun t => ?_⟩ <;> simp only [Journal.fill, State.reclaim_recs] at *
  · exact this.trans h.1
  · exact lt_of_le_of_lt this (h.2 t)

end Sys2Proof.Machine
end

