-- ==== Sys2Proof/Laws/Agree.lean ====
section
/-! SUPPORT. What the journal's operations and the postings read. Two states agree when they have the same journal, ports, setup
table and intake; an offer, a posting, the end of a wait, the tally step, the closing tally and reclaim then leave states that
agree. So these operations may be taken on a state whose other blocks are replaced (R85, R89, R102, R104, R181). -/

namespace Sys2Proof.Machine

/-- Two states with the same journal, ports, setup table and intake. -/
structure State.Agree (s t : State) : Prop where
  journal : s.journal = t.journal
  port : ∀ p, s.port p = t.port p
  setup : s.setup = t.setup
  intake : s.intake = t.intake

namespace State.Agree

variable {s t u : State}

theorem refl (s : State) : s.Agree s := ⟨rfl, fun _ => rfl, rfl, rfl⟩

theorem symm (h : s.Agree t) : t.Agree s := ⟨h.journal.symm, fun p => (h.port p).symm, h.setup.symm, h.intake.symm⟩

theorem trans (h : s.Agree t) (k : t.Agree u) : s.Agree u :=
  ⟨h.journal.trans k.journal, fun p => (h.port p).trans (k.port p), h.setup.trans k.setup, h.intake.trans k.intake⟩

theorem clock (h : s.Agree t) : s.clock = t.clock := by simp [State.clock, h.intake]

theorem unread (h : s.Agree t) (p : Port) : s.unread p = t.unread p := by simp only [State.unread, h.port, h.journal]

theorem routed (h : s.Agree t) (src : Source) (p : Port) : s.routed src p = t.routed src p := by
  have a : s.portA = t.portA := h.port .a
  have b : s.portB = t.portB := h.port .b
  simp only [State.routed, h.setup, a, b]

theorem postWith (h : s.Agree t) (src : Source) (sect : Nat) (d : Word32) :
    (s.postWith src sect d).Agree (t.postWith src sect d) := by
  have a : s.portA = t.portA := h.port .a
  have b : s.portB = t.portB := h.port .b
  refine ⟨h.journal, fun p => ?_, h.setup, h.intake⟩
  cases p <;> simp only [State.postWith, State.port, h.routed, a, b]

theorem withJournal (h : s.Agree t) (j : Journal) : (s.withJournal j).Agree (t.withJournal j) :=
  ⟨rfl, fun p => by simpa using h.port p, h.setup, h.intake⟩

theorem updPort (h : s.Agree t) (p : Port) (f : PortState → PortState) : (s.updPort p f).Agree (t.updPort p f) := by
  refine ⟨by simpa using h.journal, fun r => ?_, by simpa using h.setup, by simpa using h.intake⟩
  by_cases e : r = p
  · subst e; simp only [State.updPort_port, h.port]
  · rw [State.updPort_port_ne _ _ e, State.updPort_port_ne _ _ e, h.port]

theorem testWait (h : s.Agree t) (p : Port) (r : Rec) : (s.testWait p r).Agree (t.testWait p r) := by
  unfold State.testWait State.endWait
  rw [h.port p, h.unread p]
  split
  · exact h
  · split
    · exact h.updPort _ _
    · exact h

theorem offerOnce (h : s.Agree t) (o : Offer) : (s.offerOnce o).Agree (t.offerOnce o) := by
  unfold State.offerOnce State.writeRecord
  rw [h.journal]
  split
  · exact ((h.withJournal _).testWait _ _).testWait _ _
  · exact h

theorem offer (h : s.Agree t) (o : Offer) : (s.offer o).Agree (t.offer o) := by
  have k := h.offerOnce o
  unfold State.offer State.enterTally
  simp only [h.journal, k.journal, k.clock]
  split
  · exact ((k.withJournal _).offerOnce _).postWith _ _ _
  · exact k

theorem offerTally (h : s.Agree t) : s.offerTally.Agree t.offerTally := by
  unfold State.offerTally
  simp only [h.journal, h.clock]
  have k := h.offer (t.journal.tallyOffer t.clock)
  split
  · rw [k.journal]; exact k.withJournal _
  · exact k

theorem tallyStep (h : s.Agree t) : s.tallyStep.Agree t.tallyStep := by
  unfold State.tallyStep State.tallyExit
  rw [h.journal]
  split
  · have k := (h.withJournal { t.journal with covered := satAdd Config.max16 t.journal.covered 1 }).offerTally
    simp only [k.journal, k.clock]
    split
    · exact ((k.withJournal _).offer _).postWith _ _ _
    · exact k
  · exact h

theorem closingTally (h : s.Agree t) : s.closingTally.Agree t.closingTally := by
  unfold State.closingTally
  rw [h.journal]
  split
  · exact h.offerTally
  · exact h

theorem reclaim (h : s.Agree t) : s.reclaim.Agree t.reclaim := by
  have e : s.reclaimable = t.reclaimable := by
    have a : s.portA = t.portA := h.port .a
    have b : s.portB = t.portB := h.port .b
    simp only [State.reclaimable, h.journal, a, b]
  unfold State.reclaim
  rw [h.journal, e]
  exact h.withJournal _

/-! ### The blocks that these operations do not read -/

theorem withRollup (s : State) (x : Rollup) : (s.withRollup x).Agree s := ⟨rfl, fun p => by simp, rfl, rfl⟩

theorem withRun (s : State) (x : Run) : (s.withRun x).Agree s := ⟨rfl, fun p => by simp, rfl, rfl⟩

theorem withStatus (s : State) (x : Status) : (s.withStatus x).Agree s := ⟨rfl, fun p => by simp, rfl, rfl⟩

theorem withGrouping (s : State) (x : Grouping) : (s.withGrouping x).Agree s := ⟨rfl, fun p => by simp, rfl, rfl⟩

theorem withChannels (s : State) (x : Vector Channel 16) : (s.withChannels x).Agree s := ⟨rfl, fun p => by simp, rfl, rfl⟩

end State.Agree

end Sys2Proof.Machine
end

