-- ==== Sys2Proof/Laws/Kept.lean ====
section
/-! SUPPORT. What the part's operations keep. A property of the state that the primitive operations keep (a replaced block,
a posting, an offer, the end of a wait) is kept by every operation built from them: a group's emission, a declaration, the
closing event, a rollup, the delivery of a tick, a status clock. One proof for each operation serves every such property,
and a block that no primitive in play replaces is unchanged by taking the property "this block is as it was". -/

namespace Sys2Proof.Machine

/-- A property kept by the primitives of everything that leaves the channels, the intake and the status line alone. -/
structure Kept (P : State → Prop) : Prop where
  grouping : ∀ s x, P s → P (s.withGrouping x)
  rollup : ∀ s x, P s → P (s.withRollup x)
  run : ∀ s x, P s → P (s.withRun x)
  post : ∀ s src sect d, P s → P (s.postWith src sect d)
  offer : ∀ s o, P s → P (s.offer o)
  endWait : ∀ s p x n, (s.port p).wait.isSome = true → P s → P (s.endWait p x n)
  /-- The live tallies and the count of intervals covered replaced. -/
  tallies : ∀ s j, j.recs = s.journal.recs → j.appendPoint = s.journal.appendPoint →
    j.tallyMode = s.journal.tallyMode → P s → P (s.withJournal j)
  /-- Tally mode ended at a fill of at most 32,768. -/
  tallyOff : ∀ s, s.journal.fill ≤ 32768 → P s → P (s.withJournal { s.journal with tallyMode := false })

/-- A property kept by the primitives of the closing event as well. -/
structure KeptRun (P : State → Prop) : Prop extends Kept P where
  channels : ∀ s x, P s → P (s.withChannels x)

/-- A property kept by the primitives of the delivery of a tick and of a status clock as well. -/
structure KeptAll (P : State → Prop) : Prop extends KeptRun P where
  intake : ∀ s x, P s → P (s.withIntake x)
  status : ∀ s x, P s → P (s.withStatus x)

/-! ### Frames: a block that no primitive replaces -/

theorem Kept.of_resetHeld (b : Bool) : KeptAll fun s => s.resetHeld = b := by
  constructor <;> first | (constructor <;> first | constructor <;> intros <;> simp_all | (intros; simp_all)) | (intros; simp_all)

theorem Kept.of_setup (x : Setup) : KeptAll fun s => s.setup = x := by
  constructor <;> first | (constructor <;> first | constructor <;> intros <;> simp_all | (intros; simp_all)) | (intros; simp_all)

theorem Kept.of_pending (x : List Instr) : KeptAll fun s => s.pending = x := by
  constructor <;> first | (constructor <;> first | constructor <;> intros <;> simp_all | (intros; simp_all)) | (intros; simp_all)

theorem Kept.of_intake (x : Intake) : KeptRun fun s => s.intake = x := by
  constructor <;> first | constructor <;> intros <;> simp_all | (intros; simp_all)

theorem Kept.of_channels (x : Vector Channel 16) : Kept fun s => s.channels = x := by
  constructor <;> intros <;> simp_all

theorem Kept.of_status (x : Status) : KeptRun fun s => s.status = x := by
  constructor <;> first | constructor <;> intros <;> simp_all | (intros; simp_all)

theorem Kept.of_cursor (p : Port) (x : Option SeqNo) : KeptAll fun s => (s.port p).cursor = x := by
  constructor <;> first | (constructor <;> first | constructor <;> intros <;> simp_all | (intros; simp_all)) | (intros; simp_all)

theorem Kept.of_manual (p : Port) (x : Bool) : KeptAll fun s => (s.port p).manual = x := by
  constructor <;> first | (constructor <;> first | constructor <;> intros <;> simp_all | (intros; simp_all)) | (intros; simp_all)

theorem Kept.of_exchange (p : Port) (x : Option Exchange) : KeptAll fun s => (s.port p).exchange = x := by
  constructor <;> first | (constructor <;> first | constructor <;> intros <;> simp_all | (intros; simp_all)) | (intros; simp_all)

/-! ### The bounds of Safety that these primitives keep -/

theorem Kept.of_noticesOk : KeptAll State.NoticesOk where
  grouping s x h := by intro r; simpa using h r
  rollup s x h := by intro r; simpa using h r
  run s x h := by intro r; simpa using h r
  post s src sect d h := State.postWith_nodup s src sect d h
  offer s o h := s.offer_noticesOk o h
  endWait s p x n _ h := by intro r; simpa [PortState.NoticesOk] using h r
  tallies s j _ _ _ h := s.withJournal_noticesOk j h
  tallyOff s _ h := s.withJournal_noticesOk _ h
  intake s x h := by intro r; simpa using h r
  channels s x h := by intro r; simpa using h r
  status s x h := by intro r; simpa using h r

theorem Kept.of_queuesOk : KeptAll State.QueuesOk where
  grouping s x h := by intro r; simpa using h r
  rollup s x h := by intro r; simpa using h r
  run s x h := by intro r; simpa using h r
  post s src sect d h := by intro r; simpa [PortState.QueuesOk] using h r
  offer s o h := s.offer_queuesOk o h
  endWait s p x n hw h := s.endWait_queuesOk p x n h hw
  tallies s j _ _ _ h := s.withJournal_queuesOk j h
  tallyOff s _ h := s.withJournal_queuesOk _ h
  intake s x h := by intro r; simpa using h r
  channels s x h := by intro r; simpa using h r
  status s x h := by intro r; simpa using h r

theorem Kept.of_journalBounded : KeptAll State.JournalBounded where
  grouping s x h := h
  rollup s x h := h
  run s x h := h
  post s src sect d h := h
  offer s o h := s.offer_bounded o h
  endWait s p x n _ h := by simpa [State.JournalBounded] using h
  tallies s j hr _ ht h := by
    refine ⟨?_, fun t => ?_⟩
    · simpa [Journal.fill, hr] using h.1
    · have := h.2 (by rw [← ht]; exact t)
      simpa [Journal.fill, hr] using this
  tallyOff s hf h := ⟨h.1, fun _ => lt_of_le_of_lt (show _ ≤ 32768 from hf) (by decide)⟩
  intake s x h := h
  channels s x h := h
  status s x h := h

/-! ### The grouping engine, run control and the rollup unit -/

theorem Journal.tallyEmission_store (j : Journal) (es : List Emitted) :
    (j.tallyEmission es).recs = j.recs ∧ (j.tallyEmission es).appendPoint = j.appendPoint ∧
      (j.tallyEmission es).tallyMode = j.tallyMode := by
  have : ∀ (es : List Emitted) (j : Journal),
      (es.foldl (fun j e => j.tallyHit e.ch e.f.energy) j).recs = j.recs ∧
      (es.foldl (fun j e => j.tallyHit e.ch e.f.energy) j).appendPoint = j.appendPoint ∧
      (es.foldl (fun j e => j.tallyHit e.ch e.f.energy) j).tallyMode = j.tallyMode := by
    intro es
    induction es with
    | nil => intro j; exact ⟨rfl, rfl, rfl⟩
    | cons e es ih =>
      intro j
      have := ih (j.tallyHit e.ch e.f.energy)
      simpa [Journal.tallyHit] using this
  simpa [Journal.tallyEmission, Journal.tallyGroup] using this es j

section Built

variable {P : State → Prop} (h : Kept P)
include h

theorem Kept.postLevel (s : State) (src : Source) (up : Bool) (hs : P s) : P (s.postLevel src up) := h.post _ _ _ _ hs

theorem Kept.ungroupedHit (s : State) (c : ChanId) (why : Reason) (f : Features) (hs : P s) :
    P (s.ungroupedHit c why f) := by
  simp only [State.ungroupedHit]
  refine h.rollup _ _ ?_
  split
  · exact h.tallies _ _ rfl rfl rfl hs
  · exact h.offer _ _ hs

theorem Kept.takeReport (s : State) (r : Report) (hs : P s) : P (s.takeReport r) := by
  unfold State.takeReport
  repeat' split
  all_goals first
    | exact hs
    | exact h.grouping _ _ hs
    | exact h.grouping _ _ (h.ungroupedHit _ _ _ _ hs)

theorem Kept.takeReports (s : State) (rs : List Report) (hs : P s) : P (s.takeReports rs) := by
  unfold State.takeReports
  induction rs generalizing s with
  | nil => exact hs
  | cons r rs ih => exact ih _ (h.takeReport s r hs)

theorem Kept.enterRunState (s : State) (x : RunState) (hs : P s) : P (s.enterRunState x) :=
  h.post _ _ _ _ (h.run _ _ hs)

theorem Kept.declare (s : State) (src : RuptureSource) (g : Option SeqNo) (hs : P s) : P (s.declare src g) :=
  h.run _ _ (h.enterRunState _ _ (h.post _ _ _ _ (h.offer _ _ (h.run _ _ hs))))

theorem Kept.ruptureCheck (s : State) (n : Nat) (g : Option SeqNo) (hs : P s) : P (s.ruptureCheck n g) := by
  unfold State.ruptureCheck State.recordEvidence
  split
  · split
    · exact h.post _ _ _ _ (h.run _ _ hs)
    · exact h.declare _ _ _ hs
  · exact hs

theorem Kept.evidenceLapse (s : State) (hs : P s) : P s.evidenceLapse := by
  unfold State.evidenceLapse
  repeat' split
  all_goals first
    | exact hs
    | exact h.run _ _ hs

theorem Kept.emit (s : State) (closing : Bool) (g : Group) (hs : P s) : P (s.emit closing g) := by
  simp only [State.emit]
  have h1 : P (if s.journal.tallyMode then s.withJournal (s.journal.tallyEmission g.emitted)
      else s.offer (groupOffer (decide (g.lmin ≤ g.emitted.length)) g.emitted)) := by
    split
    · obtain ⟨a, b, c⟩ := s.journal.tallyEmission_store g.emitted
      exact h.tallies _ _ a b c hs
    · exact h.offer _ _ hs
  split
  · exact h.rollup _ _ h1
  · exact h.ruptureCheck _ _ _ (h.rollup _ _ h1)

theorem Kept.emitFrom (closing : Bool) (gs : List Group) (s : State) (hs : P s) : P (emitFrom closing gs s) := by
  induction gs generalizing s with
  | nil => exact hs
  | cons g gs ih =>
    simp only [Machine.emitFrom]
    split
    · exact ih _ (h.grouping _ _ (h.emit _ _ _ hs))
    · exact hs

theorem Kept.groupingStages (s : State) (rs : List Report) (hs : P s) : P (s.groupingStages rs) :=
  h.grouping _ _ (h.emitFrom _ _ _ (h.grouping _ _ (h.takeReports _ _ hs)))

theorem Kept.flush (s : State) (hs : P s) : P s.flush := h.emitFrom _ _ _ (h.grouping _ _ hs)

theorem Kept.offerTally (s : State) (hs : P s) : P s.offerTally := by
  have := h.offer s (s.journal.tallyOffer s.clock) hs
  simp only [State.offerTally]
  split
  · exact h.tallies _ _ rfl rfl rfl this
  · exact this

theorem Kept.tallyStep (s : State) (hs : P s) : P s.tallyStep := by
  simp only [State.tallyStep, State.tallyExit]
  split
  · have := h.offerTally _ (h.tallies s { s.journal with covered := satAdd Config.max16 s.journal.covered 1 } rfl rfl rfl hs)
    split
    · next c => exact h.post _ _ _ _ (h.offer _ _ (h.tallyOff _ c this))
    · exact this
  · exact hs

theorem Kept.closingTally (s : State) (hs : P s) : P s.closingTally := by
  simp only [State.closingTally]
  split
  · exact h.offerTally _ hs
  · exact hs

theorem Kept.releaseHold (s : State) (hs : P s) : P s.releaseHold := by
  simp only [State.releaseHold]
  split
  · exact h.post _ _ _ _ (h.rollup _ _ hs)
  · exact h.rollup _ _ hs

theorem Kept.hysteresis (s : State) (w : AcParams) (met : Bool) (hs : P s) : P (s.hysteresis w met) := by
  simp only [State.hysteresis]
  split
  · exact h.rollup _ _ hs
  · exact h.post _ _ _ _ (h.rollup _ _ hs)

theorem Kept.resumption (s : State) (q : Option Nat) (hs : P s) : P (s.resumption q) := by
  unfold State.resumption
  split
  · exact hs
  · exact h.post _ _ _ _ (h.rollup _ _ hs)

theorem Kept.activityStep (s : State) (mask : Nat) (q : Option Nat) (hs : P s) : P (s.activityStep mask q) := by
  simp only [State.activityStep]
  split
  · exact h.rollup _ _ (h.offer _ _ (h.rollup _ _ hs))
  · exact h.offer _ _ (h.rollup _ _ hs)

theorem Kept.rollupSteps (s : State) (hs : P s) : P s.rollupSteps :=
  h.rollup _ _ (h.tallyStep _ (h.activityStep _ _ _ (h.resumption _ _ (h.hysteresis _ _ _ (h.rollup _ _ hs)))))

theorem Kept.rollupAtTick (s : State) (hs : P s) : P s.rollupAtTick := by
  unfold State.rollupAtTick
  split
  · exact h.rollupSteps _ hs
  · exact hs

theorem Kept.firstInterval (s : State) (k : Tick) (hs : P s) : P (s.firstInterval k) :=
  h.rollup _ _ (h.rollup _ _ hs)

theorem Kept.staleCheck (s : State) (hs : P s) : P s.staleCheck := by
  unfold State.staleCheck
  split
  · exact hs
  · split
    · exact h.post _ _ _ _ (h.rollup _ _ hs)
    · exact hs

theorem Kept.setLoad (s : State) (v : Nat) (hs : P s) : P (s.setLoad v) := by
  simp only [State.setLoad]
  split
  · exact h.post _ _ _ _ (h.rollup _ _ hs)
  · exact h.rollup _ _ hs

theorem Kept.waitTimeout (s : State) (p : Port) (hs : P s) : P (s.waitTimeout p) := by
  unfold State.waitTimeout
  cases hw : (s.port p).wait with
  | none => exact hs
  | some w =>
    simp only
    split
    · exact h.endWait _ _ _ _ (by simp [hw]) hs
    · exact hs

end Built

/-! ### The closing event and what may cause it -/

section BuiltRun

variable {P : State → Prop} (h : KeptRun P)
include h

theorem KeptRun.withChan (s : State) (c : ChanId) (x : Channel) (hs : P s) : P (s.withChan c x) := h.channels _ _ hs

theorem KeptRun.close (s : State) (cause : Cause) (hs : P s) : P (s.close cause) :=
  h.run _ _ (h.releaseHold _ (h.enterRunState _ _ (h.offer _ _
    (h.closingTally _ (h.flush _ (h.takeReports _ _ (h.channels _ _ hs)))))))

theorem KeptRun.declareNow (s : State) (src : RuptureSource) (g : Option SeqNo) (hs : P s) : P (s.declareNow src g) := by
  simp only [State.declareNow]
  split
  · exact h.close _ _ (h.declare _ _ _ hs)
  · exact h.declare _ _ _ hs

theorem KeptRun.loadDropCheck (s : State) (v : Nat) (hs : P s) : P (s.loadDropCheck v) := by
  unfold State.loadDropCheck
  repeat' split
  all_goals first
    | exact hs
    | exact h.declareNow _ _ _ hs

theorem KeptRun.postLoad (s : State) (p : Port) (v : Nat) (hs : P s) : P (s.postLoad p v) := by
  have h1 := h.setLoad s v hs
  simp only [State.postLoad]
  split
  · refine h.loadDropCheck _ _ ?_
    split
    · exact h.rollup _ _ h1
    · exact h.offer _ _ (h.rollup _ _ h1)
  · exact h1

theorem KeptRun.postWindowEnd (s : State) (hs : P s) : P s.postWindowEnd := by
  unfold State.postWindowEnd
  split
  · exact h.close _ _ hs
  · exact hs

end BuiltRun

/-! ### The delivery of a tick and the status line -/

section BuiltAll

variable {P : State → Prop} (h : KeptAll P)
include h

theorem KeptAll.startCycle (s : State) (hs : P s) : P s.startCycle := by
  unfold State.startCycle
  split
  · exact h.status _ _ hs
  · exact hs

theorem KeptAll.nodeStart (s : State) (hs : P s) : P s.nodeStart := by
  unfold State.nodeStart
  split
  · exact h.status _ _ hs
  · exact hs

theorem KeptAll.debounceChannel (s : State) (c : ChanId) (hs : P s) : P (s.debounceChannel c) := by
  simp only [State.debounceChannel, State.deliverFault]
  split
  · exact h.post _ _ _ _ (h.offer _ _ (h.withChan _ _ _ (h.status _ _ hs)))
  · exact h.status _ _ hs

theorem KeptAll.completeCycle (s : State) (m : LineMode) (hs : P s) : P (s.completeCycle m) := by
  have : ∀ (cs : List ChanId) (s : State), P s → P (cs.foldl State.debounceChannel s) := by
    intro cs
    induction cs with
    | nil => exact fun s hs => hs
    | cons c cs ih => exact fun s hs => ih _ (h.debounceChannel s c hs)
  simp only [State.completeCycle, State.lineUp]
  refine h.status _ _ ?_
  split
  · exact h.post _ _ _ _ (h.status _ _ (this _ _ hs))
  · exact h.status _ _ (this _ _ hs)

theorem KeptAll.abortCycle (s : State) (hs : P s) : P s.abortCycle := by
  simp only [State.abortCycle]
  split
  · exact h.post _ _ _ _ (h.status _ _ (h.status _ _ hs))
  · exact h.status _ _ hs

theorem KeptAll.statusTick (s : State) (l : LineLevel) (hs : P s) : P (s.statusTick l) := by
  have any := fun x => h.status s x hs
  unfold State.statusTick
  split
  · split
    · exact h.nodeStart s hs
    · exact hs
  · exact any _
  · exact any _
  · exact any _
  · cases l
    · exact h.abortCycle s hs
    · exact any _
  · split
    · exact h.completeCycle s _ hs
    · exact any _

theorem KeptAll.wrapClock (s : State) (hs : P s) : P s.wrapClock := by
  unfold State.wrapClock State.post
  exact h.post _ _ _ _ (h.offer _ _ (h.intake s _ hs))

theorem KeptAll.advanceClock (s : State) (hs : P s) : P s.advanceClock := by
  unfold State.advanceClock
  split
  · exact h.wrapClock _ hs
  · exact h.intake _ _ hs

theorem KeptAll.beforeChannels (s : State) (hs : P s) : P s.beforeChannels :=
  h.evidenceLapse _ (h.staleCheck _ (h.startCycle _ (h.advanceClock _ hs)))

theorem KeptAll.detect (s : State) (xs : ChanId → Sample) (hs : P s) : P (s.detect xs) :=
  h.groupingStages _ _ (h.intake _ _ (h.channels _ _ hs))

theorem KeptAll.afterGrouping (s : State) (hs : P s) : P s.afterGrouping :=
  h.waitTimeout _ _ (h.waitTimeout _ _ (h.postWindowEnd _ (h.rollupAtTick _ hs)))

theorem KeptAll.deliverTick (s : State) (xs : ChanId → Sample) (hs : P s) : P (s.deliverTick xs) :=
  h.afterGrouping _ (h.detect _ _ (h.beforeChannels _ hs))

theorem KeptAll.synthetic (d : Nat) (s : State) (hs : P s) : P (State.synthetic d s) := by
  induction d generalizing s with
  | zero => exact hs
  | succ d ih => exact ih _ (h.deliverTick _ _ hs)

theorem KeptAll.accepted (s : State) (n : BitVec 8) (hs : P s) : P (s.accepted n) := h.intake _ _ hs

theorem KeptAll.markGap (s : State) (d : Nat) (hs : P s) : P (s.markGap d) := h.post _ _ _ _ (h.offer _ _ hs)

theorem KeptAll.gapFrame (s : State) (d : Nat) (words : List Word16) (hs : P s) : P (s.gapFrame d words) :=
  h.deliverTick _ _ (h.markGap _ _ (h.synthetic _ _ hs))

theorem KeptAll.evaluate (s : State) (words : List Word16) (hs : P s) : P (s.evaluate words) := by
  simp only [State.evaluate]
  split
  · exact hs
  · split
    · exact h.accepted _ _ (h.deliverTick _ _ hs)
    · split
      · exact hs
      · split
        · exact h.accepted _ _ (h.deliverTick _ _ hs)
        · exact h.accepted _ _ (h.gapFrame _ _ _ hs)

end BuiltAll

end Sys2Proof.Machine
end

