-- ==== Sys2Proof/Laws/Execution.lean ====
section
/-! SUPPORT. What executing a request comes to: when a request is ready its effect is made and its response placed, and
nothing happens otherwise; the queue of a port that holds no wait is untouched by everything that ends waits. Also the bytes of
the payloads, least significant first. -/

namespace Sys2Proof.Machine

theorem State.whileReleased_eq (s : State) (f : State → State) (h : s.resetHeld = false) : s.whileReleased f = f s := by
  simp [State.whileReleased, h]

theorem State.whileReleased_held (s : State) (f : State → State) (h : s.resetHeld = true) : s.whileReleased f = s := by
  simp [State.whileReleased, h]

/-! ### Readiness -/

theorem State.ready_eq (s : State) (p : Port) (r : Request) (rest : List Request) (hq : (s.port p).requests = r :: rest)
    (hr : (s.port p).responses.length < 4) (hw : (s.port p).wait = none) : s.ready p = some r := by
  have : ¬ 4 ≤ (s.port p).responses.length := by omega
  simp [State.ready, hq, hw, this]

theorem State.ready_none (s : State) (p : Port)
    (h : (s.port p).wait ≠ none ∨ 4 ≤ (s.port p).responses.length ∨ (s.port p).requests = []) : s.ready p = none := by
  simp only [State.ready]
  rcases h with h | h | h
  · have : (s.port p).wait.isSome = true := by cases e : (s.port p).wait <;> simp_all
    simp [this]
  · simp [h]
  · simp [h]

/-- A ready request stands at the head of a queue with no wait and with room for its response. -/
theorem State.ready_some {s : State} {p : Port} {r : Request} (h : s.ready p = some r) :
    (s.port p).wait = none ∧ (s.port p).responses.length ≤ 3 ∧ ∃ rest, (s.port p).requests = r :: rest := by
  simp only [State.ready] at h
  split at h
  · cases h
  · next c =>
    simp only [Bool.or_eq_true, decide_eq_true_eq, not_or] at c
    refine ⟨by cases e : (s.port p).wait <;> simp_all, by have := c.2; simp only [Config.queueDepth] at this; omega, ?_⟩
    cases e : (s.port p).requests with
    | nil => simp [e] at h
    | cons a l => simp [e] at h; exact ⟨l, by rw [h]⟩

theorem State.serve_eq (s : State) (p : Port) (code : Nat) (body : Request → State → State × Reply) (r : Request)
    (h : s.ready p = some r) (hc : r.code = BitVec.ofNat 8 code) (hl : r.declared ≤ 1020) :
    s.serve p code body = State.finish (body r s) p := by
  simp [State.serve, h, Request.hasCode, hc, hl]

/-- Everything that serving a request can do. -/
theorem State.serve_cases (s : State) (p : Port) (code : Nat) (body : Request → State → State × Reply) :
    s.serve p code body = s ∨ ∃ r, s.ready p = some r ∧ s.serve p code body = State.finish (body r s) p := by
  simp only [State.serve]
  split
  · exact .inl rfl
  · next r h =>
    split
    · exact .inr ⟨r, h, rfl⟩
    · exact .inl rfl

theorem State.serve_idle (s : State) (p : Port) (code : Nat) (body : Request → State → State × Reply)
    (h : s.ready p = none) : s.serve p code body = s := by
  simp [State.serve, h]

/-- The response placed, with the queue known. -/
theorem State.finish_eq (t : State) (x : Reply) (p : Port) (r : Request) (rest : List Request)
    (h : (t.port p).requests = r :: rest) :
    State.finish (t, x) p =
      t.withPort p
        { t.port p with
          requests := rest, responses := (t.port p).responses ++ [⟨r.tag, r.code, x.result, x.payload⟩] } := by
  simp [State.finish, State.updPort, PortState.answer, h]

/-! ### The queue of a port without a wait -/

/-- Nothing that a tick, a run, a load or a status clock does touches the queues of a port that holds no wait. -/
theorem Kept.of_queue (p : Port) (q : List Request) (rs : List Response) :
    KeptAll fun s => (s.port p).wait = none ∧ (s.port p).requests = q ∧ (s.port p).responses = rs := by
  let P : State → Prop := fun s => (s.port p).wait = none ∧ (s.port p).requests = q ∧ (s.port p).responses = rs
  have same : ∀ s t : State, (t.port p).wait = (s.port p).wait → (t.port p).requests = (s.port p).requests →
      (t.port p).responses = (s.port p).responses → P s → P t :=
    fun s t h1 h2 h3 h => ⟨h1.trans h.1, h2.trans h.2.1, h3.trans h.2.2⟩
  have ended : ∀ (s : State) (r : Port) (x : Result) (n : Nat), (s.port r).wait.isSome = true → P s → P (s.endWait r x n) := by
    intro s r x n hw h
    have hne : p ≠ r := by rintro rfl; simp [h.1] at hw
    have e : (s.endWait r x n).port p = s.port p := s.updPort_port_ne _ hne
    exact same s _ (by rw [e]) (by rw [e]) (by rw [e]) h
  have test : ∀ (s : State) (r : Port) (x : Rec), P s → P (s.testWait r x) := by
    intro s r x h
    rcases s.testWait_cases r x with e | ⟨hw, e⟩ <;> rw [e]
    · exact h
    · exact ended s r _ _ hw h
  have once : ∀ (s : State) (o : Offer), P s → P (s.offerOnce o) := by
    intro s o h
    rcases s.offerOnce_cases o with ⟨-, e⟩ | ⟨-, e⟩ <;> rw [e]
    · exact test _ _ _ (test _ _ _ (same s _ (by simp) (by simp) (by simp) h))
    · exact h
  have offered : ∀ (s : State) (o : Offer), P s → P (s.offer o) := by
    intro s o h
    rcases s.offer_cases o with ⟨e, -⟩ | ⟨-, e⟩ <;> rw [e]
    · exact once s o h
    · refine same _ _ (State.postLevel_port_wait _ _ _ _) (State.postLevel_port_requests _ _ _ _)
        (State.postLevel_port_responses _ _ _ _) (once _ _ ?_)
      exact same _ _ (by simp) (by simp) (by simp) (once s o h)
  constructor
  · constructor
    · constructor
      · exact fun s _ => same s _ (by simp) (by simp) (by simp)
      · exact fun s _ => same s _ (by simp) (by simp) (by simp)
      · exact fun s _ => same s _ (by simp) (by simp) (by simp)
      · exact fun s _ _ _ => same s _ (by simp) (by simp) (by simp)
      · exact offered
      · exact ended
      · exact fun s _ _ _ _ => same s _ (by simp) (by simp) (by simp)
      · exact fun s _ => same s _ (by simp) (by simp) (by simp)
    · exact fun s _ => same s _ (by simp) (by simp) (by simp)
  · exact fun s _ => same s _ (by simp) (by simp) (by simp)
  · exact fun s _ => same s _ (by simp) (by simp) (by simp)

/-! ### Bytes -/

theorem leBytes_eq (n x : Nat) : leBytes n x = (List.range n).map fun i => BitVec.ofNat 8 (x / 256 ^ i) := by
  induction n generalizing x with
  | zero => rfl
  | succ n ih =>
    rw [leBytes, ih, List.range_succ_eq_map, List.map_cons, List.map_map]
    simp [Nat.pow_succ, Nat.div_div_eq_div_mul, Function.comp_def, Nat.mul_comm]

@[simp] theorem leBytes_length (n x : Nat) : (leBytes n x).length = n := by simp [leBytes_eq]

theorem leNat_leBytes (n x : Nat) : leNat (leBytes n x) = x % 256 ^ n := by
  induction n generalizing x with
  | zero => simp [leBytes, leNat, Nat.mod_one]
  | succ n ih =>
    rw [leBytes, leNat, ih]
    simp only [BitVec.toNat_ofNat, Nat.pow_succ, show (2 : Nat) ^ 8 = 256 from rfl]
    rw [Nat.mul_comm (256 ^ n) 256, Nat.mod_mul]

theorem leNat_lt (l : List Byte) : leNat l < 256 ^ l.length := by
  induction l with
  | nil => simp [leNat]
  | cons b l ih =>
    have := b.isLt
    rw [leNat, List.length_cons, Nat.pow_succ]
    omega

/-- A field that begins beyond the first part of a payload. -/
theorem field_append_right (a b : List Byte) (i n : Nat) (h : a.length ≤ i) : field (a ++ b) i n = field b (i - a.length) n := by
  simp [field, List.drop_append, List.drop_eq_nil_of_le h]

/-- A field that is the first part of a payload. -/
theorem field_append_left (n x : Nat) (b : List Byte) : field (leBytes n x ++ b) 0 n = x % 256 ^ n := by
  simp [field, leNat_leBytes]

end Sys2Proof.Machine
end

