-- ==== Sys2Proof/Laws/Intake.lean ====
section
/-! SUPPORT. What a frame does to the intake: the clock, the sequence numbers and the previous magnitudes. -/

namespace Sys2Proof.Machine

theorem State.beforeChannels_kept {P : State → Prop} (h : Kept P) (status : ∀ s x, P s → P (s.withStatus x)) (s : State)
    (hs : P s.advanceClock) : P s.beforeChannels := by
  refine h.evidenceLapse _ (h.staleCheck _ ?_)
  unfold State.startCycle
  split
  · exact status _ _ hs
  · exact hs

theorem State.advanceClock_intake (s : State) : s.advanceClock.intake = { s.intake with clock := s.intake.clock + 1 } := by
  unfold State.advanceClock
  split
  · next h =>
    have : s.intake.clock + 1 = 0 := by
      simp only [State.atLastTick, State.clock, beq_iff_eq] at h
      rw [h]; rfl
    simp only [State.wrapClock, State.post_intake, State.offer_intake, State.withIntake_intake, this]
  · rfl

theorem State.beforeChannels_intake (s : State) :
    s.beforeChannels.intake = { s.intake with clock := s.intake.clock + 1 } :=
  State.beforeChannels_kept (Kept.of_intake _).toKept (fun _ _ h => h) s s.advanceClock_intake

theorem State.afterGrouping_intake (s : State) : s.afterGrouping.intake = s.intake := by
  have h := Kept.of_intake s.intake
  exact h.toKept.waitTimeout _ _ (h.toKept.waitTimeout _ _ (h.postWindowEnd _ (h.toKept.rollupAtTick _ rfl)))

/-- A tick advances the clock by one and replaces the previous magnitudes (R9, R10). -/
theorem State.deliverTick_intake (s : State) (xs : ChanId → Sample) :
    (s.deliverTick xs).intake =
      { s.intake with clock := s.intake.clock + 1, prev := perChannel fun c => (xs c).m } := by
  rw [State.deliverTick, State.afterGrouping_intake]
  have h := (Kept.of_intake (s.beforeChannels.intake.handOver xs)).toKept
  rw [show (s.beforeChannels.detect xs).intake = s.beforeChannels.intake.handOver xs from h.groupingStages _ _ rfl,
    Intake.handOver, State.beforeChannels_intake]

theorem State.synthetic_intake (d : Nat) (s : State) :
    (State.synthetic d s).intake.clock = s.intake.clock + BitVec.ofNat 48 d ∧
      (State.synthetic d s).intake.seq = s.intake.seq ∧ (State.synthetic d s).intake.collecting = s.intake.collecting := by
  induction d generalizing s with
  | zero => simp [State.synthetic]
  | succ d ih =>
    obtain ⟨h1, h2, h3⟩ := ih (s.deliverTick syntheticSample)
    rw [State.synthetic, h1, h2, h3, State.deliverTick_intake]
    refine ⟨?_, rfl, rfl⟩
    have : BitVec.ofNat 48 (d + 1) = 1 + BitVec.ofNat 48 d := by
      apply BitVec.eq_of_toNat_eq; simp [Nat.add_comm]
    rw [this]
    show s.intake.clock + 1 + _ = _
    rw [BitVec.add_assoc]

theorem State.evaluate_bad (s : State) (ws : List Word16) (hs : checkSum ws ≠ 0) : s.evaluate ws = s := by
  simp [State.evaluate, hs]

theorem State.evaluate_duplicate (s : State) (ws : List Word16) (q : FrameSeq) (hq : s.intake.seq = some q)
    (h1 : frameNumber ws = q.last) : s.evaluate ws = s := by
  simp [State.evaluate, hq, h1]

theorem State.evaluate_first (s : State) (ws : List Word16) (hs : checkSum ws = 0) (hq : s.intake.seq = none) :
    s.evaluate ws = (s.deliverTick (receivedSample ws false)).accepted (frameNumber ws) := by
  unfold State.evaluate
  simp only [hs, ne_eq, not_true_eq_false, if_false]
  split
  · rfl
  · next h => rw [hq] at h; cases h

theorem State.evaluate_next (s : State) (ws : List Word16) (hs : checkSum ws = 0) (q : FrameSeq)
    (hq : s.intake.seq = some q) (h1 : frameNumber ws ≠ q.last) (h2 : frameNumber ws = q.expected) :
    s.evaluate ws = (s.deliverTick (receivedSample ws false)).accepted (frameNumber ws) := by
  unfold State.evaluate
  simp only [hs, ne_eq, not_true_eq_false, if_false]
  split
  · rfl
  · next h => rw [hq] at h; cases h; rw [if_neg h1, if_pos h2]

theorem State.evaluate_gap (s : State) (ws : List Word16) (hs : checkSum ws = 0) (q : FrameSeq)
    (hq : s.intake.seq = some q) (h1 : frameNumber ws ≠ q.last) (h2 : frameNumber ws ≠ q.expected) :
    s.evaluate ws = (s.gapFrame (frameNumber ws - q.expected).toNat ws).accepted (frameNumber ws) := by
  unfold State.evaluate
  simp only [hs, ne_eq, not_true_eq_false, if_false]
  split
  · next h => rw [hq] at h; cases h
  · next h => rw [hq] at h; cases h; rw [if_neg h1, if_neg h2]

/-- Everything that the evaluation of a frame can do: nothing, one tick, or a gap. -/
theorem State.evaluate_cases (s : State) (ws : List Word16) :
    s.evaluate ws = s ∨
    s.evaluate ws = (s.deliverTick (receivedSample ws false)).accepted (frameNumber ws) ∨
    ∃ d, s.evaluate ws = (s.gapFrame d ws).accepted (frameNumber ws) := by
  by_cases hs : checkSum ws = 0
  · cases hq : s.intake.seq with
    | none => exact .inr (.inl (s.evaluate_first ws hs hq))
    | some q =>
      by_cases h1 : frameNumber ws = q.last
      · exact .inl (s.evaluate_duplicate ws q hq h1)
      · by_cases h2 : frameNumber ws = q.expected
        · exact .inr (.inl (s.evaluate_next ws hs q hq h1 h2))
        · exact .inr (.inr ⟨_, s.evaluate_gap ws hs q hq h1 h2⟩)
  · exact .inl (s.evaluate_bad ws hs)

theorem magnitude_le (w : Word16) : magnitude w ≤ 32767 := Nat.min_le_left _ _

end Sys2Proof.Machine
end

