-- ==== Sys2Proof/Laws/Requests.lean ====
section
/-! SUPPORT. What the fields of a request come to: a word of four bytes, the section a code names, the first value at fault of
a write and the values stored, the walk of a read, and the mask of a set of channels. -/

namespace Sys2Proof.Machine

/-- A field of four bytes is the word with the last byte on top. -/
theorem leNat_four (b0 b1 b2 b3 : Byte) : leNat [b0, b1, b2, b3] = (b3 ++ b2 ++ b1 ++ b0).toNat := by
  have := b0.isLt; have := b1.isLt; have := b2.isLt; have := b3.isLt
  simp only [BitVec.toNat_append]
  rw [← Nat.shiftLeft_add_eq_or_of_lt b0.isLt, ← Nat.shiftLeft_add_eq_or_of_lt b1.isLt,
    ← Nat.shiftLeft_add_eq_or_of_lt b2.isLt]
  simp [leNat, Nat.shiftLeft_eq]; omega

/-- A field of two bytes is the word with the second byte on top. -/
theorem leNat_two (b0 b1 : Byte) : leNat [b0, b1] = (b1 ++ b0).toNat := by
  have := b0.isLt; have := b1.isLt
  rw [BitVec.toNat_append, ← Nat.shiftLeft_add_eq_or_of_lt b0.isLt, Nat.shiftLeft_eq]
  simp [leNat]; omega

/-- One value to every four bytes (R153). -/
theorem words4_length (n : Nat) (l : List Byte) (h : l.length = 4 * n) : (words4 l).length = n := by
  induction n generalizing l with
  | zero => obtain rfl := List.eq_nil_of_length_eq_zero h; rfl
  | succ n ih =>
    match l, h with
    | _ :: _ :: _ :: _ :: l, h => simp [words4]; exact ih l (by simp at h; omega)

/-! ### Sections and writes (R150, R156, R157) -/

theorem Sect.ofCode_eq_some (n : Nat) (x : Sect) : Sect.ofCode n = some x ↔ n = x.code := by
  unfold Sect.ofCode
  split <;> cases x <;> simp [Sect.code] <;> omega

theorem Sect.ofCode_eq_none (n : Nat) : Sect.ofCode n = none ↔ ∀ x : Sect, n ≠ x.code := by
  constructor
  · intro h x hx
    rw [(Sect.ofCode_eq_some n x).2 hx] at h
    cases h
  · intro h
    cases e : Sect.ofCode n with
    | none => rfl
    | some x => exact absurd ((Sect.ofCode_eq_some n x).1 e) (h x)

/-- Every numeric item's range holds a value (R150). -/
theorem Sect.items_ranges (x : Sect) : ∀ i ∈ x.items, ∀ lo hi d, i = .numeric lo hi d → lo ≤ hi := by
  have h1 : ∀ i ∈ channelItems, ∀ lo hi d, i = .numeric lo hi d → lo ≤ hi := by
    simp only [channelItems, List.forall_mem_cons]
    simp
  cases x
  · intro i hi
    simp only [Sect.items, List.mem_flatten, List.mem_replicate] at hi
    obtain ⟨l, ⟨_, rfl⟩, hi⟩ := hi
    exact h1 i hi
  all_goals
    simp only [Sect.items, groupingItems, activityItems, ruptureItems, portItems, List.replicate, List.cons_append,
      List.nil_append, List.forall_mem_cons]
    simp

/-- A value stored lies within its item's range, or is a code as written (R157). -/
theorem ItemSpec.clamp_holds (i : ItemSpec) (v : Nat) (hr : ∀ lo hi d, i = .numeric lo hi d → lo ≤ hi)
    (hf : i.faulty v = false) : i.holds (i.clamp v) = true := by
  cases i with
  | numeric lo hi d =>
    have := hr lo hi d rfl
    have clamped : lo ≤ ItemSpec.clamp (.numeric lo hi d) v ∧ ItemSpec.clamp (.numeric lo hi d) v ≤ hi := by
      simp only [ItemSpec.clamp]
      split
      · omega
      · split <;> omega
    exact Bool.and_eq_true_iff.2 ⟨decide_eq_true clamped.1, decide_eq_true clamped.2⟩
  | codes last d => exact decide_eq_true (Nat.not_lt.1 (of_decide_eq_false hf))

/-- No value is at fault exactly when every value is one its item can hold in some form (R156). -/
theorem firstFault_eq_none (items : List ItemSpec) (vs : List Nat) (k : Nat) :
    firstFault items vs k = none ↔ ∀ (i : Nat) (spec : ItemSpec) (v : Nat), items[i]? = some spec → vs[i]? = some v → spec.faulty v = false := by
  induction items generalizing vs k with
  | nil => simp [firstFault]
  | cons a l ih =>
    cases vs with
    | nil => simp [firstFault]
    | cons v vs =>
      simp only [firstFault]
      constructor
      · intro h i spec u hs hu
        by_cases hf : a.faulty v = true
        · rw [if_pos hf] at h; cases h
        · rw [if_neg hf] at h
          cases i with
          | zero => simp only [List.getElem?_cons_zero, Option.some.injEq] at hs hu; subst hs hu; simpa using hf
          | succ i => exact (ih vs (k + 1)).1 h i spec u (by simpa using hs) (by simpa using hu)
      · intro h
        have h0 := h 0 a v rfl rfl
        rw [if_neg (by simp [h0])]
        exact (ih vs (k + 1)).2 fun i spec u hs hu => h (i + 1) spec u (by simpa using hs) (by simpa using hu)

/-- The first value at fault, after a list of values of which none is (R156). -/
theorem firstFault_append (items : List ItemSpec) (before : List Nat) (v : Nat) (after : List Nat) (k : Nat) (spec : ItemSpec)
    (hs : items[before.length]? = some spec) (hv : spec.faulty v = true)
    (hb : ∀ (i : Nat) (x : ItemSpec) (u : Nat), items[i]? = some x → before[i]? = some u → x.faulty u = false) :
    firstFault items (before ++ v :: after) k = some (k + before.length) := by
  induction before generalizing items k with
  | nil =>
    cases items with
    | nil => simp at hs
    | cons a l => simp at hs; subst hs; simp [firstFault, hv]
  | cons u us ih =>
    cases items with
    | nil => simp at hs
    | cons a l =>
      have := hb 0 a u rfl rfl
      simp only [List.cons_append, firstFault, this]
      have := ih l (k + 1) (by simpa using hs) fun i x w hx hw => hb (i + 1) x w (by simpa using hx) (by simpa using hw)
      simp [this]; omega

/-! ### The walk of a read (R95) -/

/-- A walk over records of which the passing ones fit, up to the end or to a passing record that does not. -/
theorem walk_append (passes : Rec → Bool) (passed ahead : List Rec) (left : Nat)
    (fits : ((passed.filter passes).map Rec.size).sum ≤ left)
    (stops : ∀ x xs, ahead = x :: xs → passes x = true ∧ left < ((passed.filter passes).map Rec.size).sum + x.size) :
    walk passes left (passed ++ ahead) = ⟨passed.filter passes, passed.length, ahead.head?.map Rec.size⟩ := by
  induction passed generalizing left with
  | nil =>
    cases ahead with
    | nil => rfl
    | cons x xs =>
      obtain ⟨a, b⟩ := stops x xs rfl
      have : ¬ x.size ≤ left := by simpa using b
      simp [walk, a, this]
  | cons y ys ih =>
    by_cases hy : passes y = true
    · simp only [List.filter_cons, hy, if_true, List.map_cons, List.sum_cons] at fits stops
      have := ih (left - y.size) (by omega) fun x xs e => ⟨(stops x xs e).1, by have := (stops x xs e).2; omega⟩
      simp [walk, hy, this, show y.size ≤ left by omega]
    · simp only [List.filter_cons, hy] at fits stops
      have := ih left (by simpa using fits) fun x xs e => by simpa using stops x xs e
      simp [walk, hy, this]

/-- Every walk is of that shape: the records moved past are a first part of those walked. -/
theorem walk_moved_le (passes : Rec → Bool) (left : Nat) (l : List Rec) : (walk passes left l).moved ≤ l.length := by
  induction l generalizing left with
  | nil => simp [walk]
  | cons x xs ih =>
    simp only [walk]
    split
    · split
      · simpa using ih _
      · simp
    · simpa using ih _

/-! ### Masks of channels -/

/-- The mask of a set of channels is the sum of their bits. -/
theorem channelMask_eq (f : ChanId → Bool) : channelMask f = ((allChannels.filter f).map fun c => 2 ^ c.val).sum := by
  have : ∀ (l : List ChanId) (a : Nat),
      l.foldl (fun m c => if f c then m + 2 ^ c.val else m) a = a + ((l.filter f).map fun c => 2 ^ c.val).sum := by
    intro l
    induction l with
    | nil => simp
    | cons x l ih =>
      intro a
      rw [List.foldl_cons, ih]
      cases h : f x <;> simp [h]; omega
  simpa [channelMask] using this allChannels 0

/-- A masked bit test: two words have a bit in common (R93). -/
theorem and_ne_zero_iff (a b : BitVec 16) :
    (a &&& b != 0) = true ↔ ∃ c : ChanId, a.getLsbD c.val = true ∧ b.getLsbD c.val = true := by
  rw [bne_iff_ne, ne_eq]
  constructor
  · intro h
    by_contra hn
    refine h (BitVec.eq_of_getLsbD_eq fun i hi => ?_)
    simp only [not_exists, not_and] at hn
    have := hn ⟨i, hi⟩
    simp only [BitVec.getLsbD_and]
    cases h1 : a.getLsbD i <;> simp_all
  · rintro ⟨c, h1, h2⟩ h
    have h3 : (a &&& b).getLsbD c.val = true := by rw [BitVec.getLsbD_and, h1, h2]; rfl
    rw [h] at h3
    simp at h3

end Sys2Proof.Machine
end

