-- ==== Sys2Proof/Laws/Store.lean ====
section
/-! SUPPORT. The record store: consecutive sequence numbers up to the append point (R86) and cursors within the journal (R88),
kept by an admission, by reclaim (R89) and by everything that a tick does. -/

namespace Sys2Proof.Machine

/-- Every record takes two words at least, so a bounded journal holds far fewer than 2^32 (R86). -/
theorem Journal.Bounded.length_le {j : Journal} (h : j.Bounded) : j.recs.length ≤ 32768 := by
  have : ∀ l : List Rec, 2 * l.length ≤ recWords l := by
    intro l
    induction l with
    | nil => simp [recWords]
    | cons r l ih => simp only [recWords, List.map_cons, List.sum_cons, List.length_cons, Rec.size] at ih ⊢; omega
  have h1 := this j.recs
  have h2 : recWords j.recs ≤ 65536 := h.1
  omega

/-- The retain floor lies as many numbers below the append point as there are records. -/
theorem Journal.Numbered.floor_eq {j : Journal} (h : j.Numbered) : j.floor = j.appendPoint - BitVec.ofNat 32 j.recs.length := by
  unfold Journal.floor
  cases e : j.recs with
  | nil => simp
  | cons r rs =>
    have := h 0 (by simp [e])
    simpa [e] using this

/-- An admission keeps the numbering (R86). -/
theorem Journal.Numbered.append {j : Journal} (h : j.Numbered) (o : Offer) : (j.append o).Numbered := by
  intro i hi
  simp only [Journal.append, List.length_append, List.length_singleton] at hi ⊢
  by_cases hl : i < j.recs.length
  · rw [List.getElem_append_left hl, h i hl]
    have : j.recs.length + 1 - i = (j.recs.length - i) + 1 := by omega
    rw [this, BitVec.ofNat_add]
    generalize BitVec.ofNat 32 (j.recs.length - i) = d
    bv_omega
  · obtain rfl : i = j.recs.length := by omega
    simp [Journal.record]

/-- The removal of records from the front keeps the numbering (R89). -/
theorem Journal.Numbered.drop {j : Journal} (h : j.Numbered) (n : Nat) : ({ j with recs := j.recs.drop n } : Journal).Numbered := by
  intro i hi
  simp only [List.length_drop] at hi
  simp only [List.getElem_drop, List.length_drop]
  rw [h (n + i) (by omega)]
  congr 2
  omega

/-- An admission moves the retain floor of no journal that a cursor could stand in (R86, R88). -/
theorem Journal.append_distance (j : Journal) (o : Offer) (cur : SeqNo) (h : (cur - j.floor).toNat ≤ j.recs.length) :
    (cur - (j.append o).floor).toNat ≤ (j.append o).recs.length := by
  unfold Journal.floor Journal.append at *
  cases e : j.recs with
  | nil => simp [e, Journal.record] at h ⊢; omega
  | cons r rs => simp [e] at h ⊢; omega

/-- An offer keeps the journal sound (R85 to R88, R102). -/
theorem State.offer_journalOk (s : State) (o : Offer) (h : s.JournalOk) : (s.offer o).JournalOk := by
  have once : ∀ (u : State) (o : Offer), u.journal.Numbered → u.CursorsOk →
      (u.offerOnce o).journal.Numbered ∧ (u.offerOnce o).CursorsOk := by
    intro u o hn hc
    refine ⟨?_, fun p cur hp => ?_⟩
    · rw [State.offerOnce_journal]
      split
      · exact hn.append o
      · exact hn
    · have := hc p cur (by simpa using hp)
      rw [State.offerOnce_journal]
      split
      · exact u.journal.append_distance o cur this
      · exact this
  obtain ⟨hb, hn, hc⟩ := h
  obtain ⟨n1, c1⟩ := once s o hn hc
  refine ⟨s.offer_bounded o hb, ?_⟩
  rcases s.offer_cases o with ⟨e, -⟩ | ⟨-, e⟩ <;> rw [e]
  · exact ⟨n1, c1⟩
  · have := once ((s.offerOnce o).withJournal { (s.offerOnce o).journal with tallyMode := true, covered := 0 })
      (markOffer (s.offerOnce o).clock 4 0 (s.offerOnce o).journal.fill) n1
      (fun p cur hp => c1 p cur (by simpa using hp))
    exact ⟨this.1, fun p cur hp => this.2 p cur (by simpa [State.enterTally] using hp)⟩

/-- A sound journal through everything that a tick, a run, a load or a status clock does. -/
theorem Kept.of_journalOk : KeptAll State.JournalOk where
  grouping s x h := ⟨h.1, h.2.1, fun p cur hp => h.2.2 p cur (by simpa using hp)⟩
  rollup s x h := ⟨h.1, h.2.1, fun p cur hp => h.2.2 p cur (by simpa using hp)⟩
  run s x h := ⟨h.1, h.2.1, fun p cur hp => h.2.2 p cur (by simpa using hp)⟩
  post s src sect d h := ⟨h.1, h.2.1, fun p cur hp => h.2.2 p cur (by simpa using hp)⟩
  offer s o h := s.offer_journalOk o h
  endWait s p x n _ h :=
    ⟨by simpa using h.1, by simpa using h.2.1, fun q cur hq => by simpa using h.2.2 q cur (by simpa using hq)⟩
  tallies s j hr ha ht h := by
    refine ⟨Kept.of_journalBounded.tallies s j hr ha ht h.1, fun i hi => ?_, fun p cur hp => ?_⟩
    · have hi : i < j.recs.length := hi
      have hi' : i < s.journal.recs.length := hr ▸ hi
      have := h.2.1 i hi'
      simp only [State.withJournal_journal, hr, ha]
      simpa using this
    · have := h.2.2 p cur (by simpa using hp)
      simpa [Journal.floor, hr, ha] using this
  tallyOff s hf h := ⟨Kept.of_journalBounded.tallyOff s hf h.1, h.2.1, fun p cur hp => h.2.2 p cur (by simpa using hp)⟩
  intake s x h := ⟨h.1, h.2.1, fun p cur hp => h.2.2 p cur (by simpa using hp)⟩
  channels s x h := ⟨h.1, h.2.1, fun p cur hp => h.2.2 p cur (by simpa using hp)⟩
  status s x h := ⟨h.1, h.2.1, fun p cur hp => h.2.2 p cur (by simpa using hp)⟩

/-! ### Reclaim -/

/-- Reclaim removes no record at or after an attached cursor (R89). -/
theorem State.reclaimable_le (s : State) (p : Port) (cur : SeqNo) (h : (s.port p).cursor = some cur) :
    s.reclaimable ≤ (cur - s.journal.floor).toNat := by
  cases p
  · have : s.journal.before s.portA = some (cur - s.journal.floor).toNat := by
      have h : s.portA.cursor = some cur := h
      simp [Journal.before, h]
    unfold State.reclaimable
    rw [this]
    cases s.journal.before s.portB <;> simp
  · have : s.journal.before s.portB = some (cur - s.journal.floor).toNat := by
      have h : s.portB.cursor = some cur := h
      simp [Journal.before, h]
    unfold State.reclaimable
    rw [this]
    cases s.journal.before s.portA <;> simp

/-- Reclaim keeps the journal sound (R89). -/
theorem State.reclaim_journalOk (s : State) (h : s.JournalOk) : s.reclaim.JournalOk := by
  obtain ⟨hb, hn, hc⟩ := h
  have hl := hb.length_le
  have hn' : s.reclaim.journal.Numbered := hn.drop _
  refine ⟨s.reclaim_bounded hb, hn', fun p cur hp => ?_⟩
  have hp : (s.port p).cursor = some cur := by simpa [State.reclaim] using hp
  have h1 := s.reclaimable_le p cur hp
  have h2 := hc p cur hp
  rw [hn.floor_eq] at h1 h2
  rw [hn'.floor_eq, State.reclaim_recs, State.reclaim_appendPoint, List.length_drop]
  generalize s.reclaimable = k at *
  generalize s.journal.recs.length = n at *
  have e : cur - (s.journal.appendPoint - BitVec.ofNat 32 (n - k)) =
      cur - (s.journal.appendPoint - BitVec.ofNat 32 n) - BitVec.ofNat 32 k := by
    have : BitVec.ofNat 32 n = BitVec.ofNat 32 (n - k) + BitVec.ofNat 32 k := by
      rw [← BitVec.ofNat_add]; congr 1; omega
    rw [this]
    bv_omega
  rw [e]
  generalize cur - (s.journal.appendPoint - BitVec.ofNat 32 n) = d at *
  have := d.isLt
  rw [BitVec.toNat_sub_of_le (by rw [BitVec.le_def, BitVec.toNat_ofNat]; omega), BitVec.toNat_ofNat]
  omega

/-- A port attached within the journal, with the reclaim that follows (R89, R90). -/
theorem State.attach_journalOk (s : State) (p : Port) (cur : SeqNo) (h : s.JournalOk)
    (hc : (cur - s.journal.floor).toNat ≤ s.journal.recs.length) : (s.attach p cur).JournalOk := by
  refine State.reclaim_journalOk _ ⟨by simpa using h.1, by simpa using h.2.1, fun q c hq => ?_⟩
  by_cases e : q = p
  · subst e
    simp only [State.updPort_port, Option.some.injEq] at hq
    simpa [← hq] using hc
  · rw [s.updPort_port_ne _ e] at hq
    simpa using h.2.2 q c hq

/-- The append point lies within the journal: a cursor may stand there (R88). -/
theorem Journal.appendPoint_distance (j : Journal) (hb : j.Bounded) (hn : j.Numbered) :
    (j.appendPoint - j.floor).toNat ≤ j.recs.length := by
  have := hb.length_le
  rw [hn.floor_eq]
  have : j.appendPoint - (j.appendPoint - BitVec.ofNat 32 j.recs.length) = BitVec.ofNat 32 j.recs.length := by bv_omega
  rw [this, BitVec.toNat_ofNat]
  omega

end Sys2Proof.Machine
end

