-- ==== Sys2Proof/Laws/Commands.lean ====
section
/-! SUPPORT. One walk over the commands: a property that the operations of Laws/Kept.lean keep, and that the requests' own
changes keep (of a port, of the setup table, of a cursor, of a run clear), is kept by every command but the two of reset. -/

namespace Sys2Proof.Machine

/-- A property kept by the changes that requests and exchanges make beside those of a tick. -/
structure KeptCommands (P : State → Prop) : Prop extends KeptAll P where
  startExchange : ∀ s p, P s → P (s.updPort p PortState.startExchange)
  endExchange : ∀ s p bytes, P s → P (s.updPort p fun q => q.endExchange bytes)
  /-- A response placed at a port that holds no wait and has room for it. -/
  finish : ∀ s p x, (s.port p).wait = none → (s.port p).responses.length ≤ 3 → P s → P (State.finish (s, x) p)
  /-- A JOURNAL WAIT deferred at the head of its queue. -/
  defer : ∀ s p w, (s.port p).requests ≠ [] → (s.port p).responses.length ≤ 3 → P s →
    P (s.updPort p fun q => { q with wait := some w })
  manual : ∀ s p x, P s → P (s.updPort p fun q => { q with manual := x })
  filter : ∀ s p x y, P s → P (s.updPort p fun q => { q with kindMask := x, chanMask := y })
  noticesRead : ∀ s p, P s → P (s.updPort p fun q => { q with notices := [] })
  attach : ∀ s p cur, cur = s.journal.floor ∨ cur = s.journal.appendPoint → P s → P (s.attach p cur)
  /-- A cursor moved past records that stand before the append point. -/
  move : ∀ s p cur n, (s.port p).cursor = some cur → n ≤ (s.journal.recsFrom cur).length → P s →
    P (s.attach p (cur + BitVec.ofNat 32 n))
  detach : ∀ s p, P s → P (s.updPort p fun q => { q with cursor := none }).reclaim
  /-- A write that the four tests let through. -/
  write : ∀ s x start vs, writeFault x.code start vs = none → P s → P (s.withSetup (s.setup.write x start vs))
  locks : ∀ s d c, P s → P (s.withSetup { s.setup with lockDetection := d, lockCriteria := c })
  clearRun : ∀ s, P s → P s.clearRun

/-- All that a write can do to the state: nothing, or the write of values that no test refuses (R153 to R157). -/
theorem setupWriteBody_cases (r : Request) (s : State) :
    (setupWriteBody r s).1 = s ∨
      ∃ x start vs, writeFault x.code start vs = none ∧ (setupWriteBody r s).1 = (s.applyWrite x start vs).1 := by
  simp only [setupWriteBody]
  split
  · exact .inl rfl
  · split
    · exact .inl rfl
    · split
      · exact .inl rfl
      · split
        · exact .inl rfl
        · next x hf hx =>
          rw [(Sect.ofCode_eq_some _ x).1 hx] at hf
          exact .inr ⟨x, _, _, hf, rfl⟩
        · exact .inl rfl

theorem State.clearWait_port (s : State) (r p : Port) (hw : (s.port p).wait = none) :
    ((s.clearWait r).port p).wait = none ∧ ((s.clearWait r).port p).responses = (s.port p).responses := by
  unfold State.clearWait
  split
  · next h =>
    have hne : p ≠ r := by rintro rfl; simp [hw] at h
    have e : (s.endWait r .cleared 0).port p = s.port p := s.updPort_port_ne _ hne
    rw [e]
    exact ⟨hw, rfl⟩
  · exact ⟨hw, rfl⟩

/-- Run clear leaves the queues of a port that holds no wait alone. -/
theorem State.clearRun_port (s : State) (p : Port) (hw : (s.port p).wait = none) :
    (s.clearRun.port p).wait = none ∧ (s.clearRun.port p).responses = (s.port p).responses := by
  have ha := s.clearWait_port .a p hw
  have hb := (s.clearWait .a).clearWait_port .b p ha.1
  have upd : ∀ (u : State) (r : Port), ((u.updPort r PortState.runClear).port p).wait = (u.port p).wait ∧
      ((u.updPort r PortState.runClear).port p).responses = (u.port p).responses := by
    intro u r
    by_cases e : p = r
    · subst e; simp [PortState.runClear]
    · simp [u.updPort_port_ne _ e]
  have h1 := upd ((s.clearWait .a).clearWait .b) .a
  have h2 := upd (((s.clearWait .a).clearWait .b).updPort .a PortState.runClear) .b
  have posts : ∀ u : State, ((((u.clearJournal.clearRollup.withRun Run.reset).post .runState RunState.idle.code).clearLocks.port p).wait =
      (u.port p).wait) ∧
      ((((u.clearJournal.clearRollup.withRun Run.reset).post .runState RunState.idle.code).clearLocks.port p).responses =
        (u.port p).responses) := by
    intro u
    simp only [State.clearLocks, State.clearRollup, State.clearJournal]
    repeat' split
    all_goals simp
  have h3 := posts (((((((s.clearWait .a).clearWait .b).updPort .a PortState.runClear).updPort .b PortState.runClear)).withChannels
    (perChannel fun c => ((((((s.clearWait .a).clearWait .b).updPort .a PortState.runClear).updPort .b PortState.runClear)).chan c).runClear)).withGrouping
      ((((((s.clearWait .a).clearWait .b).updPort .a PortState.runClear).updPort .b PortState.runClear)).grouping.runClear))
  unfold State.clearRun
  refine ⟨h3.1.trans ?_, h3.2.trans ?_⟩
  · simp only [State.withGrouping_port, State.withChannels_port]
    rw [h2.1, h1.1, hb.1]
  · simp only [State.withGrouping_port, State.withChannels_port]
    rw [h2.2, h1.2, hb.2, ha.2]

theorem KeptAll.frame {P : State → Prop} (h : KeptAll P) (s : State) (ws : List Word16) (hs : P s) : P (s.frame ws) := by
  unfold State.frame
  repeat' split
  · exact hs
  · exact h.intake _ _ hs
  · exact h.evaluate _ _ (h.intake _ _ hs)

theorem KeptAll.startRun {P : State → Prop} (h : KeptAll P) (s : State) (hs : P s) : P s.startRun :=
  h.post _ _ _ _ (h.offer _ _ (h.channels _ _ (h.firstInterval _ _ (h.run _ _ hs))))

section Built

variable {P : State → Prop} (h : KeptCommands P)
include h

/-- A request whose effect keeps the property and leaves the port ready for its response. -/
theorem KeptCommands.serve (s : State) (p : Port) (code : Nat) (body : Request → State → State × Reply) (hs : P s)
    (hb : ∀ r, P (body r s).1)
    (hq : ∀ r q rs, (s.port p).wait = none ∧ (s.port p).requests = q ∧ (s.port p).responses = rs →
      ((body r s).1.port p).wait = none ∧ ((body r s).1.port p).responses = rs) : P (s.serve p code body) := by
  rcases s.serve_cases p code body with e | ⟨r, hr, e⟩ <;> rw [e]
  · exact hs
  · obtain ⟨hw, hl, rest, hreq⟩ := State.ready_some hr
    obtain ⟨w, rs⟩ := hq r _ _ ⟨hw, hreq, rfl⟩
    exact h.finish _ _ _ w (by rw [rs]; exact hl) (hb r)

/-- A request that changes nothing but its answer. -/
theorem KeptCommands.serve_same (s : State) (p : Port) (code : Nat) (body : Request → State → State × Reply) (hs : P s)
    (hb : ∀ r, (body r s).1 = s) : P (s.serve p code body) :=
  h.serve s p code body hs (fun r => by rw [hb]; exact hs) fun r q rs hq => by rw [hb]; exact ⟨hq.1, hq.2.2⟩

/-- A request whose effect is made of the operations of Laws/Kept.lean. -/
theorem KeptCommands.serve_built (s : State) (p : Port) (code : Nat) (body : Request → State → State × Reply) (hs : P s)
    (hb : ∀ {Q : State → Prop}, KeptAll Q → Q s → ∀ r, Q (body r s).1) : P (s.serve p code body) :=
  h.serve s p code body hs (hb h.toKeptAll hs) fun r q rs hq => by
    have := hb (Kept.of_queue p q rs) hq r
    exact ⟨this.1, this.2.2⟩

theorem KeptCommands.channelEvent (s : State) (c : ChanId) (r : Channel × Option Report) (hs : P s) : P (s.channelEvent c r) :=
  h.takeReports _ _ (h.withChan _ _ _ hs)

/-- The read of a port keeps the property and leaves the port's wait and queues alone. -/
theorem KeptCommands.read (s : State) (p : Port) (cur : SeqNo) (n : Nat) (hc : (s.port p).cursor = some cur) (hs : P s) :
    P (s.read p cur n).1 ∧ ((s.read p cur n).1.port p).wait = (s.port p).wait ∧
      ((s.read p cur n).1.port p).responses = (s.port p).responses := by
  have moved : ∀ k, k ≤ (s.journal.recsFrom cur).length → P (s.moveCursor p cur k) ∧
      ((s.moveCursor p cur k).port p).wait = (s.port p).wait ∧ ((s.moveCursor p cur k).port p).responses = (s.port p).responses := by
    intro k hk
    unfold State.moveCursor
    split
    · exact ⟨hs, rfl, rfl⟩
    · exact ⟨h.move s p cur k hc hk hs, by simp [State.attach], by simp [State.attach]⟩
  simp only [State.read]
  split
  · exact ⟨hs, rfl, rfl⟩
  · exact moved _ (walk_moved_le _ _ _)

/-- The end of a cycle keeps the property. -/
theorem KeptCommands.cycleEnd (s : State) (hs : P s) : P s.cycleEnd := by
  simp only [State.cycleEnd]
  split
  · next spent held _ =>
    rcases Bool.eq_false_or_eq_true (s.stopEnds spent held) with e | e <;> rw [e]
    · exact h.completeCycle s _ hs
    · exact hs
  all_goals exact hs

/-- Every command but full reset and the release of RESETn keeps the property. -/
theorem KeptCommands.exec (c : Instr) (s t : State) (hc : (∀ cause, c ≠ .fullReset cause) ∧ c ≠ .resetRelease) (hs : P s)
    (he : exec c s = .next t) : P t := by
  have rel : ∀ f : State → State, P (f s) → P (s.whileReleased f) := by
    intro f hf
    unfold State.whileReleased
    split
    · exact hs
    · exact hf
  have go : ∀ u : State, (Host.Outcome.next u : Answer) = .next t → P u → P t := by
    intro u e hu; cases e; exact hu
  cases c with
  | fullReset cause => exact absurd rfl (hc.1 cause)
  | resetRelease => exact absurd rfl hc.2
  | partialFrame w => exact go _ he (rel _ (h.intake _ _ hs))
  | frame ws => exact go _ he (rel _ (h.frame _ _ hs))
  | clockWrap =>
    refine go _ he (rel _ ?_)
    split
    · exact h.wrapClock _ hs
    · exact hs
  | faultArrival c => exact go _ he (rel _ (h.channelEvent _ _ _ hs))
  | faultCleared c => exact go _ he (rel _ (h.withChan _ _ _ hs))
  | peakFreeze c => exact go _ he (rel _ (h.withChan _ _ _ hs))
  | glitch c => exact go _ he (rel _ (h.channelEvent _ _ _ hs))
  | hitEnd c => exact go _ he (rel _ (h.channelEvent _ _ _ hs))
  | hitTrunc c => exact go _ he (rel _ (h.channelEvent _ _ _ hs))
  | lockoutEnd c => exact go _ he (rel _ (h.withChan _ _ _ hs))
  | windowClose => exact go _ he (rel _ (h.grouping _ _ hs))
  | groupLockoutEnd => exact go _ he (rel _ (h.grouping _ _ hs))
  | evidenceLapse => exact go _ he (rel _ (h.evidenceLapse _ hs))
  | postWindowEnd => exact go _ he (rel _ (h.postWindowEnd _ hs))
  | waitSatisfied p =>
    refine go _ he (rel _ ?_)
    unfold State.waitSatisfied
    split
    · exact hs
    · next w hw =>
      split
      · exact h.endWait _ _ _ _ (by simp [hw]) hs
      · exact hs
  | waitTimeout p => exact go _ he (rel _ (h.waitTimeout _ _ hs))
  | rollup => exact go _ he (rel _ (h.rollupAtTick _ hs))
  | loadStale => exact go _ he (rel _ (h.staleCheck _ hs))
  | statusCycleStart => exact go _ he (rel _ (h.startCycle _ hs))
  | nodeStart => exact go _ he (rel _ (h.nodeStart _ hs))
  | statusCycleEnd => exact go _ he (rel _ (h.cycleEnd _ hs))
  | cycleAbort =>
    refine go _ he (rel _ ?_)
    unfold State.cycleAbort
    split
    · exact h.abortCycle _ hs
    · exact hs
  | exchangeStart p => exact go _ he (rel _ (h.startExchange _ _ hs))
  | exchangeEnd p bytes => exact go _ he (rel _ (h.endExchange _ _ _ hs))
  | unknown p =>
    refine go _ he (rel _ ?_)
    split
    · exact hs
    · next r hr =>
      obtain ⟨hw, hl, -⟩ := State.ready_some hr
      split
      · exact h.finish _ _ _ hw hl hs
      · exact hs
  | length p =>
    refine go _ he (rel _ ?_)
    split
    · exact hs
    · next r hr =>
      obtain ⟨hw, hl, -⟩ := State.ready_some hr
      split
      · exact h.finish _ _ _ hw hl hs
      · exact hs
  | identify p => exact go _ he (rel _ (h.serve_same _ _ _ _ hs fun _ => rfl))
  | statusRead p => exact go _ he (rel _ (h.serve_same _ _ _ _ hs fun _ => rfl))
  | clockRead p => exact go _ he (rel _ (h.serve_same _ _ _ _ hs fun _ => rfl))
  | channelPeek p => exact go _ he (rel _ (h.serve_same _ _ _ _ hs fun _ => rfl))
  | setupRead p => exact go _ he (rel _ (h.serve_same _ _ _ _ hs fun _ => rfl))
  | setupWrite p =>
    refine go _ he (rel _ (h.serve _ _ _ _ hs (fun r => ?_) fun r q rs hq => ?_))
    · rcases setupWriteBody_cases r s with e | ⟨x, start, vs, hf, e⟩ <;> rw [e]
      · exact hs
      · exact h.post _ _ _ _ (h.write _ _ _ _ hf hs)
    · rcases setupWriteBody_cases r s with e | ⟨x, start, vs, -, e⟩ <;> rw [e]
      · exact ⟨hq.1, hq.2.2⟩
      · simp [State.applyWrite, hq.1, hq.2.2]
  | setupLock p =>
    refine go _ he (rel _ (h.serve _ _ _ _ hs (fun r => ?_) fun r q rs hq => ?_))
    · simp only [setupLockBody]
      repeat' split
      all_goals first
        | exact hs
        | exact h.locks _ _ _ hs
        | exact h.post _ _ _ _ (h.locks _ _ _ hs)
    · simp only [setupLockBody]
      repeat' split
      all_goals simp [hq.1, hq.2.2]
  | runStart p =>
    refine go _ he (rel _ (h.serve_built _ _ _ _ hs fun k hk r => ?_))
    unfold runStartBody
    split
    · exact k.startRun _ hk
    · exact hk
  | runStop p =>
    refine go _ he (rel _ (h.serve_built _ _ _ _ hs fun k hk r => ?_))
    unfold runStopBody
    split
    · exact k.close _ _ hk
    · exact hk
  | runClear p =>
    refine go _ he (rel _ (h.serve _ _ _ _ hs (fun r => ?_) fun r q rs hq => ?_))
    · unfold runClearBody
      split
      · exact hs
      · exact h.clearRun _ hs
    · unfold runClearBody
      split
      · exact ⟨hq.1, hq.2.2⟩
      · exact ⟨(s.clearRun_port p hq.1).1, (s.clearRun_port p hq.1).2.trans hq.2.2⟩
  | ruptureDeclare p =>
    refine go _ he (rel _ (h.serve_built _ _ _ _ hs fun k hk r => ?_))
    unfold ruptureDeclareBody
    split
    · exact k.declareNow _ _ _ hk
    all_goals exact hk
  | loadPost p =>
    refine go _ he (rel _ (h.serve_built _ _ _ _ hs fun k hk r => ?_))
    simp only [loadPostBody]
    split
    · exact hk
    · exact k.postLoad _ _ _ hk
  | hold p =>
    refine go _ he (rel _ (h.serve _ _ _ _ hs (fun r => ?_) fun r q rs hq => ?_))
    · unfold holdBody
      split
      · exact hs
      · exact h.manual _ _ _ hs
    · unfold holdBody
      split <;> simp [hq.1, hq.2.2]
  | journalAttach p =>
    refine go _ he (rel _ (h.serve _ _ _ _ hs (fun r => ?_) fun r q rs hq => ?_))
    · unfold journalAttachBody
      split
      · exact hs
      · split
        · exact hs
        · next cur hcur =>
          refine h.attach _ _ _ ?_ hs
          unfold Journal.attachCursor at hcur
          split at hcur <;> simp_all
    · unfold journalAttachBody
      repeat' split
      all_goals simp [State.attach, hq.1, hq.2.2]
  | journalDetach p =>
    refine go _ he (rel _ (h.serve _ _ _ _ hs (fun r => h.detach _ _ hs) fun r q rs hq => ?_))
    simp [journalDetachBody, hq.1, hq.2.2]
  | journalFilter p =>
    refine go _ he (rel _ (h.serve _ _ _ _ hs (fun r => ?_) fun r q rs hq => ?_))
    · simp only [journalFilterBody]
      split
      · exact hs
      · exact h.filter _ _ _ _ hs
    · simp only [journalFilterBody]
      split <;> simp [hq.1, hq.2.2]
  | journalRead p =>
    refine go _ he (rel _ (h.serve _ _ _ _ hs (fun r => ?_) fun r q rs hq => ?_))
    · unfold journalReadBody
      split
      · exact hs
      · next cur hcur =>
        repeat' split
        all_goals first
          | exact hs
          | exact (h.read _ _ _ _ hcur hs).1
    · unfold journalReadBody
      split
      · exact ⟨hq.1, hq.2.2⟩
      · next cur hcur =>
        repeat' split
        all_goals first
          | exact ⟨hq.1, hq.2.2⟩
          | exact ⟨(h.read _ _ _ _ hcur hs).2.1.trans hq.1, (h.read _ _ _ _ hcur hs).2.2.trans hq.2.2⟩
  | journalWait p =>
    refine go _ he (rel _ ?_)
    split
    · exact hs
    · next r hr =>
      obtain ⟨hw, hl, rest, hreq⟩ := State.ready_some hr
      split
      · unfold State.waitRequest
        repeat' split
        all_goals first
          | exact h.finish _ _ _ hw hl hs
          | exact h.defer _ _ _ (by simp [hreq]) hl hs
      · exact hs
  | noticesRead p =>
    refine go _ he (rel _ (h.serve _ _ _ _ hs (fun r => h.noticesRead _ _ hs) fun r q rs hq => ?_))
    simp [noticesReadBody, hq.1, hq.2.2]
  | statusClock l => exact go _ he (rel _ (h.statusTick _ _ hs))

end Built

end Sys2Proof.Machine
end

