-- ==== Sys2Proof/Laws/Grouping.lean ====
section
/-! SUPPORT. The grouping engine's lists: sorting by a key, the OPEN group at the tail, and what each stage does to a sound list
(R59 to R72), with the interval counters of an emitted group (R76, R113). -/

namespace Sys2Proof.Machine

/-! ### Sorting -/

theorem insertByKey_perm {α : Type} (key : α → Nat) (x : α) (l : List α) : (insertByKey key x l).Perm (x :: l) := by
  induction l with
  | nil => rfl
  | cons y ys ih =>
    simp only [insertByKey]
    split
    · rfl
    · exact (ih.cons y).trans (List.Perm.swap x y ys)

theorem insertByKey_sorted {α : Type} (key : α → Nat) (x : α) (l : List α) (h : l.Pairwise fun a b => key a ≤ key b) :
    (insertByKey key x l).Pairwise fun a b => key a ≤ key b := by
  induction l with
  | nil => simp [insertByKey]
  | cons y ys ih =>
    rw [List.pairwise_cons] at h
    simp only [insertByKey]
    split
    · next hx =>
      refine List.pairwise_cons.2 ⟨fun z hz => ?_, List.pairwise_cons.2 h⟩
      rcases List.mem_cons.1 hz with rfl | hz
      · omega
      · have := h.1 z hz; omega
    · next hx =>
      refine List.pairwise_cons.2 ⟨fun z hz => ?_, ih h.2⟩
      rcases List.mem_cons.1 ((insertByKey_perm key x ys).mem_iff.1 hz) with rfl | hz
      · omega
      · exact h.1 z hz

/-- A sorted list holds the same items, in ascending order of the key. -/
theorem sortByKey_spec {α : Type} (key : α → Nat) (xs : List α) :
    (sortByKey key xs).Perm xs ∧ (sortByKey key xs).Pairwise fun a b => key a ≤ key b := by
  have : ∀ (xs acc : List α), (acc.Pairwise fun a b => key a ≤ key b) →
      (xs.foldl (fun s x => insertByKey key x s) acc).Perm (xs ++ acc) ∧
        (xs.foldl (fun s x => insertByKey key x s) acc).Pairwise fun a b => key a ≤ key b := by
    intro xs
    induction xs with
    | nil => exact fun acc h => ⟨List.Perm.refl _, h⟩
    | cons x xs ih =>
      intro acc h
      obtain ⟨a, b⟩ := ih _ (insertByKey_sorted key x acc h)
      exact ⟨(a.trans ((insertByKey_perm key x acc).append_left xs)).trans List.perm_middle, b⟩
  simpa [sortByKey] using this xs [] List.Pairwise.nil

/-! ### The OPEN group -/

/-- With no OPEN group in the list there is none to find. -/
theorem Grouping.openGroup_none (x : Grouping) (h : ∀ g ∈ x.groups, g.isOpen = false) : x.openGroup = none := by
  simpa [Grouping.openGroup] using h

/-- The OPEN group is the tail behind groups that are all SETTLING. -/
theorem Grouping.openGroup_tail (x : Grouping) (older : List Group) (g : Group) (h : x.groups = older ++ [g])
    (ho : ∀ y ∈ older, y.isOpen = false) (hg : g.isOpen = true) : x.openGroup = some g := by
  rw [Grouping.openGroup, h, List.find?_append, List.find?_eq_none.2 (by simpa using ho)]
  simp [hg]

/-- A change of the OPEN group alone is a change of the tail. -/
theorem map_open_tail (older : List Group) (g : Group) (f : Group → Group) (ho : ∀ y ∈ older, y.isOpen = false)
    (hg : g.isOpen = true) : ((older ++ [g]).map fun x => if x.isOpen then f x else x) = older ++ [f g] := by
  have : older.map (fun x => if x.isOpen then f x else x) = older := by
    conv_rhs => rw [← List.map_id older]
    exact List.map_congr_left fun y hy => by simp [ho y hy]
  rw [List.map_append, this]
  simp [hg]

/-! ### A sound list through the stages -/

/-- A change of members that leaves none of the groups empty, and neither opens nor adds a group, keeps the list sound. -/
theorem Grouping.Ok.map {x : Grouping} (h : x.Ok) (f : Group → Group) (y : Grouping) (hy : y.groups = x.groups.map f)
    (hl : y.lockout = x.lockout) (hm : ∀ g ∈ x.groups, (f g).members ≠ []) (ho : ∀ g, (f g).isOpen = g.isOpen) : y.Ok := by
  obtain ⟨h1, h2, h3, h4⟩ := h
  refine ⟨by simpa [hy] using h1, ?_, ?_, ?_⟩
  · rw [hy]; intro g hg; obtain ⟨g', hg', rfl⟩ := List.mem_map.1 hg; exact hm g' hg'
  · rw [hy, List.map_dropLast.symm]; intro g hg; obtain ⟨g', hg', rfl⟩ := List.mem_map.1 hg; rw [ho]; exact h3 g' hg'
  · rw [hy, hl]; intro hn g hg; obtain ⟨g', hg', rfl⟩ := List.mem_map.1 hg; rw [ho]; exact h4 hn g' hg'

/-- A list with the placements, the working parameters or nothing else changed. -/
theorem Grouping.Ok.same {x y : Grouping} (h : x.Ok) (hg : y.groups = x.groups) (hl : y.lockout = x.lockout) : y.Ok := by
  obtain ⟨h1, h2, h3, h4⟩ := h
  exact ⟨by rwa [hg], by rwa [hg], by rwa [hg], by rwa [hg, hl]⟩

/-- The tail of a sound list is sound: an emission takes the head (R71). -/
theorem Grouping.Ok.tail {x y : Grouping} {g : Group} (h : x.Ok) (hg : x.groups = g :: y.groups) (hl : y.lockout = x.lockout) :
    y.Ok := by
  obtain ⟨h1, h2, h3, h4⟩ := h
  rw [hg] at h1 h2 h3 h4
  refine ⟨by simp at h1; omega, fun z hz => h2 z (by simp [hz]), fun z hz => h3 z ?_, fun hn z hz => h4 (by rwa [← hl]) z (by simp [hz])⟩
  cases e : y.groups with
  | nil => simp [e] at hz
  | cons a as => simp only [List.dropLast_cons_cons, List.mem_cons]; exact .inr (e ▸ hz)

/-! ### The interval counters of an emitted group -/

/-- The hits of a group, counted one after another, are counted together. -/
theorem Rollup.foldl_countHit (w : AcParams) (l : List Features) (r : Rollup) (hw : r.work = some w)
    (h1 : r.counters.hits ≤ 4294967295) (h2 : r.counters.energy ≤ 4294967295) (h3 : r.counters.high ≤ 4294967295) :
    l.foldl Rollup.countHit r =
      { r with
        counters :=
          { r.counters with
            hits := min 4294967295 (r.counters.hits + l.length)
            energy := min 4294967295 (r.counters.energy + (l.map Features.energy).sum)
            high := min 4294967295 (r.counters.high + l.countP fun f => w.ha ≤ f.amp) } } := by
  induction l generalizing r with
  | nil => simp [h1, h2, h3]
  | cons f l ih =>
    rw [List.foldl_cons, ih _ (by simpa [Rollup.countHit] using hw) (by simp [Rollup.countHit, satAdd])
      (by simp [Rollup.countHit, satAdd]) (by simp [Rollup.countHit, satAdd])]
    simp only [Rollup.countHit, satAdd, Config.max32, List.length_cons, List.map_cons, List.sum_cons, List.countP_cons,
      Rollup.isHigh, hw]
    congr 2
    · omega
    · omega
    · by_cases h : w.ha ≤ f.amp <;> simp [h] <;> omega

end Sys2Proof.Machine
end

