-- ==== Sys2Proof/Laws/Placements.lean ====
section
/-! SUPPORT. The grouping engine follows the channels: what each report, each start, each stage and the flush do to the agreement
of placements and members with what the channels have in progress (R60 to R71, R79, R80). -/

namespace Sys2Proof.Machine

open Function (update)

/-! ### What a report says of its channel -/

/-- The channel that makes a report. -/
def Report.ch : Report → ChanId
  | .started c _ _ _ | .confirmed c | .withdrawn c _ | .completed c _ => c

/-- What the channel has in progress when it makes the report. -/
def Report.before : Report → InProgress
  | .started _ _ _ _ => .nothing
  | .confirmed _ | .withdrawn _ _ => .candidate
  | .completed _ _ => .hit

/-- What the channel has in progress after the report. -/
def Report.after : Report → InProgress
  | .started _ _ _ once => if once then .hit else .candidate
  | .confirmed _ => .hit
  | .withdrawn _ _ | .completed _ _ => .nothing

/-- What the engine knows to be in progress after the first stage: a start is left to the second (R60). -/
def Report.taken : Report → InProgress
  | .started _ _ _ _ => .nothing
  | .confirmed _ => .hit
  | .withdrawn _ _ | .completed _ _ => .nothing

/-- A handling of one channel reports what it changes and changes nothing unreported. -/
def Reported (c : ChanId) (old : ChState) (r : Channel × Option Report) : Prop :=
  match r.2 with
  | none => r.1.st.inProgress = old.inProgress
  | some x => x.ch = c ∧ x.before = old.inProgress ∧ x.after = r.1.st.inProgress

/-! ### Follows under the changes of the engine -/

namespace Grouping.Follows

variable {x y : Grouping} {w : ChanId → InProgress}

/-- The lockout, the working parameters, a window close and the order of the list play no part. -/
theorem map (h : x.Follows w) (f : Group → Group) (hf : ∀ g, (f g).members = g.members) (hy : y.groups = x.groups.map f)
    (hp : y.placement = x.placement) : y.Follows w := by
  obtain ⟨h1, h2, h3⟩ := h
  refine ⟨by rw [hp]; exact h1, ?_, ?_⟩
  · rw [hy, hp]
    intro g hg m hm
    obtain ⟨g', hg', rfl⟩ := List.mem_map.1 hg
    exact h2 g' hg' m (hf g' ▸ hm)
  · rw [hy, hp]
    intro c hc
    obtain ⟨g, hg, m, hm, e⟩ := h3 c hc
    exact ⟨f g, List.mem_map_of_mem hg, m, hf g ▸ hm, e⟩

theorem same (h : x.Follows w) (hg : y.groups = x.groups) (hp : y.placement = x.placement) : y.Follows w :=
  h.map id (fun _ => rfl) (by simpa using hg) hp

/-- A channel that has nothing in progress stands for no PENDING or ACTIVE member. -/
theorem idle (h : x.Follows w) {c : ChanId} (hc : w c = .nothing) {g : Group} (hg : g ∈ x.groups) {m : Member}
    (hm : m ∈ g.members) (e : m.ch = c) : m.st.awaits = .nothing := by
  by_contra hn
  have := (h.2.1 g hg m hm hn).1
  rw [e, hc] at this
  exact hn this

/-- A change of the members of one channel, whose placement becomes or stays as its work says. -/
theorem members (h : x.Follows w) (c : ChanId) (now : InProgress) (pl : Placement)
    (hp : y.placement = x.placement.set c pl) (hpl : pl = .none ↔ now = .nothing)
    (there : ∀ g ∈ y.groups, ∀ m ∈ g.members, m.st.awaits ≠ .nothing →
      (m.ch = c → m.st.awaits = now ∧ pl = .grouped) ∧ (m.ch ≠ c → ∃ g' ∈ x.groups, m ∈ g'.members))
    (kept : ∀ g ∈ x.groups, ∀ m ∈ g.members, m.ch ≠ c → m.st.awaits ≠ .nothing → ∃ g' ∈ y.groups, m ∈ g'.members)
    (mine : pl = .grouped → ∃ g ∈ y.groups, ∃ m ∈ g.members, m.ch = c ∧ m.st.awaits ≠ .nothing) :
    y.Follows (update w c now) := by
  have get : ∀ d : ChanId, d ≠ c → y.placement[d] = x.placement[d] := by
    intro d hd
    have : c.val ≠ d.val := fun e => hd (Fin.ext e.symm)
    simp [hp, this]
  have self : y.placement[c] = pl := by simp [hp]
  refine ⟨fun d => ?_, fun g hg m hm hn => ?_, fun d hd => ?_⟩
  · by_cases e : d = c
    · subst e; rw [self, Function.update_self]; exact hpl
    · rw [get d e, Function.update_of_ne e]; exact h.1 d
  · obtain ⟨a, b⟩ := there g hg m hm hn
    by_cases e : m.ch = c
    · subst e
      rw [self, Function.update_self]; exact a rfl
    · obtain ⟨g', hg', hm'⟩ := b e
      rw [get m.ch e, Function.update_of_ne e]; exact h.2.1 g' hg' m hm' hn
  · by_cases e : d = c
    · subst e; exact mine (self ▸ hd)
    · rw [get d e] at hd
      obtain ⟨g, hg, m, hm, hc, hn⟩ := h.2.2 d hd
      obtain ⟨g', hg', hm'⟩ := kept g hg m hm (by rw [hc]; exact e) hn
      exact ⟨g', hg', m, hm', hc, hn⟩

/-- The placement of a channel without members changes (R64, R67, R70). -/
theorem place (h : x.Follows w) (c : ChanId) (now : InProgress) (pl : Placement) (hg : pl ≠ .grouped)
    (hpl : pl = .none ↔ now = .nothing) (old : x.placement[c] ≠ .grouped) : (x.place c pl).Follows (update w c now) := by
  refine h.members c now pl rfl hpl (fun g hx m hm hn => ⟨fun e => ?_, fun _ => ⟨g, hx, hm⟩⟩) (fun g hx m hm _ _ => ⟨g, hx, hm⟩)
    (fun e => absurd e hg)
  exact absurd (e ▸ (h.2.1 g hx m hm hn).2) old

/-- A start without an OPEN group to join it is placed with the work it has begun (R64, R67). -/
theorem placeStart (h : x.Follows w) (st : Start) (why : Reason) (hw : w st.ch = .nothing) :
    (x.place st.ch (.ungrouped why)).Follows (update w st.ch (if st.confirmed then .hit else .candidate)) := by
  refine h.place st.ch _ (.ungrouped why) nofun ?_ ?_
  · split <;> simp
  · rw [(h.1 st.ch).2 hw]; nofun

/-- A start joins the OPEN group (R64). -/
theorem join (h : x.Follows w) (st : Start) (hw : w st.ch = .nothing) (ho : x.openGroup.isSome = true) :
    (x.join st).Follows (update w st.ch (if st.confirmed then .hit else .candidate)) := by
  have self : st.member.st.awaits = if st.confirmed then InProgress.hit else .candidate := by
    unfold Start.member; cases st.confirmed <;> rfl
  obtain ⟨o, ho⟩ := Option.isSome_iff_exists.1 ho
  have hmem : o ∈ x.groups := List.mem_of_find?_eq_some ho
  have hopen : o.isOpen = true := by simpa using List.find?_some ho
  refine h.members st.ch _ .grouped rfl (by split <;> simp) (fun g hg m hm hn => ?_) (fun g hg m hm _ _ => ?_) fun _ => ?_
  · obtain ⟨g', hg', rfl⟩ := List.mem_map.1 hg
    have : m ∈ g'.members ∨ m = st.member := by
      split at hm
      · simpa using hm
      · exact .inl hm
    rcases this with hm' | rfl
    · exact ⟨fun e => absurd (h.idle hw hg' hm' e) hn, fun _ => ⟨g', hg', hm'⟩⟩
    · exact ⟨fun _ => ⟨self, rfl⟩, fun e => absurd rfl e⟩
  · refine ⟨_, List.mem_map_of_mem hg, ?_⟩
    split
    · simp [hm]
    · exact hm
  · refine ⟨_, List.mem_map_of_mem hmem, st.member, ?_, rfl, ?_⟩
    · simp [hopen]
    · rw [self]; split <;> simp

/-- A start opens a group (R68). -/
theorem openWith (h : x.Follows w) (st : Start) (gr : GrParams) (hw : w st.ch = .nothing) :
    (x.openWith st gr).Follows (update w st.ch (if st.confirmed then .hit else .candidate)) := by
  have self : st.member.st.awaits = if st.confirmed then InProgress.hit else .candidate := by
    unfold Start.member; cases st.confirmed <;> rfl
  refine h.members st.ch _ .grouped rfl (by split <;> simp) (fun g hg m hm hn => ?_)
    (fun g hg m hm _ _ => ⟨g, by simp [Grouping.openWith, hg], hm⟩) fun _ => ?_
  · simp only [Grouping.openWith, List.mem_append, List.mem_singleton] at hg
    rcases hg with hg | rfl
    · exact ⟨fun e => absurd (h.idle hw hg hm e) hn, fun _ => ⟨g, hg, hm⟩⟩
    · obtain rfl : m = st.member := by simpa using hm
      exact ⟨fun _ => ⟨self, rfl⟩, fun e => absurd rfl e⟩
  · refine ⟨_, by simp only [Grouping.openWith, List.mem_append, List.mem_singleton]; exact .inr rfl, st.member, by simp, rfl, ?_⟩
    rw [self]; split <;> simp

/-- The members of a channel turned from one state to another in place. -/
theorem turn (h : x.Follows w) (c : ChanId) (now : InProgress) (pl : Placement) (test : Member → Bool) (st : MemberState)
    (ht : ∀ m, test m = true ↔ m.ch = c ∧ m.st.awaits = w c) (hs : st.awaits = now)
    (hpl : pl = .none ↔ now = .nothing)
    (hgr : pl = .grouped ↔ now ≠ .nothing) (old : x.placement[c] = .grouped) :
    ({ x with groups := updMembers test (fun m => { m with st := st }) x.groups, placement := x.placement.set c pl } :
      Grouping).Follows (update w c now) := by
  have back : ∀ g ∈ updMembers test (fun m => { m with st := st }) x.groups, ∀ m ∈ g.members,
      ∃ g' ∈ x.groups, ∃ m' ∈ g'.members, m = if test m' then { m' with st := st } else m' := by
    intro g hg m hm
    obtain ⟨g', hg', rfl⟩ := List.mem_map.1 hg
    obtain ⟨m', hm', rfl⟩ := List.mem_map.1 hm
    exact ⟨g', hg', m', hm', rfl⟩
  have forth : ∀ g ∈ x.groups, ∀ m ∈ g.members, ∃ g' ∈ updMembers test (fun m => { m with st := st }) x.groups,
      (if test m then { m with st := st } else m) ∈ g'.members := by
    intro g hg m hm
    exact ⟨_, List.mem_map_of_mem hg, List.mem_map_of_mem hm⟩
  refine h.members c now pl rfl hpl (fun g hg m hm hn => ?_) (fun g hg m hm hne hn => ?_) fun e => ?_
  · obtain ⟨g', hg', m', hm', rfl⟩ := back g hg m hm
    by_cases q : test m' = true
    · simp only [q, if_true] at hn ⊢
      rw [hs] at hn
      exact ⟨fun _ => ⟨hs, hgr.2 hn⟩, fun e => absurd ((ht m').1 q).1 e⟩
    · simp only [q, Bool.false_eq_true, if_false] at hn ⊢
      refine ⟨fun e => ?_, fun _ => ⟨g', hg', hm'⟩⟩
      exact absurd ((ht m').2 ⟨e, e ▸ (h.2.1 g' hg' m' hm' hn).1⟩) q
  · obtain ⟨g', hg', hm'⟩ := forth g hg m hm
    have q : ¬ test m = true := fun q => hne ((ht m).1 q).1
    rw [if_neg q] at hm'
    exact ⟨g', hg', hm'⟩
  · obtain ⟨g, hg, m, hm, hc, hn⟩ := h.2.2 c old
    obtain ⟨g', hg', hm'⟩ := forth g hg m hm
    have q : test m = true := (ht m).2 ⟨hc, hc ▸ (h.2.1 g hg m hm hn).1⟩
    rw [if_pos q] at hm'
    exact ⟨g', hg', _, hm', hc, by rw [hs]; exact hgr.1 e⟩

/-- A withdrawn member leaves, and a group it empties (R62). -/
theorem withdraw (h : x.Follows w) (c : ChanId) (hw : w c = .candidate) :
    ((x.withdraw c).place c .none).Follows (update w c .nothing) := by
  refine h.members c .nothing .none rfl (by simp) (fun g hg m hm hn => ?_) (fun g hg m hm hne hn => ?_) nofun
  · obtain ⟨hg, -⟩ := List.mem_filter.1 hg
    obtain ⟨g', hg', rfl⟩ := List.mem_map.1 hg
    obtain ⟨hm', q⟩ := List.mem_filter.1 hm
    refine ⟨fun e => ?_, fun _ => ⟨g', hg', hm'⟩⟩
    have := (h.2.1 g' hg' m hm' hn).1
    rw [e, hw] at this
    have : m.st = .pending := by cases hs : m.st <;> simp_all [MemberState.awaits]
    simp [e, this] at q
  · have keep : m ∈ g.members.filter fun m => !(m.ch = c && m.st = .pending) := by
      simp [List.mem_filter, hm, hne]
    refine ⟨_, List.mem_filter.2 ⟨List.mem_map_of_mem hg, ?_⟩, keep⟩
    have : (g.members.filter fun m => !(m.ch = c && m.st = .pending)) ≠ [] := List.ne_nil_of_mem keep
    simpa using this

end Grouping.Follows

/-! ### The first stage -/

/-- A report that its channel's work allows is taken (R61, R62, R70). -/
theorem State.takeReport_follows (s : State) (r : Report) (w : ChanId → InProgress) (h : s.grouping.Follows w)
    (hb : r.before = w r.ch) : (s.takeReport r).grouping.Follows (update w r.ch r.taken) := by
  cases r with
  | started c a k b =>
    have : update w c .nothing = w := by rw [show InProgress.nothing = w c from hb, Function.update_eq_self]
    simpa [State.takeReport, Report.ch, Report.taken, this] using h
  | confirmed c =>
    have hb : .candidate = w c := hb
    simp only [State.takeReport, Report.ch, Report.taken]
    cases e : s.grouping.placement[c] with
    | none => have := (h.1 c).1 e; rw [← hb] at this; cases this
    | grouped =>
      have := h.turn c .hit .grouped (fun m => m.ch = c && m.st = .pending) .active (fun m => ?_) rfl (by simp)
        (by simp) e
      · refine this.same rfl ?_
        simp only [State.withGrouping_grouping, Grouping.confirm]
        rw [← e]; simp
      · cases q : m.st <;> simp [MemberState.awaits, ← hb]
    | ungrouped why =>
      have := h.place c .hit (.ungrouped why) nofun (by simp) (by rw [e]; nofun)
      refine this.same rfl ?_
      simp [Grouping.place, ← e]
  | withdrawn c why =>
    have hb : .candidate = w c := hb
    simp only [State.takeReport, Report.ch, Report.taken]
    cases e : s.grouping.placement[c] with
    | none => have := (h.1 c).1 e; rw [← hb] at this; cases this
    | grouped => simpa [e] using h.withdraw c hb.symm
    | ungrouped reason => simpa [e] using h.place c .nothing .none nofun (by simp) (by rw [e]; nofun)
  | completed c f =>
    have hb : .hit = w c := hb
    simp only [State.takeReport, Report.ch, Report.taken]
    cases e : s.grouping.placement[c] with
    | none => have := (h.1 c).1 e; rw [← hb] at this; cases this
    | grouped =>
      refine h.turn c .nothing .none (fun m => m.ch = c && m.st = .active) (.done f) (fun m => ?_) rfl (by simp)
        (by simp) e
      cases q : m.st <;> simp [MemberState.awaits, ← hb]
    | ungrouped reason => simpa [e] using h.place c .nothing .none nofun (by simp) (by rw [e]; nofun)

/-- The reports of some channels in order, at most one from each (R60, R79). -/
theorem State.takeReports_follows (cs : List ChanId) (rep : ChanId → Option Report) (s : State) (w : ChanId → InProgress)
    (h : s.grouping.Follows w) (hn : cs.Nodup) (hr : ∀ c ∈ cs, ∀ r, rep c = some r → r.ch = c ∧ r.before = w c) :
    (s.takeReports (cs.filterMap rep)).grouping.Follows fun c =>
      match rep c with
      | some r => if c ∈ cs then r.taken else w c
      | none => w c := by
  unfold State.takeReports
  induction cs generalizing s w with
  | nil =>
    simp only [List.filterMap_nil, List.foldl_nil, List.not_mem_nil, if_false]
    convert h using 2 with c
    split <;> rfl
  | cons c cs ih =>
    rw [List.nodup_cons] at hn
    cases e : rep c with
    | none =>
      rw [List.filterMap_cons_none e]
      convert ih s w h hn.2 (fun d hd => hr d (by simp [hd])) using 2 with d
      by_cases q : d = c
      · subst q; simp [e]
      · simp [q]
    | some r =>
      obtain ⟨h1, h2⟩ := hr c (by simp) r e
      rw [List.filterMap_cons_some e, List.foldl_cons]
      have := s.takeReport_follows r w h (by rw [h1]; exact h2)
      rw [h1] at this
      convert ih _ _ this hn.2 (fun d hd r' hd' => ?_) using 2 with d
      · by_cases q : d = c
        · subst q; simp [e, hn.1]
        · simp [q]
      · have q : d ≠ c := fun q => hn.1 (q ▸ hd)
        rw [Function.update_of_ne q]
        exact hr d (by simp [hd]) r' hd'

/-! ### The later stages (R63 to R68, R71) -/

/-- What is in progress without the starts still to be placed. -/
def hide (us : List Start) (w : ChanId → InProgress) : ChanId → InProgress :=
  fun c => if c ∈ us.map Start.ch then .nothing else w c

/-- What a start has begun. -/
def Start.began (st : Start) : InProgress := if st.confirmed then .hit else .candidate

theorem hide_place (st : Start) (us : List Start) (w : ChanId → InProgress) (hn : st.ch ∉ us.map Start.ch)
    (hb : w st.ch = st.began) : update (hide (st :: us) w) st.ch st.began = hide us w := by
  funext c
  by_cases e : c = st.ch
  · subst e; rw [Function.update_self, hide, if_neg hn, hb]
  · rw [Function.update_of_ne e]; simp [hide, e]

theorem hide_congr {us vs : List Start} (h : us.Perm vs) (w : ChanId → InProgress) : hide us w = hide vs w := by
  funext c
  simp only [hide, (h.map Start.ch).mem_iff]

/-- The second stage places starts and leaves the rest to the opening point (R64). -/
theorem Grouping.Follows.joinStage {w : ChanId → InProgress} (todo : List Start) (x : Grouping) (later : List Start)
    (h : x.Follows (hide (todo ++ later) w)) (hn : ((todo ++ later).map Start.ch).Nodup)
    (hb : ∀ st ∈ todo ++ later, w st.ch = st.began) :
    let r := todo.foldl joinStart (x, later)
    r.1.Follows (hide r.2 w) ∧ (r.2.map Start.ch).Nodup ∧ ∀ st ∈ r.2, w st.ch = st.began := by
  induction todo generalizing x later with
  | nil => exact ⟨h, hn, hb⟩
  | cons st todo ih =>
    have hn' : st.ch ∉ (todo ++ later).map Start.ch ∧ ((todo ++ later).map Start.ch).Nodup := by
      simpa [List.nodup_cons] using hn
    have hi : hide (st :: todo ++ later) w st.ch = .nothing := by simp [hide]
    have hp := hide_place st (todo ++ later) w hn'.1 (hb st (by simp))
    have rest : ∀ u ∈ todo ++ later, w u.ch = u.began := fun u hu => hb u (by simpa using Or.inr (by simpa using hu))
    rw [List.foldl_cons]
    simp only [joinStart, Grouping.joinTest]
    cases ho : x.openGroup with
    | none =>
      have perm : (todo ++ (later ++ [st])).Perm (st :: todo ++ later) := by
        rw [← List.append_assoc]; exact (List.perm_append_singleton _ _)
      exact ih x (later ++ [st]) (by rw [hide_congr perm]; exact h) ((perm.map _).nodup_iff.2 hn)
        fun u hu => hb u (perm.mem_iff.1 hu)
    | some g =>
      simp only
      split
      · next e =>
        have perm : (todo ++ (later ++ [st])).Perm (st :: todo ++ later) := by
          rw [← List.append_assoc]; exact (List.perm_append_singleton _ _)
        exact ih x (later ++ [st]) (by rw [hide_congr perm]; exact h) ((perm.map _).nodup_iff.2 hn)
          fun u hu => hb u (perm.mem_iff.1 hu)
      · exact ih _ later (by rw [← hp]; exact h.placeStart st .repeated hi) hn'.2 rest
      · exact ih _ later (by rw [← hp]; exact h.join st hi (by rw [ho]; rfl)) hn'.2 rest

/-- The opening point places every start it is given (R67, R68). -/
theorem Grouping.Follows.openingPoint {x : Grouping} {w : ChanId → InProgress} (gr : GrParams) (h : x.Follows w) (st : Start)
    (hw : w st.ch = .nothing) : (Grouping.openingPoint gr x st).Follows (update w st.ch st.began) := by
  have h' : ({ x with work := some gr } : Grouping).Follows w := h.same rfl rfl
  unfold Grouping.openingPoint
  simp only
  split
  · next ho => exact h'.join st hw ho
  · split
    · exact h'.placeStart st _ hw
    · split
      · exact h'.placeStart st _ hw
      · split
        · exact h'.openWith st gr hw
        · exact h'.placeStart st _ hw

theorem Grouping.Follows.openStarts {w : ChanId → InProgress} (gr : GrParams) (us : List Start) (x : Grouping)
    (h : x.Follows (hide us w)) (hn : (us.map Start.ch).Nodup) (hb : ∀ st ∈ us, w st.ch = st.began) :
    (us.foldl (Grouping.openingPoint gr) x).Follows w := by
  induction us generalizing x with
  | nil =>
    have : hide [] w = w := by funext c; simp [hide]
    rwa [this] at h
  | cons st us ih =>
    rw [List.map_cons, List.nodup_cons] at hn
    have hp := hide_place st us w hn.1 (hb st (by simp))
    exact ih _ (by rw [← hp]; exact h.openingPoint gr st (by simp [hide])) hn.2 fun u hu => hb u (by simp [hu])

/-- The window close (R65). -/
theorem Grouping.Follows.windowClose {x : Grouping} {w : ChanId → InProgress} (h : x.Follows w) (k : Tick) :
    (x.windowClose k).Follows w := by
  unfold Grouping.windowClose
  split
  · exact h
  · split
    · exact h.map (fun g => { g with isOpen := false }) (fun _ => rfl) rfl rfl
    · exact h

/-- An emission leaves the list and the placements to the emission stage (R71). -/
@[simp] theorem State.emit_grouping (s : State) (closing : Bool) (g : Group) : (s.emit closing g).grouping = s.grouping := by
  simp only [State.emit, State.ruptureCheck, State.recordEvidence, State.declare, State.enterRunState]
  repeat' split
  all_goals simp

/-- A complete group awaits nothing (R71). -/
theorem Group.complete_awaits {g : Group} (h : g.complete = true) {m : Member} (hm : m ∈ g.members) :
    m.st.awaits = .nothing := by
  simp only [Group.complete, Bool.and_eq_true, List.all_eq_true] at h
  have := h.2 m hm
  cases e : m.st <;> simp_all [MemberState.awaits]

/-- The emission stage removes complete groups from the head (R71). -/
theorem emitFrom_follows (closing : Bool) (w : ChanId → InProgress) (gs : List Group) (s : State) (he : s.grouping.groups = gs)
    (h : s.grouping.Follows w) : (emitFrom closing gs s).grouping.Follows w := by
  induction gs generalizing s with
  | nil => exact h
  | cons g gs ih =>
    simp only [emitFrom]
    split
    · next c =>
      refine ih _ rfl ⟨h.1, fun g' hg' m hm hn => h.2.1 g' (by rw [he]; exact List.mem_cons_of_mem _ hg') m hm hn, fun d hd => ?_⟩
      obtain ⟨g', hg', m, hm, e, hn⟩ := h.2.2 d hd
      rw [he] at hg'
      rcases List.mem_cons.1 hg' with rfl | hg'
      · exact absurd (Group.complete_awaits c hm) hn
      · exact ⟨g', hg', m, hm, e, hn⟩
    · exact h

/-- The emission stage empties a list of complete groups (R80). -/
theorem emitFrom_empties (closing : Bool) (gs : List Group) (s : State) (he : s.grouping.groups = gs)
    (h : ∀ g ∈ gs, g.complete = true) : (emitFrom closing gs s).grouping = { s.grouping with groups := [] } := by
  induction gs generalizing s with
  | nil => simp [emitFrom, ← he]
  | cons g gs ih =>
    simp only [emitFrom]
    rw [if_pos (h g (by simp)), ih _ rfl fun g' hg' => h g' (by simp [hg'])]
    rfl

/-- What the engine's handling of a tick comes to (R60): the reports of a handling of all channels, each of them one that its
channel's work allows, leave the engine in agreement with the channels so handled. -/
theorem State.groupingStages_follows (s : State) (w : ChanId → InProgress) (rep : ChanId → Option Report)
    (h : s.grouping.Follows w) (hr : ∀ c r, rep c = some r → r.ch = c ∧ r.before = w c) :
    (s.groupingStages (allChannels.filterMap rep)).grouping.Follows fun c =>
      match rep c with
      | some r => r.after
      | none => w c := by
  let w1 : ChanId → InProgress := fun c => match rep c with | some r => r.after | none => w c
  let rs := allChannels.filterMap rep
  let us := startsOf s.clock rs
  have hus : us.Perm (rs.filterMap Report.start?) := (sortByKey_spec _ _).1
  have start : ∀ (r : Report) (st : Start), r.start? = some st → st.ch = r.ch ∧ r.after = st.began ∧ r.taken = .nothing := by
    intro r st e
    cases r <;> simp only [Report.start?, Option.some.injEq, reduceCtorEq] at e
    subst e
    exact ⟨rfl, rfl, rfl⟩
  have other : ∀ r : Report, r.start? = none → r.taken = r.after := by
    intro r e
    cases r <;> first | rfl | simp [Report.start?] at e
  have mem : ∀ c, c ∈ us.map Start.ch ↔ ∃ r st, rep c = some r ∧ r.start? = some st := by
    intro c
    rw [(hus.map _).mem_iff]
    simp only [List.mem_map, List.mem_filterMap, rs]
    constructor
    · rintro ⟨st, ⟨r, ⟨d, -, hd⟩, hs⟩, rfl⟩
      have := (start r st hs).1
      rw [(hr d r hd).1] at this
      exact ⟨r, st, by rw [this]; exact hd, hs⟩
    · rintro ⟨r, st, hc, hs⟩
      exact ⟨st, ⟨r, ⟨c, mem_allChannels c, hc⟩, hs⟩, by rw [(start r st hs).1, (hr c r hc).1]⟩
  have first : (s.takeReports rs).grouping.Follows (hide us w1) := by
    convert s.takeReports_follows allChannels rep w h (by decide) (fun c _ r e => hr c r e) using 2 with c
    simp only [hide, w1]
    cases e : rep c with
    | none => rw [if_neg]; exact fun m => by obtain ⟨r, st, hr', -⟩ := (mem c).1 m; simp [e] at hr'
    | some r =>
      simp only [mem_allChannels, if_true]
      cases q : r.start? with
      | none =>
        rw [if_neg, other r q]
        intro m
        obtain ⟨r', st, hr', hs⟩ := (mem c).1 m
        rw [e, Option.some.injEq] at hr'
        rw [← hr', q] at hs
        cases hs
      | some st => rw [if_pos ((mem c).2 ⟨r, st, e, q⟩), (start r st q).2.2]
  have nodup : (us.map Start.ch).Nodup := by
    rw [(hus.map _).nodup_iff, List.map_filterMap, List.filterMap_filterMap]
    refine List.Nodup.filterMap (fun c d e hc hd => ?_) (by decide : allChannels.Nodup)
    have one : ∀ c, e ∈ ((rep c).bind fun r => (r.start?).map Start.ch) → c = e := by
      intro c hc
      simp only [Option.mem_def, Option.bind_eq_some_iff, Option.map_eq_some_iff] at hc
      obtain ⟨r, hr', st, hs, rfl⟩ := hc
      rw [(start r st hs).1, (hr c r hr').1]
    rw [one c hc, one d hd]
  have began : ∀ st ∈ us, w1 st.ch = st.began := by
    intro st hst
    have := hus.mem_iff.1 hst
    simp only [List.mem_filterMap, rs] at this
    obtain ⟨r, ⟨d, -, hd⟩, hs⟩ := this
    obtain ⟨a, b, -⟩ := start r st hs
    rw [(hr d r hd).1] at a
    simp only [w1, a, hd, b]
  obtain ⟨j1, j2, j3⟩ := Grouping.Follows.joinStage us _ [] (by simpa using first) (by simpa using nodup) (by simpa using began)
  simp only [State.groupingStages, State.withGrouping_grouping, Grouping.openStage]
  have emitted := emitFrom_follows false _ _ ((s.takeReports rs).withGrouping
    (((s.takeReports rs).grouping.joinStage us).1.windowClose s.clock)) rfl (j1.windowClose s.clock)
  have lockout : ∀ (x : Grouping) (k : Tick), x.Follows w1 → (x.lockoutEnd k).Follows w1 := by
    intro x k hx
    unfold Grouping.lockoutEnd
    split
    · exact hx.same rfl rfl
    · exact hx
  exact lockout _ _ (emitted.openStarts _ _ _ j2 j3)

/-! ### What the channels report -/

theorem Reported.same {c : ChanId} {old : ChState} {ch : Channel} (h : ch.st.inProgress = old.inProgress) :
    Reported c old (ch, none) := h

theorem Channel.faultArrival_reported (ch : Channel) (c : ChanId) : Reported c ch.st (ch.faultArrival c) := by
  unfold Channel.faultArrival
  split
  · cases e : ch.st <;> simp [Reported, ChState.inProgress, Report.ch, Report.before, Report.after, e]
  · rfl

theorem Channel.confirmTest_reported (ch : Channel) (c : ChanId) (k : Tick) : Reported c ch.st (ch.confirmTest c k) := by
  unfold Channel.confirmTest
  cases e : ch.st <;> simp only <;>
    first
    | (split <;> simp [Reported, ChState.inProgress, Report.ch, Report.before, Report.after, e])
    | simp [Reported, e]

theorem Channel.glitchTest_reported (ch : Channel) (c : ChanId) (k : Tick) : Reported c ch.st (ch.glitchTest c k) := by
  unfold Channel.glitchTest
  cases e : ch.st <;> simp only <;>
    first
    | (split <;> simp [Reported, ChState.inProgress, Report.ch, Report.before, Report.after, e])
    | simp [Reported, e]

/-- After its end a channel has no hit in progress (R40). -/
theorem afterHit_idle (k : Tick) (n : Nat) : (afterHit k n).inProgress = .nothing := by
  unfold afterHit; split <;> rfl

theorem Channel.hitEndTest_reported (ch : Channel) (c : ChanId) (k : Tick) : Reported c ch.st (ch.hitEndTest c k) := by
  unfold Channel.hitEndTest
  cases e : ch.st <;> simp only
  case inHit =>
    split
    · exact ⟨rfl, rfl, (afterHit_idle _ _).symm⟩
    · simp [Reported, e]
  all_goals simp [Reported, e]

theorem Channel.hitTruncTest_reported (ch : Channel) (c : ChanId) (k : Tick) : Reported c ch.st (ch.hitTruncTest c k) := by
  unfold Channel.hitTruncTest
  cases e : ch.st <;> simp only
  case inHit =>
    split
    · exact ⟨rfl, rfl, (afterHit_idle _ _).symm⟩
    · simp [Reported, e]
  all_goals simp [Reported, e]

theorem Channel.close_reported (ch : Channel) (c : ChanId) : Reported c ch.st (ch.close c) := by
  unfold Channel.close
  cases e : ch.st <;> simp [Reported, ChState.inProgress, Report.ch, Report.before, Report.after, e]

theorem Channel.lockoutEndTest_inProgress (ch : Channel) (k : Tick) :
    (ch.lockoutEndTest k).st.inProgress = ch.st.inProgress := by
  unfold Channel.lockoutEndTest
  split
  · next e h => rw [h]; split <;> simp [ChState.inProgress, h]
  · rfl

theorem Channel.peakFreeze_inProgress (ch : Channel) (k : Tick) : (ch.peakFreeze k).st.inProgress = ch.st.inProgress := by
  unfold Channel.peakFreeze
  split <;> simp [ChState.inProgress, *]

theorem Channel.faultCleared_inProgress (ch : Channel) (active : Bool) :
    (ch.faultCleared active).st.inProgress = ch.st.inProgress := by
  unfold Channel.faultCleared waitingState
  split
  · next h =>
    simp only [Bool.and_eq_true, decide_eq_true_eq] at h
    rw [h.1]
    split <;> rfl
  · rfl

theorem Channel.takeUp_inProgress (ch : Channel) (w : ChParams) (active : Bool) :
    (ch.takeUp w active).st.inProgress = ch.st.inProgress := by
  unfold Channel.takeUp waitingState
  simp only
  split <;> simp only [*] <;> (repeat' split) <;> simp [ChState.inProgress, *]

/-- Two tests in order, each of which reports what it changes. -/
theorem Reported.then {c : ChanId} {old : ChState} {a : Channel × Option Report} {f : Channel → Channel × Option Report}
    (ha : Reported c old a) (hf : Reported c a.1.st (f a.1)) : Reported c old (firstReport a f) := by
  unfold firstReport
  cases e : a.2 with
  | some r => exact ha
  | none =>
    have h1 : a.1.st.inProgress = old.inProgress := by simpa [Reported, e] using ha
    unfold Reported at hf ⊢
    rw [← h1]
    exact hf

theorem Channel.handleSample_reported (ch : Channel) (c : ChanId) (k : Tick) (load : LoadStamp) (x : Handed) :
    Reported c ch.st (ch.handleSample c k load x) := by
  unfold Channel.handleSample
  cases e : ch.st with
  | off => exact Reported.same (by rw [e])
  | fault => exact Reported.same (by rw [e])
  | listen => exact Reported.same (by simp [Channel.estimate, e])
  | quiet =>
    simp only
    split
    · unfold Channel.start
      simp only
      split <;> simp [Reported, ChState.inProgress, Report.ch, Report.before, Report.after]
    · exact Reported.same (by simp [Channel.estimate, e])
  | pending cand =>
    exact (Channel.confirmTest_reported { ch with st := .pending (cand.gather k ch.work.pdt ch.t x) } c k).then
      (Channel.glitchTest_reported _ c k)
  | inHit cand =>
    exact (Channel.hitEndTest_reported { ch with st := .inHit (cand.gather k ch.work.pdt ch.t x) } c k).then
      (Channel.hitTruncTest_reported _ c k)
  | lockout l => exact Reported.same (by rw [Channel.lockoutEndTest_inProgress, e])

/-- A channel's handling of a tick reports what it changes (section 2.10). -/
theorem Channel.tick_reported (ch : Channel) (c : ChanId) (k : Tick) (entry : ChParams) (active : Bool) (load : LoadStamp)
    (x : Handed) : Reported c ch.st (ch.tick c k entry active load x) := by
  refine (ch.faultArrival_reported c).then ?_
  have := Channel.handleSample_reported (((ch.faultArrival c).1.faultCleared active).takeUp entry active) c k load x
  unfold Reported at this ⊢
  rw [Channel.takeUp_inProgress, Channel.faultCleared_inProgress] at this
  exact this

/-! ### The state as a whole -/

/-- Placements and members agree with the channels through anything that leaves both as they are. -/
theorem State.PlacementsOk.same {s t : State} (h : s.PlacementsOk) (hg : t.grouping = s.grouping)
    (hc : ∀ c, (t.chan c).st.inProgress = (s.chan c).st.inProgress) : t.PlacementsOk := by
  unfold State.PlacementsOk at *
  rw [hg]
  convert h using 2 with c
  exact hc c

/-- A handling of all channels, taken by the first stage alone, where no channel starts a candidate (R79). -/
theorem State.handled_reports (s : State) (r : Vector (Channel × Option Report) 16) (h : s.PlacementsOk)
    (hr : ∀ c : ChanId, Reported c (s.chan c).st r[c]) (hs : ∀ (c : ChanId) (x : Report), r[c].2 = some x → x.start? = none) :
    ((s.withChannels (channelsOf r)).takeReports (reportsOf r)).grouping.Follows fun c => r[c].1.st.inProgress := by
  have := (s.withChannels (channelsOf r)).takeReports_follows allChannels (fun c => r[c].2) (fun c => (s.chan c).st.inProgress) h
    (by decide) (fun c _ x e => by have := hr c; rw [Reported, e] at this; exact ⟨this.1, this.2.1⟩)
  convert this using 1
  · rfl
  funext c
  have a := hr c
  have b := hs c
  unfold Reported at a
  cases e : r[c].2 with
  | none => rw [e] at a; exact a
  | some x =>
    rw [e] at a
    simp only [mem_allChannels, if_true]
    rw [← a.2.2]
    have := b x e
    cases x <;> first | rfl | simp [Report.start?] at this

/-- A channel's event with its report (R60). -/
theorem State.channelEvent_placementsOk (s : State) (c : ChanId) (r : Channel × Option Report) (h : s.PlacementsOk)
    (hr : Reported c (s.chan c).st r) (hs : ∀ x, r.2 = some x → x.start? = none) : (s.channelEvent c r).PlacementsOk := by
  have hch : (s.channelEvent c r).channels = s.channels.set c r.1 :=
    (Kept.of_channels (s.channels.set c r.1)).takeReports _ _ rfl
  have chan : ∀ d : ChanId, (s.channelEvent c r).chan d = if d = c then r.1 else s.chan d := by
    intro d
    simp only [State.chan, hch]
    by_cases e : d = c
    · subst e; simp
    · have : c.val ≠ d.val := fun q => e (Fin.ext q.symm)
      simp [e, this]
  unfold State.PlacementsOk
  unfold Reported at hr
  cases e : r.2 with
  | none =>
    rw [e] at hr
    have : s.channelEvent c r = s.withChan c r.1 := by simp [State.channelEvent, e, State.takeReports]
    refine h.same (by rw [this]; rfl) fun d => ?_
    rw [chan]
    split
    · next q => rw [q]; exact hr
    · rfl
  | some x =>
    rw [e] at hr
    have q : s.channelEvent c r = (s.withChan c r.1).takeReport x := by simp [State.channelEvent, e, State.takeReports]
    have := (s.withChan c r.1).takeReport_follows x _ h (by rw [hr.1]; exact hr.2.1)
    rw [← q] at this
    convert this using 2 with d
    rw [chan]
    have hx : x.taken = x.after := by have := hs x e; cases x <;> first | rfl | simp [Report.start?] at this
    by_cases p : d = c
    · subst p; rw [← hr.1, Function.update_self, hx]; simp [hr.1, hr.2.2]
    · rw [hr.1, Function.update_of_ne p]; simp [p]

/-- The channels' part in a tick and the grouping engine's (R16, R60). -/
theorem State.detect_placementsOk (s : State) (xs : ChanId → Sample) (h : s.PlacementsOk) : (s.detect xs).PlacementsOk := by
  let r := s.tickChannels xs
  have hr : ∀ c : ChanId, Reported c (s.chan c).st r[c] := by
    intro c
    have : r[c] = (s.chan c).tick c s.clock (s.setup.entry c) s.runActive s.rollup.stamp (s.handed xs c) := perChannel_get _ c
    rw [this]
    exact Channel.tick_reported _ _ _ _ _ _ _
  have hch : (s.detect xs).channels = channelsOf r := by
    simp only [State.detect]
    exact (Kept.of_channels (channelsOf r)).groupingStages _ _ rfl
  have := State.groupingStages_follows ((s.withChannels (channelsOf r)).withIntake (s.intake.handOver xs))
    (fun c => (s.chan c).st.inProgress) (fun c => r[c].2) h (fun c x e => by
      have := hr c; rw [Reported, e] at this; exact ⟨this.1, this.2.1⟩)
  unfold State.PlacementsOk
  convert this using 1
  · rfl
  funext c
  have a := hr c
  have : (s.detect xs).chan c = r[c].1 := by
    simp only [State.chan, hch, channelsOf]; exact perChannel_get _ c
  rw [this]
  unfold Reported at a
  cases e : r[c].2 with
  | none => rw [e] at a; exact a
  | some x => rw [e] at a; exact a.2.2.symm

/-- After the closing reports nothing is in progress, and the flush empties the list with every placement NONE (R79, R80). -/
theorem State.flush_empties (s : State) (h : s.PlacementsOk) :
    let t := ((s.withChannels (channelsOf s.closeChannels)).takeReports (reportsOf s.closeChannels)).flush
    t.grouping.groups = [] ∧ ∀ c : ChanId, t.grouping.placement[c] = .none := by
  let r := s.closeChannels
  have get : ∀ c : ChanId, r[c] = (s.chan c).close c := fun c => perChannel_get _ c
  have hf := s.handled_reports r h (fun c => by rw [get]; exact Channel.close_reported _ c) (fun c x e => by
    rw [get] at e
    unfold Channel.close at e
    cases q : (s.chan c).st <;> simp only [q, Option.some.injEq, reduceCtorEq] at e <;> subst e <;> rfl)
  have idle : ∀ c : ChanId, r[c].1.st.inProgress = .nothing := by
    intro c
    rw [get]
    unfold Channel.close
    cases q : (s.chan c).st <;> simp [ChState.inProgress, q]
  have whole : ∀ g ∈ ((s.withChannels (channelsOf r)).takeReports (reportsOf r)).grouping.groups, ∀ m ∈ g.members,
      m.st.awaits = .nothing := by
    intro g hg m hm
    by_contra hn
    have := (hf.2.1 g hg m hm hn).1
    exact hn (this.trans (idle _))
  have e := emitFrom_empties true _ (((s.withChannels (channelsOf r)).takeReports (reportsOf r)).withGrouping
    { ((s.withChannels (channelsOf r)).takeReports (reportsOf r)).grouping with
      groups := ((s.withChannels (channelsOf r)).takeReports (reportsOf r)).grouping.groups.map fun g => { g with isOpen := false }
      lockout := none }) rfl (by
    intro g hg
    obtain ⟨g', hg', rfl⟩ := List.mem_map.1 hg
    simp only [Group.complete, Bool.not_false, Bool.true_and, List.all_eq_true]
    intro m hm
    have := whole g' hg' m hm
    cases q : m.st <;> simp_all [MemberState.awaits])
  intro t
  have e : t.grouping = _ := e
  refine ⟨by rw [e], fun c => ?_⟩
  have := (hf.1 c).2 (idle c)
  simp only [e]
  exact this

end Sys2Proof.Machine
end

