-- ==== Sys2Proof/WellFormed.lean ====
section
/-! DEFINITION. Which commands have operands the part can be given. -/

namespace Sys2Proof

/-- A FRAME carries the eighteen words that follow one assertion of SFSY (R1). Every other operand is well-formed by
its type: a channel is below sixteen, a port is A or B, and an exchange may carry any number of bytes. -/
def Instr.WellFormed : Instr → Bool
  | .frame words => words.length == Config.frameWords
  | .fullReset _ | .partialFrame _ | .clockWrap | .faultArrival _ | .faultCleared _ | .peakFreeze _ | .glitch _
  | .hitEnd _ | .hitTrunc _ | .lockoutEnd _ | .windowClose | .groupLockoutEnd | .evidenceLapse | .postWindowEnd
  | .waitSatisfied _ | .waitTimeout _ | .rollup | .loadStale | .statusCycleStart | .nodeStart | .statusCycleEnd
  | .cycleAbort | .exchangeStart _ | .exchangeEnd _ _ | .unknown _ | .length _ | .identify _ | .statusRead _
  | .clockRead _ | .channelPeek _ | .setupRead _ | .setupWrite _ | .setupLock _ | .runStart _ | .runStop _
  | .runClear _ | .ruptureDeclare _ | .loadPost _ | .hold _ | .journalAttach _ | .journalDetach _ | .journalFilter _
  | .journalRead _ | .journalWait _ | .noticesRead _ | .statusClock _ | .resetRelease => true

end Sys2Proof
end

