-- ==== Sys2Proof/Tests/Slice0.lean ====
section
/-! SUPPORT. Tests: the smoke test of WellFormed, the manual's worked cases (each names its table), and for every statement of
Certificates/Slice0 that has hypotheses a state and operands that meet them, clause by clause at the ends of its ranges. -/

open Sys2Proof Sys2Proof.Machine Sys2Proof.Machine.Claims

namespace Sys2Proof.Tests

/-! ### Small states -/

/-- A request as it lies in a queue. -/
def req (code : Nat) (pl : List Byte) : Request := ⟨BitVec.ofNat 8 code, 7, pl.length, pl⟩

/-- The state with one request waiting at a port. -/
def ask (s : State) (p : Port) (code : Nat) (pl : List Byte) : State :=
  s.withPort p { s.port p with requests := [req code pl] }

/-- A state with a run in RUNNING that began at tick 0 and the clock at `k`. -/
def runningAt (k : Tick) : State :=
  { State.reset with
    intake := { Intake.reset with clock := k }
    run := { Run.reset with state := .running, startTick := some 0 } }

/-- A candidate that began at tick 10 with one crossing of magnitude 500. -/
def cand : Candidate := ⟨10, 150, 1, 500, 10, false, 10, 500, 0, {}, 0⟩

/-- Channel 3 in a state at a tick of a run. -/
def chanAt (k : Tick) (st : ChState) (fault : Bool) : State :=
  (runningAt k).withChan 3 { Channel.reset with st := st, reportedFault := fault }

/-- Features of a hit. -/
def hit : Features := ⟨150, 3, 1210, 244, 4, 16, 502, 0, {}⟩

/-- A group with one ACTIVE member in channel 3, opened at arrival 160 with window limit 320. -/
def group (isOpen : Bool) : Group := ⟨isOpen, 11, 160, 320, 5, 2, [⟨3, 160, .active⟩]⟩

/-- The grouping engine with a list of groups. -/
def engine (gs : List Group) : Grouping := { Grouping.reset with groups := gs }

/-- A journal whose one record brings it to a fill of `2 + n`. -/
def filled (n : Nat) (tally : Bool) : Journal :=
  { Journal.reset with recs := [⟨.hit, 8, 0, List.replicate n 0⟩], appendPoint := 1, tallyMode := tally }

theorem filled_fill (n : Nat) (tally : Bool) : (filled n tally).fill = 2 + n := by
  simp [filled, Journal.fill, recWords, Rec.size]

/-- An asked request stands ready to execute. -/
theorem executes_ask (s : State) (p : Port) (code : Nat) (pl : List Byte) (h : s.resetHeld = false)
    (hr : (s.port p).responses.length < 4) (hw : (s.port p).wait = none) (hl : pl.length ≤ 1020) :
    Executes (ask s p code pl) p code (req code pl) [] := by
  cases p <;> exact ⟨⟨h, rfl, hr, hw⟩, rfl, hl⟩

/-- In a state with the ports of the reset state any request may stand ready. -/
theorem executes_reset (code : Nat) (pl : List Byte) (hl : pl.length ≤ 1020) :
    Executes (ask State.reset .a code pl) .a code (req code pl) [] :=
  executes_ask _ _ _ _ rfl (by decide) rfl hl

theorem executes_running (k : Tick) (code : Nat) (pl : List Byte) (hl : pl.length ≤ 1020) :
    Executes (ask (runningAt k) .a code pl) .a code (req code pl) [] :=
  executes_ask _ _ _ _ rfl (Nat.zero_lt_succ 3) rfl hl

/-! ### Smoke test of WellFormed -/

theorem test_short_frame_refused : (Instr.frame [0, 0, 0]).WellFormed = false := by decide

theorem test_long_frame_refused : (Instr.frame (List.replicate 19 0)).WellFormed = false := by decide

theorem test_frame_accepted : (Instr.frame (List.replicate 18 0)).WellFormed = true := by decide

theorem test_no_word_decodes : decodeTableWord 8 1 = none := by decide

/-! ### Worked cases of chapters 1 and 3 -/

/-- The check word example of section 1.1: frame 42, with channels 0, 1, 2 at 120, −35 and 32,767. -/
def frame42 : List Word16 := [42, 120, 65501, 32767] ++ List.replicate 13 0 ++ [32642]

theorem test_check_word : checkSum frame42 = 0 := by decide

theorem test_check_word_lost_bit : checkSum (frame42.set 1 56) = 65472 := by decide

/-- The saturated sample of channel 2 and the sample −35 of channel 1 in that frame (R8). -/
theorem test_samples :
    receivedSample frame42 false 2 = ⟨32767, true, false⟩ ∧ receivedSample frame42 false 1 = ⟨35, false, false⟩ ∧
      magnitude 0x8001 = 32767 ∧ saturated 0x8001 = false ∧ magnitude 0x8000 = 32767 ∧ saturated 0x8000 = true := by decide

/-- The first good frame after full reset is the first tick (R3). -/
theorem test_first_frame :
    let s := State.reset.frame frame42
    s.intake.clock = 1 ∧ s.intake.seq = some ⟨42, 43⟩ ∧ s.intake.prev = #v[120, 35, 32767, 0, 0, 0, 0, 0, 0, 0, 0, 0, 0, 0, 0, 0] := by
  decide +kernel

/-- Worked cases of section 3.1: an ordinary crossing, a sample exactly at T, the first sample after a gap, a wrapped tick. -/
theorem test_arrivals :
    arrivalAt 1000 (arrivalFraction 400 250 730) = 15989 ∧ arrivalAt 1000 (arrivalFraction 400 250 400) = 16000 ∧
      arrivalAt 10 (arrivalFraction 400 0 600) = 154 ∧ arrivalAt 0 (arrivalFraction 400 500 450) = 0 := by decide

/-- Worked cases of section 3.2. -/
theorem test_amplitude_codes :
    [1, 3, 5, 1210, 5321, 32767].map ampCode = [0, 38, 56, 244, 296, 358] := by decide

/-- Worked cases of section 3.3: 8,040 with ES of 4, and 6,000,000,000 with ES of 0, which saturates. -/
theorem test_energies :
    ({ cand with sum := 8040 }.finish 4).energy = 502 ∧ ({ cand with sum := 6000000000 }.finish 0).energy = 4294967295 ∧
      ({ cand with sum := 6000000000 }.finish 0).marks.esat = true := by decide

/-- Worked cases of section 3.5. -/
theorem test_estimator :
    estimate 3200 260 6 = 3215 ∧ estimate 3200 100 6 = 3175 ∧ estimate 3200 199 6 = 3199 ∧ estimate 3200 201 6 = 3200 ∧
      estimate 3200 201 4 = 3201 := by decide

/-- The background during a gap: b16 and T after three synthetic ticks. -/
theorem test_background_in_gap :
    let w := { ChParams.reset with floating := true, tfix := 150 }
    let b := estimate (estimate (estimate 16000 0 6) 0 6) 0 6
    b = 15260 ∧ threshold w b = 2861 := by decide

/-- Decimal digits of the IDENTIFY payload (R179, R187). -/
theorem test_identify : identifyReply.payload = [0x40, 0x16, 1, 16, 0, 0, 1, 0, 4, 0xFC, 0x03] := by decide

/-! ### Worked sequences, one step each -/

/-- A frame of a number with every sample 0. -/
def zeros (n : Word16) : List Word16 := n :: List.replicate 16 0 ++ [0 - n]

/-- A new assertion of SFSY discards the partial frame, and its own marked word is word 0 (R1): the frame after a PARTIAL_FRAME is
taken whole, and one of three words stays in collection without effect. -/
theorem test_partial_frame_discarded :
    let s := State.reset.withIntake { Intake.reset with collecting := [7] }
    (s.frame frame42).intake = (State.reset.frame frame42).intake ∧
      s.frame [42, 120, 65501] = State.reset.withIntake { Intake.reset with collecting := [42, 120, 65501] } := by decide +kernel

/-- The sequence of section 1.2 at frame 253: a gap of 1 after frame 251 leaves the clock at 4 with a FRAME GAP mark of clock 4. -/
theorem test_gap :
    let s := ({ State.reset with intake := { Intake.reset with clock := 2, seq := some ⟨251, 252⟩ } } : State).frame (zeros 253)
    s.intake.clock = 4 ∧ s.intake.seq = some ⟨253, 254⟩ ∧ s.journal.recs = [⟨.mark, 0, 0, [4, 0, 6, 1]⟩] := by decide +kernel

/-- A wrap within a gap: the CLOCK WRAP mark of clock 0 comes before the FRAME GAP mark of clock 1. -/
theorem test_wrap_in_gap :
    let s := ({ State.reset with intake := { Intake.reset with clock := 281474976710653, seq := some ⟨17, 18⟩ } } : State).frame
      (zeros 21)
    s.intake.clock = 1 ∧ s.journal.recs = [⟨.mark, 0, 0, [0, 0, 7, 0]⟩, ⟨.mark, 0, 1, [1, 0, 6, 3]⟩] := by decide +kernel

/-- The hit of section 2.6 at tick 1,011: the sample of 1,500 comes more than PDT ticks after the peak, which stays. -/
theorem test_gather :
    ({ cand with kFirst := 1000, counts := 4, peak := 1210, kPeak := 1005, kLast := 1009, sum := 6340, trailing := 200 }.gather
      1011 5 400 ⟨1500, 200, false, false⟩) =
        { cand with
          kFirst := 1000, counts := 5, peak := 1210, kPeak := 1005, frozen := true, kLast := 1011, sum := 8040, trailing := 0 } := by
  decide

/-- The features of that hit (section 3.5): the trailing sum of 420 is dropped, and the lockout ends at tick 1,018. -/
theorem test_hit_end :
    let x : Candidate := ⟨1000, 15989, 5, 1210, 1005, true, 1011, 8040, 420, {}, 0⟩
    let ch := { Channel.reset with st := .inHit x, work := { ChParams.reset with hdt := 4, hlt := 3 } }
    ch.hitEndTest 3 1015 =
      ({ ch with st := .lockout 1018 }, some (.completed 3 ⟨15989, 5, 1210, 244, 5, 12, 502, 0, {}⟩)) := by decide

/-- The glitch of section 2.6 at tick 2,003. -/
theorem test_glitch :
    let x : Candidate := ⟨2000, 31996, 1, 620, 2000, false, 2000, 620, 1030, {}, 0⟩
    let ch := { Channel.reset with st := .pending x, glitches := 11, work := { ChParams.reset with qc := 2, qs := 8, hdt := 3 } }
    ch.glitchTest 7 2003 = ({ ch with st := .quiet, glitches := 12 }, some (.withdrawn 7 .glitch)) := by decide

/-- Group G1 of section 4.8 closes at tick 106, not at tick 105, and its lockout ends at tick 110. -/
theorem test_window_close :
    let x := engine [⟨true, 100, 1591, 1687, 4, 3, [⟨2, 1591, .active⟩]⟩]
    x.windowClose 105 = x ∧ (x.windowClose 106).lockout = some 110 ∧ ((x.windowClose 106).groups.all fun g => !g.isOpen) := by
  decide

/-- A group opened at arrival 160 and tick 11 with W of 1 has a limit of 176, the end of tick 11: it is first tested at tick 12, and
a start at tick 12 with fraction 0 still joins it (R65). -/
theorem test_window_close_not_at_opening :
    let x := engine [⟨true, 11, 160, 176, 0, 2, [⟨2, 160, .active⟩]⟩]
    x.windowClose 11 = x ∧ ((x.windowClose 12).groups.all fun g => !g.isOpen) ∧
      (joinStart (x, []) ⟨3, 176, 12, true⟩).2 = [] := by decide

/-- G1's members in the order of their arrivals, with their deltas (section 4.8). -/
theorem test_emitted_order :
    let done : ChanId → SubTick → Member := fun c a => ⟨c, a, .done { hit with arrival := a }⟩
    let es := (⟨false, 100, 1591, 1687, 4, 3, [done 2 1591, done 9 1619, done 5 1673, done 11 1663]⟩ : Group).emitted
    es.map Emitted.ch = [2, 9, 11, 5] ∧ es.map (fun e => (e.arrival - 1591).toNat) = [0, 28, 72, 82] ∧
      (groupOffer true es).size = 26 := by decide

/-- The resumption ratio of section 6.3. -/
theorem test_resumption_ratio :
    { Rollup.reset with load := some ⟨36900, 0⟩, pmax := 41250, armed := true }.ratio true = some 894 ∧
      { Rollup.reset with load := some ⟨36900, 0⟩, pmax := 41250, armed := true }.ratio false = none := by decide

/-- The stale watch of section 6.4: a load of tick 2,000,000 goes stale at tick 7,120,000 under LS of 5,000 blocks. -/
theorem test_stale_watch :
    let s : Tick → State := fun k => (runningAt k).withRollup { Rollup.reset with load := some ⟨1, 2000000⟩ }
    (s 7119999).staleCheck.rollup.stale = false ∧ (s 7120000).staleCheck.rollup.stale = true := by decide +kernel

/-- Rupture confirmed by load (section 7.5): the post of 12,300 at clock 901,020 declares, the post of 47,500 does not. -/
theorem test_load_drop :
    let s := { (runningAt 901020).withSetup { Setup.reset with ru := [12, 1, 192, 2, 3] } with
      rollup := { Rollup.reset with pmax := 52000 }
      run := { Run.reset with state := .running, evidence := some ⟨902748, some 4415⟩ } }
    s.dropLevel = 39000 ∧ (s.postLoad .a 47500).run = s.run ∧
      (s.postLoad .a 12300).run = ⟨.final, none, some .groupLoad, none, some 904092⟩ := by decide +kernel

/-- LESS BUSY (section 10.5): the first fault goes to the shorter list, the second follows its entry. -/
theorem test_less_busy :
    let s := { State.reset with
      setup := { Setup.reset with pt := [0, 0, 3, 0, 4, 0, 0, 0, 0, 0, 1, 0, 0, 0, 0, 0, 0, 0, 0, 0, 10] }
      portA := { PortState.reset with notices := [⟨.loadStale, 1, 0, 1⟩] } }
    let t := (s.post .channelFault 0x40).post .runState 2
    t.portA.notices = [⟨.loadStale, 1, 0, 1⟩, ⟨.runState, 1, 0, 2⟩] ∧
      (t.post .channelFault 0x44).portB.notices = [⟨.channelFault, 2, 0, 0x44⟩, ⟨.runState, 1, 0, 2⟩] := by decide +kernel

/-- A write of W = 0 is clamped to 1, raises the generation and is answered ADJUSTED with 1 value clamped (R157). -/
theorem test_setup_write_clamps :
    let r := setupWriteBody (req 6 [2, 0, 0, 0, 0, 0, 0, 0, 0, 0, 0]) State.reset
    r.1.setup.gr = [1, 0, 2, 1] ∧ r.1.setup.generation = 1 ∧ r.2 = ⟨.adjusted, [1, 0, 0, 0, 0, 1, 0]⟩ := by decide +kernel

/-- The second report in a row that differs changes the fault state (R169). -/
theorem test_debounce :
    debounce false true false 0 = (false, 1, false) ∧ debounce false true false 1 = (true, 0, true) ∧
      debounce false false false 1 = (false, 0, false) ∧ debounce true true false 1 = (false, 0, false) := by decide

/-- A filter that passes only channel 3 returns a HIT of channel 3 and passes over one of channel 4 (R93). -/
theorem test_passes :
    let q := { PortState.reset with chanMask := 8 }
    q.passes ⟨.hit, 8, 0, []⟩ = true ∧ q.passes ⟨.hit, 16, 0, []⟩ = false ∧ q.passes ⟨.mark, 0, 0, []⟩ = true := by decide

/-! ### The machine as a whole -/

theorem test_met_step : ({ State.reset with pending := [.clockWrap] } : State).pending = .clockWrap :: [] ∧
    State.reset.pending = [] := ⟨rfl, rfl⟩

theorem test_met_reset_holds : (State.reset.withResetHeld true).resetHeld = true ∧
    (∀ cause, Instr.clockWrap ≠ .fullReset cause) ∧ Instr.clockWrap ≠ .resetRelease :=
  ⟨rfl, nofun, nofun⟩

/-! ### Frame intake -/

/-- The intake that has last accepted frame `n`. -/
def synced (n : BitVec 8) : State := { State.reset with intake := { Intake.reset with seq := some ⟨n, n + 1⟩ } }

/-- The frames of the clauses: one short by a word, a bad one, the first good one, a duplicate, the next, one of a gap. -/
theorem test_met_frames :
    State.reset.resetHeld = false ∧ (∀ n, (synced n).resetHeld = false) ∧ (frame42.take 17 ≠ [] ∧ (frameOf (frame42.take 17)).length < 18) ∧
    ((frameOf (frame42.set 1 56)).length = 18 ∧ ¬ goodFrame (frameOf (frame42.set 1 56))) ∧
    (goodFrame (frameOf frame42) ∧ State.reset.intake.seq = none) ∧
    ((synced 42).intake.seq = some ⟨42, 43⟩ ∧ numberOf (frameOf frame42) = 42) ∧
    ((synced 41).intake.seq = some ⟨41, 42⟩ ∧ numberOf (frameOf frame42) ≠ 41 ∧
      numberOf (frameOf frame42) = 42) ∧
    ((synced 43).intake.seq = some ⟨43, 44⟩ ∧ numberOf (frameOf frame42) ≠ 43 ∧
      numberOf (frameOf frame42) ≠ 44) := by
  refine ⟨rfl, fun _ => rfl, ⟨nofun, by decide⟩, ⟨by decide, fun h => absurd h.2 (by decide)⟩, ⟨⟨by decide, by decide⟩, rfl⟩, ⟨rfl, by decide⟩,
    ⟨rfl, by decide, by decide⟩, ⟨rfl, by decide, by decide⟩⟩

theorem test_met_clock_wrap :
    (runningAt (BitVec.allOnes 48)).intake.clock.toNat = 2 ^ 48 - 1 ∧ (runningAt 0).intake.clock.toNat ≠ 2 ^ 48 - 1 := by
  decide

/-! ### Channel units -/

theorem test_met_fault_arrival :
    (∀ st ∈ [ChState.off, .fault, .listen, .quiet, .lockout 20, .pending cand, .inHit cand],
      ((chanAt 20 st true).chan 3).reportedFault = true ∧ ((chanAt 20 st true).chan 3).st = st) ∧
    ((chanAt 20 .fault false).chan 3).reportedFault = false ∧ ((chanAt 20 .fault false).chan 3).st = .fault ∧
    ((chanAt 20 .quiet false).chan 3).st ≠ .fault := by decide

/-- A peak at tick 10 with PDT of 200: not yet to be frozen at tick 210, to be frozen at 211; a lockout that ends, and one later. -/
theorem test_met_peak_and_lockout :
    (∀ st ∈ [ChState.pending cand, .inHit cand, .lockout 211, .lockout 212, .quiet],
      (chanAt 211 st false).resetHeld = false ∧ ((chanAt 211 st false).chan 3).st = st ∧
        (chanAt 211 st false).intake.clock = 211) ∧
    200 < (211 - cand.kPeak).toNat ∧ ¬ 200 < (210 - cand.kPeak).toNat := by decide

/-- A glitch at a span of QS (64), a glitch at HDT (400) ticks below threshold, and a candidate that is none, with Qc of 2. -/
theorem test_met_glitch :
    let s : Tick → State := fun k => (runningAt k).withChan 3
      { Channel.reset with st := .pending cand, work := { ChParams.reset with qc := 2 } }
    let glitch : State → Prop := fun s =>
      let w := (s.chan 3).work
      let span := (s.intake.clock - cand.kFirst).toNat
      ¬ (w.qc ≤ cand.counts ∧ span < w.qs) ∧ (w.qs ≤ span ∨ (s.intake.clock - cand.kLast).toNat = w.hdt)
    (∀ k ∈ [(74 : Nat), 410, 73], (s (.ofNat 48 k)).resetHeld = false ∧ ((s (.ofNat 48 k)).chan 3).st = .pending cand) ∧ glitch (s 74) ∧ glitch (s 410) ∧
      ¬ glitch (s 73) ∧ ((runningAt 74).chan 3).st = .off := by decide +kernel

/-- The normal end at HDT (400) ticks, the forced end at MAXD (50) blocks, and a tick of neither. -/
theorem test_met_hit_ends :
    let late := { cand with kLast := 51200 }
    (∀ x ∈ [cand, late], ∀ k ∈ [(410 : Nat), 411, 51209],
      let s := chanAt (.ofNat 48 k) (.inHit x) false
      s.resetHeld = false ∧ (s.chan 3).st = .inHit x ∧ s.intake.clock = .ofNat 48 k) ∧
    (410 - cand.kLast).toNat = 400 ∧ (411 - cand.kLast).toNat ≠ 400 ∧
    ((51209 - late.kFirst).toNat + 1 = 50 * 1024 ∧ (51209 - late.kLast).toNat ≠ 400) ∧
    (411 - cand.kFirst).toNat + 1 ≠ 50 * 1024 ∧ ((chanAt 410 .quiet false).chan 3).st = .quiet := by decide +kernel

/-- A channel in every state, with a fault reported and with none; disabled, and enabled below T of 200, at T with Qc of 1, at T
with Qc of 2. -/
theorem test_met_channel_tick :
    let on := { ChParams.reset with enable := true }
    (∀ st ∈ [ChState.off, .listen, .quiet, .pending cand, .inHit cand, .lockout 20, .fault], ∀ fault ∈ [false, true],
      let ch := { Channel.reset with st := st, reportedFault := fault }
      ch.st = st ∧ ch.reportedFault = fault) ∧
    ChParams.reset.enable = false ∧ on.enable = true ∧ threshold on Channel.reset.b16 = 200 ∧
    199 < threshold on Channel.reset.b16 ∧ on.qc = 1 ∧ { on with qc := 2 }.qc ≠ 1 := by decide

/-- A PENDING candidate that is confirmed at its second crossing within QS, one that is a glitch at a span of QS, and one that
stays; a hit that stays. The three outcomes of ChannelHandlesATick for PENDING, at ticks 11 and 74. -/
theorem test_pending_outcomes :
    let ch := { Channel.reset with st := .pending cand, t := 400, work := { ChParams.reset with qc := 2 } }
    let x : Nat → Handed := fun m => ⟨m, 100, false, false⟩
    (ch.tick 3 11 ch.work true ⟨0, false⟩ (x 600)).2 = some (.confirmed 3) ∧
      (ch.tick 3 74 ch.work true ⟨0, false⟩ (x 100)).2 = some (.withdrawn 3 .glitch) ∧
      (ch.tick 3 11 ch.work true ⟨0, false⟩ (x 100)).2 = none ∧
      ({ ch with st := .inHit cand }.tick 3 11 ch.work true ⟨0, false⟩ (x 100)).2 = none := by decide

theorem test_met_arithmetic :
    ((399 : Nat) < 400 ∧ (400 : Nat) ≤ 400) ∧ (1 ≤ 1 ∧ 1 ≤ 32767 ∧ (32767 : Nat) ≤ 32767) ∧
    ((524272 : Nat) ≤ 524272 ∧ (32767 : Nat) ≤ 32767 ∧ 16 * 0 < 524272 ∧ 0 ≤ 16 * 32767 ∧ 16 * 1 - 15 < 2 ^ 6) ∧
    ChParams.reset.floating = false ∧ { ChParams.reset with floating := true }.floating = true ∧ ChParams.reset.tfix ≤ 32767 := by
  decide

/-! ### Grouping -/

theorem test_met_reports :
    let x := engine [group true]
    x.placement[(0 : ChanId)] = .none ∧ (x.place 3 .grouped).placement[(3 : ChanId)] = .grouped ∧
      (x.place 3 (.ungrouped .full)).placement[(3 : ChanId)] = .ungrouped .full := by decide

/-- The window limit 320 is reached at the end of tick 20; the end of tick 19 is before it. A group lockout that ends at tick 20. -/
theorem test_met_window :
    let s : Tick → Grouping → State := fun k x => (runningAt k).withGrouping x
    let x := engine [group false, group true]
    (∀ k ∈ [(19 : Nat), 20], (s (.ofNat 48 k) x).resetHeld = false ∧ (s (.ofNat 48 k) x).intake.clock = .ofNat 48 k ∧
      (s (.ofNat 48 k) x).grouping.groups = [group false] ++ [group true]) ∧
    (∀ y ∈ [group false], y.isOpen = false) ∧ (group true).isOpen = true ∧
    (group true).opened = 11 ∧ (11 : Tick) ≠ 20 ∧ (BitVec.ofNat 52 (16 * (20 : Tick).toNat) - (group true).limit).toNat < 2 ^ 51 ∧
    ¬ (BitVec.ofNat 52 (16 * (19 : Tick).toNat) - (group true).limit).toNat < 2 ^ 51 ∧
    (∀ g ∈ (s 20 (engine [group false])).grouping.groups, g.isOpen = false) ∧
    (s 20 { engine [] with lockout := some 20 }).grouping.lockout = some 20 ∧ (s 20 x).grouping.lockout ≠ some 20 := by decide +kernel

/-- A start at the limit is within it, one sub-tick later it is not; channel 3 is a member, channel 4 is none. -/
theorem test_met_join :
    let x := engine [group false, group true]
    x.groups = [group false] ++ [group true] ∧ (∀ y ∈ [group false], y.isOpen = false) ∧ (group true).isOpen = true ∧
    ((group true).limit - (⟨3, 320, 20, false⟩ : Start).arrival).toNat < 2 ^ 51 ∧
    ¬ ((group true).limit - (⟨3, 321, 21, false⟩ : Start).arrival).toNat < 2 ^ 51 ∧
    (∃ m ∈ (group true).members, m.ch = 3) ∧ ¬ (∃ m ∈ (group true).members, m.ch = 4) ∧
    ∀ g ∈ (engine [group false]).groups, g.isOpen = false := by decide

/-- The five clauses of the opening point: disabled, lockout, opens, full, and a group already OPEN. -/
theorem test_met_opening_point :
    let on : GrParams := ⟨500, 0, 2, true⟩
    let settling : Nat → Grouping := fun n => engine (List.replicate n (group false))
    (∀ n ∈ [0, 3, 4], ∀ g ∈ (settling n).groups, g.isOpen = false) ∧ { on with enable := false }.enable = false ∧
    on.enable = true ∧ { settling 3 with lockout := some 20 }.lockout ≠ none ∧ (settling 3).lockout = none ∧
    (settling 3).groups.length < 4 ∧ (settling 4).lockout = none ∧ 4 ≤ (settling 4).groups.length ∧
    ((engine [group false, group true]).groups = [group false] ++ [group true] ∧ (group true).isOpen = true) := by decide

/-- An emission with tally mode off and on, live tallies at their maximum, and counters at theirs. -/
theorem test_met_emission :
    (State.reset.journal.tallyMode = false ∧ (filled 0 true).tallyMode = true ∧
      ∀ c : ChanId, let j := { Journal.reset with liveHits := Vector.replicate 16 4294967295 }
        j.liveHits[c] ≤ 4294967295 ∧ j.liveEnergy[c] ≤ 4294967295) ∧
    let x := { Rollup.reset with work := some Setup.reset.activity, counters := ⟨4294967295, 0, 4294967295, 4294967295, 0⟩ }
    x.work = some Setup.reset.activity ∧ x.counters.hits ≤ 4294967295 ∧ x.counters.energy ≤ 4294967295 ∧
      x.counters.high ≤ 4294967295 := by decide

/-- The head of the list: none, a group with a member ACTIVE, an OPEN one, and one that is complete. -/
theorem test_met_stages :
    let s : List Group → State := fun gs => (runningAt 20).withGrouping (engine gs)
    let whole : Group := { group false with members := [⟨3, 160, .done hit⟩] }
    (s []).grouping.groups = [] ∧ (∀ g ∈ [group false, group true, whole], (s [g]).grouping.groups = g :: []) ∧
    ¬ completeGroup (group false) ∧ ¬ completeGroup { whole with isOpen := true } ∧ completeGroup whole := by
  refine ⟨rfl, fun _ _ => rfl, fun h => ?_, fun h => absurd h.1 (by decide), rfl, fun m hm => ?_⟩
  · obtain ⟨f, hf⟩ := h.2 _ (List.mem_singleton.2 rfl)
    exact absurd hf nofun
  · exact ⟨hit, by rw [List.mem_singleton.1 hm]⟩

/-- No check below Nr, a declaration with the load check off, evidence with it on; an emission in each mode of the journal. -/
theorem test_met_rupture_check :
    let s : Nat → Nat → State := fun nr check => (runningAt 20).withSetup { Setup.reset with ru := [nr, check, 192, 5000, 10000] }
    (s 2 0).run.state = .running ∧ ((s 2 0).setup.item .ru 0 = 2 ∧ (s 2 0).setup.item .ru 1 = 0 ∧ (s 2 1).setup.item .ru 1 = 1) ∧
    ¬ 1 ≤ (s 0 0).setup.item .ru 0 ∧ (s 2 0).journal.tallyMode = false ∧
    (s 2 0).journal.fill + (6 + 5 * (group false).emitted.length) ≤ 65280 ∧ (filled 0 true).tallyMode = true := by decide

/-! ### Journal -/

/-- A HIT record of 10 words that just fits at 65,280, one that does not, and one below the entry fill. -/
theorem test_met_offer :
    (hitOffer 3 .full hit).size = 10 ∧ (filled 65268 true).fill + 10 ≤ 65280 ∧ ¬ (filled 65269 true).fill + 10 ≤ 65280 ∧
    (filled 65268 true).tallyMode = true ∧ (filled 49139 false).fill + 10 < 49152 ∧
    (filled 49140 false).tallyMode = false ∧ 49152 ≤ (filled 49140 false).fill + 10 := by
  simp only [filled_fill]
  exact ⟨rfl, by decide, by decide, rfl, by decide, rfl, by decide⟩

/-- The routings A, B, BOTH and LESS BUSY of AUTO HOLD, with an entry held and with none. -/
theorem test_met_posting :
    let routed : Nat → State := fun v => { State.reset with setup := { Setup.reset with pt := v :: List.replicate 20 0 } }
    ((routed 1).setup.item .pt 0 = 1 ∧ (routed 2).setup.item .pt 0 = 2 ∧ (routed 3).setup.item .pt 0 = 3 ∧
      (routed 4).setup.item .pt 0 = 4 ∧ (routed 0).setup.item .pt 0 = 0) ∧
    ([] ++ ⟨.autoHold, 1, 0, 1⟩ :: [] : List Notice) = [⟨.autoHold, 1, 0, 1⟩] ∧
    ¬ (∃ e ∈ (State.reset.port .a).notices, e.source = .autoHold) := by decide

/-- A port with a wait for one record, which is there, and a deadline at tick 20. -/
def waiting (n : Nat) : State :=
  let s := ask { runningAt 20 with journal := filled 8 false } .a 18 [1, 0, 1, 0]
  s.withPort .a { s.port .a with cursor := some 0, wait := some ⟨n, 20⟩ }

theorem test_met_waits :
    (State.reset.port .a).wait = none ∧ ((waiting 1).port .a).wait = some ⟨1, 20⟩ ∧
    ((waiting 1).port .a).requests = req 18 [1, 0, 1, 0] :: [] ∧ 1 ≤ (waiting 1).unread .a ∧ ¬ 2 ≤ (waiting 2).unread .a ∧
    (waiting 1).intake.clock = 20 ∧ (20 : Tick) ≠ 21 := by decide

/-- An admission with a wait for two records at one unread, which a passing record ends and one of a kind filtered out does not; one
of three, which stays; and a journal without room. -/
theorem test_met_wait_at_admission :
    let o := hitOffer 3 .full hit
    (∀ n ∈ [2, 3], ((waiting n).port .a).cursor = some 0 ∧ ((waiting n).port .a).wait = some ⟨n, 20⟩ ∧
      ((waiting n).port .a).requests = req 18 [1, 0, 1, 0] :: [] ∧ (waiting n).journal.fill + o.size ≤ 65280) ∧
    ((waiting 2).port .a).passes ((waiting 2).journal.record o) = true ∧
    ({ (waiting 2).port .a with kindMask := 2 }.passes ((waiting 2).journal.record o)) = false ∧
    ((waiting 2).offerOnce o).unread .a = 2 ∧ ¬ 3 ≤ ((waiting 3).offerOnce o).unread .a ∧
    ¬ 65279 + o.size ≤ 65280 ∧ ((waiting 2).port .b).wait = none := by decide +kernel

/-- That state has a sound journal with a port attached, as reclaim and the unread counts ask. -/
theorem test_met_journal_ok : (waiting 2).JournalOk ∧ ((waiting 2).port .a).cursor = some 0 ∧
    ((waiting 2).port .b).cursor = none ∧ (State.reset.port .a).cursor = none := by
  refine ⟨⟨⟨by decide, fun _ => by decide⟩, ?_, ?_⟩, rfl, rfl, rfl⟩
  · intro i h
    obtain rfl : i = 0 := Nat.lt_one_iff.1 h
    rfl
  · intro p cur h; cases p
    · cases h; decide
    · cases h

theorem test_met_attach :
    Executes (ask State.reset .a 14 []) .a 14 (req 14 []) [] ∧ Executes (ask State.reset .a 14 [2]) .a 14 (req 14 [2]) [] ∧
    Executes (ask State.reset .a 14 [0]) .a 14 (req 14 [0]) [] ∧ Executes (ask State.reset .a 14 [1]) .a 14 (req 14 [1]) [] ∧
    Executes (ask State.reset .a 15 []) .a 15 (req 15 []) [] ∧ (1 < (2 : Byte).toNat ∧ (0 : Byte).toNat = 0 ∧ (1 : Byte).toNat = 1) :=
  ⟨executes_reset _ _ (by decide), executes_reset _ _ (by decide), executes_reset _ _ (by decide),
    executes_reset _ _ (by decide), executes_reset _ _ (by decide), by decide⟩

/-- Filters and holds: too short, and complete; a hold of each of the four values of its two bits. -/
theorem test_met_filter_and_hold :
    Executes (ask State.reset .a 16 [0x3F, 0]) .a 16 (req 16 [0x3F, 0]) [] ∧ (req 16 [0x3F, 0]).payload.length < 3 ∧
    Executes (ask State.reset .a 16 [0xFF, 8, 0]) .a 16 (req 16 [0xFF, 8, 0]) [] ∧
    Executes (ask State.reset .a 13 []) .a 13 (req 13 []) [] ∧
    (∀ pl ∈ [[(0 : Byte)], [1], [2], [3]], Executes (ask State.reset .a 13 pl) .a 13 (req 13 pl) []) :=
  ⟨executes_reset _ _ (by decide), by decide, executes_reset _ _ (by decide), executes_reset _ _ (by decide),
    fun pl h => executes_reset _ _ (by revert pl; decide)⟩

/-- A port attached at record 0 of a journal with one HIT record of channel 3, of 10 words. -/
def attached (code : Nat) (pl : List Byte) : State :=
  let s := ask { State.reset with journal := filled 8 false } .a code pl
  s.withPort .a { s.port .a with cursor := some 0 }

theorem executes_attached (code : Nat) (pl : List Byte) (hl : pl.length ≤ 1020) :
    Executes (attached code pl) .a code (req code pl) [] := ⟨⟨rfl, rfl, Nat.zero_lt_succ 3, rfl⟩, rfl, hl⟩

/-- Reads of a detached port, of no maximum, of 0 and of 255; a maximum of 10 returns the record, one of 9 does not. -/
theorem test_met_read :
    (Executes (ask State.reset .a 17 [10]) .a 17 (req 17 [10]) [] ∧ (State.reset.port .a).cursor = none) ∧
    (∀ pl ∈ [[], [(0 : Byte)], [255], [10], [9]],
      Executes (attached 17 pl) .a 17 (req 17 pl) [] ∧ ((attached 17 pl).port .a).cursor = some 0) ∧
    (let recs := (attached 17 [10]).journal.recsFrom 0;
      recs = recs ++ [] ∧ recs = [] ++ recs ∧ (recs.map Rec.size).sum = 10 ∧ recs.filter ((attached 17 [10]).port .a).passes = recs ∧
        recs ≠ [] ∧ ∀ x ∈ recs, ((attached 17 [9]).port .a).passes x = true ∧ 9 < x.size) := by
  refine ⟨⟨executes_reset _ _ (by decide), rfl⟩, fun pl h => ⟨executes_attached _ _ ?_, rfl⟩, by decide⟩
  revert pl; decide

/-- Waits: detached, too short, N of 0 and 1,025, timeout 0, N of 1 that is met, N of 1,024 that is not. -/
theorem test_met_wait :
    (Executes (ask State.reset .a 18 []) .a 18 (req 18 []) [] ∧ (State.reset.port .a).cursor = none) ∧
    (∀ pl ∈ [[(1 : Byte), 0, 1], [0, 0, 1, 0], [1, 4, 1, 0], [1, 0, 0, 0], [1, 0, 255, 255], [0, 4, 1, 0]],
      Executes (attached 18 pl) .a 18 (req 18 pl) [] ∧ ((attached 18 pl).port .a).cursor ≠ none) ∧
    1 ≤ (attached 18 []).unread .a ∧ (attached 18 []).unread .a < 1024 := by
  refine ⟨⟨executes_reset _ _ (by decide), rfl⟩, fun pl h => ⟨executes_attached _ _ ?_, Option.some_ne_none 0⟩, by decide, by decide⟩
  revert pl; decide

/-- Tally steps: off; no room; room above the exit fill; at the exit fill of 32,768. -/
theorem test_met_tally_step :
    (filled 0 false).tallyMode = false ∧ (filled 65530 true).tallyMode = true ∧ 65536 < (filled 65530 true).fill + 5 + 2 * 0 ∧
    (filled 65529 true).fill + 5 + 2 * 0 ≤ 65536 ∧ 32768 < (filled 32762 true).fill + 5 + 2 * 0 ∧
    (filled 32761 true).fill + 5 + 2 * 0 ≤ 32768 ∧ (allChannels.filter fun c => (filled 0 true).liveHits[c] ≠ 0) = [] := by
  simp only [filled_fill]
  exact ⟨rfl, rfl, by decide, by decide, by decide, by decide, by decide⟩

/-! ### Rollup, load and hold -/

/-- The hysteresis with the defaults K of 2 and R of 3 at the counts before and at each end. -/
theorem test_met_hysteresis :
    let w := Setup.reset.activity
    Rollup.reset.autoHold = false ∧ { Rollup.reset with autoHold := true }.autoHold = true ∧ Rollup.reset.met + 1 < w.k ∧
      w.k ≤ { Rollup.reset with met := 1 }.met + 1 ∧ { Rollup.reset with unmet := 1 }.unmet + 1 < w.r ∧
      w.r ≤ { Rollup.reset with unmet := 2 }.unmet + 1 ∧ 1 ≤ w.k ∧ 1 ≤ w.r ∧ Rollup.reset.met = 0 ∧ Rollup.reset.unmet = 0 := by
  decide

theorem test_met_rollup :
    let s := { runningAt 20 with rollup := { Rollup.reset with nextBoundary := some 20 } }
    (s.run.state = .running ∧ s.rollup.nextBoundary = some s.intake.clock) ∧ (runningAt 20).rollup.nextBoundary ≠ some 20 ∧
      s.journal.tallyMode = false ∧ s.journal.fill + 13 < 49152 := by decide

/-- A stale watch at LS of 5,000 blocks after the start tick 0 and a tick before; evidence and post-window end at tick 20. -/
theorem test_met_timed_events :
    let s := runningAt 20
    s.rollup.stale = false ∧ (runningAt 5120000).setup.item .ac 7 * 1024 ≤ ((runningAt 5120000).intake.clock - 0).toNat ∧
    ¬ (runningAt 5119999).setup.item .ac 7 * 1024 ≤ ((runningAt 5119999).intake.clock - 0).toNat ∧
    s.run.startTick = some 0 ∧ s.rollup.load = none ∧
    (s.withRun { s.run with evidence := some ⟨20, none⟩ }).run.evidence = some ⟨s.intake.clock, none⟩ ∧ s.run.evidence = none ∧
    (s.withRun { s.run with postEnd := some 20 }).run.postEnd = some s.intake.clock ∧ s.run.postEnd ≠ some s.intake.clock := by
  decide

/-- Loads: too short; 16,777,215 and one above it outside a run; in a run without evidence; with evidence, at a load of 0, with PW
of 10,000 and of 0. -/
theorem test_met_load_post :
    Executes (ask State.reset .a 12 [1, 2, 3]) .a 12 (req 12 [1, 2, 3]) [] ∧
    Executes (ask State.reset .a 12 [255, 255, 255, 0]) .a 12 (req 12 [255, 255, 255, 0]) [] ∧
    Executes (ask State.reset .a 12 [0, 0, 0, 1]) .a 12 (req 12 [0, 0, 0, 1]) [] ∧ State.reset.run.state = .idle ∧
    Executes (ask (runningAt 20) .a 12 [1, 0, 0, 0]) .a 12 (req 12 [1, 0, 0, 0]) [] ∧ (runningAt 20).run.evidence = none ∧
    (∀ pw ∈ [10000, 0],
      let s := ((runningAt 20).withRun { (runningAt 20).run with evidence := some ⟨99, none⟩ }).withSetup
        { Setup.reset with ru := [2, 1, 192, 5000, pw] }
      Executes (ask s .a 12 [0, 0, 0, 0]) .a 12 (req 12 [0, 0, 0, 0]) [] ∧ s.run.evidence = some ⟨99, none⟩ ∧
        s.run.state = .running ∧ 0 ≤ s.rollup.pmax * s.setup.item .ru 2 / 256 ∧ s.setup.item .ru 4 = pw) :=
  ⟨executes_reset _ _ (by decide), executes_reset _ _ (by decide), executes_reset _ _ (by decide), rfl,
    executes_running _ _ _ (by decide), rfl,
    fun _ _ => ⟨executes_ask _ _ _ _ rfl (Nat.zero_lt_succ 3) rfl (by decide), rfl, rfl, Nat.zero_le _, rfl⟩⟩

/-! ### Run control -/

/-- The reset state with channel 3 enabled in the setup table. -/
def enabled3 : State := State.reset.withSetup { Setup.reset with ch := Setup.reset.ch.set 36 1 }

theorem test_met_run_start :
    Executes (ask enabled3 .a 8 []) .a 8 (req 8 []) [] ∧ enabled3.run.state = .idle ∧
    (∃ c : ChanId, (enabled3.setup.item .ch (12 * c.val) == 1) = true) ∧
    Executes (ask State.reset .a 8 []) .a 8 (req 8 []) [] ∧
    (∀ c : ChanId, (State.reset.setup.item .ch (12 * c.val) == 1) = false) ∧
    Executes (ask (runningAt 20) .a 8 []) .a 8 (req 8 []) [] ∧ (runningAt 20).run.state ≠ .idle :=
  ⟨executes_ask _ _ _ _ rfl (by decide) rfl (by decide), rfl, ⟨3, by decide⟩, executes_reset _ _ (by decide), by decide,
    executes_running _ _ _ (by decide), by decide⟩

theorem test_met_run_stop_and_clear :
    (∀ code ∈ [9, 10], Executes (ask State.reset .a code []) .a code (req code []) [] ∧
      Executes (ask (runningAt 20) .a code []) .a code (req code []) []) ∧
    (runningAt 20).run.state = .running ∧ ¬ (State.reset.run.state = .running ∨ State.reset.run.state = .final) :=
  ⟨fun _ _ => ⟨executes_reset _ _ (by decide), executes_running _ _ _ (by decide)⟩, rfl, by decide⟩

theorem test_met_rupture_declare :
    Executes (ask (runningAt 20) .a 11 []) .a 11 (req 11 []) [] ∧ (runningAt 20).setup.item .ru 4 ≠ 0 ∧
    (let s := (runningAt 20).withSetup { Setup.reset with ru := [0, 0, 192, 5000, 0] };
      Executes (ask s .a 11 []) .a 11 (req 11 []) [] ∧ s.run.state = .running ∧ s.setup.item .ru 4 = 0) ∧
    (∀ x ∈ [RunState.final, .idle, .closed],
      let s := State.reset.withRun { Run.reset with state := x };
      Executes (ask s .a 11 []) .a 11 (req 11 []) [] ∧ s.run.state = x) :=
  ⟨executes_running _ _ _ (by decide), by decide, ⟨executes_ask _ _ _ _ rfl (by decide) rfl (by decide), rfl, by decide⟩,
    fun _ _ => ⟨executes_ask _ _ _ _ rfl (Nat.zero_lt_succ 3) rfl (by decide), rfl⟩⟩

/-! ### Setup table -/

/-- Reads: IDENTIFY, CLOCK READ, too short, an unknown section, a count of 0, one item past GR, all four items of GR. -/
theorem test_met_setup_read :
    Executes (ask State.reset .a 1 []) .a 1 (req 1 []) [] ∧ Executes (ask State.reset .a 3 []) .a 3 (req 3 []) [] ∧
    (∀ pl ∈ [[(2 : Byte), 0, 0, 4], [0, 0, 0, 1, 0], [6, 0, 0, 1, 0], [2, 0, 0, 0, 0], [2, 1, 0, 4, 0], [2, 0, 0, 4, 0]],
      Executes (ask State.reset .a 5 pl) .a 5 (req 5 pl) []) ∧
    (∀ x : Sect, (0 : Byte).toNat ≠ sectCode x ∧ (6 : Byte).toNat ≠ sectCode x) ∧ (2 : Byte).toNat = sectCode .gr ∧
    itemCount .gr < 1 + 4 ∧ 0 + 4 ≤ itemCount .gr := by
  refine ⟨executes_reset _ _ (by decide), executes_reset _ _ (by decide), fun pl h => executes_reset _ _ ?_, ?_, rfl, by decide,
    by decide⟩
  · revert pl; decide
  · intro x; cases x <;> decide

theorem test_met_peek_and_status :
    Executes (ask State.reset .a 4 []) .a 4 (req 4 []) [] ∧ Executes (ask State.reset .a 4 [16]) .a 4 (req 4 [16]) [] ∧
    Executes (ask State.reset .a 4 [15]) .a 4 (req 4 [15]) [] ∧ Executes (ask State.reset .a 2 []) .a 2 (req 2 []) [] ∧
    (16 ≤ (16 : Byte).toNat ∧ (15 : Byte).toNat = (15 : ChanId).val) :=
  ⟨executes_reset _ _ (by decide), executes_reset _ _ (by decide), executes_reset _ _ (by decide),
    executes_reset _ _ (by decide), by decide⟩

/-- A write of one item. -/
def write1 (section_ start generation value : Byte) : List Byte := [section_, start, 0, generation, 0, 0, 0, value, 0, 0, 0]

/-- Writes applied: the last item of GR, a code, and the first item of AC, a number to be clamped. -/
theorem test_met_setup_write :
    (∀ pl ∈ [write1 2 3 0 1, write1 3 0 0 0], Executes (ask State.reset .a 6 pl) .a 6 (req 6 pl) []) ∧
    (words4 [1, 0, 0, 0] = [1] ∧ (itemTable .gr)[3]? = some (.codes 1 1) ∧ 3 + 1 ≤ itemCount .gr) ∧
    (words4 [0, 0, 0, 0] = [0] ∧ (itemTable .ac)[0]? = some (.numeric 1 65535 4096) ∧ 0 + 1 ≤ itemCount .ac) ∧
    State.reset.setup.generation = 0 ∧ State.reset.setup.lockDetection = false ∧ State.reset.setup.lockCriteria = false := by
  refine ⟨fun pl h => executes_reset _ _ ?_, by decide, by decide, rfl, rfl, rfl⟩
  revert pl; decide

/-- Writes refused: no value, a stale generation, a locked section, an unknown section, past the end, a code not listed. -/
theorem test_met_setup_write_refused :
    (∀ pl ∈ [[], [(2 : Byte), 0, 0, 0, 0, 0, 0], [2, 0, 0, 0, 0, 0, 0, 1], write1 2 3 1 1, write1 0 0 0 1, write1 6 0 0 1,
        write1 2 4 0 1, write1 2 3 0 2], Executes (ask State.reset .a 6 pl) .a 6 (req 6 pl) []) ∧
    (let s := State.reset.withSetup { Setup.reset with lockDetection := true, lockCriteria := true };
      (∀ pl ∈ [write1 1 0 0 1, write1 4 0 0 1], Executes (ask s .a 6 pl) .a 6 (req 6 pl) []) ∧
        s.setup.lockDetection = true ∧ s.setup.lockCriteria = true) ∧
    ((0 : Byte) ++ (0 : Byte) ++ (0 : Byte) ++ (1 : Byte)) ≠ State.reset.setup.generation ∧ itemCount .gr < 4 + 1 ∧
    ((itemTable .gr)[3]? = some (.codes 1 1) ∧ words4 [2, 0, 0, 0] = [2] ∧ 1 < 2) := by
  refine ⟨fun pl h => executes_reset _ _ ?_, ⟨fun pl h => executes_ask _ _ _ _ rfl (by decide) rfl ?_, rfl, rfl⟩, by decide,
    by decide, by decide, by decide⟩
  · revert pl; decide
  · revert pl; decide

theorem test_met_setup_lock :
    (∀ pl ∈ [[], [(0 : Byte)], [1], [2]], Executes (ask State.reset .a 7 pl) .a 7 (req 7 pl) []) ∧
    (let s := State.reset.withSetup { Setup.reset with lockDetection := true };
      Executes (ask s .a 7 [1]) .a 7 (req 7 [1]) [] ∧ (s.setup.lockDetection || (1 : Byte).getLsbD 0) = s.setup.lockDetection) := by
  refine ⟨fun pl h => executes_reset _ _ ?_, executes_ask _ _ _ _ rfl (by decide) rfl (by decide), rfl⟩
  revert pl; decide

/-! ### Preamplifier status line -/

/-- Every cycle state of the statements, and the two line modes. -/
theorem test_met_cycle_states :
    (∀ x ∈ [CycleState.idle, .start 0, .start 2, .start 3, .slot 0 .drive, .slot 15 .restore, .slot 14 .release,
        .slot 15 .release, .stop 0 none, .stop 1 (some .quiet), .stop 2 (some .continuous)],
      (inCycle State.reset x).status.cycle = x ∧ (inCycle State.reset x).resetHeld = false) ∧
    State.reset.status.lineMode = .continuous ∧
    (State.reset.withStatus { Status.reset with lineMode := .quiet }).status.lineMode = .quiet ∧
    State.reset.status.refTick = none ∧ (14 : ChanId).val + 1 = (15 : ChanId).val := by decide

/-- A due start: at the status period of 10 blocks after the reference, and not one tick before. -/
theorem test_met_cycle_start :
    10 * 1024 ≤ ((10240 : Tick) - 0).toNat ∧ ¬ 10 * 1024 ≤ ((10239 : Tick) - 0).toNat ∧ State.reset.setup.item .pt 20 = 10 := by
  decide

/-! ### Request ports -/

/-- A port within an exchange that shifts out the EMPTY frame. -/
def exchanging : State := State.reset.updPort .a PortState.startExchange

/-- The two ends of an exchange: no exchange, one in progress, and a queued response. -/
theorem test_met_exchange :
    (State.reset.port .a).exchange = none ∧ (State.reset.port .a).responses = [] ∧
    (exchanging.port .a).exchange = some ⟨false, [0, 0, 0, 11, 0, 0]⟩ ∧
    ((State.reset.updPort .a fun q => { q with responses := [⟨7, 1, .ok, []⟩] }).port .a).responses = ⟨7, 1, .ok, []⟩ :: [] := by
  decide

/-- An exchange of eight bytes shifts out the EMPTY frame of six and two bytes of 0, and an idle port drives nothing (R172). -/
theorem test_bytes_after_the_frame :
    ((exchanging.port .a).exchange.map fun x => x.shiftedOut 8) = some [0, 0, 0, 11, 0, 0, 0, 0] ∧
      (exchanging.port .a).dataOut 9 = some 0 ∧ (exchanging.port .b).dataOut 0 = none := by decide

/-- The bytes of the exchange clauses: three bytes, 1,020 and 1,021 declared, a cut and a complete payload, PORT RESET. -/
theorem test_met_exchange_bytes :
    ([1, 7, 0] : List Byte).length < 4 ∧ (0xFC : Byte).toNat + 256 * (3 : Byte).toNat = 1020 ∧
    1020 < (0xFD : Byte).toNat + 256 * (3 : Byte).toNat ∧ ([] : List Byte).length < (1 : Byte).toNat + 256 * (0 : Byte).toNat ∧
    (1 : Byte).toNat + 256 * (0 : Byte).toNat ≤ ([5] : List Byte).length ∧ (20 : Byte) ≠ 0 ∧ (1 : Byte) ≠ 20 := by decide

/-- An unlisted code, 21, and a declared length of 1,021; a port that executes nothing for each of the three causes. -/
theorem test_met_unknown_and_length :
    Ready (ask State.reset .a 21 []) .a (req 21 []) [] ∧ 20 < (req 21 []).code.toNat ∧ (req 21 []).declared ≤ 1020 ∧
    (let r : Request := ⟨1, 7, 1021, []⟩;
      Ready (State.reset.updPort .a fun q => { q with requests := [r] }) .a r [] ∧ 1020 < r.declared) ∧
    ((waiting 2).port .a).wait ≠ none ∧ (State.reset.port .a).requests = [] ∧ .identify .a ∈ requestsOf .a :=
  ⟨⟨rfl, rfl, by decide, rfl⟩, by decide, by decide, ⟨⟨rfl, rfl, by decide, rfl⟩, by decide⟩, by decide, rfl, by decide⟩

theorem test_met_notices_read : Executes (ask State.reset .a 19 []) .a 19 (req 19 []) [] := executes_reset _ _ (by decide)

/-! ### Invariants -/

/-- The state of a run meets every invariant, and a command answers a next state there. -/
theorem test_met_invariants :
    (runningAt 20).NoticesOk ∧ (runningAt 20).QueuesOk ∧ (runningAt 20).JournalOk ∧ (runningAt 20).ChannelsRest ∧
    (runningAt 20).FaultsAgree ∧ (runningAt 20).MagnitudesOk ∧ (runningAt 20).GroupsOk ∧ (runningAt 20).PlacementsOk ∧
    exec .groupLockoutEnd (runningAt 20) = .next (runningAt 20) := by
  refine ⟨?_, ?_, ⟨⟨by decide, fun _ => by decide⟩, ?_, ?_⟩, ?_, ?_, ?_, ?_, ?_, rfl⟩
  · intro p; cases p <;> exact List.nodup_nil
  · intro p; cases p <;> exact ⟨by decide, by decide, nofun⟩
  · intro i h; exact absurd h (Nat.not_lt_zero i)
  · intro p cur h; cases p <;> cases h
  · intro h; exact absurd h (by decide)
  · unfold State.FaultsAgree; decide
  · unfold State.MagnitudesOk; decide
  · exact ⟨by decide, nofun, nofun, nofun⟩
  · unfold State.PlacementsOk Grouping.Follows; decide

/-- A hit in channel 3 that is an ACTIVE member of an OPEN group, and a hit in channel 3 set aside: both agree with the channel. -/
theorem test_met_placements :
    let s := chanAt 20 (.inHit cand) false
    (s.withGrouping ((engine [group true]).place 3 .grouped)).PlacementsOk ∧
      (s.withGrouping ((engine []).place 3 (.ungrouped .full))).PlacementsOk := by
  unfold State.PlacementsOk Grouping.Follows; decide

/-- The setup table of a run is within its ranges, and SETUP WRITE changes its generation. -/
theorem test_met_setup_ok : (runningAt 20).SetupOk := by
  intro x; refine ⟨by cases x <;> rfl, ?_⟩
  cases x <;> decide +kernel

end Sys2Proof.Tests
end

