-- ==== Sys2Proof/Proofs/Samples.lean ====
section
/-! SUPPORT. The magnitude and the saturated flag of a sample (R8). -/

namespace Sys2Proof.Machine

/-- A sample is a signed 16-bit number. -/
theorem toInt_word16_bounds (w : Word16) : -32768 ≤ w.toInt ∧ w.toInt ≤ 32767 := by
  have hlo := w.le_toInt
  have hhi := w.toInt_lt
  omega

/-- The limit of 32,767 acts on one sample alone, −32,768: the magnitude of any other is its absolute value (R8). -/
theorem magnitude_eq_magnitudeOf (w : Word16) : magnitude w = Claims.magnitudeOf w := by
  obtain ⟨hlo, hhi⟩ := toInt_word16_bounds w
  unfold magnitude Claims.magnitudeOf Config.maxMagnitude
  split
  · next h => rw [h]; rfl
  · next h => exact Nat.min_eq_right (by omega)

/-- The two words that the flag tests are the ends of the converter's range, 32,767 and −32,768 (R8). -/
theorem saturated_iff (w : Word16) : saturated w = true ↔ w.toInt = 32767 ∨ w.toInt = -32768 := by
  have top : w = 0x7FFF ↔ w.toInt = 32767 := BitVec.toInt_inj.symm
  have bottom : w = 0x8000 ↔ w.toInt = -32768 := BitVec.toInt_inj.symm
  simp only [saturated, Bool.or_eq_true, beq_iff_eq, top, bottom]

end Sys2Proof.Machine

open Sys2Proof.Machine in
/-- Settles O10: R8 for one word, from the range of a signed word; a frame's sample and the items handed to a channel hold the
magnitude and the flag of word c + 1 by their definitions. -/
theorem sampleMagnitudeAndSaturation : Obligations.SampleMagnitudeAndSaturation :=
  ⟨fun w => ⟨magnitude_eq_magnitudeOf w, magnitude_le w, saturated_iff w⟩,
    fun _ _ _ => rfl,
    fun _ _ _ _ => ⟨rfl, rfl⟩⟩
end

