-- ==== Sys2Proof/Proofs/AmplitudeCode.lean ====
section
/-! SUPPORT. The amplitude code of a peak (R47): the octave, the table F and the order of the codes. -/

namespace Sys2Proof.Machine

/-! ### The table F -/

/-- The table as R47 prints it. -/
theorem ampStep_eq_getD : ∀ i ≤ 7, ampStep i = [0, 4, 8, 11, 14, 17, 19, 22].getD i 0 := by decide

theorem ampStep_mono : Monotone ampStep := by
  refine monotone_nat_of_le_succ fun i => ?_
  match i with
  | 0 | 1 | 2 | 3 | 4 | 5 | 6 => decide
  | _ + 7 => exact Nat.le_refl 22

/-- The last entry is 22, two short of an octave, so that no entry carries a code into the next octave. -/
theorem ampStep_le (i : Nat) : ampStep i ≤ 22 :=
  ampStep_mono (Nat.le_add_right i 7)

/-! ### The octave and the three bits after it -/

/-- The octave of a peak is the place of its highest set bit. -/
theorem octave_bounds {p : Nat} (hp : 1 ≤ p) : 2 ^ p.log2 ≤ p ∧ p < 2 ^ (p.log2 + 1) :=
  ⟨Nat.log2_self_le (Nat.ne_of_gt hp), Nat.lt_log2_self⟩

theorem octave_mono {p q : Nat} (h : p ≤ q) : p.log2 ≤ q.log2 := by
  simpa only [Nat.log2_eq_log_two] using Nat.log_mono_right h

/-- The highest magnitude, 32,767, stands in octave 14. -/
theorem octave_le_fourteen {p : Nat} (h : p ≤ 32767) : p.log2 ≤ 14 :=
  (octave_mono h).trans (by decide)

/-- A peak lies less than eight eighths above the foot of its octave, so the table is read within its eight entries. -/
theorem eighth_le_seven {p : Nat} (hp : 1 ≤ p) : p * 8 / 2 ^ p.log2 - 8 ≤ 7 := by
  have hlt : p * 8 / 2 ^ p.log2 < 16 := by
    refine (Nat.div_lt_iff_lt_mul (Nat.two_pow_pos _)).2 ?_
    have := (octave_bounds hp).2
    omega
  omega

/-! ### The code -/

/-- A code stays within the 24 steps of its octave. -/
theorem ampCode_bounds (p : Nat) : 24 * p.log2 ≤ ampCode p ∧ ampCode p ≤ 24 * p.log2 + 22 :=
  ⟨Nat.le_add_right _ _, Nat.add_le_add_left (ampStep_le _) _⟩

/-- Of two peaks in one octave the larger has the later eighth; of two in different octaves the steps of the lower one's octave
end before the other's begin. -/
theorem ampCode_mono : Monotone ampCode := by
  intro p q h
  obtain heq | hlt := Nat.eq_or_lt_of_le (octave_mono h)
  · have heighth : p * 8 / 2 ^ q.log2 - 8 ≤ q * 8 / 2 ^ q.log2 - 8 :=
      Nat.sub_le_sub_right (Nat.div_le_div_right (Nat.mul_le_mul_right 8 h)) 8
    simpa only [ampCode, heq] using Nat.add_le_add_left (ampStep_mono heighth) (24 * q.log2)
  · have hp := (ampCode_bounds p).2
    have hq := (ampCode_bounds q).1
    omega

theorem ampCode_le {p : Nat} (h : p ≤ 32767) : ampCode p ≤ 358 :=
  (ampCode_mono h).trans (by decide)

end Sys2Proof.Machine

open Sys2Proof.Machine in
/-- Settles O17: R47 with the octave for the number h; the highest code is the code of the highest magnitude, by monotonicity. -/
theorem amplitudeCodeIsMonotone : Obligations.AmplitudeCodeIsMonotone := by
  refine ⟨fun p hp hmax => ?_, fun p q _ h _ => ampCode_mono h, by decide, by decide, fun _ _ => rfl⟩
  obtain ⟨hfoot, htop⟩ := octave_bounds hp
  have heighth := eighth_le_seven hp
  have hcode := congrArg (24 * p.log2 + ·) (ampStep_eq_getD _ heighth)
  exact ⟨p.log2, octave_le_fourteen hmax, hfoot, htop, heighth, hcode, ampCode_le hmax⟩
end

