-- ==== Sys2Proof/Proofs/Background.lean ====
section
/-! SUPPORT. The background estimator's update (R56) and the threshold in force (R57, R58). -/

namespace Sys2Proof.Machine

/-! ### The step of the estimator -/

/-- A step down, rounded toward minus infinity, is at least 1 and not past the distance. -/
theorem step_of_neg {d n : Int} (hn : 0 < n) (hd : d < 0) : d ≤ d / n ∧ d / n < 0 := by
  refine ⟨(Int.le_ediv_iff_mul_le hn).2 ?_, Int.ediv_neg_of_neg_of_pos hd hn⟩
  have hone : (1 : Int) ≤ n := hn
  simpa only [mul_one] using mul_le_mul_of_nonpos_left hone hd.le

/-- A step up is not past the distance. -/
theorem step_of_nonneg {d n : Int} (hn : 0 < n) (hd : 0 ≤ d) : 0 ≤ d / n ∧ d / n ≤ d :=
  ⟨Int.ediv_nonneg hd hn.le, Int.ediv_le_self n hd⟩

/-! ### The estimate -/

/-- The estimate never falls below zero, so that it is the integer that R56 forms. -/
theorem estimate_cast (b m bs : Nat) : (estimate b m bs : Int) = b + (16 * (m : Int) - b) / 2 ^ bs := by
  have hn : (0 : Int) < 2 ^ bs := by positivity
  refine Int.toNat_of_nonneg ?_
  obtain hd | hd := lt_or_ge (16 * (m : Int) - b) 0
  · have := (step_of_neg hn hd).1
    omega
  · have := (step_of_nonneg hn hd).1
    omega

/-- Above sixteen times the magnitude the estimate falls by at least 1 and not past it (R56). -/
theorem estimate_of_gt {b m : Nat} (bs : Nat) (h : 16 * m < b) : 16 * m ≤ estimate b m bs ∧ estimate b m bs < b := by
  have hstep := step_of_neg (d := 16 * (m : Int) - b) (n := 2 ^ bs) (by positivity) (by omega)
  have hcast := estimate_cast b m bs
  omega

/-- Up to sixteen times the magnitude the estimate does not fall and does not rise past it (R56). -/
theorem estimate_of_le {b m : Nat} (bs : Nat) (h : b ≤ 16 * m) : b ≤ estimate b m bs ∧ estimate b m bs ≤ 16 * m := by
  have hstep := step_of_nonneg (d := 16 * (m : Int) - b) (n := 2 ^ bs) (by positivity) (by omega)
  have hcast := estimate_cast b m bs
  omega

/-- The estimate rests when it is less than 2^BS short: the quotient is 0 (R56). -/
theorem estimate_rests {b m bs : Nat} (h : b ≤ 16 * m) (hshort : 16 * m - b < 2 ^ bs) : estimate b m bs = b := by
  have hlt : 16 * (m : Int) - b < 2 ^ bs := by
    have := Int.ofNat_lt.2 hshort
    push_cast [Nat.cast_sub h] at this
    exact this
  have hzero : (16 * (m : Int) - b) / 2 ^ bs = 0 := Int.ediv_eq_zero_of_lt (by omega) hlt
  have hcast := estimate_cast b m bs
  omega

/-- The estimate lies between its old value and sixteen times the magnitude, so in the range of both. -/
theorem estimate_le {b m : Nat} (bs : Nat) (hb : b ≤ 524272) (hm : m ≤ 32767) : estimate b m bs ≤ 524272 := by
  obtain h | h := Nat.lt_or_ge (16 * m) b
  · have := (estimate_of_gt bs h).2
    omega
  · have := (estimate_of_le bs h).2
    omega

/-! ### The threshold in force -/

theorem threshold_fixed {w : ChParams} (h : w.floating = false) (b : Nat) : threshold w b = w.tfix := by
  simp [threshold, h]

theorem threshold_floating {w : ChParams} (h : w.floating = true) (b : Nat) :
    threshold w b = min 32767 (max w.tfix (b * w.fm / 128)) := by
  simp [threshold, h, Config.maxMagnitude]

/-- Tfix is the floor in both modes and the highest magnitude the ceiling (R57, R58). -/
theorem threshold_bounds {w : ChParams} (h : w.tfix ≤ 32767) (b : Nat) :
    w.tfix ≤ threshold w b ∧ threshold w b ≤ 32767 := by
  cases hmode : w.floating with
  | false =>
    rw [threshold_fixed hmode]
    exact ⟨Nat.le_refl _, h⟩
  | true =>
    rw [threshold_floating hmode]
    exact ⟨Nat.le_min.2 ⟨h, Nat.le_max_left _ _⟩, Nat.min_le_left _ _⟩

end Sys2Proof.Machine

open Sys2Proof.Machine in
/-- Settles O18: R56 from the sign of the distance to sixteen times the magnitude, R57 and R58 by the mode. The division that
rounds toward minus infinity is the model's, since the divisor 2^BS is not negative. -/
theorem estimatorAndThresholdStayInRange : Obligations.EstimatorAndThresholdStayInRange := by
  refine ⟨fun b m bs hb hm => ⟨?_, estimate_le bs hb hm, estimate_of_gt bs, estimate_of_le bs, estimate_rests⟩,
    fun w b => ⟨fun h => threshold_fixed h b, fun h => threshold_floating h b, fun h => threshold_bounds h b⟩⟩
  rw [Int.fdiv_eq_ediv_of_nonneg _ (by positivity)]
  exact estimate_cast b m bs
end

