-- ==== Sys2Proof/Proofs/Filters.lean ====
section
/-! SUPPORT. The filter test of a port (R93): the bits of a mask of channels, the channel flags of an admitted record, and the
two rows of the test. -/

namespace Sys2Proof.Machine

/-! ### The bits of a mask of channels -/

/-- The mask is a sum of distinct powers of two, so that its set bits are the numbers of the channels that meet the test. -/
theorem bitIndices_channelMask (f : ChanId → Bool) : (channelMask f).bitIndices = (allChannels.filter f).map Fin.val := by
  have ascending : allChannels.Pairwise fun c d => c.val < d.val := by decide
  have sorted : ((allChannels.filter f).map Fin.val).SortedLT :=
    (List.pairwise_map.2 (ascending.sublist List.filter_sublist)).sortedLT
  have sum : channelMask f = (((allChannels.filter f).map Fin.val).map fun i => 2 ^ i).sum := by
    rw [channelMask_eq, List.map_map]; rfl
  rw [sum, Nat.bitIndices_sum_map_two_pow sorted]

@[simp] theorem testBit_channelMask (f : ChanId → Bool) (c : ChanId) : (channelMask f).testBit c.val = f c := by
  rw [Bool.eq_iff_iff, ← Nat.mem_bitIndices, bitIndices_channelMask, List.mem_map_of_injective Fin.val_injective,
    List.mem_filter]
  exact and_iff_right (mem_allChannels c)

/-! ### The channel flags of an admitted record (section 11.1) -/

theorem Journal.record_flags_getLsbD (j : Journal) (o : Offer) (c : ChanId) :
    (j.record o).flags.getLsbD c.val = o.flags.testBit c.val := by
  simp only [Journal.record, BitVec.getLsbD_ofNat, c.isLt, decide_true, Bool.true_and]

/-- The one channel flag of a HIT record is its channel's. -/
theorem hitOffer_flag (c : ChanId) (why : Reason) (f : Features) (d : ChanId) :
    (hitOffer c why f).flags.testBit d.val = true ↔ d = c := by
  simp [hitOffer, Nat.testBit_two_pow, Fin.ext_iff, eq_comm]

/-- The channel flags of a GROUP record are its members'. -/
theorem groupOffer_flag (loc : Bool) (es : List Emitted) (d : ChanId) :
    (groupOffer loc es).flags.testBit d.val = true ↔ ∃ e ∈ es, e.ch = d := by
  simp [groupOffer]

/-! ### The rows of the test -/

/-- The HIT and GROUP rows: the kind bit, and a channel flag of the record in the channel mask. -/
theorem PortState.passes_of_flagged (q : PortState) {r : Rec} (h : r.kind = .hit ∨ r.kind = .group) :
    q.passes r = true ↔ q.kindMask.getLsbD (r.kind.code - 1) = true ∧
      ∃ d : ChanId, q.chanMask.getLsbD d.val = true ∧ r.flags.getLsbD d.val = true := by
  rw [← and_ne_zero_iff]
  obtain h | h := h <;> simp only [PortState.passes, h, Bool.and_eq_true]

/-- The row of the other four kinds: the kind bit alone. -/
theorem PortState.passes_of_unflagged (q : PortState) {r : Rec} {k : RecKind} (hk : r.kind = k) (hit : k ≠ .hit)
    (group : k ≠ .group) : q.passes r = true ↔ q.kindMask.getLsbD (k.code - 1) = true := by
  subst hk
  unfold PortState.passes
  split
  · contradiction
  · contradiction
  all_goals rw [Bool.and_true]

theorem PortState.passes_hit (q : PortState) (j : Journal) (c : ChanId) (why : Reason) (f : Features) :
    q.passes (j.record (hitOffer c why f)) = true ↔
      q.kindMask.getLsbD 0 = true ∧ q.chanMask.getLsbD c.val = true := by
  rw [q.passes_of_flagged (.inl rfl)]
  refine and_congr_right fun _ => ?_
  simp only [Journal.record_flags_getLsbD, hitOffer_flag, exists_eq_right]

theorem PortState.passes_group (q : PortState) (j : Journal) (loc : Bool) (es : List Emitted) :
    q.passes (j.record (groupOffer loc es)) = true ↔
      q.kindMask.getLsbD 1 = true ∧ ∃ e ∈ es, q.chanMask.getLsbD e.ch.val = true := by
  rw [q.passes_of_flagged (.inr rfl)]
  refine and_congr_right fun _ => ?_
  simp only [Journal.record_flags_getLsbD, groupOffer_flag]
  constructor
  · rintro ⟨_, hd, e, he, rfl⟩
    exact ⟨e, he, hd⟩
  · rintro ⟨e, he, hd⟩
    exact ⟨e.ch, hd, e, he, rfl⟩

end Sys2Proof.Machine

open Sys2Proof.Machine in
/-- Settles O30: the rows of R93 one by one. A HIT or GROUP record is tested by its channel flags, which are the bits of its
channel or of its members' channels. -/
theorem passingRecords : Obligations.PassingRecords := by
  refine fun q j => ⟨q.passes_hit j, q.passes_group j, fun r => ⟨?load, ?activity, ?tally, ?mark⟩⟩
  all_goals exact fun hk => q.passes_of_unflagged hk (by decide) (by decide)
end

