-- ==== Sys2Proof/Proofs/ControlLines.lean ====
section
/-! SUPPORT. When the sources of the control lines are active (R129) and the level of a line (R128). -/

namespace Sys2Proof.Machine

/-! ### The sources that are made of several blocks -/

/-- Any hold: the auto hold, a manual flag of either port, or rupture (R129). -/
theorem State.anyHold_iff (s : State) :
    s.anyHold = true ↔
      s.rollup.autoHold = true ∨ s.portA.manual = true ∨ s.portB.manual = true ∨ s.run.rupture ≠ none := by
  simp only [State.anyHold, Bool.or_eq_true, Option.isSome_iff_ne_none, or_assoc]

/-- A run is active in RUNNING and in FINAL, and in no other run state (section 7.1). -/
theorem RunState.active_iff (r : RunState) : r.active = true ↔ r = .running ∨ r = .final := by
  cases r <;> decide

/-- Any fault: a channel in FAULT, or the status line declared down (R129). -/
theorem State.anyFault_iff (s : State) :
    s.anyFault = true ↔ (∃ c, (s.chan c).st = .fault) ∨ s.status.lineDown = true := by
  simp only [State.anyFault, Bool.or_eq_true, List.any_eq_true, mem_allChannels, true_and, beq_iff_eq]

/-! ### The level of a line -/

theorem Setup.coActiveLow_iff (t : Setup) (line : Fin 3) :
    t.coActiveLow line = true ↔ t.item .pt (14 + 2 * line.val) = 1 := beq_iff_eq

/-- An active-low line is high while its source is not active, and an active-high line while it is (R128). -/
theorem State.coHigh_iff (s : State) (line : Fin 3) :
    s.coHigh line = true ↔
      if s.setup.coActiveLow line = true then s.coActive (s.setup.coSource line) = false
      else s.coActive (s.setup.coSource line) = true := by
  unfold State.coHigh
  split
  · next low => rw [low, Bool.bne_true, Bool.not_eq_true']
  · next high => rw [Bool.eq_false_of_not_eq_true high, Bool.bne_false]

end Sys2Proof.Machine

open Sys2Proof.Machine in
/-- Settles O38: the codes of R129 one by one, where a code names one flag of a block or one of the three joint sources, and then
the level of a line by its polarity. -/
theorem controlLineSources : Obligations.ControlLineSources := by
  intro s
  refine ⟨?none, ?autoHold, ?manualA, ?manualB, ?anyHold, ?rupture, ?runActive, ?tallyMode, ?anyFault, ?level⟩
  case none => rfl
  case autoHold | manualA | manualB | tallyMode => exact Iff.rfl
  case anyHold => exact s.anyHold_iff
  case rupture => exact Option.isSome_iff_ne_none
  case runActive => exact s.run.state.active_iff
  case anyFault => exact s.anyFault_iff
  case level =>
    intro line
    simp only [s.coHigh_iff, Setup.coActiveLow_iff, Setup.coSource]
end

