-- ==== Sys2Proof/Proofs/SetupWrite.lean ====
section
/-! SUPPORT. An applied SETUP WRITE (R153 to R158): the fields of its payload, the four tests passed, the values stored and the
table after the write. -/

namespace Sys2Proof.Machine

/-! ### The section's items, its code and the header -/

theorem sectCode_eq_code (x : Sect) : Claims.sectCode x = x.code := by cases x <;> rfl

theorem itemTable_eq_items (x : Sect) : Claims.itemTable x = x.items := by cases x <;> rfl

theorem itemCount_eq_length (x : Sect) : Claims.itemCount x = x.items.length := by cases x <;> rfl

theorem lockByte_eq (t : Setup) : [Claims.lockByte t.lockDetection t.lockCriteria] = leBytes 1 t.lockSet := by
  unfold Setup.lockSet
  cases t.lockDetection <;> cases t.lockCriteria <;> rfl

theorem setupHeader_eq_header (t : Setup) : Claims.setupHeader t = t.header := by
  simp only [Claims.setupHeader, Setup.header, lockByte_eq, wordBytes, leBytes_eq, Claims.lsbFirst]

/-! ### The values stored (R157) -/

/-- Clamping to a range that holds a value is the nearer limit, taken on both sides. -/
theorem ItemSpec.clamp_numeric {lo hi : Nat} (h : lo ≤ hi) (d v : Nat) :
    (ItemSpec.numeric lo hi d).clamp v = max lo (min hi v) := by
  simp only [ItemSpec.clamp]
  split
  · omega
  · split <;> omega

/-- A rule that takes the nearer limit of a number and leaves a code as written stores what the model stores: no range of the
table is empty. -/
theorem zipWith_span_eq_clampAll (f : ItemSpec → Nat → Nat)
    (numeric : ∀ lo hi d v, f (.numeric lo hi d) v = max lo (min hi v)) (codes : ∀ last d v, f (.codes last d) v = v)
    (x : Sect) (start : Nat) (vs : List Nat) : List.zipWith f (x.span start) vs = clampAll (x.span start) vs := by
  have agree : ∀ i ∈ x.span start, ∀ v, f i v = i.clamp v := by
    intro i mem v
    cases i with
    | numeric lo hi d =>
      have range : lo ≤ hi := x.items_ranges _ (List.mem_of_mem_drop mem) _ _ _ rfl
      rw [numeric, ItemSpec.clamp_numeric range]
    | codes last d => exact codes last d v
  refine List.ext_getElem (by simp [clampAll]) fun k _ _ => ?_
  simpa only [clampAll, List.getElem_zipWith] using agree _ (List.getElem_mem _) _

/-- The values clamped are those whose stored value differs from the one written. -/
theorem clampedCount_eq (items : List ItemSpec) (vs : List Nat) :
    clampedCount items vs = (List.zipWith (fun a b => decide (a ≠ b)) (clampAll items vs) vs).countP id := by
  unfold clampedCount
  congr 1
  refine List.ext_getElem (by simp [clampAll]) fun k _ _ => ?_
  simp only [clampAll, List.getElem_zipWith, bne, beq_eq_decide, decide_not, ne_eq]

/-! ### The table after a write (R151, R157) -/

theorem Setup.write_values_same (t : Setup) (x : Sect) (start : Nat) (vs : List Nat) :
    (t.write x start vs).values x = Claims.overwritten (t.values x) start (clampAll (x.span start) vs) := by
  cases x <;> rfl

theorem Setup.write_values_of_ne (t : Setup) {x y : Sect} (h : y ≠ x) (start : Nat) (vs : List Nat) :
    (t.write x start vs).values y = t.values y := by
  cases x <;> cases y
  case ch.ch | gr.gr | ac.ac | ru.ru | pt.pt => exact absurd rfl h
  all_goals rfl

@[simp] theorem Setup.write_generation (t : Setup) (x : Sect) (start : Nat) (vs : List Nat) :
    (t.write x start vs).generation = t.generation + 1 := rfl

@[simp] theorem Setup.write_lockDetection (t : Setup) (x : Sect) (start : Nat) (vs : List Nat) :
    (t.write x start vs).lockDetection = t.lockDetection := by
  cases x <;> rfl

@[simp] theorem Setup.write_lockCriteria (t : Setup) (x : Sect) (start : Nat) (vs : List Nat) :
    (t.write x start vs).lockCriteria = t.lockCriteria := by
  cases x <;> rfl

/-! ### The fields of the payload (R153) -/

theorem field_section (b : Byte) (tl : List Byte) : field (b :: tl) 0 1 = b.toNat := by
  simp [field, leNat]

theorem field_start (b s0 s1 : Byte) (tl : List Byte) : field (b :: s0 :: s1 :: tl) 1 2 = s0.toNat + 256 * s1.toNat := by
  simp [field, leNat]

theorem field_generation (b s0 s1 g0 g1 g2 g3 : Byte) (tl : List Byte) :
    BitVec.ofNat 32 (field (b :: s0 :: s1 :: g0 :: g1 :: g2 :: g3 :: tl) 3 4) = g3 ++ g2 ++ g1 ++ g0 := by
  have : field (b :: s0 :: s1 :: g0 :: g1 :: g2 :: g3 :: tl) 3 4 = leNat [g0, g1, g2, g3] := rfl
  rw [this, leNat_four, BitVec.ofNat_toNat]
  exact BitVec.setWidth_eq _

/-! ### The tests passed (R153 to R156) -/

theorem Sect.ofCode_code (x : Sect) : Sect.ofCode x.code = some x := (Sect.ofCode_eq_some _ x).2 rfl

/-- A section that neither lock covers while it is held is not locked (R155). -/
theorem Setup.locked_eq_false {t : Setup} {x : Sect} (detection : ¬ (t.lockDetection = true ∧ (x = .ch ∨ x = .gr)))
    (criteria : ¬ (t.lockCriteria = true ∧ (x = .ac ∨ x = .ru))) : t.locked x = false := by
  cases x with
  | ch | gr => simpa [Setup.locked] using detection
  | ac | ru => simpa [Setup.locked] using criteria
  | pt => rfl

/-- Values within the section, the codes among them listed, pass the structural test (R156). -/
theorem writeFault_eq_none {x : Sect} {start : Nat} {vs : List Nat} (nonempty : vs ≠ [])
    (within : start + vs.length ≤ x.items.length)
    (listed : ∀ i v, vs[i]? = some v → ∀ last d, x.items[start + i]? = some (.codes last d) → v ≤ last) :
    writeFault x.code start vs = none := by
  have starts : start < x.items.length := by
    have := List.length_pos_iff.2 nonempty
    omega
  simp only [writeFault, x.ofCode_code, starts, within, decide_true, Bool.and_true, if_true]
  refine (firstFault_eq_none _ _ _).2 fun i spec v hspec hv => ?_
  rw [Sect.span, List.getElem?_drop] at hspec
  cases spec with
  | numeric lo hi d => rfl
  | codes last d => exact decide_eq_false (Nat.not_lt.2 (listed i v hv last d hspec))

/-- A list of whole values that is not empty carries one. -/
theorem words4_ne_nil {l : List Byte} (hne : l ≠ []) (whole : l.length % 4 = 0) : words4 l ≠ [] := by
  have count : (words4 l).length = l.length / 4 := words4_length _ l (by omega)
  have := List.length_pos_iff.2 hne
  refine List.length_pos_iff.1 ?_
  omega

/-- The effect of a write that the four tests let through. -/
theorem setupWriteBody_applied {r : Request} {s : State} {x : Sect} {b s0 s1 g0 g1 g2 g3 : Byte} {tl : List Byte}
    (payload : r.payload = b :: s0 :: s1 :: g0 :: g1 :: g2 :: g3 :: tl) (nonempty : tl ≠ []) (whole : tl.length % 4 = 0)
    (current : g3 ++ g2 ++ g1 ++ g0 = s.setup.generation) (unlocked : s.setup.locked x = false) (named : b.toNat = x.code)
    (sound : writeFault x.code (s0.toNat + 256 * s1.toNat) (words4 tl) = none) :
    setupWriteBody r s = s.applyWrite x (s0.toNat + 256 * s1.toNat) (words4 tl) := by
  have values : (b :: s0 :: s1 :: g0 :: g1 :: g2 :: g3 :: tl).drop 7 = tl := rfl
  have length_ne : tl.length ≠ 0 := mt List.eq_nil_of_length_eq_zero nonempty
  have lock : s.setup.lockedCode x.code = false := by simpa only [Setup.lockedCode, x.ofCode_code] using unlocked
  simp only [setupWriteBody, payload, field_section, field_start, field_generation, values, length_ne, whole, current, named,
    lock, sound, x.ofCode_code, ne_eq, not_true_eq_false, decide_false, Bool.or_false, Bool.false_eq_true, if_false]

/-! ### The execution -/

/-- The execution of a request whose effect leaves the queue alone (R176). -/
theorem serve_eq_answered {s t : State} {p : Port} {code : Nat} {r : Request} {rest : List Request}
    {body : Request → State → State × Reply} {x : Reply} (h : Claims.Executes s p code r rest) (effect : body r s = (t, x))
    (queue : (t.port p).requests = (s.port p).requests) :
    (s.whileReleased fun s => s.serve p code body) = Claims.answered t p r rest x.result x.payload := by
  rw [s.whileReleased_eq _ h.released, s.serve_eq p code body r (s.ready_eq p r rest h.queue h.room h.noWait) h.code h.length,
    effect, State.finish_eq t x p r rest (queue.trans h.queue)]
  rfl

theorem exec_setupWrite (p : Port) (s : State) :
    exec (.setupWrite p) s = .next (s.whileReleased fun s => s.serve p 6 setupWriteBody) := rfl

/-- An applied write as it is executed: the notice goes by the table as it stands after the write, and the header is the new one
(R157, R158). -/
theorem exec_setupWrite_applied {s : State} {p : Port} {r : Request} {rest : List Request} {x : Sect} {start : Nat}
    {vs : List Nat} (h : Claims.Executes s p 6 r rest) (effect : setupWriteBody r s = s.applyWrite x start vs) :
    exec (.setupWrite p) s =
      .next (Claims.answered ((s.withSetup (s.setup.write x start vs)).postWith .setupChanged x.code (s.setup.generation + 1))
        p r rest (if clampedCount (x.span start) vs = 0 then .ok else .adjusted)
        ((s.setup.write x start vs).header ++ leBytes 2 (clampedCount (x.span start) vs))) := by
  rw [exec_setupWrite]
  exact congrArg _ (serve_eq_answered h effect (by simp))

end Sys2Proof.Machine

open Sys2Proof.Machine in
/-- Settles O46: the payload's fields pass the four tests, so that the write is applied; the state between the write and the
notice is the old one with the written table. -/
theorem setupWriteIsApplied : Obligations.SetupWriteIsApplied := by
  intro s p r rest h b s0 s1 g0 g1 g2 g3 tl payload start vs x named nonempty whole current detection criteria within listed
    stored clamped
  rw [itemCount_eq_length] at within
  simp only [itemTable_eq_items] at listed
  rw [sectCode_eq_code] at named
  have sound := writeFault_eq_none (words4_ne_nil nonempty whole) within listed
  have effect : setupWriteBody r s = s.applyWrite x start vs :=
    setupWriteBody_applied payload nonempty whole current (Setup.locked_eq_false detection criteria) named sound
  have hstored : stored = clampAll (x.span start) vs := by
    simp only [stored, itemTable_eq_items]
    exact zipWith_span_eq_clampAll _ (fun _ _ _ _ => rfl) (fun _ _ _ => rfl) x start vs
  have hclamped : clamped = clampedCount (x.span start) vs := by
    rw [clampedCount_eq, ← hstored]
  refine ⟨s.withSetup (s.setup.write x start vs), ?answer, rfl, s.setup.write_generation x start vs, ?written,
    fun y hy => ?others, ?locks⟩
  case answer =>
    rw [exec_setupWrite_applied h effect, sectCode_eq_code, setupHeader_eq_header, hclamped, Claims.lsbFirst, ← leBytes_eq]
    rfl
  case written => rw [hstored]; exact s.setup.write_values_same x start vs
  case others => exact s.setup.write_values_of_ne hy start vs
  case locks => exact ⟨s.setup.write_lockDetection x start vs, s.setup.write_lockCriteria x start vs⟩
end

