-- ==== Sys2Proof/Proofs/SetupRead.lean ====
section
/-! SUPPORT. Three requests that only read: IDENTIFY (R179), CLOCK READ (R13) and SETUP READ (R152). -/

namespace Sys2Proof.Machine

/-! ### The commands as reads -/

/-- A request whose effect is a reply alone is answered in the state it found (R176). -/
theorem serve_read_eq_answered {s : State} {p : Port} {code : Nat} {r : Request} {rest : List Request}
    (h : Claims.Executes s p code r rest) (reply : Request → State → Reply) :
    (s.whileReleased fun s => s.serve p code fun r s => (s, reply r s)) =
      Claims.answered s p r rest (reply r s).result (reply r s).payload :=
  serve_eq_answered h rfl rfl

theorem exec_identify {s : State} {p : Port} {r : Request} {rest : List Request} (h : Claims.Executes s p 1 r rest) :
    exec (.identify p) s = .next (Claims.answered s p r rest identifyReply.result identifyReply.payload) :=
  congrArg _ (serve_read_eq_answered h fun _ _ => identifyReply)

theorem exec_clockRead {s : State} {p : Port} {r : Request} {rest : List Request} (h : Claims.Executes s p 3 r rest) :
    exec (.clockRead p) s = .next (Claims.answered s p r rest s.clockReply.result s.clockReply.payload) :=
  congrArg _ (serve_read_eq_answered h fun _ s => s.clockReply)

theorem exec_setupRead {s : State} {p : Port} {r : Request} {rest : List Request} (h : Claims.Executes s p 5 r rest) :
    exec (.setupRead p) s = .next (Claims.answered s p r rest (s.setup.readReply r.payload).result
      (s.setup.readReply r.payload).payload) :=
  congrArg _ (serve_read_eq_answered h fun r s => s.setup.readReply r.payload)

/-! ### The response of CLOCK READ (R13, R187) -/

theorem lsbFirst_eq_leBytes (n : Nat) : Claims.lsbFirst n = leBytes n :=
  funext fun x => (leBytes_eq n x).symm

/-- A byte read as a number is written back as the same byte. -/
theorem leBytes_one_toNat (b : Byte) : leBytes 1 b.toNat = [b] :=
  congrArg (fun x => [x]) ((BitVec.ofNat_toNat ..).trans b.setWidth_eq)

theorem State.clockReply_of_seq_none {s : State} (h : s.intake.seq = none) :
    s.clockReply = ⟨.ok, leBytes 6 s.intake.clock.toNat ++ [0, 0]⟩ := by
  simp only [State.clockReply, h, List.append_assoc]
  rfl

theorem State.clockReply_of_seq_some {s : State} {q : FrameSeq} (h : s.intake.seq = some q) :
    s.clockReply = ⟨.ok, leBytes 6 s.intake.clock.toNat ++ [1, q.expected]⟩ := by
  simp only [State.clockReply, h, leBytes_one_toNat, List.append_assoc]
  rfl

/-! ### The response of SETUP READ (R152) -/

theorem field_count (b s0 s1 n0 n1 : Byte) (tl : List Byte) :
    field (b :: s0 :: s1 :: n0 :: n1 :: tl) 3 2 = n0.toNat + 256 * n1.toNat := by
  simp [field, leNat]

section Reply
variable (t : Setup) {payload : List Byte}

theorem Setup.readReply_of_short (short : payload.length < 5) : t.readReply payload = ⟨.range, t.header⟩ := if_pos short

theorem Setup.readReply_of_unnamed (long : 5 ≤ payload.length) (unnamed : ∀ x : Sect, field payload 0 1 ≠ x.code) :
    t.readReply payload = ⟨.range, t.header⟩ := by
  have names := (Sect.ofCode_eq_none _).2 unnamed
  simp only [Setup.readReply, Nat.not_lt.2 long, if_false, names]

/-- The span of a named section is read where it is not empty and ends within the section. -/
theorem Setup.readReply_of_named {x : Sect} (long : 5 ≤ payload.length) (named : field payload 0 1 = x.code) :
    t.readReply payload =
      if 1 ≤ field payload 3 2 ∧ field payload 1 2 + field payload 3 2 ≤ x.items.length then
        ⟨.ok, t.header ++
          ((((t.values x).drop (field payload 1 2)).take (field payload 3 2)).map (leBytes 4)).flatten⟩
      else ⟨.range, t.header⟩ := by
  simp only [Setup.readReply, Nat.not_lt.2 long, if_false, named, x.ofCode_code, Bool.and_eq_true, decide_eq_true_eq]

end Reply

end Sys2Proof.Machine

open Sys2Proof.Machine in
/-- Settles O44: each command answers its reply in the state it found. The values of IDENTIFY are the part's constants, the
bytes of CLOCK READ depend on whether the intake is synchronized, and SETUP READ tests length, section and span in that
order; a span that starts beyond its section's items also ends beyond them. -/
theorem identifyClockAndSetupRead : Obligations.IdentifyClockAndSetupRead := by
  intro s p r rest
  refine ⟨fun h => exec_identify h, fun h => ?clock, fun h => ⟨fun short => ?short, ?fields⟩⟩
  case clock =>
    rw [exec_clockRead h, lsbFirst_eq_leBytes]
    cases synchronized : s.intake.seq with
    | none => rw [State.clockReply_of_seq_none synchronized]
    | some q => rw [State.clockReply_of_seq_some synchronized]
  case short => rw [exec_setupRead h, s.setup.readReply_of_short short, setupHeader_eq_header]
  case fields =>
    intro b s0 s1 n0 n1 tl payload start count
    have long : 5 ≤ r.payload.length := by simp [payload]
    have hsection : field r.payload 0 1 = b.toNat := by rw [payload, field_section]
    have hstart : field r.payload 1 2 = start := by rw [payload, field_start]
    have hcount : field r.payload 3 2 = count := by rw [payload, field_count]
    simp only [exec_setupRead h, setupHeader_eq_header, sectCode_eq_code, itemCount_eq_length, lsbFirst_eq_leBytes,
      ← hsection, ← hstart, ← hcount]
    refine ⟨fun unnamed => ?unnamed, fun x named => ⟨fun outside => ?outside, fun nonempty within => ?within⟩⟩
    case unnamed => rw [s.setup.readReply_of_unnamed long unnamed]
    case outside => rw [s.setup.readReply_of_named long named, if_neg (by omega)]
    case within => rw [s.setup.readReply_of_named long named, if_pos ⟨nonempty, within⟩]
end

