-- ==== Sys2Proof/Proofs/NoticesRead.lean ====
section
/-! SUPPORT. NOTICES READ (R183, R188): the bytes of an entry, ATTN and the execution. -/

namespace Sys2Proof.Machine

/-! ### The bytes of an entry (R188) -/

theorem sourceNumber_eq_number (x : Source) : Claims.sourceNumber x = x.number := by cases x <;> rfl

/-- The four level sources, as one byte of an entry (section 10.5). -/
theorem Source.boolBytes_isLevel (x : Source) :
    boolBytes x.isLevel = [if x = .autoHold ∨ x = .tallyMode ∨ x = .loadStale ∨ x = .lineDown then 1 else 0] := by
  cases x <;> rfl

theorem Notice.bytes_eq (e : Notice) :
    e.bytes =
      [BitVec.ofNat 8 (Claims.sourceNumber e.source),
        if e.source = .autoHold ∨ e.source = .tallyMode ∨ e.source = .loadStale ∨ e.source = .lineDown then 1 else 0,
        BitVec.ofNat 8 e.count, BitVec.ofNat 8 e.sect] ++ Claims.lsbFirst 4 e.detail.toNat := by
  rw [Notice.bytes, e.source.boolBytes_isLevel, sourceNumber_eq_number, lsbFirst_eq_leBytes]
  rfl

/-! ### ATTN (R183) -/

theorem PortState.attn_iff (q : PortState) : q.attn = true ↔ q.notices ≠ [] := by
  simp [PortState.attn]

/-! ### The execution -/

theorem exec_noticesRead {s : State} {p : Port} {r : Request} {rest : List Request} (h : Claims.Executes s p 19 r rest) :
    exec (.noticesRead p) s =
      .next (Claims.answered (s.withPort p { s.port p with notices := [] }) p r rest .ok
        (leBytes 1 (s.port p).notices.length ++ ((s.port p).notices.map Notice.bytes).flatten)) :=
  congrArg _ (serve_eq_answered (x := (s.port p).noticesReply) h rfl (by simp))

end Sys2Proof.Machine

open Sys2Proof.Machine in
/-- Settles O53: the reply lists the bytes of the entries as they stood before the command emptied the list. -/
theorem noticesReadEmptiesTheList : Obligations.NoticesReadEmptiesTheList := by
  intro s p r rest h entries level
  refine ⟨?answer, PortState.attn_iff, s.withPort_port_other p _⟩
  case answer => rw [exec_noticesRead h, funext Notice.bytes_eq, ← lsbFirst_eq_leBytes]
end

