-- ==== Sys2Proof/Proofs/PortsBounded.lean ====
section
/-! SUPPORT. Every command answers a next state, and what the commands of Laws/Commands.lean keep is kept by the two of reset as
well when the reset state has it (R14, R184). With them the notice lists and the queues of the ports (R182, R176, R177). -/

namespace Sys2Proof.Machine

/-! ### Commands as a whole -/

/-- No command faults and none is refused. -/
theorem exec_completes (c : Instr) (s : State) : ∃ t, exec c s = .next t := by
  cases c <;> exact ⟨_, rfl⟩

theorem exec_fullReset (cause : ResetCause) (s : State) :
    exec (.fullReset cause) s =
      .next { State.reset with resetHeld := cause == .resetnLow, pending := s.pending } := rfl

theorem exec_resetRelease (s : State) : exec .resetRelease s = .next (s.withResetHeld false) := rfl

/-- A property that every command keeps: those of a released part as Laws/Commands.lean has it, full reset and its release. -/
theorem KeptCommands.exec_all {P : State → Prop} (h : KeptCommands P)
    (reset : ∀ (held : Bool) (queue : List Instr), P { State.reset with resetHeld := held, pending := queue })
    (release : ∀ s, P s → P (s.withResetHeld false)) {c : Instr} {s t : State} (hs : P s)
    (he : Machine.exec c s = .next t) : P t := by
  by_cases hreset : ∃ cause, c = .fullReset cause
  · obtain ⟨cause, rfl⟩ := hreset
    rw [exec_fullReset] at he
    cases he
    exact reset _ _
  by_cases hrelease : c = .resetRelease
  · subst hrelease
    rw [exec_resetRelease] at he
    cases he
    exact release s hs
  · exact h.exec c s t ⟨fun cause e => hreset ⟨cause, e⟩, hrelease⟩ hs he

/-! ### Properties of the ports -/

theorem State.NoticesOk.updPort {s : State} (h : s.NoticesOk) {p : Port} {f : PortState → PortState}
    (hf : (s.port p).NoticesOk → (f (s.port p)).NoticesOk) : (s.updPort p f).NoticesOk := s.updPort_all p f h hf

theorem State.QueuesOk.updPort {s : State} (h : s.QueuesOk) {p : Port} {f : PortState → PortState}
    (hf : (s.port p).QueuesOk → (f (s.port p)).QueuesOk) : (s.updPort p f).QueuesOk := s.updPort_all p f h hf

/-- The ports after run clear: the waits ended, the cursors and the manual flags cleared, and what the postings add (R140). -/
theorem State.clearRun_kept {P : State → Prop} (blocks : ∀ s t : State, (∀ p, t.port p = s.port p) → P s → P t)
    (post : ∀ s src sect d, P s → P (s.postWith src sect d))
    (endWait : ∀ s p x n, (s.port p).wait.isSome = true → P s → P (s.endWait p x n))
    (clear : ∀ s p, P s → P (s.updPort p PortState.runClear)) (s : State) (hs : P s) : P s.clearRun := by
  have wait : ∀ (u : State) (p : Port), P u → P (u.clearWait p) := by
    intro u p hu
    unfold State.clearWait
    split
    · next hw => exact endWait u p _ _ hw hu
    · exact hu
  have journal : ∀ u : State, P u → P u.clearJournal := by
    intro u hu
    have := blocks u (u.withJournal Journal.reset) (by simp) hu
    simp only [State.clearJournal]
    split
    · exact post _ _ _ _ this
    · exact this
  have rollup : ∀ u : State, P u → P u.clearRollup := by
    intro u hu
    have := blocks u (u.withRollup u.rollup.runClear) (by simp) hu
    simp only [State.clearRollup]
    split
    · exact post _ _ _ _ this
    · exact this
  have locks : ∀ u : State, P u → P u.clearLocks := by
    intro u hu
    have := blocks u (u.withSetup { u.setup with lockDetection := false, lockCriteria := false }) (by simp) hu
    simp only [State.clearLocks]
    split
    · exact post _ _ _ _ this
    · exact this
  have ports := clear _ .b (clear _ .a (wait _ .b (wait _ .a hs)))
  have emptied : ∀ (u : State) (x : Vector Channel 16) (y : Grouping), P u → P ((u.withChannels x).withGrouping y) :=
    fun u x y => blocks u _ (by simp)
  have idle : ∀ u : State, P u → P (u.withRun Run.reset) := fun u => blocks u _ (by simp)
  exact locks _ (post _ _ _ _ (idle _ (rollup _ (journal _ (emptied _ _ _ ports)))))

/-! ### The notice lists (R182) -/

theorem PortState.NoticesOk.endExchange {q : PortState} (h : q.NoticesOk) (bytes : List Byte) : (q.endExchange bytes).NoticesOk := by
  have settled : ∀ x n, (q.settleResponse x n).NoticesOk := by
    intro x n
    unfold PortState.settleResponse
    split <;> exact h
  unfold PortState.endExchange PortState.takeBytes
  cases q.exchange with
  | none => exact h
  | some x =>
    cases judge bytes with
    | nothing | short => exact settled x _
    | request r =>
      simp only [PortState.takeIn]
      split <;> exact settled x _
    | portReset tag => exact List.nodup_nil

theorem State.clearRun_noticesOk (s : State) (h : s.NoticesOk) : s.clearRun.NoticesOk :=
  s.clearRun_kept (P := State.NoticesOk) (fun _ _ e h r => by rw [e r]; exact h r) Kept.of_noticesOk.post
    Kept.of_noticesOk.endWait (fun _ _ h => h.updPort id) h

theorem KeptCommands.of_noticesOk : KeptCommands State.NoticesOk where
  toKeptAll := Kept.of_noticesOk
  startExchange s p h := h.updPort fun hq => by unfold PortState.startExchange; split <;> exact hq
  endExchange s p bytes h := h.updPort fun hq => hq.endExchange bytes
  finish s p x _ _ h := h.updPort fun hq => by simpa [PortState.NoticesOk] using hq
  defer s p w _ _ h := h.updPort id
  manual s p x h := h.updPort id
  filter s p x y h := h.updPort id
  noticesRead s p h := h.updPort fun _ => List.nodup_nil
  attach s p cur _ h := fun r => by simpa [State.attach] using State.NoticesOk.updPort h id r
  move s p cur n _ _ h := fun r => by simpa [State.attach] using State.NoticesOk.updPort h id r
  detach s p h := fun r => by simpa using State.NoticesOk.updPort h id r
  write s x start vs _ h := fun r => by simpa using h r
  locks s d c h := fun r => by simpa using h r
  clearRun := State.clearRun_noticesOk

/-! ### The queues (R98, R176, R177) -/

theorem PortState.QueuesOk.takeIn {q : PortState} (h : q.QueuesOk) (r : Request) : (q.takeIn r).QueuesOk := by
  obtain ⟨hreq, hresp, hwait⟩ := h
  unfold PortState.takeIn
  split
  · next room =>
    simp only [Config.queueDepth] at room
    exact ⟨by simp; omega, hresp, fun w => ⟨(hwait w).1, by simp⟩⟩
  · exact ⟨hreq, hresp, hwait⟩

/-- A response removed leaves a queue that is shorter by one (R175). -/
theorem PortState.QueuesOk.settleResponse {q : PortState} (h : q.QueuesOk) (x : Exchange) (n : Nat) :
    (q.settleResponse x n).QueuesOk := by
  obtain ⟨hreq, hresp, hwait⟩ := h
  have shorter : q.responses.tail.length ≤ q.responses.length := by simp
  unfold PortState.settleResponse
  split
  · exact ⟨hreq, shorter.trans hresp, fun w => ⟨shorter.trans (hwait w).1, (hwait w).2⟩⟩
  · exact ⟨hreq, hresp, hwait⟩

theorem PortState.QueuesOk.endExchange {q : PortState} (h : q.QueuesOk) (bytes : List Byte) : (q.endExchange bytes).QueuesOk := by
  unfold PortState.endExchange PortState.takeBytes
  cases q.exchange with
  | none => exact h
  | some x =>
    have settled := h.settleResponse x bytes.length
    cases judge bytes with
    | nothing | short => exact settled
    | request r => exact settled.takeIn r
    | portReset tag => exact ⟨by simp [PortState.portReset], by simp [PortState.portReset], by simp [PortState.portReset]⟩

theorem State.clearRun_queuesOk (s : State) (h : s.QueuesOk) : s.clearRun.QueuesOk :=
  s.clearRun_kept (P := State.QueuesOk) (fun _ _ e h r => by rw [e r]; exact h r) Kept.of_queuesOk.post
    Kept.of_queuesOk.endWait (fun _ _ h => h.updPort id) h

theorem KeptCommands.of_queuesOk : KeptCommands State.QueuesOk where
  toKeptAll := Kept.of_queuesOk
  startExchange s p h := h.updPort fun hq => by unfold PortState.startExchange; split <;> exact hq
  endExchange s p bytes h := h.updPort fun hq => hq.endExchange bytes
  finish s p x wait room h := h.updPort fun hq => PortState.answer_queuesOk _ _ _ hq room wait
  defer s p w queue room h := h.updPort fun hq => ⟨hq.1, hq.2.1, fun _ => ⟨room, queue⟩⟩
  manual s p x h := h.updPort id
  filter s p x y h := h.updPort id
  noticesRead s p h := h.updPort id
  attach s p cur _ h := fun r => by simpa [State.attach] using State.QueuesOk.updPort h id r
  move s p cur n _ _ h := fun r => by simpa [State.attach] using State.QueuesOk.updPort h id r
  detach s p h := fun r => by simpa using State.QueuesOk.updPort h id r
  write s x start vs _ h := fun r => by simpa using h r
  locks s d c h := fun r => by simpa using h r
  clearRun := State.clearRun_queuesOk

theorem State.reset_noticesOk : State.reset.NoticesOk := fun p => by cases p <;> exact List.nodup_nil

theorem State.reset_queuesOk : State.reset.QueuesOk := fun p => by cases p <;> simp [PortState.QueuesOk, State.reset, PortState.reset]

end Sys2Proof.Machine

open Sys2Proof.Machine in
/-- Settles O54: the two bounds through Laws/Commands.lean; a port as full reset leaves it meets both. -/
theorem portsStayBounded : Obligations.PortsStayBounded := by
  intro c s t notices queues he
  exact ⟨KeptCommands.of_noticesOk.exec_all (fun _ _ p => by cases p <;> exact State.reset_noticesOk .a)
      (fun _ h p => by simpa using h p) notices he,
    KeptCommands.of_queuesOk.exec_all (fun _ _ p => by cases p <;> exact State.reset_queuesOk .a)
      (fun _ h p => by simpa using h p) queues he⟩
end

