-- ==== Sys2Proof/Proofs/JournalSound.lean ====
section
/-! SUPPORT. The journal's soundness (R85, R86, R88, R102) through the requests and run clear. -/

namespace Sys2Proof.Machine

/-- Soundness rests on the journal and the cursors alone, and a cursor given up does it no harm. -/
theorem State.JournalOk.of_cursors {s t : State} (h : s.JournalOk) (journal : t.journal = s.journal)
    (cursors : ∀ p cur, (t.port p).cursor = some cur → (s.port p).cursor = some cur) : t.JournalOk := by
  obtain ⟨bounded, numbered, within⟩ := h
  unfold State.JournalOk State.CursorsOk
  rw [journal]
  exact ⟨bounded, numbered, fun p cur hp => within p cur (cursors p cur hp)⟩

theorem State.JournalOk.updPort {s : State} (h : s.JournalOk) {p : Port} {f : PortState → PortState}
    (cursor : ∀ cur, (f (s.port p)).cursor = some cur → (s.port p).cursor = some cur) : (s.updPort p f).JournalOk := by
  refine h.of_cursors (by simp) fun r cur hr => ?_
  by_cases e : r = p
  · subst e
    exact cursor cur (by simpa using hr)
  · rwa [s.updPort_port_ne f e] at hr

@[simp] theorem PortState.startExchange_cursor (q : PortState) : q.startExchange.cursor = q.cursor := by
  unfold PortState.startExchange
  split <;> rfl

@[simp] theorem PortState.endExchange_cursor (q : PortState) (bytes : List Byte) : (q.endExchange bytes).cursor = q.cursor := by
  have settled : ∀ x n, (q.settleResponse x n).cursor = q.cursor := by
    intro x n
    unfold PortState.settleResponse
    split <;> rfl
  unfold PortState.endExchange PortState.takeBytes
  cases q.exchange with
  | none => rfl
  | some x =>
    cases judge bytes with
    | nothing | short | portReset tag => exact settled x _
    | request r =>
      simp only [PortState.takeIn]
      split <;> exact settled x _

/-- Records that a walk may pass stand between the cursor and the append point, so the cursor after them lies within (R95). -/
theorem Journal.moved_distance {j : Journal} (hb : j.Bounded) {cur : SeqNo} {n : Nat}
    (hc : (cur - j.floor).toNat ≤ j.recs.length) (hn : n ≤ (j.recsFrom cur).length) :
    (cur + BitVec.ofNat 32 n - j.floor).toNat ≤ j.recs.length := by
  have few := hb.length_le
  rw [Journal.recsFrom, List.length_drop] at hn
  rw [show cur + BitVec.ofNat 32 n - j.floor = cur - j.floor + BitVec.ofNat 32 n by bv_omega, BitVec.toNat_add,
    BitVec.toNat_ofNat]
  omega

/-- Everything of the journal and of a cursor at run clear: an empty store that begins at 0, and cursors at 0 (R109). -/
def State.JournalCleared (s : State) : Prop :=
  s.journal = Journal.reset ∧ ∀ p cur, (s.port p).cursor = some cur → cur = 0

theorem State.JournalCleared.journalOk {s : State} (h : s.JournalCleared) : s.JournalOk := by
  obtain ⟨journal, cursors⟩ := h
  refine ⟨?bounded, ?numbered, fun p cur hp => ?within⟩
  case within => rw [cursors p cur hp, journal]; decide
  all_goals rw [journal]
  case bounded => exact ⟨by decide, fun _ => by decide⟩
  case numbered => exact fun i hi => absurd hi (Nat.not_lt_zero i)

theorem State.clearRun_cursor (s : State) (p : Port) : (s.clearRun.port p).cursor = (s.port p).cursor.map fun _ => 0 := by
  have wait : ∀ (u : State) (r : Port), ((u.clearWait r).port p).cursor = (u.port p).cursor := by
    intro u r
    unfold State.clearWait
    split <;> simp
  have posts : ∀ u : State,
      (((u.clearJournal.clearRollup.withRun Run.reset).post .runState RunState.idle.code).clearLocks.port p).cursor =
        (u.port p).cursor := by
    intro u
    simp only [State.clearLocks, State.clearRollup, State.clearJournal]
    repeat' split
    all_goals simp
  rw [State.clearRun, posts]
  simp only [State.withGrouping_port, State.withChannels_port]
  cases p with
  | a => simp [State.updPort_port_ne, PortState.runClear, -State.port_a, -State.port_b, wait]
  | b => simp [State.updPort_port_ne, PortState.runClear, -State.port_a, -State.port_b, wait]

theorem State.clearRun_journal (s : State) : s.clearRun.journal = Journal.reset := by
  simp only [State.clearRun, State.clearLocks, State.clearRollup, State.clearJournal]
  repeat' split
  all_goals rfl

theorem State.clearRun_journalOk (s : State) : s.clearRun.JournalOk := by
  refine State.JournalCleared.journalOk ⟨s.clearRun_journal, fun p cur hp => ?_⟩
  rw [s.clearRun_cursor, Option.map_eq_some_iff] at hp
  obtain ⟨_, _, rfl⟩ := hp
  rfl

theorem KeptCommands.of_journalOk : KeptCommands State.JournalOk where
  toKeptAll := Kept.of_journalOk
  startExchange s p h := h.updPort fun cur hp => by simpa using hp
  endExchange s p bytes h := h.updPort fun cur hp => by simpa using hp
  finish s p x _ _ h := h.updPort fun cur hp => by simpa using hp
  defer s p w _ _ h := h.updPort fun _ => id
  manual s p x h := h.updPort fun _ => id
  filter s p x y h := h.updPort fun _ => id
  noticesRead s p h := h.updPort fun _ => id
  attach s p cur place h := by
    refine s.attach_journalOk p cur h ?_
    obtain ⟨bounded, numbered, -⟩ := h
    rcases place with rfl | rfl
    · simp
    · exact s.journal.appendPoint_distance bounded numbered
  move s p cur n hp hn h := s.attach_journalOk p _ h (Journal.moved_distance h.1 (h.2.2 p cur hp) hn)
  detach s p h := State.reclaim_journalOk _ (h.updPort fun _ e => nomatch e)
  write s x start vs _ h := h.of_cursors (by simp) fun p cur hp => by simpa using hp
  locks s d c h := h.of_cursors (by simp) fun p cur hp => by simpa using hp
  clearRun s _ := s.clearRun_journalOk

theorem State.reset_journalCleared : State.reset.JournalCleared := ⟨rfl, fun p cur hp => by cases p <;> cases hp⟩

end Sys2Proof.Machine

open Sys2Proof.Machine in
/-- Settles O55: the requests move a cursor to the floor, to the append point or past records that stand before it; reclaim and
run clear keep what is left in order. -/
theorem journalStaysSound : Obligations.JournalStaysSound := by
  intro c s t h he
  refine KeptCommands.of_journalOk.exec_all (fun held queue => ?_) (fun u hu => ?_) h he
  · exact State.reset_journalCleared.journalOk.of_cursors rfl fun p cur hp => by cases p <;> exact hp
  · exact hu.of_cursors rfl fun p cur hp => by simpa using hp
end

