-- ==== Sys2Proof/Proofs/Effects.lean ====
section
/-! SUPPORT. What a command does to the seven blocks beside the journal and the ports: one inversion lemma for `exec`, with the
operation each command comes to. The invariants of those blocks are proved by its cases. -/

namespace Sys2Proof.Machine

/-! ### States that differ in the journal, the ports and the queue alone -/

/-- Two states with the same frame intake, channels, grouping engine, rollup unit, run control, setup table and status line
unit. -/
structure State.SameBlocks (s t : State) : Prop where
  intake : s.intake = t.intake
  channels : s.channels = t.channels
  grouping : s.grouping = t.grouping
  rollup : s.rollup = t.rollup
  run : s.run = t.run
  setup : s.setup = t.setup
  status : s.status = t.status

namespace State.SameBlocks

variable {s t u : State}

theorem refl (s : State) : s.SameBlocks s := ⟨rfl, rfl, rfl, rfl, rfl, rfl, rfl⟩

theorem trans (h : s.SameBlocks t) (k : t.SameBlocks u) : s.SameBlocks u :=
  ⟨h.intake.trans k.intake, h.channels.trans k.channels, h.grouping.trans k.grouping, h.rollup.trans k.rollup,
    h.run.trans k.run, h.setup.trans k.setup, h.status.trans k.status⟩

theorem chan (h : s.SameBlocks t) (c : ChanId) : s.chan c = t.chan c := by simp [State.chan, h.channels]

theorem runActive (h : s.SameBlocks t) : s.runActive = t.runActive := by simp [State.runActive, h.run]

theorem updPort (s : State) (p : Port) (f : PortState → PortState) : (s.updPort p f).SameBlocks s := by
  constructor <;> simp

theorem withJournal (s : State) (j : Journal) : (s.withJournal j).SameBlocks s := by constructor <;> rfl

theorem postWith (s : State) (src : Source) (sect : Nat) (d : Word32) : (s.postWith src sect d).SameBlocks s := by
  constructor <;> rfl

theorem offer (s : State) (o : Offer) : (s.offer o).SameBlocks s := by constructor <;> simp

theorem finish (r : State × Reply) (p : Port) : (State.finish r p).SameBlocks r.1 := updPort _ _ _

theorem reclaim (s : State) : s.reclaim.SameBlocks s := withJournal _ _

theorem attach (s : State) (p : Port) (cur : SeqNo) : (s.attach p cur).SameBlocks s := (reclaim _).trans (updPort _ _ _)

theorem waitTimeout (s : State) (p : Port) : (s.waitTimeout p).SameBlocks s := by
  unfold State.waitTimeout
  repeat' split
  all_goals first
    | exact refl s
    | exact updPort _ _ _

theorem waitSatisfied (s : State) (p : Port) : (s.waitSatisfied p).SameBlocks s := by
  unfold State.waitSatisfied
  repeat' split
  all_goals first
    | exact refl s
    | exact updPort _ _ _

theorem read (s : State) (p : Port) (cur : SeqNo) (n : Nat) : (s.read p cur n).1.SameBlocks s := by
  have moved : ∀ k, (s.moveCursor p cur k).SameBlocks s := by
    intro k
    unfold State.moveCursor
    split
    · exact refl s
    · exact attach _ _ _
  simp only [State.read]
  split
  · exact refl s
  · exact moved _

theorem waitRequest (s : State) (p : Port) (r : Request) : (s.waitRequest p r).SameBlocks s := by
  unfold State.waitRequest
  repeat' split
  all_goals first
    | exact finish _ _
    | exact updPort _ _ _

end State.SameBlocks

/-! ### The operation of a command -/

/-- The handling of a channel that a channel event with a report makes (R17, R29, R31). -/
inductive State.Event (s : State) (c : ChanId) : Channel × Option Report → Prop where
  | faultArrival : s.Event c ((s.chan c).faultArrival c)
  | glitch : s.Event c ((s.chan c).glitchTest c s.clock)
  | hitEnd : s.Event c ((s.chan c).hitEndTest c s.clock)
  | hitTrunc : s.Event c ((s.chan c).hitTruncTest c s.clock)

/-- The handling of a channel that a channel event without a report makes (R18, R27, R34). -/
inductive State.QuietEvent (s : State) (c : ChanId) : Channel → Prop where
  | faultCleared : s.QuietEvent c ((s.chan c).faultCleared s.runActive)
  | peakFreeze : s.QuietEvent c ((s.chan c).peakFreeze s.clock)
  | lockoutEnd : s.QuietEvent c ((s.chan c).lockoutEndTest s.clock)

/-- The operation that a command makes on the seven blocks. -/
inductive Effect : Instr → State → State → Prop where
  | nothing (i : Instr) (s : State) : Effect i s s
  | collect (w : Word16) (s : State) : Effect (.partialFrame w) s (s.withIntake { s.intake with collecting := [w] })
  | frame (ws : List Word16) (s : State) : Effect (.frame ws) s (s.frame ws)
  | clockWrap (s : State) : Effect .clockWrap s s.wrapClock
  | event (i : Instr) (c : ChanId) (r : Channel × Option Report) (s : State) (h : s.Event c r) :
      Effect i s (s.channelEvent c r)
  | quietEvent (i : Instr) (c : ChanId) (x : Channel) (s : State) (h : s.QuietEvent c x) : Effect i s (s.withChan c x)
  | windowClose (s : State) : Effect .windowClose s (s.withGrouping (s.grouping.windowClose s.clock))
  | groupLockoutEnd (s : State) : Effect .groupLockoutEnd s (s.withGrouping (s.grouping.lockoutEnd s.clock))
  | evidenceLapse (s : State) : Effect .evidenceLapse s s.evidenceLapse
  | postWindowEnd (s : State) : Effect .postWindowEnd s s.postWindowEnd
  | rollup (s : State) : Effect .rollup s s.rollupAtTick
  | loadStale (s : State) : Effect .loadStale s s.staleCheck
  | startCycle (s : State) : Effect .statusCycleStart s s.startCycle
  | nodeStart (s : State) : Effect .nodeStart s s.nodeStart
  | cycleEnd (m : LineMode) (s : State) : Effect .statusCycleEnd s (s.completeCycle m)
  | cycleAbort (s : State) : Effect .cycleAbort s s.abortCycle
  | statusClock (l : LineLevel) (s : State) : Effect (.statusClock l) s (s.statusTick l)
  | setupWrite (p : Port) (x : Sect) (start : Nat) (vs : List Nat) (s : State) (h : writeFault x.code start vs = none) :
      Effect (.setupWrite p) s (s.withSetup (s.setup.write x start vs))
  | setupLock (p : Port) (d c : Bool) (s : State) :
      Effect (.setupLock p) s (s.withSetup { s.setup with lockDetection := d, lockCriteria := c })
  | runStart (p : Port) (s : State) (h : s.run.state = .idle) : Effect (.runStart p) s s.startRun
  | runStop (p : Port) (s : State) (h : s.runActive = true) : Effect (.runStop p) s (s.close (.runStop p))
  | runClear (p : Port) (s : State) (h : s.runActive = false) : Effect (.runClear p) s s.clearRun
  | ruptureDeclare (p : Port) (s : State) (h : s.run.state = .running) :
      Effect (.ruptureDeclare p) s (s.declareNow (declareSource p) none)
  | loadPost (p : Port) (v : Nat) (s : State) : Effect (.loadPost p) s (s.postLoad p v)

/-- The blocks after a command are those that the operation leaves. -/
def Effect.Reaches (i : Instr) (s t : State) : Prop := ∃ u, Effect i s u ∧ t.SameBlocks u

theorem Effect.reaches {i : Instr} {s u : State} (h : Effect i s u) : Effect.Reaches i s u := ⟨u, h, .refl u⟩

theorem Effect.reaches_same {i : Instr} {s t : State} (h : t.SameBlocks s) : Effect.Reaches i s t := ⟨s, .nothing i s, h⟩

theorem Effect.reaches_serve {i : Instr} (s : State) (p : Port) (code : Nat) (body : Request → State → State × Reply)
    (h : ∀ r, Effect.Reaches i s (body r s).1) : Effect.Reaches i s (s.serve p code body) := by
  rcases s.serve_cases p code body with e | ⟨r, -, e⟩ <;> rw [e]
  · exact (Effect.nothing i s).reaches
  · obtain ⟨u, hu, same⟩ := h r
    exact ⟨u, hu, (State.SameBlocks.finish _ p).trans same⟩

/-- The requests that leave the seven blocks as they are. -/
theorem Effect.reaches_serve_same {i : Instr} (s : State) (p : Port) (code : Nat) (body : Request → State → State × Reply)
    (h : ∀ r, (body r s).1.SameBlocks s) : Effect.Reaches i s (s.serve p code body) :=
  Effect.reaches_serve s p code body fun r => Effect.reaches_same (h r)

/-- What a command of the part other than full reset and its release does to the seven blocks. -/
theorem exec_reaches {i : Instr} {s t : State} (hreset : ∀ cause, i ≠ .fullReset cause) (hrelease : i ≠ .resetRelease)
    (he : exec i s = .next t) : Effect.Reaches i s t := by
  have released : ∀ f : State → State, Effect.Reaches i s (f s) →
      (Host.Outcome.next (s.whileReleased f) : Answer) = .next t → Effect.Reaches i s t := by
    intro f h e
    cases e
    unfold State.whileReleased
    split
    · exact (Effect.nothing i s).reaches
    · exact h
  cases i with
  | fullReset cause => exact absurd rfl (hreset cause)
  | resetRelease => exact absurd rfl hrelease
  | partialFrame w => exact released _ (Effect.collect w s).reaches he
  | frame ws => exact released _ (Effect.frame ws s).reaches he
  | clockWrap =>
    refine released _ ?_ he
    split
    · exact (Effect.clockWrap s).reaches
    · exact (Effect.nothing _ s).reaches
  | faultArrival c => exact released _ (Effect.event _ c _ s .faultArrival).reaches he
  | faultCleared c => exact released _ (Effect.quietEvent _ c _ s .faultCleared).reaches he
  | peakFreeze c => exact released _ (Effect.quietEvent _ c _ s .peakFreeze).reaches he
  | glitch c => exact released _ (Effect.event _ c _ s .glitch).reaches he
  | hitEnd c => exact released _ (Effect.event _ c _ s .hitEnd).reaches he
  | hitTrunc c => exact released _ (Effect.event _ c _ s .hitTrunc).reaches he
  | lockoutEnd c => exact released _ (Effect.quietEvent _ c _ s .lockoutEnd).reaches he
  | windowClose => exact released _ (Effect.windowClose s).reaches he
  | groupLockoutEnd => exact released _ (Effect.groupLockoutEnd s).reaches he
  | evidenceLapse => exact released _ (Effect.evidenceLapse s).reaches he
  | postWindowEnd => exact released _ (Effect.postWindowEnd s).reaches he
  | waitSatisfied p => exact released _ (Effect.reaches_same (.waitSatisfied s p)) he
  | waitTimeout p => exact released _ (Effect.reaches_same (.waitTimeout s p)) he
  | rollup => exact released _ (Effect.rollup s).reaches he
  | loadStale => exact released _ (Effect.loadStale s).reaches he
  | statusCycleStart => exact released _ (Effect.startCycle s).reaches he
  | nodeStart => exact released _ (Effect.nodeStart s).reaches he
  | statusCycleEnd =>
    refine released _ ?_ he
    unfold State.cycleEnd
    split
    · split
      · exact (Effect.cycleEnd _ s).reaches
      · exact (Effect.nothing _ s).reaches
    all_goals exact (Effect.nothing _ s).reaches
  | cycleAbort =>
    refine released _ ?_ he
    unfold State.cycleAbort
    split
    · exact (Effect.cycleAbort s).reaches
    · exact (Effect.nothing _ s).reaches
  | exchangeStart p => exact released _ (Effect.reaches_same (.updPort s p _)) he
  | exchangeEnd p bytes => exact released _ (Effect.reaches_same (.updPort s p _)) he
  | unknown p | length p =>
    refine released _ (Effect.reaches_same ?_) he
    repeat' split
    all_goals first
      | exact .refl s
      | exact .finish _ p
  | identify p | statusRead p | clockRead p | channelPeek p | setupRead p =>
    exact released _ (Effect.reaches_serve_same s p _ _ fun _ => .refl s) he
  | setupWrite p =>
    refine released _ (Effect.reaches_serve s p _ _ fun r => ?_) he
    rcases setupWriteBody_cases r s with e | ⟨x, start, vs, hf, e⟩ <;> rw [e]
    · exact (Effect.nothing _ s).reaches
    · exact ⟨_, .setupWrite p x start vs s hf, .postWith _ _ _ _⟩
  | setupLock p =>
    refine released _ (Effect.reaches_serve s p _ _ fun r => ?_) he
    simp only [setupLockBody]
    repeat' split
    all_goals first
      | exact (Effect.nothing _ s).reaches
      | exact ⟨_, .setupLock p _ _ s, .postWith _ _ _ _⟩
      | exact (Effect.setupLock p _ _ s).reaches
  | runStart p =>
    refine released _ (Effect.reaches_serve s p _ _ fun r => ?_) he
    unfold runStartBody
    split
    · next h =>
      simp only [Bool.and_eq_true, decide_eq_true_eq] at h
      exact (Effect.runStart p s h.1).reaches
    · exact (Effect.nothing _ s).reaches
  | runStop p =>
    refine released _ (Effect.reaches_serve s p _ _ fun r => ?_) he
    unfold runStopBody
    split
    · next h => exact (Effect.runStop p s h).reaches
    · exact (Effect.nothing _ s).reaches
  | runClear p =>
    refine released _ (Effect.reaches_serve s p _ _ fun r => ?_) he
    unfold runClearBody
    split
    · exact (Effect.nothing _ s).reaches
    · next h => exact (Effect.runClear p s (by simpa using h)).reaches
  | ruptureDeclare p =>
    refine released _ (Effect.reaches_serve s p _ _ fun r => ?_) he
    unfold ruptureDeclareBody
    split
    · next h => exact (Effect.ruptureDeclare p s h).reaches
    all_goals exact (Effect.nothing _ s).reaches
  | loadPost p =>
    refine released _ (Effect.reaches_serve s p _ _ fun r => ?_) he
    simp only [loadPostBody]
    split
    · exact (Effect.nothing _ s).reaches
    · exact (Effect.loadPost p _ s).reaches
  | hold p =>
    refine released _ (Effect.reaches_serve_same s p _ _ fun r => ?_) he
    unfold holdBody
    split
    · exact .refl s
    · dsimp only; exact .updPort s p _
  | journalAttach p =>
    refine released _ (Effect.reaches_serve_same s p _ _ fun r => ?_) he
    unfold journalAttachBody
    repeat' split
    all_goals first
      | exact .refl s
      | exact .attach _ _ _
  | journalDetach p =>
    exact released _ (Effect.reaches_serve_same s p _ _ fun r => (State.SameBlocks.reclaim _).trans (.updPort _ _ _)) he
  | journalFilter p =>
    refine released _ (Effect.reaches_serve_same s p _ _ fun r => ?_) he
    simp only [journalFilterBody]
    split
    · exact .refl s
    · dsimp only; exact .updPort s p _
  | journalRead p =>
    refine released _ (Effect.reaches_serve_same s p _ _ fun r => ?_) he
    unfold journalReadBody
    repeat' split
    all_goals first
      | exact .refl s
      | exact .read _ _ _ _
  | journalWait p =>
    refine released _ (Effect.reaches_same ?_) he
    repeat' split
    all_goals first
      | exact .refl s
      | exact .waitRequest _ _ _
  | noticesRead p =>
    refine released _ (Effect.reaches_serve_same s p _ _ fun r => ?_) he
    dsimp only [noticesReadBody]
    exact .updPort s p _
  | statusClock l => exact released _ (Effect.statusClock l s).reaches he

end Sys2Proof.Machine
end

