-- ==== Sys2Proof/Proofs/SetupRange.lean ====
section
/-! SUPPORT. The setup table: a write keeps every value within its item's range or codes (R150, R156, R157), and no other command
changes a value or the generation (R151). -/

namespace Sys2Proof.Machine

/-! ### The values of a section after a write -/

/-- What the structural test of a write lets through (R156). -/
theorem writeFault_none {x : Sect} {start : Nat} {vs : List Nat} (h : writeFault x.code start vs = none) :
    start + vs.length ≤ x.items.length ∧
      ∀ (i : Nat) (spec : ItemSpec) (v : Nat), x.items[start + i]? = some spec → vs[i]? = some v → spec.faulty v = false := by
  simp only [writeFault, x.ofCode_code] at h
  split at h
  · next fits =>
    simp only [Bool.and_eq_true, decide_eq_true_eq] at fits
    refine ⟨fits.2, fun i spec v hspec hv => (firstFault_eq_none _ _ _).1 h i spec v ?_ hv⟩
    rwa [Sect.span, List.getElem?_drop]
  · cases h

theorem overwritten_length {old vs : List Nat} {start : Nat} (fits : start + vs.length ≤ old.length) :
    (Claims.overwritten old start vs).length = old.length := by
  simp only [Claims.overwritten, List.length_append, List.length_take, List.length_drop]
  omega

/-- The values written stand from the starting item on; the others are the old ones. -/
theorem overwritten_getElem? {old vs : List Nat} {start : Nat} (fits : start + vs.length ≤ old.length) (i : Nat) :
    (Claims.overwritten old start vs)[i]? = if start ≤ i ∧ i < start + vs.length then vs[i - start]? else old[i]? := by
  have first : (old.take start).length = start := by simp; omega
  unfold Claims.overwritten
  by_cases before : i < start
  · rw [List.append_assoc, List.getElem?_append_left (by omega), List.getElem?_take_of_lt before, if_neg (by omega)]
  by_cases within : i < start + vs.length
  · rw [List.append_assoc, List.getElem?_append_right (by omega), List.getElem?_append_left (by omega), first,
      if_pos ⟨by omega, within⟩]
  · rw [List.getElem?_append_right (by simp; omega), List.getElem?_drop, if_neg (by omega)]
    congr 1
    simp
    omega

/-- A sound section holds at each place a value of the item there. -/
theorem Setup.SectOk.holds {t : Setup} {x : Sect} (h : t.SectOk x) {i v : Nat} {spec : ItemSpec} (hs : x.items[i]? = some spec)
    (hv : (t.values x)[i]? = some v) : spec.holds v = true := by
  obtain ⟨inside, rfl⟩ := List.getElem?_eq_some_iff.1 hs
  have := h.2 i inside
  rwa [Setup.item, List.getD_eq_getElem?_getD, hv] at this

/-- A section is sound when each place holds a value of its item. -/
theorem Setup.SectOk.of_holds {t : Setup} {x : Sect} (length : (t.values x).length = x.items.length)
    (holds : ∀ (i v : Nat) (spec : ItemSpec), x.items[i]? = some spec → (t.values x)[i]? = some v → spec.holds v = true) :
    t.SectOk x := by
  refine ⟨length, fun i inside => ?_⟩
  have place : (t.values x)[i]? = some (t.values x)[i] := List.getElem?_eq_getElem (by omega)
  rw [Setup.item, List.getD_eq_getElem?_getD, place]
  exact holds i _ _ (List.getElem?_eq_getElem inside) place

/-- A write that the structural test lets through keeps its section sound (R157). -/
theorem Setup.SectOk.write {t : Setup} {x : Sect} (h : t.SectOk x) {start : Nat} {vs : List Nat}
    (sound : writeFault x.code start vs = none) : (t.write x start vs).SectOk x := by
  obtain ⟨fits, listed⟩ := writeFault_none sound
  have stored : (clampAll (x.span start) vs).length = vs.length := by
    simp only [clampAll, Sect.span, List.length_zipWith, List.length_drop]; omega
  have room : start + (clampAll (x.span start) vs).length ≤ (t.values x).length := by rw [stored, h.1]; exact fits
  refine Setup.SectOk.of_holds ?_ fun i v spec hspec hv => ?_
  · rw [t.write_values_same, overwritten_length room, h.1]
  · rw [t.write_values_same, overwritten_getElem? room] at hv
    split at hv
    · next place =>
      obtain ⟨j, rfl⟩ := Nat.exists_eq_add_of_le place.1
      rw [Nat.add_sub_cancel_left, clampAll, List.getElem?_zipWith, Sect.span, List.getElem?_drop, hspec] at hv
      cases e : vs[j]? with
      | none => rw [e] at hv; cases hv
      | some u =>
        rw [e] at hv
        cases hv
        exact spec.clamp_holds u (x.items_ranges spec (List.mem_of_getElem? hspec)) (listed j spec u hspec e)
    · exact h.holds hspec hv

/-- The soundness of a section rests on its values alone. -/
theorem Setup.SectOk.same {t u : Setup} {x : Sect} (h : t.SectOk x) (values : u.values x = t.values x) : u.SectOk x := by
  refine Setup.SectOk.of_holds (values ▸ h.1) fun i v spec hspec hv => h.holds hspec (values ▸ hv)

theorem State.SetupOk.write {s : State} (h : s.SetupOk) {x : Sect} {start : Nat} {vs : List Nat}
    (sound : writeFault x.code start vs = none) : (s.withSetup (s.setup.write x start vs)).SetupOk := by
  intro y
  by_cases e : y = x
  · subst e; exact (h y).write sound
  · exact (h y).same (s.setup.write_values_of_ne e start vs)

/-! ### What a command does to the table -/

/-- The table with another set of locks. -/
def Setup.relocked (t : Setup) (d c : Bool) : Setup := { t with lockDetection := d, lockCriteria := c }

@[simp] theorem Setup.relocked_values (t : Setup) (d c : Bool) (x : Sect) : (t.relocked d c).values x = t.values x := by
  cases x <;> rfl

theorem State.clearRun_setup (s : State) : s.clearRun.setup = s.setup.relocked false false := by
  have locks : ∀ u : State, u.clearLocks.setup = u.setup.relocked false false := by
    intro u
    simp only [State.clearLocks]
    split <;> rfl
  have wait : ∀ (u : State) (p : Port), (u.clearWait p).setup = u.setup := by
    intro u p
    unfold State.clearWait
    split <;> simp
  have blocks : ∀ u : State, u.clearJournal.clearRollup.setup = u.setup := by
    intro u
    simp only [State.clearJournal, State.clearRollup]
    repeat' split
    all_goals rfl
  rw [State.clearRun, locks, State.post_setup, State.withRun_setup, blocks, State.withGrouping_setup, State.withChannels_setup,
    State.updPort_setup, State.updPort_setup, wait, wait]

/-- All that a command does to the setup table: nothing, other locks, or an applied write (R151). -/
theorem Effect.setup {i : Instr} {s u : State} (h : Effect i s u) :
    (∃ d c, u.setup = s.setup.relocked d c) ∨
      ∃ p x start vs, i = .setupWrite p ∧ writeFault x.code start vs = none ∧ u.setup = s.setup.write x start vs := by
  have same : ∀ {t : State}, t.setup = s.setup → ∃ d c, t.setup = s.setup.relocked d c := fun e => ⟨_, _, e⟩
  have kept := Kept.of_setup s.setup
  cases h with
  | setupWrite p x start vs _ hf => exact .inr ⟨p, x, start, vs, rfl, hf, rfl⟩
  | setupLock p d c => exact .inl ⟨d, c, rfl⟩
  | runClear p hr => exact .inl ⟨false, false, s.clearRun_setup⟩
  | nothing | collect | windowClose | groupLockoutEnd | quietEvent => exact .inl (same rfl)
  | frame ws => exact .inl (same (kept.frame s ws rfl))
  | clockWrap => exact .inl (same (kept.wrapClock s rfl))
  | event i c r he => exact .inl (same (kept.takeReports _ _ rfl))
  | evidenceLapse => exact .inl (same (kept.evidenceLapse s rfl))
  | postWindowEnd => exact .inl (same (kept.postWindowEnd s rfl))
  | rollup => exact .inl (same (kept.rollupAtTick s rfl))
  | loadStale => exact .inl (same (kept.staleCheck s rfl))
  | startCycle => exact .inl (same (kept.startCycle s rfl))
  | nodeStart => exact .inl (same (kept.nodeStart s rfl))
  | cycleEnd m => exact .inl (same (kept.completeCycle s m rfl))
  | cycleAbort => exact .inl (same (kept.abortCycle s rfl))
  | statusClock l => exact .inl (same (kept.statusTick s l rfl))
  | runStart p hi => exact .inl (same (kept.startRun s rfl))
  | runStop p ha => exact .inl (same (kept.close s _ rfl))
  | ruptureDeclare p hr => exact .inl (same (kept.declareNow s _ _ rfl))
  | loadPost p v => exact .inl (same (kept.postLoad s p v rfl))

/-- The default of every item lies within its range (R150). -/
theorem Sect.dflt_holds (x : Sect) : ∀ spec ∈ x.items, spec.holds spec.dflt = true := by
  cases x with
  | ch =>
    intro spec mem
    obtain ⟨entry, hentry, hspec⟩ := List.mem_flatten.1 mem
    rw [List.eq_of_mem_replicate hentry] at hspec
    exact (by decide : ∀ spec ∈ channelItems, spec.holds spec.dflt = true) spec hspec
  | gr | ac | ru | pt => decide

theorem State.reset_setupOk : State.reset.SetupOk := by
  intro x
  refine Setup.SectOk.of_holds (by cases x <;> rfl) fun i v spec hspec hv => ?_
  have values : State.reset.setup.values x = x.items.map ItemSpec.dflt := by cases x <;> rfl
  rw [values, List.getElem?_map, hspec] at hv
  cases hv
  exact x.dflt_holds spec (List.mem_of_getElem? hspec)

end Sys2Proof.Machine

open Sys2Proof.Machine in
/-- Settles O56: the operation of a command either writes the table, which takes SETUP WRITE and keeps the ranges, or leaves its
values and its generation. -/
theorem setupStaysInRange : Obligations.SetupStaysInRange := by
  intro c s t he
  by_cases hreset : ∃ cause, c = .fullReset cause
  · obtain ⟨cause, rfl⟩ := hreset
    rw [exec_fullReset] at he
    cases he
    exact ⟨fun _ => State.reset_setupOk, fun h => absurd rfl (h cause), fun h => absurd rfl (h cause)⟩
  by_cases hrelease : c = .resetRelease
  · subst hrelease
    rw [exec_resetRelease] at he
    cases he
    exact ⟨id, fun _ => .inl rfl, fun _ _ _ => rfl⟩
  obtain ⟨u, effect, same⟩ := exec_reaches (fun cause e => hreset ⟨cause, e⟩) hrelease he
  unfold State.SetupOk
  rw [same.setup]
  rcases effect.setup with ⟨d, l, e⟩ | ⟨p, x, start, vs, rfl, sound, e⟩ <;> rw [e]
  · exact ⟨fun h x => (h x).same (by simp), fun _ => .inl rfl, fun _ _ x => by simp⟩
  · exact ⟨fun h => State.SetupOk.write h sound, fun _ => .inr ⟨⟨p, rfl⟩, rfl⟩, fun _ h => absurd rfl (h p)⟩
end

