-- ==== Sys2Proof/Proofs/Blocks.lean ====
section
/-! SUPPORT. Which blocks an operation of the part may change beside the journal and the ports: the rollup unit's steps change the
rollup unit, the reports of the channels the grouping engine and the rollup unit, a status clock the status line unit and the
channels, a declaration run control. -/

namespace Sys2Proof.Machine

/-! ### The rollup unit's steps (R112 to R125) -/

/-- Of the seven blocks only the rollup unit may differ. -/
structure State.RollupOnly (s t : State) : Prop where
  intake : t.intake = s.intake
  channels : t.channels = s.channels
  grouping : t.grouping = s.grouping
  run : t.run = s.run
  setup : t.setup = s.setup
  status : t.status = s.status

namespace State.RollupOnly

variable {s t u : State}

theorem refl (s : State) : s.RollupOnly s := ⟨rfl, rfl, rfl, rfl, rfl, rfl⟩

theorem trans (h : s.RollupOnly t) (k : t.RollupOnly u) : s.RollupOnly u :=
  ⟨k.intake.trans h.intake, k.channels.trans h.channels, k.grouping.trans h.grouping, k.run.trans h.run,
    k.setup.trans h.setup, k.status.trans h.status⟩

theorem of_same (h : t.SameBlocks s) : s.RollupOnly t :=
  ⟨h.intake, h.channels, h.grouping, h.run, h.setup, h.status⟩

theorem withRollup (h : s.RollupOnly t) (x : Rollup) : s.RollupOnly (t.withRollup x) := h.trans ⟨rfl, rfl, rfl, rfl, rfl, rfl⟩

theorem postWith (h : s.RollupOnly t) (src : Source) (sect : Nat) (d : Word32) : s.RollupOnly (t.postWith src sect d) :=
  h.trans (of_same (.postWith t src sect d))

theorem offer (h : s.RollupOnly t) (o : Offer) : s.RollupOnly (t.offer o) := h.trans (of_same (.offer t o))

theorem withJournal (h : s.RollupOnly t) (j : Journal) : s.RollupOnly (t.withJournal j) := h.trans (of_same (.withJournal t j))

theorem offerTally (h : s.RollupOnly t) : s.RollupOnly t.offerTally := by
  simp only [State.offerTally]
  split
  · exact (h.offer _).withJournal _
  · exact h.offer _

theorem tallyStep (h : s.RollupOnly t) : s.RollupOnly t.tallyStep := by
  simp only [State.tallyStep, State.tallyExit]
  split
  · have tally := (h.withJournal { t.journal with covered := satAdd Config.max16 t.journal.covered 1 }).offerTally
    split
    · exact ((tally.withJournal _).offer _).postWith _ _ _
    · exact tally
  · exact h

theorem closingTally (h : s.RollupOnly t) : s.RollupOnly t.closingTally := by
  simp only [State.closingTally]
  split
  · exact h.offerTally
  · exact h

theorem releaseHold (h : s.RollupOnly t) : s.RollupOnly t.releaseHold := by
  simp only [State.releaseHold]
  split
  · exact (h.withRollup _).postWith _ _ _
  · exact h.withRollup _

theorem hysteresis (h : s.RollupOnly t) (w : AcParams) (met : Bool) : s.RollupOnly (t.hysteresis w met) := by
  simp only [State.hysteresis]
  split
  · exact h.withRollup _
  · exact (h.withRollup _).postWith _ _ _

theorem resumption (h : s.RollupOnly t) (q : Option Nat) : s.RollupOnly (t.resumption q) := by
  cases q with
  | none => exact h
  | some q => exact (h.withRollup _).postWith _ _ _

theorem activityStep (h : s.RollupOnly t) (mask : Nat) (q : Option Nat) : s.RollupOnly (t.activityStep mask q) := by
  simp only [State.activityStep]
  split
  · exact ((h.withRollup _).offer _).withRollup _
  · exact (h.withRollup _).offer _

theorem rollupSteps (s : State) : s.RollupOnly s.rollupSteps :=
  ((((((refl s).withRollup _).hysteresis _ _).resumption _).activityStep _ _).tallyStep).withRollup _

theorem rollupAtTick (s : State) : s.RollupOnly s.rollupAtTick := by
  unfold State.rollupAtTick
  split
  · exact rollupSteps s
  · exact refl s

theorem staleCheck (s : State) : s.RollupOnly s.staleCheck := by
  unfold State.staleCheck
  repeat' split
  all_goals first
    | exact refl s
    | exact ((refl s).withRollup _).postWith _ _ _

theorem setLoad (s : State) (v : Nat) : s.RollupOnly (s.setLoad v) := by
  simp only [State.setLoad]
  split
  · exact ((refl s).withRollup _).postWith _ _ _
  · exact (refl s).withRollup _

theorem runActive (h : s.RollupOnly t) : t.runActive = s.runActive := by simp [State.runActive, h.run]

theorem chan (h : s.RollupOnly t) (c : ChanId) : t.chan c = s.chan c := by simp [State.chan, h.channels]

end State.RollupOnly

/-! ### The reports of the channels (R60, R70, R79) -/

/-- Of the seven blocks only the grouping engine and the rollup unit may differ. -/
structure State.EngineOnly (s t : State) : Prop where
  intake : t.intake = s.intake
  channels : t.channels = s.channels
  run : t.run = s.run
  setup : t.setup = s.setup
  status : t.status = s.status

namespace State.EngineOnly

variable {s t u : State}

theorem refl (s : State) : s.EngineOnly s := ⟨rfl, rfl, rfl, rfl, rfl⟩

theorem trans (h : s.EngineOnly t) (k : t.EngineOnly u) : s.EngineOnly u :=
  ⟨k.intake.trans h.intake, k.channels.trans h.channels, k.run.trans h.run, k.setup.trans h.setup, k.status.trans h.status⟩

theorem of_rollupOnly (h : s.RollupOnly t) : s.EngineOnly t := ⟨h.intake, h.channels, h.run, h.setup, h.status⟩

theorem withGrouping (h : s.EngineOnly t) (x : Grouping) : s.EngineOnly (t.withGrouping x) := h.trans ⟨rfl, rfl, rfl, rfl, rfl⟩

theorem ungroupedHit (s : State) (c : ChanId) (why : Reason) (f : Features) : s.RollupOnly (s.ungroupedHit c why f) := by
  simp only [State.ungroupedHit]
  refine State.RollupOnly.withRollup ?_ _
  split
  · exact (State.RollupOnly.refl s).withJournal _
  · exact (State.RollupOnly.refl s).offer _

theorem takeReport (s : State) (r : Report) : s.EngineOnly (s.takeReport r) := by
  unfold State.takeReport
  repeat' split
  all_goals first
    | exact refl s
    | exact (refl s).withGrouping _
    | exact (of_rollupOnly (ungroupedHit s _ _ _)).withGrouping _

theorem takeReports (s : State) (rs : List Report) : s.EngineOnly (s.takeReports rs) := by
  unfold State.takeReports
  induction rs generalizing s with
  | nil => exact refl s
  | cons r rs ih => exact (takeReport s r).trans (ih (s.takeReport r))

theorem channelEvent (s : State) (c : ChanId) (r : Channel × Option Report) :
    (s.withChan c r.1).EngineOnly (s.channelEvent c r) := takeReports _ _

theorem runActive (h : s.EngineOnly t) : t.runActive = s.runActive := by simp [State.runActive, h.run]

theorem chan (h : s.EngineOnly t) (c : ChanId) : t.chan c = s.chan c := by simp [State.chan, h.channels]

end State.EngineOnly

/-! ### The status line unit (R164 to R170) -/

/-- Of the seven blocks only the status line unit and the channels may differ. -/
structure State.StatusOnly (s t : State) : Prop where
  intake : t.intake = s.intake
  grouping : t.grouping = s.grouping
  rollup : t.rollup = s.rollup
  run : t.run = s.run
  setup : t.setup = s.setup

namespace State.StatusOnly

variable {s t u : State}

theorem refl (s : State) : s.StatusOnly s := ⟨rfl, rfl, rfl, rfl, rfl⟩

theorem trans (h : s.StatusOnly t) (k : t.StatusOnly u) : s.StatusOnly u :=
  ⟨k.intake.trans h.intake, k.grouping.trans h.grouping, k.rollup.trans h.rollup, k.run.trans h.run, k.setup.trans h.setup⟩

theorem of_same (h : t.SameBlocks s) : s.StatusOnly t := ⟨h.intake, h.grouping, h.rollup, h.run, h.setup⟩

theorem withStatus (h : s.StatusOnly t) (x : Status) : s.StatusOnly (t.withStatus x) := h.trans ⟨rfl, rfl, rfl, rfl, rfl⟩

theorem withChan (h : s.StatusOnly t) (c : ChanId) (x : Channel) : s.StatusOnly (t.withChan c x) :=
  h.trans ⟨rfl, rfl, rfl, rfl, rfl⟩

theorem postWith (h : s.StatusOnly t) (src : Source) (sect : Nat) (d : Word32) : s.StatusOnly (t.postWith src sect d) :=
  h.trans (of_same (.postWith t src sect d))

theorem offer (h : s.StatusOnly t) (o : Offer) : s.StatusOnly (t.offer o) := h.trans (of_same (.offer t o))

theorem startCycle (s : State) : s.StatusOnly s.startCycle := by
  unfold State.startCycle
  split
  · exact (refl s).withStatus _
  · exact refl s

theorem nodeStart (s : State) : s.StatusOnly s.nodeStart := by
  unfold State.nodeStart
  split
  · exact (refl s).withStatus _
  · exact refl s

theorem debounceChannel (s : State) (c : ChanId) : s.StatusOnly (s.debounceChannel c) := by
  simp only [State.debounceChannel, State.deliverFault]
  split
  · exact ((((refl s).withStatus _).withChan _ _).offer _).postWith _ _ _
  · exact (refl s).withStatus _

theorem debounceChannels (cs : List ChanId) (s : State) : s.StatusOnly (cs.foldl State.debounceChannel s) := by
  induction cs generalizing s with
  | nil => exact refl s
  | cons c cs ih => exact (debounceChannel s c).trans (ih _)

theorem lineUp (s : State) : s.StatusOnly s.lineUp := by
  simp only [State.lineUp]
  split
  · exact ((refl s).withStatus _).postWith _ _ _
  · exact (refl s).withStatus _

theorem completeCycle (s : State) (m : LineMode) : s.StatusOnly (s.completeCycle m) :=
  ((debounceChannels allChannels s).trans (lineUp _)).withStatus _

theorem abortCycle (s : State) : s.StatusOnly s.abortCycle := by
  simp only [State.abortCycle]
  split
  · exact (((refl s).withStatus _).withStatus _).postWith _ _ _
  · exact (refl s).withStatus _

theorem statusTick (s : State) (l : LineLevel) : s.StatusOnly (s.statusTick l) := by
  have other := fun x => (refl s).withStatus x
  unfold State.statusTick
  split
  case h_1 =>
    split
    · exact nodeStart s
    · exact refl s
  case h_5 =>
    cases l with
    | low => exact abortCycle s
    | high => exact other _
  case h_6 =>
    split
    · exact completeCycle s _
    · exact other _
  all_goals exact other _

theorem runActive (h : s.StatusOnly t) : t.runActive = s.runActive := by simp [State.runActive, h.run]

end State.StatusOnly

/-! ### The test clock (R10, R12) -/

theorem State.wrapClock_same (s : State) : s.wrapClock.SameBlocks (s.withIntake { s.intake with clock := 0 }) :=
  (State.SameBlocks.postWith _ _ _ _).trans (.offer _ _)

theorem State.advanceClock_same (s : State) :
    s.advanceClock.SameBlocks (s.withIntake { s.intake with clock := s.intake.clock + 1 }) := by
  refine ⟨s.advanceClock_intake, ?_, ?_, ?_, ?_, ?_, ?_⟩ <;> unfold State.advanceClock <;> split <;> first
    | rfl
    | simp [State.wrapClock]

/-! ### Run control (R141 to R147) -/

/-- Of the seven blocks only run control may differ. -/
structure State.RunOnly (s t : State) : Prop where
  intake : t.intake = s.intake
  channels : t.channels = s.channels
  grouping : t.grouping = s.grouping
  rollup : t.rollup = s.rollup
  setup : t.setup = s.setup
  status : t.status = s.status

theorem State.RunOnly.refl (s : State) : s.RunOnly s := ⟨rfl, rfl, rfl, rfl, rfl, rfl⟩

theorem State.RunOnly.evidenceLapse (s : State) : s.RunOnly s.evidenceLapse := by
  unfold State.evidenceLapse
  repeat' split
  all_goals exact ⟨rfl, rfl, rfl, rfl, rfl, rfl⟩

theorem State.RunOnly.declare (s : State) (src : RuptureSource) (g : Option SeqNo) : s.RunOnly (s.declare src g) := by
  constructor <;> simp [State.declare, State.enterRunState]

theorem State.RunOnly.ruptureCheck (s : State) (n : Nat) (g : Option SeqNo) : s.RunOnly (s.ruptureCheck n g) := by
  unfold State.ruptureCheck
  split
  · split
    · exact ⟨rfl, rfl, rfl, rfl, rfl, rfl⟩
    · exact .declare s _ _
  · exact .refl s

theorem State.evidenceLapse_runState (s : State) : s.evidenceLapse.run.state = s.run.state := by
  unfold State.evidenceLapse
  repeat' split
  all_goals rfl

theorem State.declare_runState (s : State) (src : RuptureSource) (g : Option SeqNo) : (s.declare src g).run.state = .final := rfl

theorem State.ruptureCheck_runState (s : State) (n : Nat) (g : Option SeqNo) :
    (s.ruptureCheck n g).run.state = s.run.state ∨ (s.run.state = .running ∧ (s.ruptureCheck n g).run.state = .final) := by
  unfold State.ruptureCheck
  split
  · next h =>
    simp only [Bool.and_eq_true, decide_eq_true_eq] at h
    split
    · exact .inl rfl
    · exact .inr ⟨h.1, rfl⟩
  · exact .inl rfl

/-! ### The emission of a group (R72 to R77) -/

/-- The emission up to its rupture check (R72 to R76). -/
theorem State.emit_closing_rollupOnly (s : State) (g : Group) : s.RollupOnly (s.emit true g) := by
  simp only [State.emit, if_true]
  refine State.RollupOnly.withRollup ?_ _
  split
  · exact (State.RollupOnly.refl s).withJournal _
  · exact (State.RollupOnly.refl s).offer _

theorem State.emit_open_eq (s : State) (g : Group) :
    s.emit false g =
      (s.emit true g).ruptureCheck (saturatedCount g.emitted)
        (if s.journal.tallyMode then none
          else s.offerSeq (groupOffer (decide (g.lmin ≤ g.emitted.length)) g.emitted)) := rfl

/-- Within the closing event an emission makes no rupture check (R138). -/
theorem State.emit_closing_run (s : State) (g : Group) : (s.emit true g).run = s.run := (s.emit_closing_rollupOnly g).run

theorem State.emit_runState (s : State) (closing : Bool) (g : Group) :
    (s.emit closing g).run.state = s.run.state ∨
      (s.run.state = .running ∧ (s.emit closing g).run.state = .final) := by
  cases closing with
  | true => exact .inl (congrArg _ (s.emit_closing_run g))
  | false =>
    rw [s.emit_open_eq, ← s.emit_closing_run g]
    exact State.ruptureCheck_runState _ _ _

/-- Within the closing event the emission of a list leaves run control alone. -/
theorem emitFrom_closing_engineOnly (gs : List Group) (s : State) : s.EngineOnly (emitFrom true gs s) := by
  induction gs generalizing s with
  | nil => exact .refl s
  | cons g gs ih =>
    simp only [emitFrom]
    split
    · exact ((State.EngineOnly.of_rollupOnly (s.emit_closing_rollupOnly g)).withGrouping _).trans (ih _)
    · exact .refl s

theorem State.EngineOnly.flush (s : State) : s.EngineOnly s.flush :=
  ((State.EngineOnly.refl s).withGrouping _).trans (emitFrom_closing_engineOnly _ _)

end Sys2Proof.Machine
end

