-- ==== Sys2Proof/Proofs/RunStates.lean ====
section
/-! SUPPORT. The run state through every operation of the part (R134): by a frame, a load or a declaration it goes forward, from
RUNNING to FINAL and from an active run to CLOSED. -/

namespace Sys2Proof.Machine

/-- The run state stays, or a declaration or the closing event has moved it (R134, R138, R146). -/
def RunState.Advances (a b : RunState) : Prop :=
  b = a ∨ (a = .running ∧ b = .final) ∨ ((a = .running ∨ a = .final) ∧ b = .closed)

namespace RunState.Advances

variable {a b c : RunState}

theorem refl (a : RunState) : a.Advances a := .inl rfl

theorem of_eq (h : b = a) : a.Advances b := .inl h

theorem trans (h : a.Advances b) (k : b.Advances c) : a.Advances c := by
  unfold Advances at *
  rcases h with rfl | ⟨rfl, rfl⟩ | ⟨_, rfl⟩
  · exact k
  · rcases k with rfl | ⟨h, -⟩ | ⟨-, rfl⟩
    · exact .inr (.inl ⟨rfl, rfl⟩)
    · cases h
    · exact .inr (.inr ⟨.inl rfl, rfl⟩)
  · rcases k with rfl | ⟨h, -⟩ | ⟨h | h, -⟩
    · exact .inr (.inr ⟨‹_›, rfl⟩)
    all_goals cases h

end RunState.Advances

/-! ### The closing event and a declaration within a request -/

theorem State.close_run (s : State) (cause : Cause) :
    (s.close cause).run = { s.run with state := .closed, evidence := none, postEnd := none } := by
  have flushed : (((s.withChannels (channelsOf s.closeChannels)).takeReports (reportsOf s.closeChannels)).flush).run = s.run :=
    ((State.EngineOnly.takeReports (s.withChannels (channelsOf s.closeChannels)) _).trans (.flush _)).run
  have released : ∀ u : State, u.releaseHold.run = u.run := fun u => (State.RollupOnly.refl u).releaseHold.run
  simp only [State.close, State.discardPlans, State.withRun_run, released, State.enterRunState, State.post_run,
    State.offer_run, State.closingTally_run, flushed]

theorem State.declareNow_runState (s : State) (src : RuptureSource) (g : Option SeqNo) :
    (s.declareNow src g).run.state = .final ∨ (s.declareNow src g).run.state = .closed := by
  simp only [State.declareNow]
  split
  · exact .inr (by rw [State.close_run])
  · exact .inl rfl

theorem State.declareNow_advances (s : State) (src : RuptureSource) (g : Option SeqNo) (h : s.run.state = .running) :
    s.run.state.Advances (s.declareNow src g).run.state := by
  rw [h]
  rcases s.declareNow_runState src g with e | e
  · exact .inr (.inl ⟨rfl, e⟩)
  · exact .inr (.inr ⟨.inl rfl, e⟩)

theorem State.postWindowEnd_runState (s : State) :
    s.postWindowEnd.run.state = s.run.state ∨ (s.runActive = true ∧ s.postWindowEnd.run.state = .closed) := by
  unfold State.postWindowEnd
  split
  · next h =>
    rw [Bool.and_eq_true] at h
    exact .inr ⟨h.1, by rw [State.close_run]⟩
  · exact .inl rfl

theorem State.postWindowEnd_advances (s : State) : s.run.state.Advances s.postWindowEnd.run.state := by
  rcases s.postWindowEnd_runState with e | ⟨h, e⟩
  · exact .of_eq e
  · exact .inr (.inr ⟨(RunState.active_iff _).1 h, e⟩)

/-! ### A tick and a frame -/

theorem emitFrom_advances (closing : Bool) (gs : List Group) (s : State) :
    s.run.state.Advances (emitFrom closing gs s).run.state := by
  induction gs generalizing s with
  | nil => exact .refl _
  | cons g gs ih =>
    simp only [emitFrom]
    split
    · refine RunState.Advances.trans ?_ (ih _)
      rcases s.emit_runState closing g with e | e
      · exact .of_eq e
      · exact .inr (.inl e)
    · exact .refl _

theorem State.groupingStages_advances (s : State) (rs : List Report) :
    s.run.state.Advances (s.groupingStages rs).run.state := by
  have taken : (s.takeReports rs).run = s.run := (State.EngineOnly.takeReports s rs).run
  have := emitFrom_advances false
    ((s.takeReports rs).withGrouping (((s.takeReports rs).grouping.joinStage (startsOf s.clock rs)).1.windowClose
      s.clock)).grouping.groups
    ((s.takeReports rs).withGrouping (((s.takeReports rs).grouping.joinStage (startsOf s.clock rs)).1.windowClose s.clock))
  rwa [State.withGrouping_run, taken] at this

theorem State.detect_advances (s : State) (xs : ChanId → Sample) : s.run.state.Advances (s.detect xs).run.state :=
  State.groupingStages_advances ((s.withChannels (channelsOf (s.tickChannels xs))).withIntake (s.intake.handOver xs))
    (reportsOf (s.tickChannels xs))

theorem State.beforeChannels_runState (s : State) : s.beforeChannels.run.state = s.run.state := by
  rw [State.beforeChannels, State.evidenceLapse_runState, (State.RollupOnly.staleCheck _).run,
    (State.StatusOnly.startCycle _).run, s.advanceClock_same.run, State.withIntake_run]

theorem State.deliverTick_advances (s : State) (xs : ChanId → Sample) : s.run.state.Advances (s.deliverTick xs).run.state := by
  have detected : s.run.state.Advances (s.beforeChannels.detect xs).run.state := by
    rw [← s.beforeChannels_runState]
    exact s.beforeChannels.detect_advances xs
  have closed : ∀ u : State, u.run.state.Advances u.afterGrouping.run.state := by
    intro u
    rw [State.afterGrouping, (State.SameBlocks.waitTimeout _ _).run, (State.SameBlocks.waitTimeout _ _).run,
      ← (State.RollupOnly.rollupAtTick u).run]
    exact State.postWindowEnd_advances _
  exact detected.trans (closed _)

theorem State.synthetic_advances (d : Nat) (s : State) : s.run.state.Advances (State.synthetic d s).run.state := by
  induction d generalizing s with
  | zero => exact .refl _
  | succ d ih => exact (s.deliverTick_advances _).trans (ih _)

theorem State.gapFrame_advances (s : State) (d : Nat) (ws : List Word16) :
    s.run.state.Advances (s.gapFrame d ws).run.state := by
  have marked : ((State.synthetic d s).markGap d).run = (State.synthetic d s).run := by simp [State.markGap]
  have delivered := ((State.synthetic d s).markGap d).deliverTick_advances (receivedSample ws true)
  rw [marked] at delivered
  rw [State.gapFrame]
  exact (s.synthetic_advances d).trans delivered

theorem State.frame_advances (s : State) (ws : List Word16) : s.run.state.Advances (s.frame ws).run.state := by
  have accepted : ∀ (u : State) (n : BitVec 8), (u.accepted n).run = u.run := fun _ _ => rfl
  have evaluated : ∀ (u : State) (ws : List Word16), u.run.state.Advances (u.evaluate ws).run.state := by
    intro u ws
    rcases u.evaluate_cases ws with e | e | ⟨d, e⟩ <;> rw [e]
    · exact .refl _
    · rw [accepted]; exact u.deliverTick_advances _
    · rw [accepted]; exact u.gapFrame_advances d ws
  unfold State.frame
  repeat' split
  · exact .refl _
  · exact .refl _
  · exact evaluated (s.withIntake { s.intake with collecting := [] }) _

/-! ### A load, run start and run clear -/

theorem State.postLoad_advances (s : State) (p : Port) (v : Nat) : s.run.state.Advances (s.postLoad p v).run.state := by
  have dropped : ∀ u : State, u.run.state.Advances (u.loadDropCheck v).run.state := by
    intro u
    unfold State.loadDropCheck
    split
    · exact .refl _
    · split
      · next h =>
        simp only [Bool.and_eq_true, decide_eq_true_eq] at h
        exact u.declareNow_advances _ _ h.1
      · exact .refl _
  have loaded := (State.RollupOnly.setLoad s v).run
  simp only [State.postLoad]
  split
  · refine RunState.Advances.trans (.of_eq ?_) (dropped _)
    split <;> simp [loaded]
  · exact .of_eq (congrArg _ loaded)

theorem State.startRun_runState (s : State) : s.startRun.run.state = .running := by
  simp [State.startRun, State.firstInterval, State.takeUpActivity]

theorem State.clearRun_run (s : State) : s.clearRun.run = Run.reset := by
  simp only [State.clearRun, State.clearLocks]
  split <;> simp

end Sys2Proof.Machine

open Sys2Proof.Machine in
/-- Settles O57: by the operation of the command. A frame, a load and a declaration advance the run state, and every other
operation but the four of run control leaves it. -/
theorem runStateChangesAsAllowed : Obligations.RunStateChangesAsAllowed := by
  intro c s t hreset he
  by_cases hrelease : c = .resetRelease
  · subst hrelease
    rw [exec_resetRelease] at he
    cases he
    exact .inl rfl
  obtain ⟨u, effect, same⟩ := exec_reaches hreset hrelease he
  rw [same.run]
  cases effect with
  | frame ws =>
    rcases s.frame_advances ws with e | ⟨e, f⟩ | ⟨e, f⟩
    · exact .inl e
    · exact .inr (.inr (.inl ⟨e, f, .inl ⟨ws, rfl⟩⟩))
    · exact .inr (.inr (.inr (.inl ⟨e, f, .inl ⟨ws, rfl⟩⟩)))
  | loadPost p v =>
    rcases s.postLoad_advances p v with e | ⟨e, f⟩ | ⟨e, f⟩
    · exact .inl e
    · exact .inr (.inr (.inl ⟨e, f, .inr ⟨p, .inl rfl⟩⟩))
    · exact .inr (.inr (.inr (.inl ⟨e, f, .inr (.inr ⟨p, .inr (.inl rfl)⟩)⟩)))
  | ruptureDeclare p _ hr =>
    rcases s.declareNow_runState (declareSource p) none with f | f
    · exact .inr (.inr (.inl ⟨hr, f, .inr ⟨p, .inr rfl⟩⟩))
    · exact .inr (.inr (.inr (.inl ⟨.inl hr, f, .inr (.inr ⟨p, .inr (.inr rfl)⟩)⟩)))
  | runStart p _ hi => exact .inr (.inl ⟨hi, s.startRun_runState, p, rfl⟩)
  | runStop p _ ha =>
    exact .inr (.inr (.inr (.inl ⟨(RunState.active_iff _).1 ha, by rw [State.close_run], .inr (.inr ⟨p, .inl rfl⟩)⟩)))
  | runClear p _ hr =>
    have cleared : s.clearRun.run.state = .idle := by rw [State.clearRun_run]; rfl
    cases e : s.run.state with
    | idle => exact .inl cleared
    | closed => exact .inr (.inr (.inr (.inr ⟨rfl, cleared, p, rfl⟩)))
    | running | final => rw [State.runActive, e] at hr; cases hr
  | postWindowEnd =>
    rcases s.postWindowEnd_runState with e | ⟨ha, e⟩
    · exact .inl e
    · exact .inr (.inr (.inr (.inl ⟨(RunState.active_iff _).1 ha, e, .inr (.inl rfl)⟩)))
  | nothing | collect | quietEvent | windowClose | groupLockoutEnd | setupWrite | setupLock => exact .inl rfl
  | clockWrap => exact .inl (congrArg _ s.wrapClock_same.run)
  | event _ c r _ => exact .inl (congrArg _ (State.EngineOnly.channelEvent s c r).run)
  | evidenceLapse => exact .inl s.evidenceLapse_runState
  | rollup => exact .inl (congrArg _ (State.RollupOnly.rollupAtTick s).run)
  | loadStale => exact .inl (congrArg _ (State.RollupOnly.staleCheck s).run)
  | startCycle => exact .inl (congrArg _ (State.StatusOnly.startCycle s).run)
  | nodeStart => exact .inl (congrArg _ (State.StatusOnly.nodeStart s).run)
  | cycleEnd m => exact .inl (congrArg _ (State.StatusOnly.completeCycle s m).run)
  | cycleAbort => exact .inl (congrArg _ (State.StatusOnly.abortCycle s).run)
  | statusClock l => exact .inl (congrArg _ (State.StatusOnly.statusTick s l).run)
end

