-- ==== Sys2Proof/Proofs/Channels.lean ====
section
/-! SUPPORT. A channel unit's handling of a tick, state by state (R16 to R34), what a candidate gathers (R27), and the features of a
hit (R44 to R55). -/

namespace Sys2Proof.Machine

/-! ### What a candidate gathers at a tick (R27) -/

theorem Candidate.freezePeak_eq (cand : Candidate) (k : Tick) (pdt : Nat) :
    cand.freezePeak k pdt = { cand with frozen := cand.frozen || decide (pdt < ticksSince k cand.kPeak) } := by
  unfold Candidate.freezePeak
  split
  · next late => simp [late]
  · next early => simp [early]

theorem Candidate.raisePeak_eq (cand : Candidate) (k : Tick) (m : Nat) :
    cand.raisePeak k m =
      { cand with
        peak := if !cand.frozen && decide (cand.peak < m) then m else cand.peak
        kPeak := if !cand.frozen && decide (cand.peak < m) then k else cand.kPeak } := by
  unfold Candidate.raisePeak
  split <;> simp [*]

theorem Candidate.addEnergy_eq (cand : Candidate) (k : Tick) (t m : Nat) :
    cand.addEnergy k t m =
      { cand with
        sum := if decide (t ≤ m) then cand.sum + cand.trailing + m else cand.sum
        trailing := if decide (t ≤ m) then 0 else cand.trailing + m
        kLast := if decide (t ≤ m) then k else cand.kLast } := by
  unfold Candidate.addEnergy
  split <;> simp [*]

theorem Candidate.addCrossing_eq (cand : Candidate) (t : Nat) (x : Handed) :
    cand.addCrossing t x =
      { cand with
        counts := if decide (t ≤ x.m) && decide (x.prev < t) then min 65535 (cand.counts + 1) else cand.counts } := by
  unfold Candidate.addCrossing
  split <;> rfl

@[simp] theorem Candidate.gather_kFirst (cand : Candidate) (k : Tick) (pdt t : Nat) (x : Handed) :
    (cand.gather k pdt t x).kFirst = cand.kFirst := by
  simp [Candidate.gather, Candidate.addMarks, Candidate.addCrossing_eq, Candidate.addEnergy_eq, Candidate.raisePeak_eq,
    Candidate.freezePeak_eq]

end Sys2Proof.Machine

open Sys2Proof.Machine in
/-- Settles O15: the five steps of R27 one after another, each of which changes its own fields of the record. -/
theorem candidateGathersASample : Obligations.CandidateGathersASample := by
  intro cand k pdt t x frozen raised above
  simp only [Candidate.gather, Candidate.addMarks, Candidate.addCrossing_eq, Candidate.addEnergy_eq, Candidate.raisePeak_eq,
    Candidate.freezePeak_eq]
  rfl

namespace Sys2Proof.Machine

/-! ### The arrival fraction (R44, R45) -/

section Fraction
variable {t m0 m1 : Nat}

theorem arrivalFraction_below (h : m0 < t) : arrivalFraction t m0 m1 = 16 * (t - m0) / (m1 - m0) := if_pos h

theorem arrivalFraction_above (h : t ≤ m0) : arrivalFraction t m0 m1 = 16 := if_neg (Nat.not_lt.2 h)

theorem arrivalFraction_le (h : m0 < t) (hm : t ≤ m1) : arrivalFraction t m0 m1 ≤ 16 := by
  rw [arrivalFraction_below h]
  exact (Nat.div_le_iff_le_mul_add_pred (by omega)).2 (by omega)

/-- The fraction is a whole tick exactly when the sample that crosses stands at the threshold (R44). -/
theorem arrivalFraction_eq_tick (h : m0 < t) (hm : t ≤ m1) : arrivalFraction t m0 m1 = 16 ↔ m1 = t := by
  rw [arrivalFraction_below h]
  have positive : 0 < m1 - m0 := by omega
  constructor
  · intro e
    have := (Nat.le_div_iff_mul_le positive).1 e.ge
    omega
  · rintro rfl
    rw [Nat.mul_div_cancel _ positive]

theorem arrivalFraction_eq_zero (h : m0 < t) (hm : t ≤ m1) :
    arrivalFraction t m0 m1 = 0 ↔ 16 * (t - m0) < m1 - m0 := by
  rw [arrivalFraction_below h, Nat.div_eq_zero_iff]
  omega

end Fraction

end Sys2Proof.Machine

open Sys2Proof.Machine in
/-- Settles O16: the fraction's extremes from the quotient of R44; the arrival and the features are the model's expressions. -/
theorem arrivalAndFinishedFeatures : Obligations.ArrivalAndFinishedFeatures :=
  ⟨fun _ _ _ h hm =>
      ⟨arrivalFraction_below h, arrivalFraction_le h hm, arrivalFraction_eq_tick h hm, arrivalFraction_eq_zero h hm⟩,
    fun _ _ _ => arrivalFraction_above,
    fun k frac => BitVec.toNat_ofNat (16 * (k - 1).toNat + frac) 52,
    fun _ _ => ⟨rfl, rfl, rfl, rfl, rfl, rfl, rfl, rfl, rfl⟩⟩

namespace Sys2Proof.Machine

/-! ### A channel's handling of a tick, state by state (R16 to R34) -/

section Tick
variable {ch : Channel} {c : ChanId} {k : Tick} {w : ChParams} {active : Bool} {load : LoadStamp} {x : Handed}

theorem Channel.faultArrival_clear (h : ch.reportedFault = false) : ch.faultArrival c = (ch, none) := by
  simp [Channel.faultArrival, h]

/-- With no fault reported the first step leaves the channel alone unless it stands in FAULT (R16). -/
theorem Channel.tick_clear (h : ch.reportedFault = false) :
    ch.tick c k w active load x = ((ch.faultCleared active).takeUp w active).handleSample c k load x := by
  simp [Channel.tick, Channel.faultArrival_clear h, firstReport]

theorem Channel.faultCleared_of_ne (h : ch.st ≠ .fault) : ch.faultCleared active = ch := by
  simp [Channel.faultCleared, h]

/-- A channel with its parameters taken up and the threshold recomputed (R20, R22). -/
def Channel.taken (ch : Channel) (w : ChParams) : Channel := { ch with work := w, t := threshold w ch.b16 }

/-- LISTEN moves the estimate (R23). -/
def Channel.listened (ch : Channel) (x : Handed) : Channel × Option Report :=
  (Channel.estimate { ch with st := .listen } x.m, none)

/-- QUIET moves the estimate or starts a candidate (R24, R25). -/
def Channel.quieted (ch : Channel) (c : ChanId) (k : Tick) (load : LoadStamp) (x : Handed) : Channel × Option Report :=
  if ch.t ≤ x.m then ch.start c k load x else (Channel.estimate { ch with st := .quiet } x.m, none)

/-- The handling of a channel that waits: in QUIET in an active run, in LISTEN outside one (R18, R21). -/
def Channel.waited (ch : Channel) (c : ChanId) (k : Tick) (active : Bool) (load : LoadStamp) (x : Handed) :
    Channel × Option Report :=
  if active then ch.quieted c k load x else ch.listened x

theorem Channel.handleSample_listen (h : ch.st = .listen) : ch.handleSample c k load x = ch.listened x := by
  cases ch
  cases h
  rfl

theorem Channel.handleSample_quiet (h : ch.st = .quiet) : ch.handleSample c k load x = ch.quieted c k load x := by
  cases ch
  cases h
  rfl

theorem Channel.handleSample_waiting (h : ch.st = waitingState active) :
    ch.handleSample c k load x = ch.waited c k active load x := by
  unfold waitingState at h
  unfold Channel.waited
  split
  · exact Channel.handleSample_quiet (by simp [*])
  · exact Channel.handleSample_listen (by simp [*])

theorem Channel.takeUp_sample_off (h : ch.st = .off) :
    (ch.takeUp w active).handleSample c k load x =
      if w.enable then (ch.taken w).waited c k active load x else ({ ch.taken w with st := .off }, none) := by
  unfold Channel.takeUp
  simp only [h]
  split
  · exact Channel.handleSample_waiting rfl
  · simp [Channel.handleSample, Channel.taken, h]

theorem Channel.takeUp_sample_listen (h : ch.st = .listen) :
    (ch.takeUp w active).handleSample c k load x =
      if w.enable then (ch.taken w).listened x else ({ ch.taken w with st := .off }, none) := by
  unfold Channel.takeUp
  simp only [h]
  split
  · exact Channel.handleSample_listen rfl
  · rfl

theorem Channel.takeUp_sample_quiet (h : ch.st = .quiet) :
    (ch.takeUp w active).handleSample c k load x =
      if w.enable then (ch.taken w).quieted c k load x else ({ ch.taken w with st := .off }, none) := by
  unfold Channel.takeUp
  simp only [h]
  split
  · exact Channel.handleSample_quiet rfl
  · rfl

/-- OFF is the one state in which a reported fault does nothing and the tick goes on (R17, R20, R21). -/
theorem Channel.tick_off (h : ch.st = .off) :
    ch.tick c k w active load x =
      if w.enable then (ch.taken w).waited c k active load x else ({ ch.taken w with st := .off }, none) := by
  have arrival : ch.faultArrival c = (ch, none) := by simp [Channel.faultArrival, h]
  rw [← Channel.takeUp_sample_off h]
  simp [Channel.tick, arrival, firstReport, Channel.faultCleared_of_ne (ch := ch) (by simp [h] : ch.st ≠ .fault)]

theorem Channel.tick_listen (hf : ch.reportedFault = false) (h : ch.st = .listen) :
    ch.tick c k w active load x =
      if w.enable then (ch.taken w).listened x else ({ ch.taken w with st := .off }, none) := by
  rw [Channel.tick_clear hf, Channel.faultCleared_of_ne (by simp [h]), Channel.takeUp_sample_listen h]

theorem Channel.tick_quiet (hf : ch.reportedFault = false) (h : ch.st = .quiet) :
    ch.tick c k w active load x =
      if w.enable then (ch.taken w).quieted c k load x else ({ ch.taken w with st := .off }, none) := by
  rw [Channel.tick_clear hf, Channel.faultCleared_of_ne (by simp [h]), Channel.takeUp_sample_quiet h]

/-- A channel that leaves FAULT takes up its parameters at the same tick (R18, R20). -/
theorem Channel.tick_leavesFault (hf : ch.reportedFault = false) (h : ch.st = .fault) :
    ch.tick c k w active load x =
      if w.enable then (ch.taken w).waited c k active load x else ({ ch.taken w with st := .off }, none) := by
  have cleared : ch.faultCleared active = { ch with st := waitingState active } := by simp [Channel.faultCleared, h, hf]
  rw [Channel.tick_clear hf, cleared]
  cases active with
  | true => exact Channel.takeUp_sample_quiet rfl
  | false => exact Channel.takeUp_sample_listen rfl

theorem Channel.tick_lockout (hf : ch.reportedFault = false) {e : Tick} (h : ch.st = .lockout e) :
    ch.tick c k w active load x = (if e = k then { ch with st := .quiet } else ch, none) := by
  rw [Channel.tick_clear hf, Channel.faultCleared_of_ne (by simp [h])]
  simp [Channel.takeUp, Channel.handleSample, Channel.lockoutEndTest, h]

theorem Channel.tick_pending (hf : ch.reportedFault = false) {y : Candidate} (h : ch.st = .pending y) :
    ch.tick c k w active load x =
      firstReport (Channel.confirmTest { ch with st := .pending (y.gather k ch.work.pdt ch.t x) } c k)
        fun ch => ch.glitchTest c k := by
  rw [Channel.tick_clear hf, Channel.faultCleared_of_ne (by simp [h])]
  simp [Channel.takeUp, Channel.handleSample, h]

theorem Channel.tick_inHit (hf : ch.reportedFault = false) {y : Candidate} (h : ch.st = .inHit y) :
    ch.tick c k w active load x =
      firstReport (Channel.hitEndTest { ch with st := .inHit (y.gather k ch.work.pdt ch.t x) } c k)
        fun ch => ch.hitTruncTest c k := by
  rw [Channel.tick_clear hf, Channel.faultCleared_of_ne (by simp [h])]
  simp [Channel.takeUp, Channel.handleSample, h]

/-- The tests of a PENDING candidate at a tick: confirmed, a glitch, or neither (R28, R29). -/
theorem Channel.pending_tests {g : Candidate} (h : ch.st = .pending g) :
    (firstReport (ch.confirmTest c k) fun ch => ch.glitchTest c k) =
      if ch.work.qc ≤ g.counts ∧ ticksSince k g.kFirst < ch.work.qs then ({ ch with st := .inHit g }, some (.confirmed c))
      else if ch.work.qs ≤ ticksSince k g.kFirst ∨ ticksSince k g.kLast = ch.work.hdt then
        ({ ch with st := .quiet, glitches := min 65535 (ch.glitches + 1) }, some (.withdrawn c .glitch))
      else (ch, none) := by
  by_cases confirmed : ch.work.qc ≤ g.counts ∧ ticksSince k g.kFirst < ch.work.qs
  · simp [Channel.confirmTest, firstReport, Candidate.confirms, h, confirmed]
  · have waits : g.confirms k ch.work = false := by simpa [Candidate.confirms] using confirmed
    have tested : ch.confirmTest c k = (ch, none) := by simp [Channel.confirmTest, h, waits]
    simp [firstReport, tested, Channel.glitchTest, Candidate.isGlitch, h, waits, confirmed, satAdd]

/-- The tests of a hit at a tick: its normal end, its forced end, or neither (R31). -/
theorem Channel.inHit_tests {g : Candidate} (h : ch.st = .inHit g) :
    (firstReport (ch.hitEndTest c k) fun ch => ch.hitTruncTest c k) =
      if ticksSince k g.kLast = ch.work.hdt then
        ({ ch with st := afterHit k ch.work.hlt }, some (.completed c (g.finish ch.work.es)))
      else if ticksSince k g.kFirst + 1 = blocks ch.work.maxd then
        ({ ch with st := afterHit k ch.work.hlt }, some (.completed c ((g.truncate k).finish ch.work.es)))
      else (ch, none) := by
  by_cases normal : ticksSince k g.kLast = ch.work.hdt
  · simp [Channel.hitEndTest, firstReport, Candidate.endsNormally, h, normal]
  · have goesOn : g.endsNormally k ch.work = false := by simpa [Candidate.endsNormally] using normal
    have tested : ch.hitEndTest c k = (ch, none) := by simp [Channel.hitEndTest, h, goesOn]
    simp [firstReport, tested, Channel.hitTruncTest, Candidate.endsByForce, h, goesOn, normal]

/-- A reported fault ends what is in progress, and the later steps do nothing in FAULT (R17, R19). -/
theorem Channel.tick_faulted (hf : ch.reportedFault = true) (h : ch.st ≠ .off) :
    ch.tick c k w active load x = ch.faultArrival c := by
  have stays : ∀ y : Channel, y.reportedFault = true → y.st = .fault →
      ((y.faultCleared active).takeUp w active).handleSample c k load x = (y, none) := by
    intro y hy hs
    simp [Channel.faultCleared, Channel.takeUp, Channel.handleSample, hy, hs]
  cases e : ch.st with
  | off => exact absurd e h
  | pending y | inHit y => simp [Channel.tick, Channel.faultArrival, firstReport, hf, e]
  | fault => simp [Channel.tick, Channel.faultArrival, firstReport, hf, e, stays ch hf e]
  | lockout _ | quiet | listen =>
    simp only [Channel.tick, Channel.faultArrival, firstReport, hf, e, if_true]
    exact stays _ rfl rfl

end Tick

end Sys2Proof.Machine

open Sys2Proof.Machine in
/-- Settles O14: state by state. The handlings named in the statement are the model's own, written out. -/
theorem channelHandlesATick : Obligations.ChannelHandlesATick := by
  intro ch c k w active load x result t taken frac cand b off listen quiet waiting
  have hlisten : (ch.taken w).listened x = listen := rfl
  have hquiet : (ch.taken w).quieted c k load x = quiet := by
    by_cases below : x.m < t
    · simp only [quiet, if_pos below]
      exact if_neg (Nat.not_le.2 below)
    · simp only [quiet, if_neg below]
      exact if_pos (Nat.not_lt.1 below)
  have hwaiting : (ch.taken w).waited c k active load x = waiting := by
    simp only [waiting, Channel.waited, hquiet, hlisten]
  have pendingTests : ∀ y, ch.st = .pending y → ch.reportedFault = false → result = _ := fun y h hf =>
    (Channel.tick_pending hf h).trans (Channel.pending_tests rfl)
  have inHitTests : ∀ y, ch.st = .inHit y → ch.reportedFault = false → result = _ := fun y h hf =>
    (Channel.tick_inHit hf h).trans (Channel.inHit_tests rfl)
  refine ⟨fun h => ?off, fun hf => ⟨fun h => ?staysInFault, fun h => ?entersFault, fun y h => ?withdrawn, fun y h => ?ended⟩,
    fun hf => ⟨fun h => ?leavesFault, fun h => ?listen, fun h => ?quiet, fun e h => ?lockout, fun y h => ?pending,
      fun y h => ?inHit⟩⟩
  case off => rw [← hwaiting]; exact Channel.tick_off h
  case staysInFault => exact (Channel.tick_faulted hf (by simp [h])).trans (by simp [Channel.faultArrival, h])
  case entersFault =>
    rcases h with h | h | ⟨e, h⟩ <;>
      exact (Channel.tick_faulted hf (by simp [h])).trans (by simp [Channel.faultArrival, h, hf])
  case withdrawn => exact (Channel.tick_faulted hf (by simp [h])).trans (by simp [Channel.faultArrival, h, hf])
  case ended => exact (Channel.tick_faulted hf (by simp [h])).trans (by simp [Channel.faultArrival, h, hf])
  case leavesFault => rw [← hwaiting]; exact Channel.tick_leavesFault hf h
  case listen => rw [← hlisten]; exact Channel.tick_listen hf h
  case quiet => rw [← hquiet]; exact Channel.tick_quiet hf h
  case lockout => exact Channel.tick_lockout hf h
  case pending =>
    intro g span
    rw [pendingTests y h hf]
    simp only [Candidate.gather_kFirst]
    rfl
  case inHit =>
    intro g after
    rw [inHitTests y h hf]
    simp only [Candidate.gather_kFirst]
    rfl
end

