-- ==== Sys2Proof/Proofs/ChannelsSound.lean ====
section
/-! SUPPORT. The channels through every operation of the part: at rest outside an active run (R35), in agreement with the status line
unit (R17, R169, R170), and within the ranges of the magnitudes and the estimate (R8, R24). -/

namespace Sys2Proof.Machine

/-! ### One channel -/

/-- What every handling of a channel keeps: the fault state it was told, OFF entered with a clear fault state alone, the range of
b16, and rest while the run is not active. -/
structure Channel.Moves (active : Bool) (old new : Channel) : Prop where
  reportedFault : new.reportedFault = old.reportedFault
  off : new.st = .off → old.st = .off ∨ old.reportedFault = false
  b16 : old.b16 ≤ 524272 → new.b16 ≤ 524272
  rest : active = false → old.st.resting = true → new.st.resting = true

namespace Channel.Moves

variable {active : Bool} {ch : Channel} {c : ChanId} {k : Tick}

theorem refl (active : Bool) (ch : Channel) : ch.Moves active ch := ⟨rfl, .inl, id, fun _ => id⟩

/-- A change of the state alone. -/
theorem withState {st : ChState} (off : st = .off → ch.st = .off ∨ ch.reportedFault = false)
    (rest : active = false → ch.st.resting = true → st.resting = true) : ch.Moves active { ch with st := st } :=
  ⟨rfl, off, id, rest⟩

theorem faultArrival (ch : Channel) (c : ChanId) : ch.Moves active (ch.faultArrival c).1 := by
  have faulted : ch.Moves active { ch with st := .fault } := withState nofun fun _ _ => rfl
  unfold Channel.faultArrival
  split
  · cases ch.st with
    | off | fault => exact refl _ _
    | pending _ | inHit _ | lockout _ | quiet | listen => exact faulted
  · exact refl _ _

theorem faultCleared (ch : Channel) : ch.Moves active (ch.faultCleared active) := by
  unfold Channel.faultCleared
  split
  · refine withState (fun e => ?_) fun inactive _ => ?_
    · cases active <;> cases e
    · rw [inactive]; rfl
  · exact refl _ _

theorem peakFreeze (ch : Channel) (k : Tick) : ch.Moves active (ch.peakFreeze k) := by
  unfold Channel.peakFreeze
  split
  · next e => exact withState nofun fun _ r => by rw [e] at r; cases r
  · next e => exact withState nofun fun _ r => by rw [e] at r; cases r
  all_goals exact refl _ _

theorem lockoutEnd (ch : Channel) (k : Tick) : ch.Moves active (ch.lockoutEndTest k) := by
  unfold Channel.lockoutEndTest
  split
  · next e =>
    split
    · exact withState nofun fun _ r => by rw [e] at r; cases r
    · exact refl _ _
  · exact refl _ _

theorem glitch (ch : Channel) (c : ChanId) (k : Tick) : ch.Moves active (ch.glitchTest c k).1 := by
  unfold Channel.glitchTest
  split
  · next e =>
    split
    · exact ⟨rfl, nofun, id, fun _ r => by rw [e] at r; cases r⟩
    · exact refl _ _
  · exact refl _ _

/-- A channel whose hit has ended was not at rest and is not OFF (R33). -/
theorem afterHit {cand : Candidate} (h : ch.st = .inHit cand) (k : Tick) (n : Nat) :
    ch.Moves active { ch with st := Machine.afterHit k n } := by
  refine withState (fun e => ?_) fun _ r => by rw [h] at r; cases r
  unfold Machine.afterHit at e
  split at e <;> cases e

theorem hitEnd (ch : Channel) (c : ChanId) (k : Tick) : ch.Moves active (ch.hitEndTest c k).1 := by
  unfold Channel.hitEndTest
  split
  · next e =>
    split
    · exact afterHit e _ _
    · exact refl _ _
  · exact refl _ _

theorem hitTrunc (ch : Channel) (c : ChanId) (k : Tick) : ch.Moves active (ch.hitTruncTest c k).1 := by
  unfold Channel.hitTruncTest
  split
  · next e =>
    split
    · exact afterHit e _ _
    · exact refl _ _
  · exact refl _ _

theorem runStart (ch : Channel) : ch.Moves true ch.runStart := by
  unfold Channel.runStart
  split
  · exact withState nofun nofun
  · exact refl _ _

theorem runClear (ch : Channel) : ch.Moves active ch.runClear := by
  unfold Channel.runClear
  refine ⟨rfl, fun e => ?_, id, fun _ _ => ?_⟩
  · by_cases off : ch.st = .off
    · exact .inl off
    · rw [if_neg off] at e; cases e
  · show ChState.resting (if ch.st = .off then .off else .listen) = true
    split <;> rfl

end Channel.Moves

/-- The closing action on a channel's state (R37). -/
theorem Channel.close_fst (ch : Channel) (c : ChanId) :
    (ch.close c).1 = { ch with st := if ch.st = .off ∨ ch.st = .fault then ch.st else .listen } := by
  cases ch with
  | mk st t b16 glitches reportedFault work => cases st <;> rfl

theorem Channel.close_resting (ch : Channel) (c : ChanId) : (ch.close c).1.st.resting = true := by
  unfold Channel.close
  cases e : ch.st <;> simp [ChState.resting, e]

theorem Channel.Moves.close (active : Bool) (ch : Channel) (c : ChanId) : ch.Moves active (ch.close c).1 := by
  refine ⟨by rw [ch.close_fst], fun e => .inl ?_, by rw [ch.close_fst]; exact id, fun _ _ => ch.close_resting c⟩
  rw [ch.close_fst] at e
  simp only at e
  split at e
  · exact e
  · cases e

/-! ### A channel through a tick -/

/-- A property that neither the state, the threshold, the glitch count nor the working copy touches, and that the estimator keeps,
is kept by a tick. -/
theorem Channel.tick_keeps {P : Channel → Prop} {x : Handed}
    (set : ∀ (ch : Channel) (st : ChState) (t glitches : Nat) (w : ChParams), P ch →
      P { ch with st := st, t := t, glitches := glitches, work := w })
    (estimate : ∀ (ch : Channel), P ch → P (ch.estimate x.m)) {ch : Channel} (h : P ch) (c : ChanId) (k : Tick) (w : ChParams)
    (active : Bool) (load : LoadStamp) : P (ch.tick c k w active load x).1 := by
  have first : ∀ a f, P a.1 → (∀ y, P y → P (f y).1) → P (firstReport a f).1 := by
    intro a f ha hf
    unfold firstReport
    split
    · exact ha
    · exact hf _ ha
  have arrival : P (ch.faultArrival c).1 := by
    unfold Channel.faultArrival
    repeat' split
    all_goals first
      | exact h
      | exact set _ _ _ _ _ h
  have cleared : ∀ y : Channel, P y → P (y.faultCleared active) := by
    intro y hy
    unfold Channel.faultCleared
    split
    · exact set _ _ _ _ _ hy
    · exact hy
  have taken : ∀ y : Channel, P y → P (y.takeUp w active) := by
    intro y hy
    unfold Channel.takeUp
    repeat' split
    all_goals first
      | exact hy
      | exact set y _ _ _ _ hy
  have tests : ∀ y : Channel, P y → P (y.confirmTest c k).1 ∧ P (y.glitchTest c k).1 ∧ P (y.hitEndTest c k).1 ∧
      P (y.hitTruncTest c k).1 ∧ P (y.lockoutEndTest k) := by
    intro y hy
    unfold Channel.confirmTest Channel.glitchTest Channel.hitEndTest Channel.hitTruncTest Channel.lockoutEndTest
    refine ⟨?_, ?_, ?_, ?_, ?_⟩
    all_goals
      repeat' split
      all_goals first
        | exact hy
        | exact set _ _ _ _ _ hy
  have sampled : ∀ y : Channel, P y → P (y.handleSample c k load x).1 := by
    intro y hy
    unfold Channel.handleSample
    split
    · exact hy
    · exact hy
    · exact estimate _ hy
    · split
      · simp only [Channel.start]
        split <;> exact set _ _ _ _ _ hy
      · exact estimate _ hy
    · exact first _ _ (tests _ (set _ _ _ _ _ hy)).1 fun z hz => (tests z hz).2.1
    · exact first _ _ (tests _ (set _ _ _ _ _ hy)).2.2.1 fun z hz => (tests z hz).2.2.2.1
    · exact (tests _ hy).2.2.2.2
  exact first _ _ arrival fun y hy => sampled _ (taken _ (cleared _ hy))

section Tick
variable {ch : Channel} {c : ChanId} {k : Tick} {w : ChParams} {active : Bool} {load : LoadStamp} {x : Handed}

/-- A channel with a reported fault that is not OFF stands in FAULT after a tick (R17, R19). -/
theorem Channel.tick_faulted_st (hf : ch.reportedFault = true) (h : ch.st ≠ .off) :
    (ch.tick c k w active load x).1.st = .fault := by
  rw [Channel.tick_faulted hf h]
  unfold Channel.faultArrival
  rw [if_pos hf]
  cases e : ch.st with
  | off => exact absurd e h
  | fault => exact e
  | pending _ | inHit _ | lockout _ | quiet | listen => rfl

/-- Outside an active run a channel at rest goes from one state of rest to another (R18, R21, R23). -/
theorem Channel.tick_resting (h : ch.st.resting = true) : (ch.tick c k w false load x).1.st.resting = true := by
  have waited : ∀ y : Channel × Option Report, y = (if w.enable then (ch.taken w).waited c k false load x
      else ({ ch.taken w with st := .off }, none)) → y.1.st.resting = true := by
    rintro y rfl
    split <;> rfl
  by_cases off : ch.st = .off
  · exact waited _ (Channel.tick_off off)
  cases hf : ch.reportedFault with
  | true => rw [Channel.tick_faulted_st hf off]; rfl
  | false =>
    cases e : ch.st with
    | off => exact absurd e off
    | fault => exact waited _ (Channel.tick_leavesFault hf e)
    | listen => exact waited _ (Channel.tick_listen hf e)
    | quiet | pending _ | inHit _ | lockout _ => rw [e] at h; cases h

theorem Channel.Moves.tick (hx : x.m ≤ 32767) : ch.Moves active (ch.tick c k w active load x).1 where
  reportedFault := Channel.tick_keeps (P := fun y => y.reportedFault = ch.reportedFault) (fun _ _ _ _ _ => id) (fun _ => id) rfl
    c k w active load
  off e := by
    by_contra! h
    rw [Channel.tick_faulted_st (by simpa using h.2) h.1] at e
    cases e
  b16 h := Channel.tick_keeps (P := fun y => y.b16 ≤ 524272) (fun _ _ _ _ _ => id) (fun _ hy => estimate_le _ hy hx) h
    c k w active load
  rest inactive h := by subst inactive; exact Channel.tick_resting h

end Tick

/-! ### All channels -/

/-- The three soundnesses of the channels are kept. -/
structure State.KeepsChannels (s t : State) : Prop where
  rest : s.ChannelsRest → t.ChannelsRest
  faults : s.FaultsAgree → t.FaultsAgree
  magnitudes : s.MagnitudesOk → t.MagnitudesOk

namespace State.KeepsChannels

variable {s t u : State}

theorem refl (s : State) : s.KeepsChannels s := ⟨id, id, id⟩

theorem trans (h : s.KeepsChannels t) (k : t.KeepsChannels u) : s.KeepsChannels u :=
  ⟨k.rest ∘ h.rest, k.faults ∘ h.faults, k.magnitudes ∘ h.magnitudes⟩

/-- Handlings of the channels, with the previous magnitudes kept or within range. -/
theorem of_moves (run : t.runActive = s.runActive ∨ t.runActive = true ∨ ∀ c, (t.chan c).st.resting = true)
    (faults : t.status.faults = s.status.faults)
    (prev : ∀ c : ChanId, t.intake.prev[c] = s.intake.prev[c] ∨ t.intake.prev[c] ≤ 32767)
    (moves : ∀ c, (s.chan c).Moves t.runActive (t.chan c)) : s.KeepsChannels t := by
  refine ⟨fun h inactive c => ?_, fun h c => ⟨?_, fun off => ?_⟩, fun h c => ⟨?_, (moves c).b16 (h c).2⟩⟩
  · rcases run with e | e | e
    · exact (moves c).rest inactive (h (e ▸ inactive) c)
    · rw [inactive] at e; cases e
    · exact e c
  · rw [(moves c).reportedFault, faults]; exact (h c).1
  · rw [faults]
    rcases (moves c).off off with e | e
    · exact (h c).2 e
    · rw [← (h c).1]; exact e
  · rcases prev c with e | e
    · rw [e]; exact (h c).1
    · exact e

/-- What leaves the channels, the fault states and the previous magnitudes alone, and the run as active as it was. -/
theorem of_same (channels : t.channels = s.channels) (run : t.runActive = s.runActive)
    (faults : t.status.faults = s.status.faults) (prev : t.intake.prev = s.intake.prev) : s.KeepsChannels t :=
  of_moves (.inl run) faults (fun c => .inl (by rw [prev])) fun c => by
    rw [show t.chan c = s.chan c by simp only [State.chan, channels]]; exact .refl _ _

theorem of_sameBlocks (h : t.SameBlocks s) : s.KeepsChannels t :=
  of_same h.channels h.runActive (congrArg _ h.status) (congrArg _ h.intake)

theorem of_rollupOnly (h : s.RollupOnly t) : s.KeepsChannels t :=
  of_same h.channels h.runActive (congrArg _ h.status) (congrArg _ h.intake)

theorem of_engineOnly (h : s.EngineOnly t) : s.KeepsChannels t :=
  of_same h.channels h.runActive (congrArg _ h.status) (congrArg _ h.intake)

/-- One channel handled. -/
theorem withChan (c : ChanId) {x : Channel} (moves : (s.chan c).Moves s.runActive x) : s.KeepsChannels (s.withChan c x) :=
  of_moves (.inl rfl) rfl (fun _ => .inl rfl) fun d => by
    by_cases e : d = c
    · subst e; rw [State.withChan_chan]; exact moves
    · rw [s.withChan_chan_ne _ e]; exact .refl _ _

theorem evidenceLapse (s : State) : s.KeepsChannels s.evidenceLapse :=
  have h := State.RunOnly.evidenceLapse s
  of_same h.channels (by simp [State.runActive, s.evidenceLapse_runState]) (congrArg _ h.status) (congrArg _ h.intake)

end State.KeepsChannels

/-! ### The closing event -/

theorem channelsOf_get (r : Vector (Channel × Option Report) 16) (c : ChanId) : (channelsOf r)[c] = r[c].1 := perChannel_get _ c

theorem State.close_engineOnly (s : State) (cause : Cause) :
    (s.close cause).channels = channelsOf s.closeChannels ∧ (s.close cause).intake = s.intake ∧
      (s.close cause).status = s.status ∧ (s.close cause).setup = s.setup := by
  have taken : (s.withChannels (channelsOf s.closeChannels)).EngineOnly
      (((s.withChannels (channelsOf s.closeChannels)).takeReports (reportsOf s.closeChannels)).flush) :=
    (State.EngineOnly.takeReports _ _).trans (.flush _)
  have released : ∀ u : State, u.RollupOnly u.releaseHold := fun u => (State.RollupOnly.refl u).releaseHold
  simp only [State.close, State.discardPlans, State.withRun_channels, State.withRun_intake, State.withRun_status,
    State.withRun_setup, (released _).channels, (released _).intake, (released _).status, (released _).setup,
    State.enterRunState, State.post_channels, State.post_intake, State.post_status, State.post_setup, State.offer_channels,
    State.offer_intake, State.offer_status, State.offer_setup, State.closingTally_channels, State.closingTally_intake,
    State.closingTally_status, State.closingTally_setup, taken.channels, taken.intake, taken.status, taken.setup,
    State.withChannels_channels, State.withChannels_intake, State.withChannels_status, State.withChannels_setup, and_self]

theorem State.close_chan (s : State) (cause : Cause) (c : ChanId) : (s.close cause).chan c = ((s.chan c).close c).1 := by
  rw [State.chan, (s.close_engineOnly cause).1, channelsOf_get]
  exact congrArg Prod.fst (perChannel_get _ c)

namespace State.KeepsChannels

theorem close (s : State) (cause : Cause) : s.KeepsChannels (s.close cause) := by
  obtain ⟨-, intake, status, -⟩ := s.close_engineOnly cause
  refine of_moves (.inr (.inr fun c => ?_)) (congrArg _ status) (fun c => .inl (by rw [intake])) fun c => ?_
  · rw [s.close_chan]; exact Channel.close_resting _ _
  · rw [s.close_chan]; exact .close _ _ _

theorem postWindowEnd (s : State) : s.KeepsChannels s.postWindowEnd := by
  unfold State.postWindowEnd
  split
  · exact close _ _
  · exact refl _

theorem declare (s : State) (src : RuptureSource) (g : Option SeqNo) (h : s.runActive = true) :
    s.KeepsChannels (s.declare src g) :=
  have only := State.RunOnly.declare s src g
  of_same only.channels (by rw [h]; rfl) (congrArg _ only.status) (congrArg _ only.intake)

theorem declareNow (s : State) (src : RuptureSource) (g : Option SeqNo) (h : s.runActive = true) :
    s.KeepsChannels (s.declareNow src g) := by
  simp only [State.declareNow]
  split
  · exact (declare s src g h).trans (close _ _)
  · exact declare s src g h

/-! ### A tick and a frame -/

theorem beforeChannels (s : State) : s.KeepsChannels s.beforeChannels := by
  have clock : s.KeepsChannels s.advanceClock :=
    have h := s.advanceClock_same
    of_same h.channels h.runActive (congrArg _ h.status) (by rw [h.intake]; rfl)
  have cycle : ∀ u : State, u.KeepsChannels u.startCycle := by
    intro u
    unfold State.startCycle
    split
    · exact of_same rfl rfl rfl rfl
    · exact refl u
  exact clock.trans ((cycle _).trans ((of_rollupOnly (.staleCheck _)).trans (evidenceLapse _)))

end State.KeepsChannels

theorem emitFrom_runActive (closing : Bool) (gs : List Group) (s : State) : (emitFrom closing gs s).runActive = s.runActive := by
  induction gs generalizing s with
  | nil => rfl
  | cons g gs ih =>
    simp only [emitFrom]
    split
    · rw [ih]
      rcases s.emit_runState closing g with e | ⟨e, f⟩
      · simp [State.runActive, e]
      · simp [State.runActive, e, f, RunState.active]
    · rfl

theorem State.groupingStages_runActive (s : State) (rs : List Report) : (s.groupingStages rs).runActive = s.runActive := by
  simp only [State.groupingStages, State.withGrouping_runActive, State.emitStage, emitFrom_runActive]
  exact (State.EngineOnly.takeReports s rs).runActive

/-- The channels after a tick, each by its own handling (R16). -/
theorem State.detect_chan (s : State) (xs : ChanId → Sample) (c : ChanId) :
    (s.detect xs).chan c =
      ((s.chan c).tick c s.clock (s.setup.entry c) s.runActive s.rollup.stamp (s.handed xs c)).1 := by
  have handled : (s.detect xs).channels = channelsOf (s.tickChannels xs) :=
    (Kept.of_channels (channelsOf (s.tickChannels xs))).groupingStages _ _ rfl
  rw [State.chan, handled, channelsOf_get]
  exact congrArg Prod.fst (perChannel_get _ c)

namespace State.KeepsChannels

/-- The samples of a tick within the range of a magnitude (R8). -/
theorem detect (s : State) {xs : ChanId → Sample} (hx : ∀ c, (xs c).m ≤ 32767) : s.KeepsChannels (s.detect xs) := by
  have run : (s.detect xs).runActive = s.runActive := State.groupingStages_runActive _ _
  have status : (s.detect xs).status = s.status := (Kept.of_status s.status).toKept.groupingStages _ _ rfl
  have intake : (s.detect xs).intake = s.intake.handOver xs := (Kept.of_intake _).toKept.groupingStages _ _ rfl
  refine of_moves (.inl run) (congrArg _ status) (fun c => .inr ?_) fun c => ?_
  · rw [intake, show (s.intake.handOver xs).prev[c] = (xs c).m from perChannel_get _ c]; exact hx c
  · rw [run, s.detect_chan]; exact .tick (hx c)

theorem deliverTick (s : State) {xs : ChanId → Sample} (hx : ∀ c, (xs c).m ≤ 32767) : s.KeepsChannels (s.deliverTick xs) :=
  (beforeChannels s).trans ((detect _ hx).trans ((of_rollupOnly (.rollupAtTick _)).trans ((postWindowEnd _).trans
    ((of_sameBlocks (.waitTimeout _ .a)).trans (of_sameBlocks (.waitTimeout _ .b))))))

theorem synthetic (d : Nat) (s : State) : s.KeepsChannels (State.synthetic d s) := by
  induction d generalizing s with
  | zero => exact refl s
  | succ d ih => exact (deliverTick s fun _ => Nat.zero_le _).trans (ih _)

theorem received (s : State) (ws : List Word16) (gap : Bool) : s.KeepsChannels (s.deliverTick (receivedSample ws gap)) :=
  deliverTick s fun _ => magnitude_le _

theorem gapFrame (s : State) (d : Nat) (ws : List Word16) : s.KeepsChannels (s.gapFrame d ws) :=
  (synthetic d s).trans ((of_sameBlocks ((State.SameBlocks.postWith _ _ _ _).trans (.offer _ _))).trans (received _ ws true))

theorem evaluate (s : State) (ws : List Word16) : s.KeepsChannels (s.evaluate ws) := by
  have accepted : ∀ (u : State) (n : BitVec 8), u.KeepsChannels (u.accepted n) := fun _ _ => of_same rfl rfl rfl rfl
  rcases s.evaluate_cases ws with e | e | ⟨d, e⟩ <;> rw [e]
  · exact refl s
  · exact (received s ws false).trans (accepted _ _)
  · exact (gapFrame s d ws).trans (accepted _ _)

theorem frame (s : State) (ws : List Word16) : s.KeepsChannels (s.frame ws) := by
  have collecting : ∀ l, s.KeepsChannels (s.withIntake { s.intake with collecting := l }) := fun _ => of_same rfl rfl rfl rfl
  unfold State.frame
  repeat' split
  · exact refl s
  · exact collecting _
  · exact (collecting []).trans (evaluate _ _)

/-! ### A load, run start and run clear -/

theorem postLoad (s : State) (p : Port) (v : Nat) : s.KeepsChannels (s.postLoad p v) := by
  have dropped : ∀ u : State, u.KeepsChannels (u.loadDropCheck v) := by
    intro u
    unfold State.loadDropCheck
    split
    · exact refl u
    · split
      · next h =>
        simp only [Bool.and_eq_true, decide_eq_true_eq] at h
        exact declareNow u _ _ (by simp [State.runActive, h.1, RunState.active])
      · exact refl u
  have loaded := State.RollupOnly.setLoad s v
  simp only [State.postLoad]
  split
  · refine trans ?_ (dropped _)
    split
    · exact of_rollupOnly (loaded.withRollup _)
    · exact of_rollupOnly ((loaded.withRollup _).offer _)
  · exact of_rollupOnly loaded

theorem startRun (s : State) : s.KeepsChannels s.startRun := by
  have active : s.startRun.runActive = true := by simp [State.runActive, s.startRun_runState, RunState.active]
  have chan : ∀ c, s.startRun.chan c = (s.chan c).runStart := by
    intro c
    simp only [State.startRun, State.post_chan, State.offer_chan, State.withChannels_chan, perChannel_get]
    rfl
  refine of_moves (.inr (.inl active)) ?_ (fun c => .inl ?_) fun c => ?_
  · simp [State.startRun, State.firstInterval, State.takeUpActivity]
  · simp [State.startRun, State.firstInterval, State.takeUpActivity]
  · rw [active, chan]; exact .runStart _

end State.KeepsChannels

/-- Run clear on the blocks that the postings and the journal leave alone. -/
theorem State.clearRun_blocks (s : State) :
    s.clearRun.channels = (perChannel fun c => (s.chan c).runClear) ∧ s.clearRun.intake = s.intake ∧
      s.clearRun.status = s.status ∧ s.clearRun.grouping = s.grouping.runClear := by
  have wait : ∀ (u : State) (p : Port), (u.clearWait p).SameBlocks u := by
    intro u p
    unfold State.clearWait
    split
    · exact .updPort _ _ _
    · exact .refl u
  have ports : (((((s.clearWait .a).clearWait .b).updPort .a PortState.runClear).updPort .b PortState.runClear)).SameBlocks s :=
    (State.SameBlocks.updPort _ _ _).trans ((State.SameBlocks.updPort _ _ _).trans ((wait _ _).trans (wait _ _)))
  have journal : ∀ u : State, u.clearJournal.SameBlocks u := by
    intro u
    simp only [State.clearJournal]
    split <;> exact ⟨rfl, rfl, rfl, rfl, rfl, rfl, rfl⟩
  have rollup : ∀ u : State, u.RollupOnly u.clearRollup := by
    intro u
    simp only [State.clearRollup]
    split
    · exact ((State.RollupOnly.refl u).withRollup _).postWith _ _ _
    · exact (State.RollupOnly.refl u).withRollup _
  have locks : ∀ u : State, u.clearLocks.channels = u.channels ∧ u.clearLocks.intake = u.intake ∧
      u.clearLocks.status = u.status ∧ u.clearLocks.grouping = u.grouping := by
    intro u
    simp only [State.clearLocks]
    split <;> exact ⟨rfl, rfl, rfl, rfl⟩
  obtain ⟨channels, intake, status, grouping⟩ := locks ((State.clearRollup (State.clearJournal _)).withRun Run.reset |>.post
    .runState RunState.idle.code)
  rw [State.clearRun]
  refine ⟨channels.trans ?_, intake.trans ?_, status.trans ?_, grouping.trans ?_⟩
  · rw [State.post_channels, State.withRun_channels, (rollup _).channels, (journal _).channels, State.withGrouping_channels,
      State.withChannels_channels]
    simp only [ports.chan]
  · rw [State.post_intake, State.withRun_intake, (rollup _).intake, (journal _).intake]
    exact ports.intake
  · rw [State.post_status, State.withRun_status, (rollup _).status, (journal _).status]
    exact ports.status
  · rw [State.post_grouping, State.withRun_grouping, (rollup _).grouping, (journal _).grouping, State.withGrouping_grouping,
      ports.grouping]

theorem State.clearRun_chan (s : State) (c : ChanId) : s.clearRun.chan c = (s.chan c).runClear := by
  rw [State.chan, s.clearRun_blocks.1]
  exact perChannel_get _ c

namespace State.KeepsChannels

theorem clearRun (s : State) : s.KeepsChannels s.clearRun := by
  obtain ⟨-, intake, status, -⟩ := s.clearRun_blocks
  refine of_moves (.inr (.inr fun c => ?_)) (congrArg _ status) (fun c => .inl (by rw [intake])) fun c => ?_
  · rw [s.clearRun_chan]
    show ChState.resting (if (s.chan c).st = .off then .off else .listen) = true
    split <;> rfl
  · rw [s.clearRun_chan]; exact .runClear _

/-! ### The status line -/

variable {s t : State}

/-- Any change of the status line unit but of the fault states. -/
theorem withStatus (h : s.KeepsChannels t) {x : Status} (faults : x.faults = t.status.faults) :
    s.KeepsChannels (t.withStatus x) :=
  h.trans (of_same rfl rfl faults rfl)

theorem postLevel (h : s.KeepsChannels t) (src : Source) (up : Bool) : s.KeepsChannels (t.postLevel src up) :=
  h.trans (of_sameBlocks (.postWith t src 0 (word32 up.toNat)))

end State.KeepsChannels

/-- All that the count of a report can do: the fault state stays, or it becomes the report's and is told, which no channel in OFF
does (R169). -/
theorem debounce_cases (off report fault : Bool) (count : Nat) :
    ((debounce off report fault count).1 = fault ∧ (debounce off report fault count).2.2 = false) ∨
      (off = false ∧ (debounce off report fault count).2.2 = true) := by
  unfold debounce
  repeat' split
  all_goals first
    | exact .inl ⟨rfl, rfl⟩
    | exact .inr ⟨by simpa using ‹¬ off = true›, rfl⟩

namespace State.KeepsChannels

/-- One channel's fault state counted and told (R169, R170). -/
theorem debounceChannel (s : State) (c : ChanId) : s.KeepsChannels (s.debounceChannel c) := by
  simp only [State.debounceChannel]
  set r := debounce ((s.chan c).st == .off) (s.status.reports[c] == some true) s.status.faults[c] s.status.debounce[c] with hr
  rcases debounce_cases ((s.chan c).st == .off) (s.status.reports[c] == some true) s.status.faults[c] s.status.debounce[c] with
    ⟨stays, silent⟩ | ⟨enabled, told⟩
  · rw [← hr] at stays silent
    rw [silent, if_neg (by decide)]
    refine (refl s).withStatus ?_
    show s.status.faults.set c r.1 = s.status.faults
    rw [stays]
    exact Vector.set_getElem_self _
  · rw [← hr] at told
    have enabled : (s.chan c).st ≠ .off := by simpa using enabled
    rw [told, if_pos rfl]
    set x : Status := { s.status with faults := s.status.faults.set c r.1, debounce := s.status.debounce.set c r.2.1 }
    set u : State := (s.withStatus x).withChan c { s.chan c with reportedFault := r.1 }
    have self : u.chan c = { s.chan c with reportedFault := r.1 } := State.withChan_chan _ _ _
    have others : ∀ d, d ≠ c → u.chan d = s.chan d := fun d hd => State.withChan_chan_ne _ _ hd
    have faults : ∀ d : ChanId, u.status.faults[d] = if d = c then r.1 else s.status.faults[d] := by
      intro d
      by_cases e : d = c
      · subst e; simp [u, x]
      · have : c.val ≠ d.val := fun q => e (Fin.ext q.symm)
        simp [u, x, e, this]
    have changed : s.KeepsChannels u := by
      refine ⟨fun h inactive d => ?_, fun h d => ?_, fun h d => ⟨(h d).1, ?_⟩⟩
      · by_cases e : d = c
        · subst e; rw [self]; exact h inactive d
        · rw [others d e]; exact h inactive d
      · rw [faults]
        by_cases e : d = c
        · subst e; rw [self, if_pos rfl]; exact ⟨rfl, fun off => absurd off enabled⟩
        · rw [others d e, if_neg e]; exact h d
      · by_cases e : d = c
        · subst e; rw [self]; exact (h d).2
        · rw [others d e]; exact (h d).2
    exact changed.trans (of_sameBlocks ((State.SameBlocks.postWith _ _ _ _).trans (.offer _ _)))

theorem completeCycle (s : State) (m : LineMode) : s.KeepsChannels (s.completeCycle m) := by
  have counted : ∀ (cs : List ChanId) (u : State), u.KeepsChannels (cs.foldl State.debounceChannel u) := by
    intro cs
    induction cs with
    | nil => exact refl
    | cons c cs ih => exact fun u => (debounceChannel u c).trans (ih _)
  have up : ∀ u : State, u.KeepsChannels u.lineUp := by
    intro u
    simp only [State.lineUp]
    split
    · refine postLevel ?_ _ _
      exact (refl u).withStatus rfl
    · exact (refl u).withStatus rfl
  rw [State.completeCycle]
  have whole := (counted allChannels s).trans (up _)
  generalize (allChannels.foldl State.debounceChannel s).lineUp = u at whole
  exact whole.withStatus rfl

theorem abortCycle (s : State) : s.KeepsChannels s.abortCycle := by
  simp only [State.abortCycle]
  split
  · refine postLevel (withStatus (withStatus (refl s) ?_) ?_) _ _ <;> rfl
  · exact (refl s).withStatus rfl

theorem startCycle (s : State) : s.KeepsChannels s.startCycle := by
  unfold State.startCycle
  split
  · exact (refl s).withStatus rfl
  · exact refl s

theorem nodeStart (s : State) : s.KeepsChannels s.nodeStart := by
  unfold State.nodeStart
  split
  · exact (refl s).withStatus rfl
  · exact refl s

theorem statusTick (s : State) (l : LineLevel) : s.KeepsChannels (s.statusTick l) := by
  unfold State.statusTick
  split
  case h_1 =>
    split
    · exact nodeStart s
    · exact refl s
  case h_5 =>
    cases l with
    | low => exact abortCycle s
    | high => exact (refl s).withStatus rfl
  case h_6 =>
    split
    · exact completeCycle s _
    · exact (refl s).withStatus rfl
  all_goals exact (refl s).withStatus rfl

/-! ### Every operation -/

theorem of_event {s : State} {c : ChanId} {r : Channel × Option Report} (h : s.Event c r) :
    s.KeepsChannels (s.channelEvent c r) := by
  have moves : (s.chan c).Moves s.runActive r.1 := by
    cases h with
    | faultArrival => exact .faultArrival _ _
    | glitch => exact .glitch _ _ _
    | hitEnd => exact .hitEnd _ _ _
    | hitTrunc => exact .hitTrunc _ _ _
  exact (withChan c moves).trans (of_engineOnly (.channelEvent s c r))

theorem of_quietEvent {s : State} {c : ChanId} {x : Channel} (h : s.QuietEvent c x) : s.KeepsChannels (s.withChan c x) := by
  cases h with
  | faultCleared => exact withChan c (.faultCleared _)
  | peakFreeze => exact withChan c (.peakFreeze _ _)
  | lockoutEnd => exact withChan c (.lockoutEnd _ _)

theorem of_effect {i : Instr} {s u : State} (h : Effect i s u) : s.KeepsChannels u := by
  cases h with
  | nothing => exact refl s
  | collect | windowClose | groupLockoutEnd | setupWrite | setupLock => exact of_same rfl rfl rfl rfl
  | frame ws => exact frame s ws
  | clockWrap =>
    have same := s.wrapClock_same
    exact of_same same.channels same.runActive (congrArg _ same.status) (by rw [same.intake]; rfl)
  | event _ c r _ he => exact of_event he
  | quietEvent _ c x _ he => exact of_quietEvent he
  | evidenceLapse => exact evidenceLapse s
  | postWindowEnd => exact postWindowEnd s
  | rollup => exact of_rollupOnly (.rollupAtTick s)
  | loadStale => exact of_rollupOnly (.staleCheck s)
  | startCycle => exact startCycle s
  | nodeStart => exact nodeStart s
  | cycleEnd m => exact completeCycle s m
  | cycleAbort => exact abortCycle s
  | statusClock l => exact statusTick s l
  | runStart p => exact startRun s
  | runStop p => exact close s _
  | runClear p => exact clearRun s
  | ruptureDeclare p _ hr => exact declareNow s _ _ (by simp [State.runActive, hr, RunState.active])
  | loadPost p v => exact postLoad s p v

end State.KeepsChannels

theorem State.reset_channelsRest : State.reset.ChannelsRest := by
  intro _ c
  simp [State.chan, State.reset, Channel.reset, ChState.resting]

theorem State.reset_faultsAgree : State.reset.FaultsAgree := by
  intro c
  simp [State.chan, State.reset, Channel.reset, Status.reset]

theorem State.reset_magnitudesOk : State.reset.MagnitudesOk := by
  intro c
  simp [State.chan, State.reset, Channel.reset, Intake.reset]

end Sys2Proof.Machine

open Sys2Proof.Machine in
/-- Settles O58: by the operation of the command, each of which moves the channels as their own handlings do. -/
theorem channelsStaySound : Obligations.ChannelsStaySound := by
  intro c s t he
  by_cases hreset : ∃ cause, c = .fullReset cause
  · obtain ⟨cause, rfl⟩ := hreset
    rw [exec_fullReset] at he
    cases he
    exact ⟨fun _ => State.reset_channelsRest, fun _ => State.reset_faultsAgree, fun _ => State.reset_magnitudesOk⟩
  by_cases hrelease : c = .resetRelease
  · subst hrelease
    rw [exec_resetRelease] at he
    cases he
    exact ⟨id, id, id⟩
  obtain ⟨u, effect, same⟩ := exec_reaches (fun cause e => hreset ⟨cause, e⟩) hrelease he
  have kept := (State.KeepsChannels.of_effect effect).trans (.of_sameBlocks same)
  exact ⟨kept.rest, kept.faults, kept.magnitudes⟩
end

