-- ==== Sys2Proof/Proofs/Groups.lean ====
section
/-! SUPPORT. The pending group list and the placements through every operation of the part (R59 to R71). -/

namespace Sys2Proof.Machine

/-! ### The list under the operations of the engine -/

/-- An OPEN group at the tail alone: every group with another behind it is SETTLING. -/
theorem closed_dropLast_iff (gs : List Group) :
    (∀ g ∈ gs.dropLast, g.isOpen = false) ↔ gs.Pairwise fun g _ => g.isOpen = false := by
  induction gs with
  | nil => simp
  | cons g gs ih =>
    cases gs with
    | nil => simp
    | cons a as =>
      rw [List.dropLast_cons_cons, List.forall_mem_cons, ih, List.pairwise_cons (a := g)]
      exact and_congr_left fun _ => ⟨fun h _ _ => h, fun h => h a (List.mem_cons_self ..)⟩

namespace Grouping.Ok

variable {x y : Grouping}

theorem confirm (h : x.Ok) (c : ChanId) : (x.confirm c).Ok :=
  h.map _ _ rfl rfl (fun g hg => by simpa using h.2.1 g hg) fun _ => rfl

theorem finish (h : x.Ok) (c : ChanId) (f : Features) : (x.finish c f).Ok :=
  h.map _ _ rfl rfl (fun g hg => by simpa using h.2.1 g hg) fun _ => rfl

theorem place (h : x.Ok) (c : ChanId) (pl : Placement) : (x.place c pl).Ok := h.same rfl rfl

/-- A withdrawal removes a member and a group that it empties, and the order of the rest stays (R62). -/
theorem withdraw (h : x.Ok) (c : ChanId) : (x.withdraw c).Ok := by
  obtain ⟨few, -, tail, lockout⟩ := h
  refine ⟨?_, fun g hg => ?_, ?_, fun running g hg => ?_⟩
  · exact ((List.length_filter_le _ _).trans (by simp)).trans few
  · simpa using (List.mem_filter.1 hg).2
  · rw [closed_dropLast_iff] at tail ⊢
    exact (List.pairwise_map.2 tail).filter _
  · obtain ⟨g', hg', rfl⟩ := List.mem_map.1 (List.mem_of_mem_filter hg)
    exact lockout running g' hg'

theorem join (h : x.Ok) (st : Start) : (x.join st).Ok := by
  refine h.map _ _ rfl rfl (fun g hg => ?_) fun g => ?_
  · split
    · simp
    · exact h.2.1 g hg
  · split <;> rfl

/-- With every group SETTLING the lockout may run (R65, R66, R80). -/
theorem close (h : x.Ok) (k : Option Tick) :
    ({ x with groups := x.groups.map fun g => { g with isOpen := false }, lockout := k } : Grouping).Ok := by
  have closed : ∀ g ∈ x.groups.map fun g => { g with isOpen := false }, g.isOpen = false := by
    simp only [List.mem_map]
    rintro _ ⟨g, -, rfl⟩
    rfl
  refine ⟨by simpa using h.1, fun g hg => ?_, fun g hg => closed g (List.dropLast_subset _ hg), fun _ => closed⟩
  obtain ⟨g', hg', rfl⟩ := List.mem_map.1 hg
  exact h.2.1 g' hg'

theorem windowClose (h : x.Ok) (k : Tick) : (x.windowClose k).Ok := by
  unfold Grouping.windowClose
  split
  · exact h
  · split
    · exact h.close _
    · exact h

theorem lockoutEnd (h : x.Ok) (k : Tick) : (x.lockoutEnd k).Ok := by
  unfold Grouping.lockoutEnd
  split
  · exact ⟨h.1, h.2.1, h.2.2.1, fun e => absurd rfl e⟩
  · exact h

/-- A group opened at the tail of a list with no OPEN group, no lockout and room (R67, R68). -/
theorem openWith (h : x.Ok) (st : Start) (w : GrParams) (closed : x.openGroup = none) (idle : x.lockout = none)
    (room : x.groups.length < 4) : (x.openWith st w).Ok := by
  have closed : ∀ g ∈ x.groups, g.isOpen = false := by simpa [Grouping.openGroup] using closed
  refine ⟨?_, fun g hg => ?_, fun g hg => closed g ?_, fun e => absurd idle e⟩
  · simp only [Grouping.openWith, List.length_append, List.length_singleton]; omega
  · rcases List.mem_append.1 hg with hg | hg
    · exact h.2.1 g hg
    · rw [List.mem_singleton.1 hg]; exact List.cons_ne_nil _ _
  · simpa [Grouping.openWith] using hg

theorem openingPoint (h : x.Ok) (gr : GrParams) (st : Start) : (Grouping.openingPoint gr x st).Ok := by
  have taken : ({ x with work := some gr } : Grouping).Ok := h.same rfl rfl
  simp only [Grouping.openingPoint]
  split
  · exact taken.join st
  · next closed =>
    split
    · exact taken.place _ _
    · split
      · exact taken.place _ _
      · next idle =>
        split
        · next room =>
          exact taken.openWith st gr (Option.not_isSome_iff_eq_none.1 closed) (Option.not_isSome_iff_eq_none.1 idle) room
        · exact taken.place _ _

theorem joinStart (h : x.Ok) (later : List Start) (st : Start) : (Machine.joinStart (x, later) st).1.Ok := by
  unfold Machine.joinStart
  split
  · exact h
  · exact h.place _ _
  · exact h.join st

theorem joinStage (h : x.Ok) (starts : List Start) : (x.joinStage starts).1.Ok := by
  have all : ∀ (todo : List Start) (acc : Grouping × List Start), acc.1.Ok → (todo.foldl Machine.joinStart acc).1.Ok := by
    intro todo
    induction todo with
    | nil => exact fun _ => id
    | cons st todo ih => exact fun acc hacc => ih _ (hacc.joinStart acc.2 st)
  exact all starts (x, []) h

theorem openStage (h : x.Ok) (k : Tick) (gr : GrParams) (starts : List Start) : (x.openStage k gr starts).Ok := by
  have all : ∀ (todo : List Start) (y : Grouping), y.Ok → (todo.foldl (Grouping.openingPoint gr) y).Ok := by
    intro todo
    induction todo with
    | nil => exact fun _ => id
    | cons st todo ih => exact fun y hy => ih _ (hy.openingPoint gr st)
  exact (all starts x h).lockoutEnd k

end Grouping.Ok

theorem Grouping.reset_ok : Grouping.reset.Ok := by
  refine ⟨?_, ?_, ?_, ?_⟩ <;> simp [Grouping.reset]

theorem Grouping.runClear_ok (x : Grouping) : x.runClear.Ok := by
  refine ⟨?_, ?_, ?_, ?_⟩ <;> simp [Grouping.runClear, Grouping.reset]

/-! ### The list in the state -/

theorem State.GroupsOk.takeReport {s : State} (h : s.GroupsOk) (r : Report) : (s.takeReport r).GroupsOk := by
  unfold State.takeReport
  split
  case h_1 => exact h
  case h_2 c =>
    split
    · exact Grouping.Ok.confirm h c
    all_goals exact h
  case h_3 c why =>
    split
    · exact (Grouping.Ok.withdraw h c).place c .none
    · exact Grouping.Ok.place h c .none
    · exact h
  case h_4 c f =>
    split
    · exact (Grouping.Ok.finish h c f).place c .none
    · exact Grouping.Ok.place h c .none
    · exact h

theorem State.GroupsOk.takeReports {s : State} (h : s.GroupsOk) (rs : List Report) : (s.takeReports rs).GroupsOk := by
  unfold State.takeReports
  induction rs generalizing s with
  | nil => exact h
  | cons r rs ih => exact ih (h.takeReport r)

theorem State.GroupsOk.emitFrom {s : State} {gs : List Group} (h : s.GroupsOk) (he : s.grouping.groups = gs) (closing : Bool) :
    (Machine.emitFrom closing gs s).GroupsOk := by
  induction gs generalizing s with
  | nil => exact h
  | cons g gs ih =>
    simp only [Machine.emitFrom]
    split
    · exact ih (s := (s.emit closing g).withGrouping { s.grouping with groups := gs }) (Grouping.Ok.tail h he rfl) rfl
    · exact h

theorem State.GroupsOk.groupingStages {s : State} (h : s.GroupsOk) (rs : List Report) : (s.groupingStages rs).GroupsOk := by
  have joined := (Grouping.Ok.joinStage (h.takeReports rs) (startsOf s.clock rs)).windowClose s.clock
  have emitted := State.GroupsOk.emitFrom
    (s := (s.takeReports rs).withGrouping (((s.takeReports rs).grouping.joinStage (startsOf s.clock rs)).1.windowClose s.clock))
    joined rfl false
  exact Grouping.Ok.openStage emitted _ _ _

theorem State.GroupsOk.flush {s : State} (h : s.GroupsOk) : s.flush.GroupsOk :=
  State.GroupsOk.emitFrom
    (s := s.withGrouping { s.grouping with groups := s.grouping.groups.map fun g => { g with isOpen := false }, lockout := none })
    (Grouping.Ok.close h none) rfl true

/-- The closing event leaves the engine as the flush left it (R138). -/
theorem State.close_grouping (s : State) (cause : Cause) :
    (s.close cause).grouping =
      ((s.withChannels (channelsOf s.closeChannels)).takeReports (reportsOf s.closeChannels)).flush.grouping := by
  simp only [State.close, State.discardPlans, State.withRun_grouping, ((State.RollupOnly.refl _).releaseHold).grouping,
    State.enterRunState, State.post_grouping, State.offer_grouping, ((State.RollupOnly.refl _).closingTally).grouping]

/-! ### Both through every operation -/

/-- The soundness of the list and the agreement with the channels are kept. -/
structure State.KeepsGroups (s t : State) : Prop where
  groups : s.GroupsOk → t.GroupsOk
  placements : s.PlacementsOk → t.PlacementsOk

namespace State.KeepsGroups

variable {s t u : State}

theorem refl (s : State) : s.KeepsGroups s := ⟨id, id⟩

theorem trans (h : s.KeepsGroups t) (k : t.KeepsGroups u) : s.KeepsGroups u :=
  ⟨k.groups ∘ h.groups, k.placements ∘ h.placements⟩

/-- What leaves the engine and the work of the channels alone. -/
theorem of_same (grouping : t.grouping = s.grouping) (chan : ∀ c, (t.chan c).st.inProgress = (s.chan c).st.inProgress) :
    s.KeepsGroups t :=
  ⟨fun h => show t.grouping.Ok from grouping ▸ h, fun h => h.same grouping chan⟩

theorem of_channels (grouping : t.grouping = s.grouping) (channels : t.channels = s.channels) : s.KeepsGroups t :=
  of_same grouping fun c => by rw [State.chan, State.chan, channels]

theorem of_sameBlocks (h : t.SameBlocks s) : s.KeepsGroups t := of_channels h.grouping h.channels

theorem of_rollupOnly (h : s.RollupOnly t) : s.KeepsGroups t := of_channels h.grouping h.channels

theorem of_runOnly (h : s.RunOnly t) : s.KeepsGroups t := of_channels h.grouping h.channels

/-- One channel handled, with the same work in progress. -/
theorem withChan (c : ChanId) {x : Channel} (h : x.st.inProgress = (s.chan c).st.inProgress) : s.KeepsGroups (s.withChan c x) :=
  of_same rfl fun d => by
    by_cases e : d = c
    · subst e; rw [State.withChan_chan]; exact h
    · rw [s.withChan_chan_ne _ e]

/-- What the engine alone does, with the channels' work unchanged. -/
theorem withGrouping {x : Grouping} (ok : s.grouping.Ok → x.Ok) (follows : ∀ w, s.grouping.Follows w → x.Follows w) :
    s.KeepsGroups (s.withGrouping x) := ⟨ok, follows _⟩

theorem channelEvent {c : ChanId} {r : Channel × Option Report} (reported : Reported c (s.chan c).st r)
    (noStart : ∀ x, r.2 = some x → x.start? = none) : s.KeepsGroups (s.channelEvent c r) :=
  ⟨fun h => State.GroupsOk.takeReports (s := s.withChan c r.1) h _, fun h => s.channelEvent_placementsOk c r h reported noStart⟩

theorem of_event {c : ChanId} {r : Channel × Option Report} (h : s.Event c r) : s.KeepsGroups (s.channelEvent c r) := by
  cases h with
  | faultArrival =>
    refine channelEvent ((s.chan c).faultArrival_reported c) fun x e => ?_
    unfold Channel.faultArrival at e
    repeat' split at e
    all_goals cases e <;> rfl
  | glitch =>
    refine channelEvent ((s.chan c).glitchTest_reported c _) fun x e => ?_
    unfold Channel.glitchTest at e
    repeat' split at e
    all_goals cases e <;> rfl
  | hitEnd =>
    refine channelEvent ((s.chan c).hitEndTest_reported c _) fun x e => ?_
    unfold Channel.hitEndTest at e
    repeat' split at e
    all_goals cases e <;> rfl
  | hitTrunc =>
    refine channelEvent ((s.chan c).hitTruncTest_reported c _) fun x e => ?_
    unfold Channel.hitTruncTest at e
    repeat' split at e
    all_goals cases e <;> rfl

theorem of_quietEvent {c : ChanId} {x : Channel} (h : s.QuietEvent c x) : s.KeepsGroups (s.withChan c x) := by
  cases h with
  | faultCleared => exact withChan c (Channel.faultCleared_inProgress _ _)
  | peakFreeze => exact withChan c (Channel.peakFreeze_inProgress _ _)
  | lockoutEnd => exact withChan c (Channel.lockoutEndTest_inProgress _ _)

/-! ### The closing event -/

theorem close (s : State) (cause : Cause) : s.KeepsGroups (s.close cause) := by
  refine ⟨fun h => ?_, fun h => ?_⟩
  · show (s.close cause).grouping.Ok
    rw [s.close_grouping]
    exact (State.GroupsOk.takeReports (s := s.withChannels (channelsOf s.closeChannels)) h _).flush
  · obtain ⟨empty, unplaced⟩ := s.flush_empties h
    rw [← s.close_grouping cause] at empty unplaced
    refine ⟨fun c => ⟨fun _ => ?_, fun _ => unplaced c⟩, fun g hg => ?_, fun c e => ?_⟩
    · have := Channel.close_resting (s.chan c) c
      show ((s.close cause).chan c).st.inProgress = .nothing
      rw [s.close_chan]
      generalize ((s.chan c).close c).1.st = st at this
      cases st <;> first | rfl | cases this
    · rw [empty] at hg; cases hg
    · rw [unplaced] at e; cases e

theorem postWindowEnd (s : State) : s.KeepsGroups s.postWindowEnd := by
  unfold State.postWindowEnd
  split
  · exact close _ _
  · exact refl _

theorem declareNow (s : State) (src : RuptureSource) (g : Option SeqNo) : s.KeepsGroups (s.declareNow src g) := by
  have declared := of_runOnly (.declare s src g)
  simp only [State.declareNow]
  split
  · exact declared.trans (close _ _)
  · exact declared

/-! ### A tick and a frame -/

theorem startCycle (s : State) : s.KeepsGroups s.startCycle := by
  unfold State.startCycle
  split
  · exact of_channels rfl rfl
  · exact refl s

theorem beforeChannels (s : State) : s.KeepsGroups s.beforeChannels :=
  have clock : s.KeepsGroups s.advanceClock := of_channels s.advanceClock_same.grouping s.advanceClock_same.channels
  clock.trans ((startCycle _).trans
    ((of_rollupOnly (.staleCheck _)).trans (of_runOnly (.evidenceLapse _))))

theorem detect (s : State) (xs : ChanId → Sample) : s.KeepsGroups (s.detect xs) :=
  ⟨fun h => State.GroupsOk.groupingStages
    (s := (s.withChannels (channelsOf (s.tickChannels xs))).withIntake (s.intake.handOver xs)) h _,
    fun h => s.detect_placementsOk xs h⟩

theorem deliverTick (s : State) (xs : ChanId → Sample) : s.KeepsGroups (s.deliverTick xs) :=
  (beforeChannels s).trans ((detect _ xs).trans ((of_rollupOnly (.rollupAtTick _)).trans ((postWindowEnd _).trans
    ((of_sameBlocks (.waitTimeout _ .a)).trans (of_sameBlocks (.waitTimeout _ .b))))))

theorem synthetic (d : Nat) (s : State) : s.KeepsGroups (State.synthetic d s) := by
  induction d generalizing s with
  | zero => exact refl s
  | succ d ih => exact (deliverTick s _).trans (ih _)

theorem gapFrame (s : State) (d : Nat) (ws : List Word16) : s.KeepsGroups (s.gapFrame d ws) :=
  (synthetic d s).trans ((of_sameBlocks ((State.SameBlocks.postWith _ _ _ _).trans (.offer _ _))).trans (deliverTick _ _))

theorem evaluate (s : State) (ws : List Word16) : s.KeepsGroups (s.evaluate ws) := by
  have accepted : ∀ (u : State) (n : BitVec 8), u.KeepsGroups (u.accepted n) := fun _ _ => of_channels rfl rfl
  rcases s.evaluate_cases ws with e | e | ⟨d, e⟩ <;> rw [e]
  · exact refl s
  · exact (deliverTick s _).trans (accepted _ _)
  · exact (gapFrame s d ws).trans (accepted _ _)

theorem frame (s : State) (ws : List Word16) : s.KeepsGroups (s.frame ws) := by
  have collecting : ∀ l, s.KeepsGroups (s.withIntake { s.intake with collecting := l }) := fun _ => of_channels rfl rfl
  unfold State.frame
  repeat' split
  · exact refl s
  · exact collecting _
  · exact (collecting []).trans (evaluate _ _)

/-! ### A load, run start and run clear -/

theorem postLoad (s : State) (p : Port) (v : Nat) : s.KeepsGroups (s.postLoad p v) := by
  have dropped : ∀ u : State, u.KeepsGroups (u.loadDropCheck v) := by
    intro u
    unfold State.loadDropCheck
    repeat' split
    · exact refl u
    · exact declareNow u _ _
    · exact refl u
  have loaded := State.RollupOnly.setLoad s v
  simp only [State.postLoad]
  split
  · refine trans ?_ (dropped _)
    split
    · exact of_rollupOnly (loaded.withRollup _)
    · exact of_rollupOnly ((loaded.withRollup _).offer _)
  · exact of_rollupOnly loaded

theorem startRun (s : State) : s.KeepsGroups s.startRun := by
  have chan : ∀ c, s.startRun.chan c = (s.chan c).runStart := by
    intro c
    simp only [State.startRun, State.post_chan, State.offer_chan, State.withChannels_chan, perChannel_get]
    rfl
  refine of_same (by simp [State.startRun, State.firstInterval, State.takeUpActivity]) fun c => ?_
  rw [chan, Channel.runStart]
  split
  · next e => rw [e]; rfl
  · rfl

theorem clearRun (s : State) : s.KeepsGroups s.clearRun := by
  obtain ⟨-, -, -, grouping⟩ := s.clearRun_blocks
  refine ⟨fun _ => show s.clearRun.grouping.Ok from grouping ▸ s.grouping.runClear_ok, fun _ => ?_⟩
  have placement : ∀ c : ChanId, s.clearRun.grouping.placement[c] = .none := by
    intro c; simp [grouping, Grouping.runClear, Grouping.reset]
  refine ⟨fun c => ⟨fun _ => ?_, fun _ => placement c⟩, fun g hg => ?_, fun c e => ?_⟩
  · show (s.clearRun.chan c).st.inProgress = .nothing
    rw [s.clearRun_chan]
    show ChState.inProgress (if (s.chan c).st = .off then .off else .listen) = .nothing
    split <;> rfl
  · rw [grouping] at hg; cases hg
  · rw [placement] at e; cases e

/-! ### The status line -/

theorem debounceChannel (s : State) (c : ChanId) : s.KeepsGroups (s.debounceChannel c) := by
  refine of_same (State.StatusOnly.debounceChannel s c).grouping fun d => ?_
  simp only [State.debounceChannel]
  split
  · simp only [State.deliverFault, State.post_chan, State.offer_chan]
    by_cases e : d = c
    · subst e; rw [State.withChan_chan]; rfl
    · rw [State.withChan_chan_ne _ _ e]; rfl
  · rfl

theorem completeCycle (s : State) (m : LineMode) : s.KeepsGroups (s.completeCycle m) := by
  have counted : ∀ (cs : List ChanId) (u : State), u.KeepsGroups (cs.foldl State.debounceChannel u) := by
    intro cs
    induction cs with
    | nil => exact refl
    | cons c cs ih => exact fun u => (debounceChannel u c).trans (ih _)
  have up : ∀ u : State, u.KeepsGroups u.lineUp := by
    intro u
    simp only [State.lineUp]
    split <;> exact of_channels rfl rfl
  rw [State.completeCycle]
  have whole := (counted allChannels s).trans (up _)
  generalize (allChannels.foldl State.debounceChannel s).lineUp = u at whole
  exact whole.trans (of_channels rfl rfl)

theorem abortCycle (s : State) : s.KeepsGroups s.abortCycle := by
  simp only [State.abortCycle]
  split <;> exact of_channels rfl rfl

theorem nodeStart (s : State) : s.KeepsGroups s.nodeStart := by
  unfold State.nodeStart
  split
  · exact of_channels rfl rfl
  · exact refl s

theorem statusTick (s : State) (l : LineLevel) : s.KeepsGroups (s.statusTick l) := by
  unfold State.statusTick
  split
  case h_1 =>
    split
    · exact nodeStart s
    · exact refl s
  case h_5 =>
    cases l with
    | low => exact abortCycle s
    | high => exact of_channels rfl rfl
  case h_6 =>
    split
    · exact completeCycle s _
    · exact of_channels rfl rfl
  all_goals exact of_channels rfl rfl

/-! ### Every operation -/

theorem of_effect {i : Instr} {s u : State} (h : Effect i s u) : s.KeepsGroups u := by
  cases h with
  | nothing => exact refl s
  | collect | setupWrite | setupLock => exact of_channels rfl rfl
  | frame ws => exact frame s ws
  | clockWrap => exact of_channels s.wrapClock_same.grouping s.wrapClock_same.channels
  | event _ c r _ he => exact of_event he
  | quietEvent _ c x _ he => exact of_quietEvent he
  | windowClose => exact withGrouping (fun h => h.windowClose _) fun _ h => h.windowClose _
  | groupLockoutEnd =>
    refine withGrouping (fun h => h.lockoutEnd _) fun _ h => ?_
    unfold Grouping.lockoutEnd
    split
    · exact h.same rfl rfl
    · exact h
  | evidenceLapse => exact of_runOnly (.evidenceLapse s)
  | postWindowEnd => exact postWindowEnd s
  | rollup => exact of_rollupOnly (.rollupAtTick s)
  | loadStale => exact of_rollupOnly (.staleCheck s)
  | startCycle => exact startCycle s
  | nodeStart => exact nodeStart s
  | cycleEnd m => exact completeCycle s m
  | cycleAbort => exact abortCycle s
  | statusClock l => exact statusTick s l
  | runStart p => exact startRun s
  | runStop p => exact close s _
  | runClear p => exact clearRun s
  | ruptureDeclare p => exact declareNow s _ _
  | loadPost p v => exact postLoad s p v

end State.KeepsGroups

theorem State.reset_groupsOk : State.reset.GroupsOk := Grouping.reset_ok

theorem State.reset_placementsOk : State.reset.PlacementsOk := by
  have placement : ∀ c : ChanId, State.reset.grouping.placement[c] = .none := by
    intro c; simp [State.reset, Grouping.reset]
  refine ⟨fun c => ⟨fun _ => ?_, fun _ => placement c⟩, nofun, fun c e => ?_⟩
  · simp [State.chan, State.reset, Channel.reset, ChState.inProgress]
  · rw [placement] at e; cases e

end Sys2Proof.Machine

open Sys2Proof.Machine in
/-- Settles O59: by the operation of the command, each of which takes a sound list through the engine's own operations and keeps the
engine with the channels. -/
theorem groupsStayOrdered : Obligations.GroupsStayOrdered := by
  intro c s t he
  by_cases hreset : ∃ cause, c = .fullReset cause
  · obtain ⟨cause, rfl⟩ := hreset
    rw [exec_fullReset] at he
    cases he
    exact ⟨fun _ => State.reset_groupsOk, fun _ => State.reset_placementsOk⟩
  by_cases hrelease : c = .resetRelease
  · subst hrelease
    rw [exec_resetRelease] at he
    cases he
    exact ⟨id, id⟩
  obtain ⟨u, effect, same⟩ := exec_reaches (fun cause e => hreset ⟨cause, e⟩) hrelease he
  have kept := (State.KeepsGroups.of_effect effect).trans (.of_sameBlocks same)
  exact ⟨kept.groups, kept.placements⟩
end

