-- ==== Sys2Proof/Proofs/Reset.lean ====
section
/-! SUPPORT. The queue of commands, which no command touches; full reset and the part held in reset (R14, R184). -/

namespace Sys2Proof.Machine

/-- Whatever the part's operations make of the state, the queue of waiting commands stays. -/
theorem KeptCommands.of_pending (x : List Instr) : KeptCommands fun s => s.pending = x where
  toKeptAll := Kept.of_pending x
  startExchange _ _ h := by simpa using h
  endExchange _ _ _ h := by simpa using h
  finish _ _ _ _ _ h := by simpa [State.finish] using h
  defer _ _ _ _ _ h := by simpa using h
  manual _ _ _ h := by simpa using h
  filter _ _ _ _ h := by simpa using h
  noticesRead _ _ h := by simpa using h
  attach _ _ _ _ h := by simpa [State.attach, State.reclaim] using h
  move _ _ _ _ _ _ h := by simpa [State.attach, State.reclaim] using h
  detach _ _ h := by simpa [State.reclaim] using h
  write _ _ _ _ _ h := h
  locks _ _ _ h := h
  clearRun s h := by
    have wait : ∀ (u : State) (p : Port), (u.clearWait p).pending = u.pending := by
      intro u p
      unfold State.clearWait
      split
      · simp [State.endWait]
      · rfl
    rw [State.clearRun, State.clearLocks, State.clearRollup, State.clearJournal]
    repeat' split
    all_goals simpa [wait] using h

/-- While RESETn is low nothing but full reset and its release has an effect (R184). -/
theorem exec_held {c : Instr} {s : State} (held : s.resetHeld = true) (hreset : ∀ cause, c ≠ .fullReset cause)
    (hrelease : c ≠ .resetRelease) : exec c s = .next s := by
  have idle : ∀ f : State → State, (Host.Outcome.next (s.whileReleased f) : Answer) = .next s := fun f =>
    congrArg _ (s.whileReleased_held f held)
  cases c with
  | fullReset cause => exact absurd rfl (hreset cause)
  | resetRelease => exact absurd rfl hrelease
  | _ => exact idle _

theorem State.reset_chan (c : ChanId) :
    State.reset.chan c = ⟨.off, 200, 0, 0, false, ⟨false, false, 200, 24, 6, 1, 64, 200, 400, 1000, 50, 4⟩⟩ := by
  rw [State.chan, show State.reset.channels = Vector.replicate 16 Channel.reset from rfl]
  simp only [Fin.getElem_fin, Vector.getElem_replicate]
  decide

/-- The setup table of R150's defaults, unlocked. -/
theorem Setup.reset_tables :
    Setup.reset.ch = (List.replicate 16 [0, 0, 200, 24, 6, 1, 64, 200, 400, 1000, 50, 4]).flatten ∧
      Setup.reset.gr = [500, 0, 2, 1] ∧ Setup.reset.ac = [4096, 0, 0, 0, 240, 2, 3, 5000] ∧
      Setup.reset.ru = [0, 0, 192, 5000, 10000] ∧ Setup.reset.pt = List.replicate 20 0 ++ [10] ∧
      Setup.reset.generation = 0 ∧ Setup.reset.lockDetection = false ∧ Setup.reset.lockCriteria = false :=
  ⟨rfl, rfl, rfl, rfl, rfl, rfl, rfl, rfl⟩

/-- Full reset leaves every control output low (R131). -/
theorem State.reset_coHigh (line : Fin 3) : State.reset.coHigh line = false := by
  revert line
  decide

end Sys2Proof.Machine

open Sys2Proof.Machine in
/-- Settles O1: by the queue, empty or with a command in front. -/
theorem stepRunsFrontCommand : Obligations.StepRunsFrontCommand := by
  refine ⟨fun s c rest queue => ?_, fun s empty => ?_⟩
  · rw [step, queue]; rfl
  · rw [step, empty]

open Sys2Proof.Machine in
/-- Settles O2: every arm of `exec` answers a next state, and no operation of the part touches the queue. -/
theorem everyCommandCompletes : Obligations.EveryCommandCompletes := by
  intro c s
  obtain ⟨t, he⟩ := exec_completes c s
  refine ⟨t, he, ?_⟩
  by_cases hreset : ∃ cause, c = .fullReset cause
  · obtain ⟨cause, rfl⟩ := hreset
    rw [exec_fullReset] at he
    cases he
    rfl
  by_cases hrelease : c = .resetRelease
  · subst hrelease
    rw [exec_resetRelease] at he
    cases he
    rfl
  exact (KeptCommands.of_pending s.pending).exec c s t ⟨fun cause e => hreset ⟨cause, e⟩, hrelease⟩ rfl he

open Sys2Proof.Machine in
/-- Settles O3: block by block from the reset states of the model. -/
theorem fullResetSetsEveryBlock : Obligations.FullResetSetsEveryBlock := by
  intro cause s
  refine ⟨_, exec_fullReset cause s, ?_, rfl, ⟨rfl, rfl, rfl, fun c => ?_⟩, State.reset_chan, ⟨rfl, rfl, rfl, fun c => ?_⟩,
    ⟨rfl, rfl, rfl, rfl, rfl, fun c => ⟨?_, ?_⟩⟩, rfl, rfl, ?_, ⟨rfl, rfl, rfl, rfl, rfl, fun c => ⟨?_, ?_, ?_⟩⟩,
    fun p => by cases p <;> rfl, State.reset_coHigh⟩
  · cases cause <;> rfl
  · simp [State.reset, Intake.reset]
  · simp [State.reset, Grouping.reset]
  · simp [State.reset, Journal.reset]
  · simp [State.reset, Journal.reset]
  · exact Setup.reset_tables
  · simp [State.reset, Status.reset]
  · simp [State.reset, Status.reset]
  · simp [State.reset, Status.reset]

open Sys2Proof.Machine in
/-- Settles O4: a part held in reset takes the two commands of reset alone. -/
theorem resetHoldsThePart : Obligations.ResetHoldsThePart :=
  ⟨fun _ => rfl, fun _ _ => exec_held⟩

open Sys2Proof.Machine in
/-- Settles O60: each invariant in the reset state. -/
theorem resetIsSound : Obligations.ResetIsSound :=
  ⟨State.reset_noticesOk, State.reset_queuesOk, State.reset_journalCleared.journalOk, State.reset_setupOk, State.reset_channelsRest,
    State.reset_faultsAgree, State.reset_magnitudesOk, State.reset_groupsOk, State.reset_placementsOk⟩
end

