-- ==== Sys2Proof/Proofs/Released.lean ====
section
/-! SUPPORT. What a command of a released part answers, and the settings of the ports, which only the ports' own requests change. -/

namespace Sys2Proof.Machine

/-! ### Answers -/

/-- A command of a part that is not held in reset makes its operation (R184). -/
theorem answer_released {s : State} (released : s.resetHeld = false) (f : State → State) :
    (Host.Outcome.next (s.whileReleased f) : Answer) = .next (f s) := congrArg _ (s.whileReleased_eq f released)

theorem ran_eq {c : Instr} {s t : State} (h : exec c s = .next t) : Claims.ran c s = t := by
  rw [Claims.ran, h]

/-! ### The settings of the ports -/

namespace Claims

theorem sameSettings.refl (s : State) : sameSettings s s := fun _ => ⟨rfl, rfl, rfl, rfl, rfl, rfl, rfl⟩

theorem sameSettings.trans {s t u : State} (h : sameSettings s t) (k : sameSettings t u) : sameSettings s u := by
  intro p
  obtain ⟨h1, h2, h3, h4, h5, h6, h7⟩ := h p
  obtain ⟨k1, k2, k3, k4, k5, k6, k7⟩ := k p
  exact ⟨k1.trans h1, k2.trans h2, k3.trans h3, k4.trans h4, k5.trans h5, k6.trans h6, k7.trans h7⟩

end Claims

/-- The part's own operations leave the settings of the ports as they are. -/
theorem Kept.of_settings (s : State) : KeptAll (Claims.sameSettings s) where
  grouping _ _ h p := by simpa using h p
  rollup _ _ h p := by simpa using h p
  run _ _ h p := by simpa using h p
  post _ _ _ _ h p := by simpa using h p
  offer _ _ h p := by simpa using h p
  endWait _ _ _ _ _ h p := by simpa using h p
  tallies _ _ _ _ _ h p := by simpa using h p
  tallyOff _ _ h p := by simpa using h p
  channels _ _ h p := by simpa using h p
  intake _ _ h p := by simpa using h p
  status _ _ h p := by simpa using h p

end Sys2Proof.Machine
end

