-- ==== Sys2Proof/Proofs/Frames.lean ====
section
/-! SUPPORT. A frame as the statements speak of it (R1 to R10): its samples, the goodness of its words, and what its ticks leave in
the intake. -/

namespace Sys2Proof.Machine

open Claims

/-! ### The words of a frame -/

theorem receivedSample_eq_sampleOf (f : List Word16) (gap : Bool) : receivedSample f gap = sampleOf f gap := by
  funext c
  have sat : saturated (f.getD (c.val + 1) 0) =
      decide ((f.getD (c.val + 1) 0).toInt = 32767 ∨ (f.getD (c.val + 1) 0).toInt = -32768) := by
    rw [Bool.eq_iff_iff, saturated_iff, decide_eq_true_iff]
  simp only [receivedSample, sampleOf, magnitude_eq_magnitudeOf, sat]

/-- A frame that does not begin with an empty assertion, by its length (R1, R2). -/
theorem State.frame_short (s : State) {ws : List Word16} (some : ws ≠ []) (short : (frameOf ws).length < 18) :
    s.frame ws = s.withIntake { s.intake with collecting := ws } := by
  have h : ws.length < 18 := by simpa [frameOf] using short
  rw [State.frame, if_neg (by simpa using some), if_pos h]

theorem State.frame_whole (s : State) {ws : List Word16} (whole : (frameOf ws).length = 18) :
    s.frame ws = (s.withIntake { s.intake with collecting := [] }).evaluate (frameOf ws) := by
  have h : 18 ≤ ws.length := by simpa [frameOf] using whole
  have some : ws ≠ [] := by rintro rfl; simp at h
  rw [State.frame, if_neg (by simpa using some), if_neg (by simpa [Config.frameWords] using h)]
  rfl

/-! ### Ticks -/

/-- Synthetic ticks as the repeated delivery of one (R5). -/
theorem State.synthetic_eq_iterate (d : Nat) (s : State) :
    State.synthetic d s = (fun t : State => t.deliverTick fun _ => ⟨0, false, true⟩)^[d] s := by
  induction d generalizing s with
  | zero => rfl
  | succ d ih => exact ih _

/-- The intake after the tick of a frame with the synthetic ticks before it (R5, R9, R10). -/
theorem State.gapFrame_intake (s : State) (d : Nat) (f : List Word16) :
    (s.gapFrame d f).intake =
      { s.intake with
        clock := s.intake.clock + BitVec.ofNat 48 (d + 1)
        prev := perChannel fun c => magnitude (f.getD (c.val + 1) 0) } := by
  obtain ⟨clock, seq, collecting⟩ := State.synthetic_intake d s
  have marked : ((State.synthetic d s).markGap d).intake = (State.synthetic d s).intake := by simp [State.markGap]
  have later : BitVec.ofNat 48 (d + 1) = BitVec.ofNat 48 d + 1 := by apply BitVec.eq_of_toNat_eq; simp
  rw [State.gapFrame, State.deliverTick_intake, marked]
  simp only [clock, seq, collecting, later, BitVec.add_assoc]
  rfl

/-- The intake after a good frame that is no duplicate (R3, R4, R5, R9, R10). -/
theorem State.evaluate_intake (s : State) {f : List Word16} (good : goodFrame f)
    (fresh : ∀ q, s.intake.seq = some q → numberOf f ≠ q.last) :
    (s.evaluate f).intake =
      { clock := s.intake.clock + BitVec.ofNat 48 (ticksCovered s.intake.seq (numberOf f))
        seq := some ⟨numberOf f, numberOf f + 1⟩
        prev := perChannel fun c => magnitude (f.getD (c.val + 1) 0)
        collecting := s.intake.collecting } := by
  have tick : ((s.deliverTick (receivedSample f false)).accepted (frameNumber f)).intake =
      { clock := s.intake.clock + BitVec.ofNat 48 1
        seq := some ⟨numberOf f, numberOf f + 1⟩
        prev := perChannel fun c => magnitude (f.getD (c.val + 1) 0)
        collecting := s.intake.collecting } := by
    rw [State.accepted, State.withIntake_intake, State.deliverTick_intake]; rfl
  cases seq : s.intake.seq with
  | none => rw [s.evaluate_first f good.2 seq]; exact tick
  | some q =>
    have new := fresh q seq
    by_cases next : numberOf f = q.expected
    · rw [s.evaluate_next f good.2 q seq new next, ticksCovered, if_pos next]; exact tick
    · rw [s.evaluate_gap f good.2 q seq new next, ticksCovered, if_neg next, State.accepted, State.withIntake_intake,
        State.gapFrame_intake]
      rfl

theorem State.gapFrame_eq (s : State) (d : Nat) (f : List Word16) :
    s.gapFrame d f =
      let s1 := (fun t : State => t.deliverTick fun _ => ⟨0, false, true⟩)^[d] s
      ((s1.offer (mark (s1.intake.clock + 1) 6 0 d)).postWith .frameGap 0 (BitVec.ofNat 32 d)).deliverTick (sampleOf f true) := by
  rw [State.gapFrame, ← receivedSample_eq_sampleOf, ← State.synthetic_eq_iterate]
  rfl

end Sys2Proof.Machine

open Sys2Proof Sys2Proof.Machine Claims in
/-- Settles O5: by the length of the frame, its sum and its number. -/
theorem discardedFramesChangeNothing : Obligations.DiscardedFramesChangeNothing := by
  intro s released
  refine ⟨fun w => answer_released released _, answer_released released _, fun ws some => ?_⟩
  have run : exec (.frame ws) s = .next (s.frame ws) := answer_released released _
  refine ⟨fun short => ?_, fun whole bad => ?_, fun good q seq duplicate => ?_⟩
  · rw [run, s.frame_short some short]; rfl
  · rw [run, s.frame_whole whole, State.evaluate_bad _ _ fun sum => bad ⟨whole, sum⟩]; rfl
  · rw [run, s.frame_whole good.1]
    exact congrArg _ (State.evaluate_duplicate (s.withIntake _) _ q seq duplicate)

open Sys2Proof Sys2Proof.Machine Claims in
/-- Settles O6: by the intake after an accepted frame; its ticks leave the setup table and the settings of the ports alone. -/
theorem goodFrameAdvancesTheIntake : Obligations.GoodFrameAdvancesTheIntake := by
  intro s ws released f n good fresh
  refine ⟨_, answer_released released _, ?_⟩
  rw [s.frame_whole good.1]
  have kept : ∀ {P : State → Prop}, KeptAll P → P s →
      P ((s.withIntake { s.intake with collecting := [] }).evaluate (frameOf ws)) :=
    fun h hs => h.evaluate _ _ (h.intake _ _ hs)
  have intake := (s.withIntake { s.intake with collecting := [] }).evaluate_intake good fresh
  rw [intake]
  exact ⟨rfl, rfl, rfl, fun c => by rw [← magnitude_eq_magnitudeOf]; exact perChannel_get _ c, kept (Kept.of_setup _) rfl,
    kept (Kept.of_resetHeld _) released, kept (Kept.of_pending _) rfl, kept (Kept.of_settings s) (.refl s)⟩

open Sys2Proof Sys2Proof.Machine Claims in
/-- Settles O7: by the number of the frame against the one expected. -/
theorem frameDeliversItsTicks : Obligations.FrameDeliversItsTicks := by
  intro s ws released f n s0 number good
  have run : exec (.frame ws) s = .next (s0.evaluate f) :=
    (answer_released released _).trans (congrArg _ (s.frame_whole good.1))
  have numbered : ∀ t : State, t.accepted (frameNumber f) = number t := fun _ => rfl
  refine ⟨fun seq => ?_, fun q seq new => ⟨fun next => ?_, fun gap => ?_⟩⟩
  · rw [run, s0.evaluate_first f good.2 seq, numbered, receivedSample_eq_sampleOf]
  · rw [run, s0.evaluate_next f good.2 q seq new next, numbered, receivedSample_eq_sampleOf]
  · rw [run, s0.evaluate_gap f good.2 q seq new gap, numbered]
    exact congrArg (fun t => Host.Outcome.next (number t)) (s0.gapFrame_eq _ f)
end

