-- ==== Sys2Proof/Proofs/ChannelEvents.lean ====
section
/-! SUPPORT. The events of a channel as commands of their own: what each comes to by the state of the channel (R17, R18, R27 to
R34). -/

namespace Sys2Proof.Machine

/-! ### A channel's event in the state -/

theorem State.withChan_self (s : State) (c : ChanId) : s.withChan c (s.chan c) = s := by
  have : s.channels.set c s.channels[c] = s.channels := Vector.set_getElem_self _
  rw [State.withChan, State.chan, this]
  rfl

/-- An event without effect on its channel and without a report changes nothing. -/
theorem State.channelEvent_idle (s : State) (c : ChanId) : s.channelEvent c (s.chan c, none) = s := s.withChan_self c

theorem State.channelEvent_silent (s : State) (c : ChanId) (ch : Channel) : s.channelEvent c (ch, none) = s.withChan c ch := rfl

theorem State.channelEvent_reported (s : State) (c : ChanId) (ch : Channel) (r : Report) :
    s.channelEvent c (ch, some r) = (s.withChan c ch).takeReport r := rfl

/-! ### The fault state (R17, R18) -/

section Equations
variable {ch : Channel} {c : ChanId} {k : Tick} {cand : Candidate}

theorem Channel.faultArrival_resting (h : ch.st = .off ∨ ch.st = .fault) : ch.faultArrival c = (ch, none) := by
  unfold Channel.faultArrival
  rcases h with h | h <;> rw [h] <;> exact ite_self _

theorem Channel.faultArrival_waiting (hf : ch.reportedFault = true)
    (h : ch.st = .listen ∨ ch.st = .quiet ∨ ∃ e, ch.st = .lockout e) :
    ch.faultArrival c = ({ ch with st := .fault }, none) := by
  unfold Channel.faultArrival
  rw [if_pos hf]
  rcases h with h | h | ⟨e, h⟩ <;> rw [h]

theorem Channel.faultArrival_pending (hf : ch.reportedFault = true) (h : ch.st = .pending cand) :
    ch.faultArrival c = ({ ch with st := .fault }, some (.withdrawn c .fault)) := by
  unfold Channel.faultArrival
  rw [if_pos hf, h]

theorem Channel.faultArrival_inHit (hf : ch.reportedFault = true) (h : ch.st = .inHit cand) :
    ch.faultArrival c =
      ({ ch with st := .fault },
        some (.completed c ({ cand with marks := { cand.marks with fault := true } }.finish ch.work.es))) := by
  unfold Channel.faultArrival
  rw [if_pos hf, h]

theorem Channel.faultCleared_eq (active : Bool) :
    ch.faultCleared active =
      if ch.st = .fault ∧ ch.reportedFault = false then { ch with st := waitingState active } else ch := by
  unfold Channel.faultCleared
  simp

/-! ### Freeze and lockout end (R27, R34) -/

theorem Channel.peakFreeze_pending (h : ch.st = .pending cand) :
    ch.peakFreeze k = { ch with st := .pending (cand.freezePeak k ch.work.pdt) } := by
  unfold Channel.peakFreeze
  rw [h]

theorem Channel.peakFreeze_inHit (h : ch.st = .inHit cand) :
    ch.peakFreeze k = { ch with st := .inHit (cand.freezePeak k ch.work.pdt) } := by
  unfold Channel.peakFreeze
  rw [h]

theorem Channel.peakFreeze_idle (h : ∀ cand, ch.st ≠ .pending cand ∧ ch.st ≠ .inHit cand) : ch.peakFreeze k = ch := by
  unfold Channel.peakFreeze
  split
  · next e => exact absurd e (h _).1
  · next e => exact absurd e (h _).2
  all_goals rfl

theorem Channel.lockoutEndTest_due (h : ch.st = .lockout k) : ch.lockoutEndTest k = { ch with st := .quiet } := by
  unfold Channel.lockoutEndTest
  simp only [h, if_true]

theorem Channel.lockoutEndTest_idle (h : ch.st ≠ .lockout k) : ch.lockoutEndTest k = ch := by
  unfold Channel.lockoutEndTest
  split
  · next e => rw [if_neg]; rintro rfl; exact h e
  · rfl

/-! ### The tests of a candidate and of a hit (R29 to R33) -/

theorem Candidate.isGlitch_iff (k : Tick) (w : ChParams) :
    cand.isGlitch k w = true ↔
      ¬ (w.qc ≤ cand.counts ∧ (k - cand.kFirst).toNat < w.qs) ∧
        (w.qs ≤ (k - cand.kFirst).toNat ∨ (k - cand.kLast).toNat = w.hdt) := by
  simp only [Candidate.isGlitch, Candidate.confirms, Bool.and_eq_true, Bool.not_eq_true', Bool.or_eq_true, decide_eq_true_eq,
    Bool.and_eq_false_iff, decide_eq_false_iff_not, not_and_or]
  rfl

theorem Candidate.endsNormally_iff (k : Tick) (w : ChParams) :
    cand.endsNormally k w = true ↔ (k - cand.kLast).toNat = w.hdt := decide_eq_true_iff

theorem Candidate.endsByForce_iff (k : Tick) (w : ChParams) :
    cand.endsByForce k w = true ↔
      (k - cand.kFirst).toNat + 1 = w.maxd * 1024 ∧ ¬ (k - cand.kLast).toNat = w.hdt := by
  rw [Candidate.endsByForce, Bool.and_eq_true, Bool.not_eq_true', ← Bool.not_eq_true, Candidate.endsNormally_iff, and_comm,
    decide_eq_true_iff]
  rfl

theorem Channel.glitchTest_pending (h : ch.st = .pending cand) :
    ch.glitchTest c k =
      if cand.isGlitch k ch.work then
        ({ ch with st := .quiet, glitches := min 65535 (ch.glitches + 1) }, some (.withdrawn c .glitch))
      else (ch, none) := by
  unfold Channel.glitchTest
  rw [h]
  rfl

theorem Channel.glitchTest_idle (h : ∀ cand, ch.st ≠ .pending cand) : ch.glitchTest c k = (ch, none) := by
  unfold Channel.glitchTest
  split
  · next e => exact absurd e (h _)
  · rfl

theorem Channel.hitEndTest_inHit (h : ch.st = .inHit cand) :
    ch.hitEndTest c k =
      if cand.endsNormally k ch.work then
        ({ ch with st := afterHit k ch.work.hlt }, some (.completed c (cand.finish ch.work.es)))
      else (ch, none) := by
  unfold Channel.hitEndTest
  rw [h]

theorem Channel.hitTruncTest_inHit (h : ch.st = .inHit cand) :
    ch.hitTruncTest c k =
      if cand.endsByForce k ch.work then
        ({ ch with st := afterHit k ch.work.hlt }, some (.completed c ((cand.truncate k).finish ch.work.es)))
      else (ch, none) := by
  unfold Channel.hitTruncTest
  rw [h]

theorem Channel.hitTests_idle (h : ∀ cand, ch.st ≠ .inHit cand) :
    ch.hitEndTest c k = (ch, none) ∧ ch.hitTruncTest c k = (ch, none) := by
  unfold Channel.hitEndTest Channel.hitTruncTest
  constructor <;> split
  · next e => exact absurd e (h _)
  · rfl
  · next e => exact absurd e (h _)
  · rfl

end Equations

end Sys2Proof.Machine

open Sys2Proof.Machine in
/-- Settles O11: by the state of the channel. -/
theorem faultArrivalAndClearance : Obligations.FaultArrivalAndClearance := by
  intro s c released ch
  have arrival : exec (.faultArrival c) s = .next (s.channelEvent c (ch.faultArrival c)) := answer_released released _
  have cleared : exec (.faultCleared c) s = .next (s.withChan c (ch.faultCleared s.runActive)) := answer_released released _
  rw [arrival, cleared]
  refine ⟨fun hf => ⟨fun h => ?_, fun h => ?_, fun cand h => ?_, fun cand h => ?_⟩, fun hf => ?_, fun h hf => ?_, fun h => ?_⟩
  · rw [Channel.faultArrival_resting h, s.channelEvent_idle]
  · rw [Channel.faultArrival_waiting hf h, s.channelEvent_silent]
  · rw [Channel.faultArrival_pending hf h, s.channelEvent_reported]
  · rw [Channel.faultArrival_inHit hf h, s.channelEvent_reported]
  · rw [Channel.faultArrival_clear hf, s.channelEvent_idle]
  · rw [Channel.faultCleared_eq, if_pos ⟨h, hf⟩, waitingState]
    simp only [State.runActive, RunState.active_iff]
  · have idle : ¬ (ch.st = .fault ∧ ch.reportedFault = false) := by
      rintro ⟨e, hf⟩
      rcases h with h | h
      · exact h e
      · rw [hf] at h; cases h
    rw [Channel.faultCleared_eq, if_neg idle, s.withChan_self]

open Sys2Proof.Machine in
/-- Settles O12: by the state of the channel and the two clocks of its candidate. -/
theorem peakGlitchAndLockoutEnd : Obligations.PeakGlitchAndLockoutEnd := by
  intro s c released ch late
  have freeze : exec (.peakFreeze c) s = .next (s.withChan c (ch.peakFreeze s.intake.clock)) := answer_released released _
  have lockout : exec (.lockoutEnd c) s = .next (s.withChan c (ch.lockoutEndTest s.intake.clock)) := answer_released released _
  have glitch : exec (.glitch c) s = .next (s.channelEvent c (ch.glitchTest c s.intake.clock)) := answer_released released _
  have frozen : ∀ cand : Candidate,
      cand.freezePeak s.intake.clock ch.work.pdt = { cand with frozen := cand.frozen || late cand } := fun cand => cand.freezePeak_eq _ _
  rw [freeze, lockout, glitch]
  refine ⟨fun cand h => ?_, fun cand h => ?_, fun h => ?_, fun h => ?_, fun h => ?_, fun cand h => ⟨fun is => ?_, fun not => ?_⟩,
    fun h => ?_⟩
  · rw [Channel.peakFreeze_pending h, frozen]
  · rw [Channel.peakFreeze_inHit h, frozen]
  · rw [Channel.peakFreeze_idle h, s.withChan_self]
  · rw [Channel.lockoutEndTest_due h]
  · rw [Channel.lockoutEndTest_idle h, s.withChan_self]
  · rw [Channel.glitchTest_pending h, if_pos ((Candidate.isGlitch_iff _ _).2 is), s.channelEvent_reported]
  · rw [Channel.glitchTest_pending h, if_neg fun is => not ((Candidate.isGlitch_iff _ _).1 is), s.channelEvent_idle]
  · rw [Channel.glitchTest_idle h, s.channelEvent_idle]

open Sys2Proof.Machine in
/-- Settles O13: by the two tests of a hit. -/
theorem hitsEndNormallyOrByForce : Obligations.HitsEndNormallyOrByForce := by
  intro s c released ch k after
  have ended : exec (.hitEnd c) s = .next (s.channelEvent c (ch.hitEndTest c k)) := answer_released released _
  have truncated : exec (.hitTrunc c) s = .next (s.channelEvent c (ch.hitTruncTest c k)) := answer_released released _
  rw [ended, truncated]
  refine ⟨fun cand h => ⟨fun normal => ?_, fun not => ?_, fun forced not => ?_, fun not => ?_⟩, fun h => ⟨?_, ?_⟩⟩
  · rw [Channel.hitEndTest_inHit h, if_pos ((Candidate.endsNormally_iff _ _).2 normal), s.channelEvent_reported]; rfl
  · rw [Channel.hitEndTest_inHit h, if_neg fun normal => not ((Candidate.endsNormally_iff _ _).1 normal), s.channelEvent_idle]
  · rw [Channel.hitTruncTest_inHit h, if_pos ((Candidate.endsByForce_iff _ _).2 ⟨forced, not⟩), s.channelEvent_reported]; rfl
  · rw [Channel.hitTruncTest_inHit h, if_neg fun force => ?_, s.channelEvent_idle]
    obtain ⟨forced, other⟩ := (Candidate.endsByForce_iff _ _).1 force
    exact not.elim (fun n => n forced) other
  · rw [(Channel.hitTests_idle h).1, s.channelEvent_idle]
  · rw [(Channel.hitTests_idle h).2, s.channelEvent_idle]
end

