-- ==== Sys2Proof/Proofs/Engine.lean ====
section
/-! SUPPORT. The grouping engine's stages as the statements speak of them: reports by placement, the OPEN group at the tail, the order
of starts and of members (R60 to R72). -/

namespace Sys2Proof.Machine

open Claims

/-! ### A report by the placement of its channel (R61, R62, R70) -/

section Reports
variable {s : State} {c : ChanId} {why : Withdrawal} {f : Features} {reason : Reason}

theorem State.takeReport_unplaced (h : s.grouping.placement[c] = .none) :
    s.takeReport (.confirmed c) = s ∧ s.takeReport (.withdrawn c why) = s ∧ s.takeReport (.completed c f) = s := by
  simp only [State.takeReport, h, and_self]

theorem State.takeReport_grouped (h : s.grouping.placement[c] = .grouped) :
    s.takeReport (.confirmed c) = s.withGrouping (s.grouping.confirm c) ∧
      s.takeReport (.withdrawn c why) = s.withGrouping ((s.grouping.withdraw c).place c .none) ∧
      s.takeReport (.completed c f) = s.withGrouping ((s.grouping.finish c f).place c .none) := by
  simp only [State.takeReport, h, and_self]

theorem State.takeReport_ungrouped (h : s.grouping.placement[c] = .ungrouped reason) :
    s.takeReport (.confirmed c) = s ∧ s.takeReport (.withdrawn c why) = s.withGrouping (s.grouping.place c .none) ∧
      s.takeReport (.completed c f) = (s.ungroupedHit c reason f).withGrouping (s.grouping.place c .none) := by
  simp only [State.takeReport, h, and_self]

end Reports

/-! ### The OPEN group at the tail (R59, R64, R65) -/

section Tail
variable {x : Grouping} {older : List Group} {g : Group} {k : Tick} {st : Start}

theorem Grouping.windowClose_none (closed : ∀ g ∈ x.groups, g.isOpen = false) : x.windowClose k = x := by
  unfold Grouping.windowClose
  rw [x.openGroup_none closed]

/-- Groups that are all SETTLING are as they were. -/
theorem map_close_closed (closed : ∀ y ∈ older, y.isOpen = false) :
    (older.map fun y => { y with isOpen := false }) = older := by
  conv_rhs => rw [← List.map_id older]
  refine List.map_congr_left fun y hy => ?_
  cases y
  cases closed _ hy
  rfl

theorem Grouping.windowClose_tail (tail : x.groups = older ++ [g]) (closed : ∀ y ∈ older, y.isOpen = false)
    (isOpen : g.isOpen = true) :
    x.windowClose k =
      if g.opened ≠ k ∧ (BitVec.ofNat 52 (16 * k.toNat) - g.limit).toNat < 2 ^ 51 then
        { x with
          groups := older ++ [{ g with isOpen := false }]
          lockout := if 1 ≤ g.gl then some (tickAfter k g.gl) else x.lockout }
      else x := by
  unfold Grouping.windowClose
  rw [x.openGroup_tail older g tail closed isOpen]
  simp only [tail, List.map_append, map_close_closed closed, List.map_cons, List.map_nil, atOrAfter, Bool.and_eq_true,
    decide_eq_true_eq]
  rfl

theorem Grouping.joinStart_none (closed : ∀ g ∈ x.groups, g.isOpen = false) (later : List Start) :
    joinStart (x, later) st = (x, later ++ [st]) := by
  simp only [joinStart, Grouping.joinTest, x.openGroup_none closed]

theorem Grouping.joinTest_tail (tail : x.groups = older ++ [g]) (closed : ∀ y ∈ older, y.isOpen = false)
    (isOpen : g.isOpen = true) :
    x.joinTest st =
      if (g.limit - st.arrival).toNat < 2 ^ 51 then (if ∃ m ∈ g.members, m.ch = st.ch then .repeated else .joins)
      else .notPlaced := by
  simp only [Grouping.joinTest, x.openGroup_tail older g tail closed isOpen, atOrAfter, decide_eq_true_eq, List.any_eq_true]

theorem Grouping.join_tail (tail : x.groups = older ++ [g]) (closed : ∀ y ∈ older, y.isOpen = false) (isOpen : g.isOpen = true) :
    x.join st =
      { x with
        placement := x.placement.set st.ch .grouped
        groups := older ++ [{ g with
          members := g.members ++ [⟨st.ch, st.arrival, if st.confirmed then .active else .pending⟩] }] } := by
  have := map_open_tail older g (fun y => { y with members := y.members ++ [st.member] }) closed isOpen
  simp only [Grouping.join, tail, this]
  rfl

/-- The opening point with no OPEN group, by the table of R67. -/
theorem Grouping.openingPoint_none (gr : GrParams) (closed : ∀ g ∈ x.groups, g.isOpen = false) :
    Grouping.openingPoint gr x st =
      let y : Grouping := { x with work := some gr }
      if gr.enable = false then y.place st.ch (.ungrouped .disabled)
      else if x.lockout ≠ none then y.place st.ch (.ungrouped .lockout)
      else if x.groups.length < 4 then y.openWith st gr
      else y.place st.ch (.ungrouped .full) := by
  have none : ({ x with work := some gr } : Grouping).openGroup = none := Grouping.openGroup_none _ closed
  simp only [Grouping.openingPoint, none, Option.isSome_none, Bool.false_eq_true, if_false, Bool.not_eq_true',
    Option.isSome_iff_ne_none]

theorem Grouping.openingPoint_tail (gr : GrParams) (tail : x.groups = older ++ [g]) (closed : ∀ y ∈ older, y.isOpen = false)
    (isOpen : g.isOpen = true) :
    Grouping.openingPoint gr x st = ({ x with work := some gr } : Grouping).join st := by
  have some : ({ x with work := some gr } : Grouping).openGroup = some g :=
    Grouping.openGroup_tail _ older g tail closed isOpen
  simp only [Grouping.openingPoint, some, Option.isSome_some, if_true]

end Tail

theorem exec_windowClose {s : State} (released : s.resetHeld = false) :
    exec .windowClose s = .next (s.withGrouping (s.grouping.windowClose s.clock)) := answer_released released _

theorem exec_groupLockoutEnd {s : State} (released : s.resetHeld = false) :
    exec .groupLockoutEnd s = .next (s.withGrouping (s.grouping.lockoutEnd s.clock)) := answer_released released _

/-- The GR section, as items 0 to 3 (R150). -/
theorem Setup.grouping_eq (t : Setup) :
    t.grouping = ⟨t.item .gr 0, t.item .gr 1, t.item .gr 2, decide (t.item .gr 3 = 1)⟩ := rfl

/-! ### The order by arrival and channel (R63, R72) -/

/-- The key that sorts by arrival from a base and by channel among equal arrivals. -/
theorem arrival_key_le {a b base : SubTick} {c d : ChanId}
    (h : 16 * (a - base).toNat + c.val ≤ 16 * (b - base).toNat + d.val) :
    (a - base).toNat < (b - base).toNat ∨ (a = b ∧ c.val ≤ d.val) := by
  have hc := c.isLt
  have hd := d.isLt
  rcases Nat.lt_trichotomy (a - base).toNat (b - base).toNat with lt | eq | gt
  · exact .inl lt
  · refine .inr ⟨?_, by omega⟩
    exact sub_left_injective (BitVec.eq_of_toNat_eq eq)
  · omega

theorem Group.emitted_perm (g : Group) :
    g.emitted.Perm (g.members.filterMap fun m =>
      match m.st with
      | .done f => some ⟨m.ch, m.arrival, f⟩
      | .pending | .active => none) := by
  refine (sortByKey_spec _ _).1.trans (List.Perm.of_eq (List.filterMap_congr fun m _ => ?_))
  cases h : m.st <;> simp [Member.features?, h]

theorem Group.emitted_ordered (g : Group) :
    g.emitted.Pairwise fun a b =>
      (a.arrival - g.aOpen).toNat < (b.arrival - g.aOpen).toNat ∨ (a.arrival = b.arrival ∧ a.ch.val ≤ b.ch.val) :=
  (sortByKey_spec (fun e : Emitted => 16 * (e.arrival - g.aOpen).toNat + e.ch.val) _).2.imp fun h => arrival_key_le h

theorem startsOf_perm (k : Tick) (rs : List Report) :
    (startsOf k rs).Perm (rs.filterMap fun r =>
      match r with
      | .started c arrival tick confirmed => some ⟨c, arrival, tick, confirmed⟩
      | .confirmed _ | .withdrawn _ _ | .completed _ _ => none) := by
  refine (sortByKey_spec _ _).1.trans (List.Perm.of_eq (List.filterMap_congr fun r _ => ?_))
  cases r <;> rfl

theorem startsOf_ordered (k : Tick) (rs : List Report) :
    (startsOf k rs).Pairwise fun a b =>
      (a.arrival - arrivalAt k 0).toNat < (b.arrival - arrivalAt k 0).toNat ∨ (a.arrival = b.arrival ∧ a.ch.val ≤ b.ch.val) :=
  (sortByKey_spec (fun x : Start => 16 * (x.arrival - arrivalAt k 0).toNat + x.ch.val) _).2.imp fun h => arrival_key_le h

/-! ### Emission from the head of the list (R71) -/

theorem Group.complete_iff (g : Group) : g.complete = true ↔ completeGroup g := by
  simp only [Group.complete, completeGroup, Bool.and_eq_true, Bool.not_eq_true', List.all_eq_true]
  refine and_congr_right fun _ => forall₂_congr fun m _ => ?_
  cases m.st <;> simp

theorem State.emitStage_nil {s : State} (h : s.grouping.groups = []) (closing : Bool) : s.emitStage closing = s := by
  rw [State.emitStage, h]
  rfl

theorem State.emitStage_cons {s : State} {g : Group} {gs : List Group} (h : s.grouping.groups = g :: gs) (closing : Bool) :
    s.emitStage closing =
      if g.complete then ((s.emit closing g).withGrouping { s.grouping with groups := gs }).emitStage closing else s := by
  rw [State.emitStage, h, emitFrom]
  rfl

end Sys2Proof.Machine

open Sys2Proof.Machine in
/-- Settles O19: by the placement of the channel. -/
theorem reportsReachTheEngine : Obligations.ReportsReachTheEngine := by
  intro s c why f g turn kept
  refine ⟨fun _ _ _ => rfl, fun h => State.takeReport_unplaced h, fun h => ?_, fun reason h => ?_⟩
  · obtain ⟨confirmed, withdrawn, completed⟩ := State.takeReport_grouped (why := why) (f := f) h
    rw [confirmed, withdrawn, completed]
    refine ⟨rfl, ?_, rfl⟩
    have nonempty : ((fun x : Group => !x.members.isEmpty)) = fun x => decide (x.members ≠ []) := by
      funext x
      cases x.members <;> rfl
    simp only [Grouping.withdraw, nonempty]
    rfl
  · obtain ⟨confirmed, withdrawn, completed⟩ := State.takeReport_ungrouped (why := why) (f := f) h
    rw [confirmed, withdrawn, completed]
    exact ⟨rfl, rfl, rfl⟩

open Sys2Proof.Machine in
/-- Settles O20: by the OPEN group at the tail of the list. -/
theorem windowCloseAndGroupLockoutEnd : Obligations.WindowCloseAndGroupLockoutEnd := by
  intro s released x k
  have close : exec .windowClose s = .next (s.withGrouping (x.windowClose k)) := exec_windowClose released
  have lockout : exec .groupLockoutEnd s = .next (s.withGrouping (x.lockoutEnd k)) := exec_groupLockoutEnd released
  rw [close, lockout]
  refine ⟨fun closed => ?_, fun older g tail closed isOpen => ⟨fun due => ?_, fun not => ?_⟩, fun h => ?_, fun h => ?_⟩
  · rw [Grouping.windowClose_none closed]; rfl
  · rw [Grouping.windowClose_tail tail closed isOpen, if_pos due]; rfl
  · rw [Grouping.windowClose_tail tail closed isOpen, if_neg not]; rfl
  · rw [Grouping.lockoutEnd, if_pos h]; rfl
  · rw [Grouping.lockoutEnd, if_neg h]; rfl

open Sys2Proof.Machine in
/-- Settles O21: by the OPEN group at the tail of the list, and without one by the table of R67. -/
theorem startsJoinOrReachTheOpeningPoint : Obligations.StartsJoinOrReachTheOpeningPoint := by
  refine ⟨fun x later st => ⟨fun closed => Grouping.joinStart_none closed later,
    fun older g tail closed isOpen => ⟨fun beyond => ?_, fun within again => ?_, fun within new => ?_⟩⟩, Setup.grouping_eq,
    fun x gr st => ⟨fun closed => ⟨fun off => ?_, fun on locked => ?_, fun on free room => ?_, fun on free full => ?_⟩,
    fun older g tail closed isOpen => ?_⟩⟩
  · simp only [joinStart, Grouping.joinTest_tail tail closed isOpen, if_neg beyond]
  · simp only [joinStart, Grouping.joinTest_tail tail closed isOpen, if_pos within, if_pos again]
    rfl
  · simp only [joinStart, Grouping.joinTest_tail tail closed isOpen, if_pos within, if_neg new,
      Grouping.join_tail tail closed isOpen]
  · rw [Grouping.openingPoint_none gr closed]
    simp only [off, if_true]
    rfl
  · rw [Grouping.openingPoint_none gr closed]
    simp only [on, Bool.true_eq_false, if_false, if_pos locked]
    rfl
  · rw [Grouping.openingPoint_none gr closed]
    simp only [on, Bool.true_eq_false, if_false, free, ne_eq, not_true_eq_false, if_pos room]
    rfl
  · rw [Grouping.openingPoint_none gr closed]
    simp only [on, Bool.true_eq_false, if_false, free, ne_eq, not_true_eq_false, if_neg (Nat.not_lt.2 full)]
    rfl
  · rw [Grouping.openingPoint_tail gr tail closed isOpen]
    exact Grouping.join_tail (x := { x with work := some gr }) tail closed isOpen

open Sys2Proof.Machine Claims in
/-- Settles O24: the stages by definition, the order of the starts by their key, and the emission from the head of the list. -/
theorem stagesRunInOrder : Obligations.StagesRunInOrder := by
  refine ⟨fun s rs released => ?_, fun k rs => ⟨startsOf_ordered k rs, startsOf_perm k rs⟩, fun s closing => ⟨fun h =>
    State.emitStage_nil h closing, fun g gs h => ⟨fun not => ?_, fun complete => ?_⟩⟩⟩
  · intro k gr s1 joined s2
    have taken : ∀ {P : State → Prop}, Kept P → P s → P s1 := fun h hs => h.takeReports s rs hs
    have closed : s2 = (s1.withGrouping (joined.1.windowClose k)).emitStage false := by
      have clock : s1.clock = k := congrArg Intake.clock (taken (Kept.of_intake s.intake).toKept rfl)
      have ran := ran_eq (exec_windowClose (s := s1.withGrouping joined.1) (taken (Kept.of_resetHeld false).toKept released))
      rw [← clock]
      exact congrArg (fun t => t.emitStage false) ran
    have emitted : ∀ {P : State → Prop}, Kept P → P s → P s2 := by
      intro P h hs
      rw [closed]
      exact h.emitFrom _ _ _ (h.grouping _ _ (taken h hs))
    have clock : s2.clock = k := congrArg Intake.clock (emitted (Kept.of_intake s.intake).toKept rfl)
    have parameters : s2.setup.grouping = gr := by
      rw [show s2.setup = s.setup from emitted (Kept.of_setup s.setup).toKept rfl]
      exact s.setup.grouping_eq
    have ended := ran_eq (exec_groupLockoutEnd (s := s2.withGrouping (joined.2.foldl (Grouping.openingPoint gr) s2.grouping))
      (emitted (Kept.of_resetHeld false).toKept released))
    have stages : s.groupingStages rs = s2.withGrouping (s2.grouping.openStage k s2.setup.grouping joined.2) := by
      rw [closed]; rfl
    rw [stages, parameters, ← clock]
    exact ended.symm
  · rw [State.emitStage_cons h, if_neg fun complete => not (g.complete_iff.1 complete)]
  · rw [State.emitStage_cons h, if_pos (g.complete_iff.2 complete)]; rfl
end

