-- ==== Sys2Proof/Proofs/Emission.lean ====
section
/-! SUPPORT. The emission of a group: the words and sizes of the records (section 11.1), the live tallies in tally mode (R75) and the
interval counters (R76, R113). -/

namespace Sys2Proof.Machine

open Claims

/-! ### The words of records (section 11.1) -/

/-- A flag at a place of a word. -/
theorem mul_flag (b : Bool) (n : Nat) : n * b.toNat = if b then n else 0 := by
  cases b <;> simp

theorem Marks.bits_eq_markByte (m : Marks) : m.bits = markByte m := by
  rw [Marks.bits, markByte, ← Nat.one_mul m.coarse.toNat]
  simp only [mul_flag]

theorem hitOffer_eq (c : ChanId) (why : Reason) (f : Features) :
    hitOffer c why f =
      ⟨.hit, 2 ^ c.val,
        [ BitVec.ofNat 32 f.arrival.toNat, BitVec.ofNat 32 (f.arrival.toNat / 2 ^ 32)
        , BitVec.ofNat 32 (c.val + 256 * f.amp + 2 ^ 24 * reasonCode why), BitVec.ofNat 32 (f.counts + 65536 * f.rise)
        , BitVec.ofNat 32 f.duration, BitVec.ofNat 32 f.energy, BitVec.ofNat 32 f.load
        , BitVec.ofNat 32 (markByte f.marks) ]⟩ := by
  rw [hitOffer, Marks.bits_eq_markByte, show why.code = reasonCode why by cases why <;> rfl]
  rfl

theorem Emitted.entry_eq_memberWords (first : SubTick) (e : Emitted) : e.entry first = memberWords first e := by
  rw [Emitted.entry, Marks.bits_eq_markByte]
  rfl

theorem groupOffer_body (loc : Bool) (e : Emitted) (es : List Emitted) :
    (groupOffer loc (e :: es)).body =
      [ BitVec.ofNat 32 e.arrival.toNat, BitVec.ofNat 32 (e.arrival.toNat / 2 ^ 32)
      , BitVec.ofNat 32 ((e :: es).length + (if loc then 256 else 0) + 65536 * (e :: es).countP fun x => x.f.marks.sat)
      , BitVec.ofNat 32 (e.f.load + if e.f.marks.loadStale then 2 ^ 24 else 0) ] ++
        ((e :: es).map (memberWords e.arrival)).flatten := by
  have entries : (e :: es).map (Emitted.entry e.arrival) = (e :: es).map (memberWords e.arrival) :=
    List.map_congr_left fun x _ => x.entry_eq_memberWords _
  rw [← mul_flag loc 256, ← mul_flag e.f.marks.loadStale (2 ^ 24), ← entries]
  rfl

theorem groupOffer_flags (loc : Bool) (es : List Emitted) (c : ChanId) :
    (BitVec.ofNat 16 (groupOffer loc es).flags).getLsbD c.val = true ↔ ∃ x ∈ es, x.ch = c := by
  rw [BitVec.getLsbD_ofNat, decide_eq_true c.isLt, Bool.true_and]
  show (channelMask fun c => es.any fun e => e.ch = c).testBit c.val = true ↔ _
  rw [testBit_channelMask, List.any_eq_true]
  simp only [decide_eq_true_eq]

/-! ### Sizes (section 11.1) -/

theorem groupOffer_size (loc : Bool) (es : List Emitted) : (groupOffer loc es).size = 6 + 5 * es.length := by
  simp [Offer.size, groupOffer, arrivalWords, List.length_flatten, Function.comp_def, Emitted.entry]
  omega

theorem Journal.tallyOffer_size (j : Journal) (k : Tick) :
    (j.tallyOffer k).size = 5 + 2 * (allChannels.countP fun c => j.liveHits[c] ≠ 0) := by
  have entries : (allChannels.filter j.tallied).length = allChannels.countP fun c => j.liveHits[c] ≠ 0 := by
    rw [← List.countP_eq_length_filter]
    exact List.countP_congr fun c _ => by simp [Journal.tallied]
  simp [Offer.size, Journal.tallyOffer, clockWords, List.length_flatten, Function.comp_def, entries]
  omega

/-! ### The live tallies (R75) -/

/-- The tallies of a group's members, and what tallying leaves alone. -/
theorem Journal.tallyEmission_tallies (j : Journal) (es : List Emitted) :
    (j.tallyEmission es).covered = j.covered ∧
      (j.tallyEmission es).liveGroups = min 4294967295 (j.liveGroups + 1) := by
  have all : ∀ (es : List Emitted) (j : Journal),
      (es.foldl (fun j e => j.tallyHit e.ch e.f.energy) j).covered = j.covered ∧
        (es.foldl (fun j e => j.tallyHit e.ch e.f.energy) j).liveGroups = j.liveGroups := by
    intro es
    induction es with
    | nil => exact fun j => ⟨rfl, rfl⟩
    | cons e es ih => exact fun j => ih (j.tallyHit e.ch e.f.energy)
  obtain ⟨covered, groups⟩ := all es j
  exact ⟨covered, by rw [Journal.tallyEmission, Journal.tallyGroup, groups]; rfl⟩

theorem Journal.tallyHit_live (j : Journal) (e : Emitted) (c : ChanId) :
    (j.tallyHit e.ch e.f.energy).liveHits[c] =
        (if e.ch = c then min 4294967295 (j.liveHits[c] + 1) else j.liveHits[c]) ∧
      (j.tallyHit e.ch e.f.energy).liveEnergy[c] =
        (if e.ch = c then min 4294967295 (j.liveEnergy[c] + e.f.energy) else j.liveEnergy[c]) := by
  by_cases h : e.ch = c
  · subst h
    simp [Journal.tallyHit, satAdd, Config.max32]
  · have : e.ch.val ≠ c.val := fun q => h (Fin.ext q)
    simp [Journal.tallyHit, h, this]

theorem Journal.tallyEmission_live (j : Journal) (es : List Emitted) (c : ChanId) (hits : j.liveHits[c] ≤ 4294967295)
    (energy : j.liveEnergy[c] ≤ 4294967295) :
    (j.tallyEmission es).liveHits[c] = min 4294967295 (j.liveHits[c] + (es.filter fun e => e.ch = c).length) ∧
      (j.tallyEmission es).liveEnergy[c] =
        min 4294967295 (j.liveEnergy[c] + ((es.filter fun e => e.ch = c).map fun e => e.f.energy).sum) := by
  show (es.foldl (fun j e => j.tallyHit e.ch e.f.energy) j).liveHits[c] = _ ∧
    (es.foldl (fun j e => j.tallyHit e.ch e.f.energy) j).liveEnergy[c] = _
  induction es generalizing j with
  | nil => exact ⟨(Nat.min_eq_right hits).symm, (Nat.min_eq_right energy).symm⟩
  | cons e es ih =>
    obtain ⟨hit, sum⟩ := j.tallyHit_live e c
    rw [List.foldl_cons]
    by_cases mine : e.ch = c
    · rw [if_pos mine] at hit sum
      obtain ⟨h, s⟩ := ih (j.tallyHit e.ch e.f.energy) (by rw [hit]; exact Nat.min_le_left _ _)
        (by rw [sum]; exact Nat.min_le_left _ _)
      rw [h, s, hit, sum, List.filter_cons_of_pos (by simpa using mine), List.map_cons, List.length_cons, List.sum_cons]
      constructor <;> omega
    · rw [if_neg mine] at hit sum
      obtain ⟨h, s⟩ := ih (j.tallyHit e.ch e.f.energy) (by rw [hit]; exact hits) (by rw [sum]; exact energy)
      rw [h, s, hit, sum, List.filter_cons_of_neg (by simpa using mine)]
      exact ⟨rfl, rfl⟩

/-! ### The interval counters (R76, R113) -/

/-- The rollup unit at an emission, whatever becomes of its rupture check. -/
theorem State.emit_rollup (s : State) (closing : Bool) (g : Group) :
    (s.emit closing g).rollup =
      s.rollup.countGroup (decide (g.lmin ≤ g.emitted.length)) (g.emitted.map Emitted.f) := by
  have closed : (s.emit true g).rollup = s.rollup.countGroup (decide (g.lmin ≤ g.emitted.length)) (g.emitted.map Emitted.f) := by
    simp only [State.emit, if_true, State.withRollup_rollup]
    split
    · rfl
    · rw [State.offer_rollup]
  cases closing with
  | true => exact closed
  | false => rw [s.emit_open_eq, (State.RunOnly.ruptureCheck _ _ _).rollup, closed]

theorem Rollup.countGroup_eq {x : Rollup} {w : AcParams} (work : x.work = some w) (hits : x.counters.hits ≤ 4294967295)
    (energy : x.counters.energy ≤ 4294967295) (high : x.counters.high ≤ 4294967295) (loc : Bool) (fs : List Features) :
    x.countGroup loc fs =
      { x with counters :=
        { groups := min 4294967295 (x.counters.groups + 1)
          locatable := min 4294967295 (x.counters.locatable + if loc then 1 else 0)
          hits := min 4294967295 (x.counters.hits + fs.length)
          energy := min 4294967295 (x.counters.energy + (fs.map Features.energy).sum)
          high := min 4294967295 (x.counters.high + fs.countP fun f => w.ha ≤ f.amp) } } := by
  rw [Rollup.countGroup, Rollup.foldl_countHit w fs x work hits energy high, ← mul_flag loc 1, Nat.one_mul]
  rfl

end Sys2Proof.Machine

open Sys2Proof.Machine Claims in
/-- Settles O22: the order by the sort, the words and sizes by the records' definitions. -/
theorem emittedOrderAndRecords : Obligations.EmittedOrderAndRecords :=
  ⟨fun g => ⟨g.emitted_ordered, g.emitted_perm⟩, hitOffer_eq,
    fun loc e es => ⟨rfl, groupOffer_flags loc (e :: es), groupOffer_body loc e es⟩, groupOffer_size, fun _ _ _ => rfl,
    fun _ _ _ => rfl, fun _ _ _ _ => rfl, fun _ _ _ _ => rfl, Journal.tallyOffer_size⟩

open Sys2Proof.Machine Claims in
/-- Settles O23: by the mode of the journal, and the counters in either. -/
theorem emissionIsRecordedAndCounted : Obligations.EmissionIsRecordedAndCounted := by
  refine ⟨fun s g => ?_, fun s closing g w => ?_⟩
  · intro es t j
    refine ⟨fun off => ?_, fun on => ?_⟩
    · have recorded : t = (s.offer (groupOffer (decide (g.lmin ≤ es.length)) es)).withRollup t.rollup := by
        simp only [t, State.emit, if_true, State.withRollup_rollup, j] at off ⊢
        rw [off]
        rfl
      intro u
      rw [recorded]
      exact ⟨rfl, fun _ => rfl⟩
    · have tallied : t = (s.withJournal (j.tallyEmission es)).withRollup t.rollup := by
        simp only [t, State.emit, if_true, State.withRollup_rollup, j] at on ⊢
        rw [on]
        rfl
      obtain ⟨recs, appendPoint, mode⟩ := j.tallyEmission_store es
      obtain ⟨covered, groups⟩ := j.tallyEmission_tallies es
      rw [tallied]
      exact ⟨fun _ => rfl, recs, appendPoint, mode.trans on, covered, groups, fun c hits energy =>
        j.tallyEmission_live es c hits energy⟩
  · intro x es work hits energy high
    rw [s.emit_rollup, Rollup.countGroup_eq work hits energy high, List.length_map, List.map_map, List.countP_map]
    simp only [decide_eq_true_eq]
    rfl
end

