-- ==== Sys2Proof/Proofs/Offers.lean ====
section
/-! SUPPORT. Postings and offers as the statements speak of them: the ports that a posting reaches and the entry it makes (R181, R182),
admission by class (R85) and the entry into tally mode (R102). -/

namespace Sys2Proof.Machine

open Claims

/-! ### The ports that a posting reaches (R181) -/

theorem holdsSource_iff (src : Source) (l : List Notice) : holdsSource src l = true ↔ ∃ e ∈ l, e.source = src := by
  simp [holdsSource]

/-- LESS BUSY: the port that holds an entry of the source, or else the one with the shorter list. -/
theorem State.routed_lessBusy {s : State} {src : Source} (route : s.setup.routing src = 4) (p : Port) :
    s.routed src p = true ↔
      holdsSource src (s.port p).notices = true ∨
        (¬ holdsSource src (s.port (other p)).notices = true ∧
          ((s.port p).notices.length < (s.port (other p)).notices.length ∨
            ((s.port p).notices.length = (s.port (other p)).notices.length ∧ p = .a))) := by
  unfold State.routed
  rw [route]
  by_cases a : holdsSource src s.portA.notices = true <;> by_cases b : holdsSource src s.portB.notices = true <;> cases p <;>
    simp [State.port, other, a, b]
  omega

/-- The routes other than LESS BUSY. -/
theorem State.routed_fixed {s : State} {src : Source} (route : s.setup.routing src ≠ 4) (p : Port) :
    s.routed src p = true ↔
      (s.setup.routing src = 1 ∧ p = .a) ∨ (s.setup.routing src = 2 ∧ p = .b) ∨ s.setup.routing src = 3 := by
  unfold State.routed
  split
  · next e => simp [e]
  · next e => simp [e]
  · next e => simp [e]
  · next e => exact absurd e route
  · next one two three _ =>
    refine iff_of_false Bool.false_ne_true ?_
    rintro (⟨e, -⟩ | ⟨e, -⟩ | e)
    exacts [one e, two e, three e]

/-! ### The entry that a posting makes (R182) -/

theorem addNotice_new {src : Source} {l : List Notice} (new : ¬ ∃ e ∈ l, e.source = src) (sect : Nat) (d : Word32) :
    addNotice src sect d l = l ++ [⟨src, 1, sect, d⟩] := by
  induction l with
  | nil => rfl
  | cons e es ih =>
    have here : e.source ≠ src := fun q => new ⟨e, List.mem_cons_self .., q⟩
    rw [addNotice, if_neg here, ih fun ⟨x, hx, q⟩ => new ⟨x, List.mem_cons_of_mem _ hx, q⟩]
    rfl

theorem addNotice_held {src : Source} {e : Notice} {before after : List Notice} (held : e.source = src)
    (first : ∀ y ∈ before, y.source ≠ src) (sect : Nat) (d : Word32) :
    addNotice src sect d (before ++ e :: after) = before ++ ⟨src, min 255 (e.count + 1), sect, d⟩ :: after := by
  induction before with
  | nil => rw [List.nil_append, addNotice, if_pos held]; rfl
  | cons y ys ih =>
    rw [List.cons_append, addNotice, if_neg (first y (List.mem_cons_self ..)),
      ih fun x hx => first x (List.mem_cons_of_mem _ hx)]
    rfl

/-- The notice lists after a posting depend on the lists and the routing alone. -/
theorem State.postWith_notices_congr {s t : State} (notices : ∀ p, (t.port p).notices = (s.port p).notices)
    (setup : t.setup = s.setup) (src : Source) (sect : Nat) (d : Word32) (p : Port) :
    ((t.postWith src sect d).port p).notices = ((s.postWith src sect d).port p).notices := by
  have a : t.portA.notices = s.portA.notices := notices .a
  have b : t.portB.notices = s.portB.notices := notices .b
  have routed : t.routed src p = s.routed src p := by simp only [State.routed, setup, a, b]
  simp only [State.postWith_port, routed]
  split
  · simp only [PortState.takeNotice, notices]
  · exact notices p

/-! ### Admission (R85, R86) -/

theorem RecKind.limit_eq (k : RecKind) : k.limit = if k = .activity ∨ k = .tally ∨ k = .mark then 65536 else 65280 := by
  cases k <;> rfl

theorem Journal.admits_iff (j : Journal) (o : Offer) :
    j.admits o = true ↔ j.fill + o.size ≤ if o.kind = .activity ∨ o.kind = .tally ∨ o.kind = .mark then 65536 else 65280 := by
  rw [Journal.admits, decide_eq_true_iff, RecKind.limit_eq]

/-- The journal with a record written (R86), as the statements write it. -/
theorem Journal.append_eq (j : Journal) (o : Offer) :
    j.append o =
      { j with
        recs := j.recs ++ [⟨o.kind, BitVec.ofNat 16 o.flags, j.appendPoint, o.body⟩], appendPoint := j.appendPoint + 1 } := rfl

theorem State.offerOnce_refused {s : State} {o : Offer} (h : ¬ s.journal.admits o = true) : s.offerOnce o = s := if_neg h

theorem State.offer_refused {s : State} {o : Offer} (h : ¬ s.journal.admits o = true) : s.offer o = s := by
  rcases s.offer_cases o with ⟨e, -⟩ | ⟨a, -⟩
  · rw [e, State.offerOnce_refused h]
  · exact absurd a h

theorem State.offerOnce_admitted {s : State} {o : Offer} (h : s.journal.admits o = true) :
    (s.offerOnce o).journal = s.journal.append o := by
  rw [State.offerOnce_journal, if_pos h]

/-- The offer enters tally mode exactly when an admission brings the fill to 49,152 outside it (R102). -/
theorem State.offer_enters {s : State} {o : Offer} (h : s.journal.admits o = true) (off : s.journal.tallyMode = false)
    (full : 49152 ≤ s.journal.fill + o.size) : s.offer o = (s.offerOnce o).enterTally := by
  rcases s.offer_cases o with ⟨-, refused | on | low⟩ | ⟨-, e⟩
  · rw [refused] at h; cases h
  · rw [State.offerOnce_tallyMode, off] at on; cases on
  · rw [State.offerOnce_admitted h, Journal.append_fill] at low; omega
  · exact e

theorem State.offer_once {s : State} {o : Offer}
    (h : ¬ (s.journal.admits o = true ∧ s.journal.tallyMode = false ∧ 49152 ≤ s.journal.fill + o.size)) :
    s.offer o = s.offerOnce o := by
  by_cases a : s.journal.admits o = true
  · have stays : s.journal.tallyMode = true ∨ s.journal.fill + o.size < 49152 := by
      by_contra! no
      exact h ⟨a, by simpa using no.1, no.2⟩
    have low : (s.offerOnce o).journal.tallyMode = true ∨ (s.offerOnce o).journal.fill < 49152 := by
      rwa [State.offerOnce_tallyMode, State.offerOnce_admitted a, Journal.append_fill]
    unfold State.offer
    rw [if_neg]
    simp only [Bool.and_eq_true, Bool.not_eq_true', decide_eq_true_eq, Config.tallyEnterFill]
    rintro ⟨⟨-, off⟩, full⟩
    rcases low with on | low
    · rw [on] at off; cases off
    · omega
  · rw [State.offer_refused a, State.offerOnce_refused a]

/-- The entry into tally mode as two updates and a posting (R102). -/
theorem State.enterTally_eq (t : State) :
    t.enterTally =
      ((t.withJournal { t.journal with tallyMode := true, covered := 0 }).offerOnce
        (mark t.intake.clock 4 0 t.journal.fill)).postWith .tallyMode 0 1 := rfl

/-- The journal after an entry into tally mode (R102). -/
theorem State.enterTally_journal (t : State) :
    t.enterTally.journal =
      { t.journal with
        recs := t.journal.recs ++
          if t.journal.fill + 6 ≤ 65536 then [⟨.mark, 0, t.journal.appendPoint, (mark t.intake.clock 4 0 t.journal.fill).body⟩]
          else []
        appendPoint := if t.journal.fill + 6 ≤ 65536 then t.journal.appendPoint + 1 else t.journal.appendPoint
        tallyMode := true
        covered := 0 } := by
  rw [t.enterTally_eq]
  show (State.offerOnce _ _).journal = _
  have room : ∀ j : Journal, j.fill = t.journal.fill →
      (j.admits (mark t.intake.clock 4 0 t.journal.fill) = true ↔ t.journal.fill + 6 ≤ 65536) := by
    intro j fill
    rw [Journal.admits_iff, fill]
    exact Iff.rfl
  rw [State.offerOnce_journal, State.withJournal_journal]
  simp only [room { t.journal with tallyMode := true, covered := 0 } rfl]
  split
  · rfl
  · rw [List.append_nil]

/-- The notice lists after an entry into tally mode (R102). -/
theorem State.enterTally_notices (t : State) (p : Port) :
    (t.enterTally.port p).notices = ((t.postWith .tallyMode 0 1).port p).notices :=
  State.postWith_notices_congr (fun q => by simp) (by simp) _ _ _ p

end Sys2Proof.Machine

open Sys2Proof.Machine Claims in
/-- Settles O25: refused by its class, or admitted without the entry into tally mode. -/
theorem offerIsAdmittedByClass : Obligations.OfferIsAdmittedByClass := by
  intro s o j reserved fits
  have admitted : j.admits o = true ↔ fits := j.admits_iff o
  refine ⟨fun no => State.offer_refused fun a => no (admitted.1 a), fun yes stays => ?_, by simp, by simp, by simp, by simp,
    by simp, by simp, by simp, by simp, by simp, (Kept.of_settings s).offer s o (.refl s)⟩
  have a := admitted.2 yes
  have once : s.offer o = s.offerOnce o := by
    refine State.offer_once fun ⟨_, off, full⟩ => ?_
    rcases stays with on | low
    · rw [show j.tallyMode = false from off] at on; cases on
    · exact Nat.not_lt.2 full low
  rw [once, State.offerOnce_admitted a]
  exact ⟨rfl, Journal.append_fill _ _, fun p => State.offerOnce_port_notices _ _ _⟩

open Sys2Proof.Machine Claims in
/-- Settles O26: the admission, and the entry after it. -/
theorem tallyModeIsEntered : Obligations.TallyModeIsEntered := by
  intro s o j fill rec1 on room off full fits
  have a : j.admits o = true := (j.admits_iff o).2 fits
  have admitted := State.offerOnce_admitted a
  have filled : (s.offerOnce o).journal.fill = fill := by rw [admitted, Journal.append_fill]
  rw [State.offer_enters a off full]
  refine ⟨?_, fun p => ?_⟩
  · rw [State.enterTally_journal, filled, admitted, State.offerOnce_intake]
    have next : j.appendPoint + 1 + 1 = j.appendPoint + 2 := by rw [BitVec.add_assoc]; rfl
    simp only [Journal.append_eq, List.append_assoc, List.singleton_append]
    exact congrArg (fun x => ({ j with
      recs := j.recs ++ rec1 :: if room then [on] else []
      appendPoint := if room then x else j.appendPoint + 1
      tallyMode := true
      covered := 0 } : Journal)) next
  · rw [State.enterTally_notices]
    exact State.postWith_notices_congr (fun q => State.offerOnce_port_notices _ _ _) (State.offerOnce_setup _ _) _ _ _ p

open Sys2Proof.Machine Claims in
/-- Settles O27: by the route of the source, and the place of its entry in each list. -/
theorem postingIsRoutedAndCoalesced : Obligations.PostingIsRoutedAndCoalesced := by
  intro s src sect d held size reaches t
  have route : s.setup.item .pt (sourceNumber src - 1) = s.setup.routing src := by
    rw [sourceNumber_eq_number]; rfl
  have reached : ∀ p, s.routed src p = true ↔ reaches p := by
    intro p
    simp only [reaches, route]
    split
    · next e => rw [State.routed_fixed (by omega)]; simp [e]
    · next e => rw [State.routed_fixed (by omega)]; simp [e]
    · next e => rw [State.routed_fixed (by omega)]; simp [e]
    · next e => simp only [State.routed_lessBusy e, holdsSource_iff]; rfl
    · next one two three four =>
      rw [State.routed_fixed four, iff_false]
      rintro (⟨e, -⟩ | ⟨e, -⟩ | e)
      exacts [one e, two e, three e]
  refine ⟨fun p => ⟨fun no => ?_, fun yes new => ?_, fun yes before e after list source first => ?_⟩, rfl⟩
  · rw [s.postWith_port, if_neg fun r => no ((reached p).1 r)]
  · rw [s.postWith_port, if_pos ((reached p).2 yes), PortState.takeNotice, addNotice_new new]
  · rw [s.postWith_port, if_pos ((reached p).2 yes), PortState.takeNotice, list, addNotice_held source first]
end

