-- ==== Sys2Proof/Proofs/Waits.lean ====
section
/-! SUPPORT. The waits of the ports (R98 to R100): the test of a wait within an admission, and the two commands that end one. -/

namespace Sys2Proof.Machine

open Claims

/-! ### Two writes to a port -/

theorem State.withPort_withPort (s : State) (p : Port) (x y : PortState) : (s.withPort p x).withPort p y = s.withPort p y := by
  cases p <;> rfl

/-- A wait ended answers the request at the head of the queue (R99, R100). -/
theorem State.endWait_eq_answered {s : State} {p : Port} {r : Request} {rest : List Request}
    (queue : (s.port p).requests = r :: rest) (x : Result) (n : Nat) :
    s.endWait p x n = answered (s.withPort p { s.port p with wait := none }) p r rest x (lsbFirst 2 n) := by
  rw [State.endWait, State.updPort, PortState.answer_cons _ _ _ _ _ queue, answered, State.withPort_withPort, State.withPort_port,
    lsbFirst_eq_leBytes]

/-! ### The unread count (R94) -/

/-- A record written stands behind the records of a cursor within the journal. -/
theorem Journal.recsFrom_append {j : Journal} (o : Offer) {cur : SeqNo} (h : (cur - j.floor).toNat ≤ j.recs.length) :
    (j.append o).recsFrom cur = j.recsFrom cur ++ [j.record o] := by
  have floor : (j.append o).floor = j.floor := by
    unfold Journal.floor Journal.append
    cases j.recs <;> rfl
  rw [Journal.recsFrom, floor, Journal.append, List.drop_append_of_le_length h]
  rfl

/-- The filter of a port by its masks alone (R93). -/
theorem PortState.passes_congr {q q' : PortState} (kinds : q'.kindMask = q.kindMask) (chans : q'.chanMask = q.chanMask) :
    q'.passes = q.passes := by
  funext r
  simp only [PortState.passes, kinds, chans]

theorem State.unread_congr {s t : State} {p : Port} (journal : t.journal = s.journal) (cursor : (t.port p).cursor = (s.port p).cursor)
    (passes : (t.port p).passes = (s.port p).passes) : t.unread p = s.unread p := by
  simp only [State.unread, journal, cursor, passes]

/-- The unread count rises by 1 with a passing record (R94). -/
theorem State.unread_append {s t : State} {p : Port} {o : Offer} (sound : s.JournalOk) {cur : SeqNo}
    (at_ : (s.port p).cursor = some cur) (journal : t.journal = s.journal.append o)
    (cursor : (t.port p).cursor = (s.port p).cursor) (passes : (t.port p).passes = (s.port p).passes) :
    t.unread p = s.unread p + if (s.port p).passes (s.journal.record o) then 1 else 0 := by
  simp only [State.unread, cursor, at_, journal, passes, Journal.recsFrom_append o (sound.2.2 p cur at_), List.countP_append,
    List.countP_singleton]

/-! ### The test of a wait within an admission (R99) -/

/-- The test reads and changes its own port alone. -/
theorem State.testWait_port_ne (s : State) {p r : Port} (h : r ≠ p) (x : Rec) : (s.testWait p x).port r = s.port r := by
  rcases s.testWait_cases p x with e | ⟨-, e⟩ <;> rw [e]
  exact s.updPort_port_ne _ h

theorem State.testWait_none {s : State} {p : Port} (h : (s.port p).wait = none) (x : Rec) : s.testWait p x = s := by
  unfold State.testWait
  rw [h]

theorem State.testWait_some {s : State} {p : Port} {w : Wait} (h : (s.port p).wait = some w) (x : Rec) :
    s.testWait p x = if (s.port p).passes x = true ∧ w.n ≤ s.unread p then s.endWait p .ok (s.unread p) else s := by
  unfold State.testWait
  simp only [h, Bool.and_eq_true, decide_eq_true_eq]

/-- The test of a wait reads its port and the unread count alone. -/
theorem State.testWait_port_congr {s t : State} {p : Port} (port : t.port p = s.port p) (unread : t.unread p = s.unread p)
    (x : Rec) : (t.testWait p x).port p = (s.testWait p x).port p := by
  cases wait : (s.port p).wait with
  | none => rw [State.testWait_none wait, State.testWait_none (port ▸ wait), port]
  | some w =>
    rw [State.testWait_some wait, State.testWait_some (port ▸ wait), port, unread]
    split
    · rw [State.endWait_port, State.endWait_port, port]
    · exact port

/-- A port after an admission is as the test of its own wait leaves it. -/
theorem State.writeRecord_port (s : State) (o : Offer) (p : Port) :
    (s.writeRecord o).port p = ((s.withJournal (s.journal.append o)).testWait p (s.journal.record o)).port p := by
  cases p with
  | a => exact State.testWait_port_ne _ (by decide) _
  | b =>
    have port : ((s.withJournal (s.journal.append o)).testWait .a (s.journal.record o)).port .b =
        (s.withJournal (s.journal.append o)).port .b :=
      State.testWait_port_ne _ (by decide) _
    have unread : ((s.withJournal (s.journal.append o)).testWait .a (s.journal.record o)).unread .b =
        (s.withJournal (s.journal.append o)).unread .b :=
      State.unread_congr (by simp) (by rw [port]) (by rw [port])
    exact State.testWait_port_congr port unread _

/-! ### A wait ended by a command of its own (R99, R100) -/

theorem State.waitSatisfied_none {s : State} {p : Port} (h : (s.port p).wait = none) : s.waitSatisfied p = s := by
  unfold State.waitSatisfied
  rw [h]

theorem State.waitTimeout_none {s : State} {p : Port} (h : (s.port p).wait = none) : s.waitTimeout p = s := by
  unfold State.waitTimeout
  rw [h]

theorem State.waitSatisfied_some {s : State} {p : Port} {w : Wait} (h : (s.port p).wait = some w) :
    s.waitSatisfied p = if w.n ≤ s.unread p then s.endWait p .ok (s.unread p) else s := by
  unfold State.waitSatisfied
  rw [h]

theorem State.waitTimeout_some {s : State} {p : Port} {w : Wait} (h : (s.port p).wait = some w) :
    s.waitTimeout p = if w.deadline = s.intake.clock then s.endWait p .timeout (s.unread p) else s := by
  unfold State.waitTimeout
  rw [h]
  rfl

end Sys2Proof.Machine

open Sys2Proof.Machine Claims in
/-- Settles O28: the admission of the record with the test of the waits, and the two commands by the state of the wait. -/
theorem waitsEndByCountOrDeadline : Obligations.WaitsEndByCountOrDeadline := by
  refine ⟨fun s o p => ?_, fun s p released => ⟨fun idle => ⟨?_, ?_⟩, fun w r rest wait queue => ?_⟩⟩
  · intro j new t count fits enters
    have admitted : j.admits o = true ↔ fits := j.admits_iff o
    refine ⟨fun no => ?_, fun ⟨yes, off, full⟩ => ?_, fun no => ?_, fun yes => ?_⟩
    · exact State.offer_once fun ⟨a, off, full⟩ => no ⟨admitted.1 a, off, full⟩
    · have a := admitted.2 yes
      have filled : t.journal.fill = j.fill + o.size := by rw [State.offerOnce_admitted a, Journal.append_fill]
      rw [State.offer_enters a off full, State.enterTally_eq, filled, ← show t.intake = s.intake from State.offerOnce_intake s o]
      rfl
    · exact State.offerOnce_refused fun a => no (admitted.1 a)
    · have a := admitted.2 yes
      have journal : t.journal = j.append o := State.offerOnce_admitted a
      have passes : (t.port p).passes = (s.port p).passes := PortState.passes_congr (by simp [t]) (by simp [t])
      have port : t.port p = ((s.withJournal (j.append o)).testWait p (j.record o)).port p := by
        rw [show t = s.writeRecord o from if_pos a]
        exact s.writeRecord_port o p
      have unread : (s.withJournal (j.append o)).unread p = count :=
        State.unread_congr journal.symm (by simp [t]) (by rw [passes]; simp)
      refine ⟨journal, fun sound cur attached => ?_, fun idle => ?_, fun w wait => ⟨fun no => ?_, fun pass enough r rest queue => ?_⟩⟩
      · exact State.unread_append sound attached journal (by simp [t]) passes
      · rw [port, State.testWait_none (by simpa using idle), State.withJournal_port]
      · rw [port, State.testWait_some (w := w) (by simpa using wait), unread, State.withJournal_port,
          if_neg (c := (s.port p).passes (j.record o) = true ∧ w.n ≤ count) no, State.withJournal_port]
      · rw [port, State.testWait_some (w := w) (by simpa using wait), unread, State.withJournal_port,
          if_pos (c := (s.port p).passes (j.record o) = true ∧ w.n ≤ count) ⟨pass, enough⟩, State.endWait_port,
          State.withJournal_port, PortState.answer_cons _ _ _ _ _ queue, lsbFirst_eq_leBytes]
  · rw [show exec (.waitSatisfied p) s = .next (s.waitSatisfied p) from answer_released released _, State.waitSatisfied_none idle]
  · rw [show exec (.waitTimeout p) s = .next (s.waitTimeout p) from answer_released released _, State.waitTimeout_none idle]
  · intro ended count
    rw [show exec (.waitSatisfied p) s = .next (s.waitSatisfied p) from answer_released released _,
      show exec (.waitTimeout p) s = .next (s.waitTimeout p) from answer_released released _, State.waitSatisfied_some wait,
      State.waitTimeout_some wait]
    refine ⟨fun enough => ?_, fun few => ?_, fun due => ?_, fun early => ?_⟩
    · rw [if_pos enough, State.endWait_eq_answered queue]
    · rw [if_neg few]
    · rw [if_pos due, State.endWait_eq_answered queue]
    · rw [if_neg early]
end

