-- ==== Sys2Proof/Proofs/Reclaim.lean ====
section
/-! SUPPORT. Reclaim and the journal requests (R89 to R98): what the removal of records leaves, and the payloads of the requests. -/

namespace Sys2Proof.Machine

open Claims

/-! ### Reclaim (R89) -/

theorem State.reclaimable_none {s : State} (detached : ∀ p, (s.port p).cursor = none) : s.reclaimable = 0 := by
  have a : s.journal.before s.portA = none := by rw [Journal.before, show s.portA.cursor = none from detached .a]; rfl
  have b : s.journal.before s.portB = none := by rw [Journal.before, show s.portB.cursor = none from detached .b]; rfl
  unfold State.reclaimable
  rw [a, b]

theorem State.reclaim_none {s : State} (detached : ∀ p, (s.port p).cursor = none) : s.reclaim = s := by
  rw [State.reclaim, State.reclaimable_none detached]
  rfl

/-- The records reclaimed are those before the attached cursor nearest the retain floor. -/
theorem State.reclaimable_oldest {s : State} {p : Port} {cur : SeqNo} (attached : (s.port p).cursor = some cur)
    (oldest : ∀ q old, (s.port q).cursor = some old → (cur - s.journal.floor).toNat ≤ (old - s.journal.floor).toNat) :
    s.reclaimable = (cur - s.journal.floor).toNat := by
  refine Nat.le_antisymm (s.reclaimable_le p cur attached) ?_
  have least : ∀ q n, s.journal.before (s.port q) = some n → (cur - s.journal.floor).toNat ≤ n := by
    intro q n h
    obtain ⟨old, at_, rfl⟩ := Option.map_eq_some_iff.1 h
    exact oldest q old at_
  unfold State.reclaimable
  cases a : s.journal.before s.portA with
  | none =>
    cases b : s.journal.before s.portB with
    | none =>
      have mine : s.journal.before (s.port p) = some (cur - s.journal.floor).toNat := by rw [Journal.before, attached]; rfl
      cases p
      · rw [show s.journal.before (s.port .a) = none from a] at mine; cases mine
      · rw [show s.journal.before (s.port .b) = none from b] at mine; cases mine
    | some n => exact least .b n b
  | some m =>
    cases b : s.journal.before s.portB with
    | none => exact least .a m a
    | some n => exact Nat.le_min.2 ⟨least .a m a, least .b n b⟩

/-- A cursor's distance from the retain floor falls by the records reclaimed. -/
theorem State.reclaim_distance {s : State} (sound : s.JournalOk) {p : Port} {cur : SeqNo} (attached : (s.port p).cursor = some cur) :
    (cur - s.reclaim.journal.floor).toNat = (cur - s.journal.floor).toNat - s.reclaimable := by
  obtain ⟨bounded, numbered, within⟩ := sound
  have few := bounded.length_le
  have numbered' : s.reclaim.journal.Numbered := numbered.drop _
  have before := s.reclaimable_le p cur attached
  have inside := within p cur attached
  rw [numbered'.floor_eq, State.reclaim_recs, State.reclaim_appendPoint, List.length_drop]
  rw [numbered.floor_eq] at before inside ⊢
  generalize s.reclaimable = k at *
  generalize s.journal.recs.length = n at *
  have split : BitVec.ofNat 32 n = BitVec.ofNat 32 (n - k) + BitVec.ofNat 32 k := by
    rw [← BitVec.ofNat_add]; congr 1; omega
  have nearer : cur - (s.journal.appendPoint - BitVec.ofNat 32 (n - k)) =
      cur - (s.journal.appendPoint - BitVec.ofNat 32 n) - BitVec.ofNat 32 k := by
    rw [split]
    bv_omega
  rw [nearer]
  generalize cur - (s.journal.appendPoint - BitVec.ofNat 32 n) = d at *
  rw [BitVec.toNat_sub_of_le (by rw [BitVec.le_def, BitVec.toNat_ofNat]; omega), BitVec.toNat_ofNat]
  omega

/-- Reclaim leaves the records from an attached cursor (R89, R94). -/
theorem State.reclaim_recsFrom {s : State} (sound : s.JournalOk) {p : Port} {cur : SeqNo}
    (attached : (s.port p).cursor = some cur) : s.reclaim.journal.recsFrom cur = s.journal.recsFrom cur := by
  have before := s.reclaimable_le p cur attached
  rw [Journal.recsFrom, State.reclaim_distance sound attached, State.reclaim_recs, List.drop_drop, Nat.add_sub_cancel' before]
  rfl

theorem State.reclaim_unread {s : State} (sound : s.JournalOk) {p : Port} {cur : SeqNo}
    (attached : (s.port p).cursor = some cur) : s.reclaim.unread p = s.unread p := by
  simp only [State.unread, State.reclaim_port, attached, State.reclaim_recsFrom sound attached]

/-- The oldest attached cursor becomes the retain floor (R89). -/
theorem State.reclaim_floor {s : State} (sound : s.JournalOk) {p : Port} {cur : SeqNo} (attached : (s.port p).cursor = some cur)
    (oldest : ∀ q old, (s.port q).cursor = some old → (cur - s.journal.floor).toNat ≤ (old - s.journal.floor).toNat) :
    s.reclaim.journal.floor = cur := by
  have none : (cur - s.reclaim.journal.floor).toNat = 0 := by
    rw [State.reclaim_distance sound attached, State.reclaimable_oldest attached oldest, Nat.sub_self]
  have zero : cur - s.reclaim.journal.floor = 0#32 := BitVec.eq_of_toNat_eq none
  exact (sub_eq_zero.1 zero).symm

/-! ### JOURNAL ATTACH and DETACH (R90, R91) -/

theorem State.attach_eq (s : State) (p : Port) (cur : SeqNo) :
    s.attach p cur = (s.withPort p { s.port p with cursor := some cur }).reclaim := rfl

theorem State.attach_port (s : State) (p : Port) (cur : SeqNo) : (s.attach p cur).port p = { s.port p with cursor := some cur } := by
  rw [State.attach_eq, State.reclaim_port, State.withPort_port]

theorem State.attach_cursorPayload (s : State) (p : Port) (cur : SeqNo) :
    (s.attach p cur).cursorPayload p = lsbFirst 4 cur.toNat ++ lsbFirst 2 ((s.attach p cur).unread p) := by
  rw [State.cursorPayload, State.attach_port]
  simp only [lsbFirst_eq_leBytes]
  rfl

theorem exec_journalAttach {s t : State} {p : Port} {r : Request} {rest : List Request} {x : Reply} (h : Executes s p 14 r rest)
    (effect : journalAttachBody p r s = (t, x)) (queue : (t.port p).requests = (s.port p).requests) :
    exec (.journalAttach p) s = .next (answered t p r rest x.result x.payload) :=
  congrArg _ (serve_eq_answered h effect queue)

theorem exec_journalDetach {s : State} {p : Port} {r : Request} {rest : List Request} (h : Executes s p 15 r rest) :
    exec (.journalDetach p) s = .next (answered (s.withPort p { s.port p with cursor := none }).reclaim p r rest .ok []) := by
  refine congrArg _ (serve_eq_answered h (x := ⟨.ok, []⟩) rfl ?_)
  rw [State.reclaim_port, State.withPort_port]

theorem journalAttachBody_named {r : Request} {b : Byte} {tl : List Byte} {s : State} {cur : SeqNo} (payload : r.payload = b :: tl)
    (named : s.journal.attachCursor b.toNat = some cur) (p : Port) :
    journalAttachBody p r s = (s.attach p cur, ⟨.ok, (s.attach p cur).cursorPayload p⟩) := by
  simp only [journalAttachBody, payload, named]

theorem journalAttachBody_unnamed {r : Request} {b : Byte} {tl : List Byte} {s : State} (payload : r.payload = b :: tl)
    (unnamed : s.journal.attachCursor b.toNat = none) (p : Port) : journalAttachBody p r s = (s, ⟨.range, []⟩) := by
  simp only [journalAttachBody, payload, unnamed]

theorem Journal.attachCursor_beyond (j : Journal) {mode : Nat} (h : 1 < mode) : j.attachCursor mode = none := by
  unfold Journal.attachCursor
  split
  · omega
  · omega
  · rfl

end Sys2Proof.Machine

open Sys2Proof.Machine Claims in
/-- Settles O29: the records removed by the cursors, and the two requests by the mode. -/
theorem attachAndDetachReclaim : Obligations.AttachAndDetachReclaim := by
  refine ⟨fun s => ?_, fun s p r rest => ⟨fun h mode cur => ⟨fun refused => ?_, ?_⟩, exec_journalDetach⟩⟩
  · intro place t
    refine ⟨State.reclaim_none, fun p cur attached oldest => ⟨?_, fun sound => State.reclaim_floor sound attached oldest⟩,
      fun sound p cur attached => ⟨State.reclaim_recsFrom sound attached, State.reclaim_unread sound attached⟩⟩
    rw [show t = s.reclaim from rfl, State.reclaim, State.reclaimable_oldest attached oldest]
    rfl
  · refine exec_journalAttach h (x := ⟨.range, []⟩) ?_ rfl
    rcases refused with empty | ⟨b, tl, payload, beyond⟩
    · unfold journalAttachBody; rw [empty]
    · exact journalAttachBody_unnamed payload (s.journal.attachCursor_beyond beyond) p
  · rintro ⟨b, tl, payload, rfl⟩ named t
    have cursor : s.journal.attachCursor b.toNat = some cur := by
      rcases named with ⟨mode, rfl⟩ | ⟨mode, rfl⟩ <;> rw [mode] <;> rfl
    refine (exec_journalAttach h (t := s.attach p cur) (x := ⟨.ok, (s.attach p cur).cursorPayload p⟩) ?_ ?_).trans ?_
    · exact journalAttachBody_named payload cursor p
    · rw [State.attach_port]
    · rw [State.attach_cursorPayload]; rfl
end

