-- ==== Sys2Proof/Proofs/JournalRequests.lean ====
section
/-! SUPPORT. Records and their bytes (section 11.1), the records from a cursor (R86, R95), and JOURNAL READ and JOURNAL WAIT (R95, R96,
R98). -/

namespace Sys2Proof.Machine

open Claims

/-! ### Words and bytes of a record (section 11.1) -/

theorem RecKind.code_eq_kindCode (k : RecKind) : k.code = kindCode k := by cases k <;> rfl

theorem kindCode_le (k : RecKind) : kindCode k ≤ 6 := by cases k <;> decide

theorem Rec.words_length (r : Rec) : r.words.length = r.size := by
  rw [Rec.words, Rec.size, List.length_cons, List.length_cons]
  omega

/-- The four parts of word 0. -/
theorem Rec.word0_parts {r : Rec} (short : r.body.length ≤ 253) :
    let w0 := word32 (r.kind.code + 2 ^ 8 * r.size + 2 ^ 16 * r.flags.toNat)
    (w0.setWidth 8 : Byte).toNat = kindCode r.kind ∧ ((w0 >>> 8).setWidth 8 : Byte).toNat = r.size ∧
      (w0 >>> 16).setWidth 16 = r.flags := by
  intro w0
  have code := kindCode_le r.kind
  have size : r.size ≤ 255 := by rw [Rec.size]; omega
  have flags := r.flags.isLt
  have value : w0.toNat = kindCode r.kind + 256 * r.size + 65536 * r.flags.toNat := by
    simp only [w0, word32, BitVec.toNat_ofNat, RecKind.code_eq_kindCode]
    omega
  refine ⟨?_, ?_, BitVec.eq_of_toNat_eq ?_⟩
  · rw [BitVec.toNat_setWidth, value]; omega
  · rw [BitVec.toNat_setWidth, BitVec.toNat_ushiftRight, Nat.shiftRight_eq_div_pow, value]; omega
  · rw [BitVec.toNat_setWidth, BitVec.toNat_ushiftRight, Nat.shiftRight_eq_div_pow, value]; omega

/-- The bytes of a word, least significant first, as its parts. -/
theorem wordBytes_eq (w : Word32) :
    wordBytes w = [(w.setWidth 8 : Byte), (w >>> 8).setWidth 8, (w >>> 16).setWidth 8, (w >>> 24).setWidth 8] := by
  have part : ∀ n : Nat, BitVec.ofNat 8 (w.toNat / 2 ^ n) = (w >>> n).setWidth 8 := by
    intro n
    apply BitVec.eq_of_toNat_eq
    rw [BitVec.toNat_ofNat, BitVec.toNat_setWidth, BitVec.toNat_ushiftRight, Nat.shiftRight_eq_div_pow]
  have low : w.setWidth 8 = BitVec.ofNat 8 w.toNat := by
    rw [← w.ushiftRight_zero, ← part 0]
    simp
  rw [wordBytes, leBytes_eq, low, ← part 8, ← part 16, ← part 24]
  simp [List.range_succ]

/-! ### The records from a cursor (R86, R94, R95) -/

/-- A list whose items carry their places, from some number on, filtered by the place. -/
theorem filter_place_eq_drop {α : Type} (place : α → Nat) (k : Nat) (l : List α) (base : Nat)
    (h : ∀ i, (hi : i < l.length) → place l[i] = base + i) : l.filter (fun x => k ≤ place x) = l.drop (k - base) := by
  induction l generalizing base with
  | nil => simp
  | cons x l ih =>
    have first : place x = base := h 0 (Nat.zero_lt_succ _)
    have rest := ih (base + 1) fun i hi => by
      rw [Nat.add_assoc, Nat.add_comm 1 i]
      exact h (i + 1) (Nat.succ_lt_succ hi)
    by_cases le : k ≤ base
    · rw [List.filter_cons_of_pos (by simpa [first] using le), rest, Nat.sub_eq_zero_of_le le,
        Nat.sub_eq_zero_of_le (Nat.le_succ_of_le le)]
      rfl
    · rw [List.filter_cons_of_neg (by simpa [first] using le), rest, show k - base = (k - (base + 1)) + 1 by omega,
        List.drop_succ_cons]

/-- The distance of a record from the retain floor is its place in the store. -/
theorem Journal.Numbered.place {j : Journal} (bounded : j.Bounded) (h : j.Numbered) (i : Nat) (hi : i < j.recs.length) :
    (j.recs[i].seq - j.floor).toNat = i := by
  have few := bounded.length_le
  have split : BitVec.ofNat 32 j.recs.length = BitVec.ofNat 32 (j.recs.length - i) + BitVec.ofNat 32 i := by
    rw [← BitVec.ofNat_add]; congr 1; omega
  have distance : j.recs[i].seq - j.floor = BitVec.ofNat 32 i := by
    rw [h i hi, h.floor_eq, split]
    bv_omega
  rw [distance, BitVec.toNat_ofNat]
  omega

theorem Journal.recsFrom_eq_filter {j : Journal} (bounded : j.Bounded) (h : j.Numbered) (cur : SeqNo) :
    j.recsFrom cur = j.recs.filter fun r => (cur - j.floor).toNat ≤ (r.seq - j.floor).toNat :=
  (filter_place_eq_drop (fun r : Rec => (r.seq - j.floor).toNat) _ _ 0 fun i hi => by
    rw [Nat.zero_add]; exact h.place bounded i hi).symm

theorem State.unread_none {s : State} {p : Port} (detached : (s.port p).cursor = none) : s.unread p = 0 := by
  simp only [State.unread, detached]

theorem State.unread_some {s : State} {p : Port} {cur : SeqNo} (attached : (s.port p).cursor = some cur) :
    s.unread p = ((s.journal.recsFrom cur).filter (s.port p).passes).length := by
  simp only [State.unread, attached, List.countP_eq_length_filter]

/-! ### JOURNAL READ (R95, R96) -/

theorem exec_journalRead {s t : State} {p : Port} {r : Request} {rest : List Request} {x : Reply} (h : Executes s p 17 r rest)
    (effect : journalReadBody p r s = (t, x)) (queue : (t.port p).requests = (s.port p).requests) :
    exec (.journalRead p) s = .next (answered t p r rest x.result x.payload) :=
  congrArg _ (serve_eq_answered h effect queue)

section Read
variable {s : State} {p : Port} {r : Request} {cur : SeqNo} {b : Byte} {tl : List Byte}

theorem journalReadBody_detached (detached : (s.port p).cursor = none) : journalReadBody p r s = (s, ⟨.detached, []⟩) := by
  unfold journalReadBody
  rw [detached]

theorem journalReadBody_range (attached : (s.port p).cursor = some cur)
    (h : r.payload = [] ∨ ∃ b tl, r.payload = b :: tl ∧ (b.toNat = 0 ∨ b.toNat = 255)) :
    journalReadBody p r s = (s, ⟨.range, []⟩) := by
  unfold journalReadBody
  rw [attached]
  rcases h with empty | ⟨b, tl, payload, none | all⟩
  · rw [empty]
  · rw [payload]; simp [none]
  · rw [payload]; simp [all, Config.maxReadWords]

theorem journalReadBody_read (attached : (s.port p).cursor = some cur) (payload : r.payload = b :: tl) (one : 1 ≤ b.toNat)
    (most : b.toNat ≤ 254) : journalReadBody p r s = s.read p cur b.toNat := by
  have within : ¬ (b.toNat = 0 || decide (Config.maxReadWords < b.toNat)) = true := by
    simp only [Config.maxReadWords, Bool.or_eq_true, decide_eq_true_eq]
    omega
  unfold journalReadBody
  rw [attached, payload]
  exact if_neg within

/-- A walk that finds a first record too large (R96). -/
theorem State.read_blocked {size n : Nat} (h : walk (s.port p).passes n (s.journal.recsFrom cur) = ⟨[], k, some size⟩) :
    s.read p cur n = (s, ⟨.range, leBytes 1 size⟩) := by
  simp only [State.read, h]

/-- A walk that returns a record, or reaches the end (R95). -/
theorem State.read_walked {out : List Rec} {moved n : Nat} {blocked : Option Nat}
    (h : walk (s.port p).passes n (s.journal.recsFrom cur) = ⟨out, moved, blocked⟩) (some : out ≠ [] ∨ blocked = none) :
    s.read p cur n = (s.moveCursor p cur moved, (s.moveCursor p cur moved).readReply p out) := by
  simp only [State.read, h]
  split
  · simp at some
  · rfl

/-- The state after a walk, and its cursor. -/
theorem State.moveCursor_cursor (attached : (s.port p).cursor = some cur) (moved : Nat) :
    ((s.moveCursor p cur moved).port p).cursor = some (cur + BitVec.ofNat 32 moved) := by
  unfold State.moveCursor
  split
  · next none => rw [none, attached]; simp
  · rw [State.attach_port]

theorem State.moveCursor_requests (moved : Nat) : ((s.moveCursor p cur moved).port p).requests = (s.port p).requests := by
  unfold State.moveCursor
  split
  · rfl
  · rw [State.attach_port]

theorem State.readReply_eq {t : State} (at_ : (t.port p).cursor = some cur) (out : List Rec) :
    t.readReply p out =
      ⟨.ok, lsbFirst 2 out.length ++ lsbFirst 4 cur.toNat ++ lsbFirst 2 (t.unread p) ++ (out.map Rec.bytes).flatten⟩ := by
  simp only [State.readReply, State.cursorPayload, at_, lsbFirst_eq_leBytes, wordBytes, List.append_assoc]

end Read

/-! ### JOURNAL WAIT (R98) -/

theorem exec_journalWait {s : State} {p : Port} {r : Request} {rest : List Request} (h : Executes s p 18 r rest) :
    exec (.journalWait p) s = .next (s.waitRequest p r) := by
  have ready := s.ready_eq p r rest h.queue h.room h.noWait
  have code : r.hasCode 18 = true := by
    rw [Request.hasCode, h.code, decide_eq_true h.length]; simp
  refine (answer_released h.released _).trans ?_
  simp only [ready, code, if_true]

/-- A wait answered at once. -/
theorem finish_eq_answered {s : State} {p : Port} {code : Nat} {r : Request} {rest : List Request} (h : Executes s p code r rest)
    (x : Reply) : State.finish (s, x) p = answered s p r rest x.result x.payload := State.finish_eq s x p r rest h.queue

theorem waitFields_eq {n0 n1 t0 t1 : Byte} {tl : List Byte} :
    waitFields (n0 :: n1 :: t0 :: t1 :: tl) =
      if 1 ≤ n0.toNat + 256 * n1.toNat ∧ n0.toNat + 256 * n1.toNat ≤ 1024 ∧ 1 ≤ t0.toNat + 256 * t1.toNat then
        some (n0.toNat + 256 * n1.toNat, t0.toNat + 256 * t1.toNat)
      else none := by
  have first : field (n0 :: n1 :: t0 :: t1 :: tl) 0 2 = n0.toNat + 256 * n1.toNat := by simp [field, leNat]
  have second : field (n0 :: n1 :: t0 :: t1 :: tl) 2 2 = t0.toNat + 256 * t1.toNat := by simp [field, leNat]
  have long : ¬ (n0 :: n1 :: t0 :: t1 :: tl).length < 4 := by simp
  simp only [waitFields, long, if_false, first, second, Bool.and_eq_true, decide_eq_true_eq, and_assoc]

theorem State.waitRequest_fields {s : State} {p : Port} {r : Request} {cur : SeqNo} (attached : (s.port p).cursor = some cur)
    {n timeout : Nat} (fields : waitFields r.payload = some (n, timeout)) :
    s.waitRequest p r =
      if n ≤ s.unread p then State.finish (s, ⟨.ok, leBytes 2 (s.unread p)⟩) p
      else s.updPort p fun q => { q with wait := some ⟨n, tickAfter s.clock (blocks timeout)⟩ } := by
  unfold State.waitRequest
  simp only [attached, fields]

theorem State.waitRequest_range {s : State} {p : Port} {r : Request} {cur : SeqNo} (attached : (s.port p).cursor = some cur)
    (fields : waitFields r.payload = none) : s.waitRequest p r = State.finish (s, ⟨.range, []⟩) p := by
  unfold State.waitRequest
  simp only [attached, fields]

theorem State.waitRequest_detached {s : State} {p : Port} {r : Request} (detached : (s.port p).cursor = none) :
    s.waitRequest p r = State.finish (s, ⟨.detached, []⟩) p := by
  unfold State.waitRequest
  rw [detached]

end Sys2Proof.Machine

open Sys2Proof.Machine Claims in
/-- Settles O31: by the parts of word 0 and the places of the records. -/
theorem recordsAndUnreadCounts : Obligations.RecordsAndUnreadCounts := by
  refine ⟨fun r short => ?_, fun r => ⟨?_, ?_⟩, fun s p => ⟨State.unread_none, fun cur => State.unread_some⟩,
    fun s cur sound => Journal.recsFrom_eq_filter sound.1 sound.2.1 cur⟩
  · obtain ⟨code, size, flags⟩ := Rec.word0_parts short
    exact ⟨_, rfl, code, size.trans r.words_length.symm, flags⟩
  · exact r.words_length.symm
  · rw [Rec.bytes, funext wordBytes_eq]

open Sys2Proof.Machine Claims in
/-- Settles O32: by the walk over the records from the cursor. -/
theorem journalReadWalks : Obligations.JournalReadWalks := by
  intro s p r rest h
  refine ⟨fun detached => ?_, fun cur attached => ⟨fun refused => ?_, ?_⟩⟩
  · exact exec_journalRead h (journalReadBody_detached detached) rfl
  · exact exec_journalRead h (journalReadBody_range attached refused) rfl
  · intro b tl payload one most passed ahead records out fits stops
    have walked := walk_append (s.port p).passes passed ahead b.toNat fits stops
    rw [← records] at walked
    have body := journalReadBody_read attached payload one most
    refine ⟨fun none x xs first => ?_, fun returns => ?_⟩
    · rw [show passed.filter (s.port p).passes = [] from none, first] at walked
      rw [exec_journalRead h (body.trans (State.read_blocked walked)) rfl, lsbFirst_eq_leBytes]
    · intro cur1 t
      have returned : s.read p cur b.toNat = (s.moveCursor p cur passed.length, (s.moveCursor p cur passed.length).readReply p out) := by
        refine State.read_walked walked (returns.imp id fun none => ?_)
        rw [none]
        rfl
      have moved : s.moveCursor p cur passed.length = t := by
        simp only [State.moveCursor, List.length_eq_zero_iff]
        rfl
      rw [exec_journalRead h (body.trans returned) (State.moveCursor_requests _),
        State.readReply_eq (State.moveCursor_cursor attached _), moved]

open Sys2Proof.Machine Claims in
/-- Settles O33: by the two fields of the request and the unread count. -/
theorem journalWaitAnswersOrDefers : Obligations.JournalWaitAnswersOrDefers := by
  intro s p r rest h
  rw [exec_journalWait h]
  refine ⟨fun detached => ?_, fun attached => ?_⟩
  · rw [State.waitRequest_detached detached, finish_eq_answered h]
  obtain ⟨cur, attached⟩ := Option.ne_none_iff_exists'.1 attached
  refine ⟨fun short => ?_, ?_⟩
  · rw [State.waitRequest_range attached (if_pos short), finish_eq_answered h]
  intro n0 n1 t0 t1 tl payload n timeout
  have fields := waitFields_eq (n0 := n0) (n1 := n1) (t0 := t0) (t1 := t1) (tl := tl)
  rw [← payload] at fields
  refine ⟨fun bad => ?_, fun one most some reached => ?_, fun one most some few => ?_⟩
  · rw [if_neg (by omega)] at fields
    rw [State.waitRequest_range attached fields, finish_eq_answered h]
  · rw [if_pos ⟨one, most, some⟩] at fields
    rw [State.waitRequest_fields attached fields, if_pos reached, finish_eq_answered h, lsbFirst_eq_leBytes]
  · rw [if_pos ⟨one, most, some⟩] at fields
    rw [State.waitRequest_fields attached fields, if_neg (Nat.not_le.2 few)]
    rfl
end

