-- ==== Sys2Proof/Proofs/Tally.lean ====
section
/-! SUPPORT. The tally step of a rollup (R104, R105): the TALLY record as the statements write it, what offering it does when it is
refused and when it is admitted, and the exit test. -/

namespace Sys2Proof.Machine

open Claims

/-! ### The TALLY record -/

theorem tallied_filter (j : Journal) : allChannels.filter j.tallied = allChannels.filter fun c => j.liveHits[c] ≠ 0 :=
  List.filter_congr fun c _ => by simp [Journal.tallied, bne, decide_not, beq_eq_decide]

theorem Journal.tallyOffer_eq (j : Journal) (k : Tick) : j.tallyOffer k = tallyOf j k j.covered := by
  unfold Journal.tallyOffer tallyOf
  rw [channelMask_eq, tallied_filter]
  rfl

/-- The record of a journal whose count of intervals covered was set reads the other tallies of the journal. -/
theorem Journal.tallyOffer_covered (j : Journal) (k : Tick) (n : Nat) : { j with covered := n }.tallyOffer k = tallyOf j k n :=
  Journal.tallyOffer_eq _ _

theorem tallyOf_size (j : Journal) (k : Tick) (n : Nat) :
    (tallyOf j k n).size = 5 + 2 * allChannels.countP fun c => j.liveHits[c] ≠ 0 := by
  rw [← Journal.tallyOffer_covered, Journal.tallyOffer_size]

theorem tallyOf_size_le (j : Journal) (k : Tick) (n : Nat) : (tallyOf j k n).size ≤ 37 := by
  rw [tallyOf_size]
  have le : (allChannels.countP fun c => j.liveHits[c] ≠ 0) ≤ 16 := List.countP_le_length
  omega

/-! ### The offer of a TALLY record -/

theorem State.offer_inTally {s : State} (on : s.journal.tallyMode = true) (o : Offer) : s.offer o = s.offerOnce o :=
  State.offer_once fun ⟨_, off, _⟩ => absurd (on.symm.trans off) (by decide)

theorem State.offer_low {s : State} {o : Offer} (low : s.journal.fill + o.size < 49152) : s.offer o = s.offerOnce o :=
  State.offer_once fun ⟨_, _, full⟩ => Nat.not_le.2 low full

theorem State.offerTally_eq (s : State) :
    s.offerTally =
      if s.journal.admits (s.journal.tallyOffer s.clock) then
        (s.offer (s.journal.tallyOffer s.clock)).withJournal (s.offer (s.journal.tallyOffer s.clock)).journal.zeroTallies
      else s.offer (s.journal.tallyOffer s.clock) := rfl

theorem State.offerTally_refused {s : State} (h : ¬ s.journal.admits (s.journal.tallyOffer s.clock) = true) : s.offerTally = s := by
  rw [State.offerTally_eq, if_neg h, State.offer_refused h]

/-- Admitted in tally mode, the record stands at the end and the live tallies are 0 (R104). -/
theorem State.offerTally_admitted {s : State} (h : s.journal.admits (s.journal.tallyOffer s.clock) = true)
    (on : s.journal.tallyMode = true) :
    s.offerTally.journal = (s.journal.append (s.journal.tallyOffer s.clock)).zeroTallies := by
  rw [State.offerTally_eq, if_pos h, State.offer_inTally on, State.offerOnce_admitted h]
  rfl

/-- In tally mode the offer of a TALLY record posts no notice. -/
theorem State.offerTally_notices {s : State} (on : s.journal.tallyMode = true) (p : Port) :
    (s.offerTally.port p).notices = (s.port p).notices := by
  rw [State.offerTally_eq, State.offer_inTally on]
  split <;> simp

/-! ### The exit test -/

theorem State.tallyExit_stays {s : State} (h : 32768 < s.journal.fill) : s.tallyExit = s := if_neg (Nat.not_le.2 h)

/-- At a fill of 32,768 or less the TALLY OFF mark has room below the entry fill (R105). -/
theorem State.tallyExit_leaves {s : State} (h : s.journal.fill ≤ 32768) :
    s.tallyExit =
      ((s.withJournal { s.journal with tallyMode := false }).offerOnce (mark s.intake.clock 5 0 s.journal.fill)).postWith
        .tallyMode 0 0 := by
  rw [← State.offer_low (show s.journal.fill + 6 < 49152 by omega)]
  exact if_pos h

theorem State.tallyExit_journal {s : State} (h : s.journal.fill ≤ 32768) :
    s.tallyExit.journal = { s.journal with tallyMode := false }.append (mark s.intake.clock 5 0 s.journal.fill) := by
  have room : ({ s.journal with tallyMode := false } : Journal).admits (mark s.intake.clock 5 0 s.journal.fill) = true := by
    rw [Journal.admits_iff]
    show s.journal.fill + 6 ≤ 65536
    omega
  rw [State.tallyExit_leaves h]
  exact State.offerOnce_admitted (s := s.withJournal { s.journal with tallyMode := false }) room

theorem State.tallyExit_notices {s : State} (h : s.journal.fill ≤ 32768) (p : Port) :
    (s.tallyExit.port p).notices = ((s.postWith .tallyMode 0 0).port p).notices := by
  rw [State.tallyExit_leaves h]
  exact State.postWith_notices_congr (fun q => by simp) (by simp) _ _ _ p

/-! ### The tally step -/

/-- The journal with the count of intervals covered raised, as the tally step begins (R104). -/
def Journal.raised (j : Journal) : Journal := { j with covered := min 65535 (j.covered + 1) }

/-- The record of the tally step. -/
theorem Journal.raised_tallyOffer (j : Journal) (k : Tick) : j.raised.tallyOffer k = tallyOf j k (min 65535 (j.covered + 1)) :=
  j.tallyOffer_covered k _

theorem Journal.raised_admits (j : Journal) (k : Tick) :
    j.raised.admits (j.raised.tallyOffer k) = true ↔
      j.fill + 5 + 2 * (allChannels.countP fun c => j.liveHits[c] ≠ 0) ≤ 65536 := by
  rw [Journal.admits_iff, Journal.raised_tallyOffer, tallyOf_size, if_pos (.inr (.inl rfl)), Nat.add_assoc]
  exact Iff.rfl

/-- The step in tally mode: the count of intervals rises before the record is formed. -/
theorem State.tallyStep_on {s : State} (on : s.journal.tallyMode = true) :
    s.tallyStep = (s.withJournal s.journal.raised).offerTally.tallyExit := if_pos on

theorem State.tallyStep_off {s : State} (off : s.journal.tallyMode = false) : s.tallyStep = s :=
  if_neg (by rw [off]; exact Bool.false_ne_true)

/-- The step with its record refused (R104). -/
theorem State.tallyStep_refused {s : State} (on : s.journal.tallyMode = true)
    (full : 65536 < s.journal.fill + 5 + 2 * allChannels.countP fun c => s.journal.liveHits[c] ≠ 0) :
    s.tallyStep = s.withJournal s.journal.raised := by
  have refused : ¬ s.journal.raised.admits (s.journal.raised.tallyOffer s.clock) = true := by
    rw [Journal.raised_admits]; omega
  have le := tallyOf_size_le s.journal s.clock 0
  rw [tallyOf_size] at le
  rw [State.tallyStep_on on, State.offerTally_refused (s := s.withJournal s.journal.raised) refused]
  exact State.tallyExit_stays (show 32768 < s.journal.fill by omega)

/-- The journal with a TALLY record written and its tallies at 0 (R104). -/
def Journal.tallyWritten (j : Journal) (k : Tick) : Journal := (j.raised.append (j.raised.tallyOffer k)).zeroTallies

/-- The record that the tally step writes. -/
theorem Journal.tallyWritten_recs (j : Journal) (k : Tick) :
    (j.tallyWritten k).recs = j.recs ++ [j.record (tallyOf j k (min 65535 (j.covered + 1)))] := by
  rw [← Journal.raised_tallyOffer]
  rfl

theorem Journal.tallyWritten_fill (j : Journal) (k : Tick) :
    (j.tallyWritten k).fill = j.fill + 5 + 2 * allChannels.countP fun c => j.liveHits[c] ≠ 0 := by
  rw [Nat.add_assoc, ← tallyOf_size j k (min 65535 (j.covered + 1)), ← Journal.raised_tallyOffer]
  exact Journal.append_fill j.raised _

/-- What stands before the exit test, with the record admitted (R104). -/
theorem State.tallyStep_admitted {s : State} (on : s.journal.tallyMode = true)
    (fits : s.journal.fill + 5 + 2 * (allChannels.countP fun c => s.journal.liveHits[c] ≠ 0) ≤ 65536) :
    ∃ t : State, s.tallyStep = t.tallyExit ∧ t.journal = s.journal.tallyWritten s.intake.clock ∧ t.intake = s.intake ∧
      t.setup = s.setup ∧ ∀ p, (t.port p).notices = (s.port p).notices := by
  refine ⟨_, State.tallyStep_on on, ?_, by simp, by simp, fun p => ?_⟩
  · exact State.offerTally_admitted (s := s.withJournal s.journal.raised) ((Journal.raised_admits _ _).2 fits) on
  · rw [State.offerTally_notices (s := s.withJournal s.journal.raised) on, State.withJournal_port]

end Sys2Proof.Machine

open Sys2Proof Sys2Proof.Machine Claims in
/-- Settles O34: by the mode, the admission of the record and the fill after it. -/
theorem tallyStepWritesAndExits : Obligations.TallyStepWritesAndExits := by
  intro s j covered o tally fill
  refine ⟨State.tallyStep_off, State.tallyStep_refused, fun on fits => ?_⟩
  intro j1
  obtain ⟨t, step, written, clock, setup, notices⟩ := State.tallyStep_admitted on fits
  have filled : t.journal.fill = fill := by rw [written, Journal.tallyWritten_fill]
  have zeroed (c : ChanId) : (j.tallyWritten s.intake.clock).liveHits[c] = 0 ∧ (j.tallyWritten s.intake.clock).liveEnergy[c] = 0 :=
    ⟨Vector.getElem_replicate .., Vector.getElem_replicate ..⟩
  have exited (le : fill ≤ 32768) :
      j1 = { j.tallyWritten s.intake.clock with tallyMode := false }.append (mark s.intake.clock 5 0 fill) := by
    have out := State.tallyExit_journal (s := t) (by rw [filled]; exact le)
    rw [← step, filled, written, clock] at out
    exact out
  have stayed (gt : 32768 < fill) : j1 = j.tallyWritten s.intake.clock := by
    show s.tallyStep.journal = _
    rw [step, State.tallyExit_stays (by rw [filled]; exact gt), written]
  have zero : j1.liveGroups = 0 ∧ j1.covered = 0 ∧ ∀ c : ChanId, j1.liveHits[c] = 0 ∧ j1.liveEnergy[c] = 0 := by
    rcases Nat.lt_or_ge 32768 fill with gt | le
    · rw [stayed gt]; exact ⟨rfl, rfl, zeroed⟩
    · rw [exited le]; exact ⟨rfl, rfl, zeroed⟩
  refine ⟨zero.1, zero.2.1, zero.2.2, fun gt => ?_, fun le => ?_⟩
  · rw [stayed gt]
    exact ⟨on, Journal.tallyWritten_recs _ _, rfl⟩
  · rw [exited le]
    refine ⟨rfl, ?_, ?_, fun p => ?_⟩
    · exact (BitVec.add_assoc j.appendPoint 1 1).trans rfl
    · rw [Journal.append_eq]
      dsimp only
      rw [Journal.tallyWritten_recs]
      exact List.append_assoc j.recs _ _
    · rw [step, State.tallyExit_notices (by rw [filled]; exact le)]
      exact State.postWith_notices_congr notices setup _ _ _ p
end

