-- ==== Sys2Proof/Proofs/Rollups.lean ====
section
/-! SUPPORT. The rollup (R111 to R121): the hysteresis table, the resumption ratio, the ACTIVITY record as the statements write it, and
the steps in their order. -/

namespace Sys2Proof.Machine

open Claims

/-! ### The hysteresis table (R116) -/

theorem Rollup.hysteresis_rising {x : Rollup} {w : AcParams} (off : x.autoHold = false) (h : x.met + 1 < w.k) :
    x.hysteresis w true = { x with met := x.met + 1 } := by
  simp [Rollup.hysteresis, off, Nat.not_le.2 h]

theorem Rollup.hysteresis_asserts {x : Rollup} {w : AcParams} (off : x.autoHold = false) (h : w.k ≤ x.met + 1) :
    x.hysteresis w true = { x with autoHold := true, met := 0 } := by
  simp [Rollup.hysteresis, off, h]

theorem Rollup.hysteresis_unmet {x : Rollup} (off : x.autoHold = false) (w : AcParams) :
    x.hysteresis w false = { x with met := 0 } := by
  simp [Rollup.hysteresis, off]

theorem Rollup.hysteresis_falling {x : Rollup} {w : AcParams} (on : x.autoHold = true) (h : x.unmet + 1 < w.r) :
    x.hysteresis w false = { x with unmet := x.unmet + 1 } := by
  simp [Rollup.hysteresis, on, Nat.not_le.2 h]

theorem Rollup.hysteresis_releases {x : Rollup} {w : AcParams} (on : x.autoHold = true) (h : w.r ≤ x.unmet + 1) :
    x.hysteresis w false = { x with autoHold := false, unmet := 0 } := by
  simp [Rollup.hysteresis, on, h]

theorem Rollup.hysteresis_met {x : Rollup} (on : x.autoHold = true) (w : AcParams) : x.hysteresis w true = { x with unmet := 0 } := by
  simp [Rollup.hysteresis, on]

/-- The counter of the state not in force is 0. -/
def Rollup.IdleCounterZero (x : Rollup) : Prop := (x.autoHold = true → x.met = 0) ∧ (x.autoHold = false → x.unmet = 0)

theorem Rollup.hysteresis_idleCounterZero {x : Rollup} (h : x.IdleCounterZero) (w : AcParams) (met : Bool) :
    (x.hysteresis w met).IdleCounterZero := by
  obtain ⟨metZero, unmetZero⟩ := h
  rcases Bool.eq_false_or_eq_true x.autoHold with on | off
  · have zero := metZero on
    cases met
    · rcases Nat.lt_or_ge (x.unmet + 1) w.r with low | full
      · rw [Rollup.hysteresis_falling on low]; exact ⟨fun _ => zero, fun no => absurd (on.symm.trans no) (by decide)⟩
      · rw [Rollup.hysteresis_releases on full]; exact ⟨fun _ => zero, fun _ => rfl⟩
    · rw [Rollup.hysteresis_met on]; exact ⟨fun _ => zero, fun _ => rfl⟩
  · have zero := unmetZero off
    cases met
    · rw [Rollup.hysteresis_unmet off]; exact ⟨fun _ => rfl, fun _ => zero⟩
    · rcases Nat.lt_or_ge (x.met + 1) w.k with low | full
      · rw [Rollup.hysteresis_rising off low]; exact ⟨fun no => absurd (off.symm.trans no) (by decide), fun _ => zero⟩
      · rw [Rollup.hysteresis_asserts off full]; exact ⟨fun _ => rfl, fun _ => zero⟩

/-- An asserted hold stays while the criterion is met at every interval. -/
theorem Rollup.hysteresis_holds {x : Rollup} (w : AcParams) (on : x.autoHold = true) (n : Nat) :
    ((fun y : Rollup => y.hysteresis w true)^[n] x).autoHold = true := by
  induction n generalizing x with
  | zero => exact on
  | succ n ih => exact ih (show (x.hysteresis w true).autoHold = true by rw [Rollup.hysteresis_met on]; exact on)

/-- A released hold stays while the criterion is met at no interval. -/
theorem Rollup.hysteresis_stays {x : Rollup} (w : AcParams) (off : x.autoHold = false) (n : Nat) :
    ((fun y : Rollup => y.hysteresis w false)^[n] x).autoHold = false := by
  induction n generalizing x with
  | zero => exact off
  | succ n ih => exact ih (show (x.hysteresis w false).autoHold = false by rw [Rollup.hysteresis_unmet off]; exact off)

/-- From a count below K the hold asserts at the interval that brings the count to K. -/
theorem Rollup.hysteresis_iterate_met {x : Rollup} {w : AcParams} (off : x.autoHold = false) (below : x.met < w.k) (n : Nat) :
    ((fun y : Rollup => y.hysteresis w true)^[n] x).autoHold = decide (w.k ≤ x.met + n) := by
  induction n generalizing x with
  | zero => rw [decide_eq_false (by omega)]; exact off
  | succ n ih =>
    rw [Function.iterate_succ_apply]
    rcases Nat.lt_or_ge (x.met + 1) w.k with low | full
    · rw [Rollup.hysteresis_rising off low, ih (x := { x with met := x.met + 1 }) off low]
      exact decide_eq_decide.2 (by dsimp only; omega)
    · rw [Rollup.hysteresis_asserts off full, Rollup.hysteresis_holds w rfl, decide_eq_true (by omega)]

/-- From a count below R the hold releases at the interval that brings the count to R. -/
theorem Rollup.hysteresis_iterate_unmet {x : Rollup} {w : AcParams} (on : x.autoHold = true) (below : x.unmet < w.r) (n : Nat) :
    ((fun y : Rollup => y.hysteresis w false)^[n] x).autoHold = decide (x.unmet + n < w.r) := by
  induction n generalizing x with
  | zero => rw [decide_eq_true (by omega)]; exact on
  | succ n ih =>
    rw [Function.iterate_succ_apply]
    rcases Nat.lt_or_ge (x.unmet + 1) w.r with low | full
    · rw [Rollup.hysteresis_falling on low, ih (x := { x with unmet := x.unmet + 1 }) on low]
      exact decide_eq_decide.2 (by dsimp only; omega)
    · rw [Rollup.hysteresis_releases on full, Rollup.hysteresis_stays w rfl, decide_eq_false (by omega)]

/-- The same interval: its index, its counters, the intervals since the previous ACTIVITY record, and the load. -/
structure Rollup.SameInterval (x y : Rollup) : Prop where
  index : y.index = x.index
  counters : y.counters = x.counters
  since : y.sinceActivity = x.sinceActivity
  load : y.load = x.load
  pmax : y.pmax = x.pmax
  stale : y.stale = x.stale

/-- The table changes the hold and its two counters alone. -/
theorem Rollup.hysteresis_keeps (x : Rollup) (w : AcParams) (met : Bool) :
    x.SameInterval (x.hysteresis w met) ∧ (x.hysteresis w met).armed = x.armed := by
  unfold Rollup.hysteresis
  split
  · split
    · exact ⟨⟨rfl, rfl, rfl, rfl, rfl, rfl⟩, rfl⟩
    · split <;> exact ⟨⟨rfl, rfl, rfl, rfl, rfl, rfl⟩, rfl⟩
  · split
    · split <;> exact ⟨⟨rfl, rfl, rfl, rfl, rfl, rfl⟩, rfl⟩
    · exact ⟨⟨rfl, rfl, rfl, rfl, rfl, rfl⟩, rfl⟩

theorem Rollup.SameInterval.stamp {x y : Rollup} (h : x.SameInterval y) : y.stamp = x.stamp := by
  simp only [Rollup.stamp, h.load, h.stale]

/-- The table reads the AC values it is given, not those taken up before. -/
theorem Rollup.hysteresis_work (x : Rollup) (v : Option AcParams) (w : AcParams) (met : Bool) :
    { x with work := v }.hysteresis w met = { x.hysteresis w met with work := v } := by
  unfold Rollup.hysteresis
  dsimp only
  split
  · split
    · rfl
    · split <;> rfl
  · split
    · split <;> rfl
    · rfl

/-! ### The criteria and the ratio (R115, R118) -/

theorem reachedLg_eq (w : AcParams) (n : Counters) : reachedLg w n = decide (w.lg ≠ 0 ∧ w.lg ≤ n.groups) :=
  (Bool.decide_and _ _).symm

theorem reachedLe_eq (w : AcParams) (n : Counters) : reachedLe w n = decide (w.le ≠ 0 ∧ w.le ≤ n.energy) :=
  (Bool.decide_and _ _).symm

theorem reachedLh_eq (w : AcParams) (n : Counters) : reachedLh w n = decide (w.lh ≠ 0 ∧ w.lh ≤ n.high) :=
  (Bool.decide_and _ _).symm

/-- A resumption is measured (R118). -/
def Rollup.measures (x : Rollup) (met : Bool) : Bool :=
  decide (x.armed = true ∧ met = true ∧ x.load ≠ none ∧ x.stamp.value < x.pmax)

theorem Rollup.ratio_eq (x : Rollup) (met : Bool) :
    x.ratio met = if x.measures met then some (1000 * x.stamp.value / x.pmax) else none := by
  unfold Rollup.ratio Rollup.measures Rollup.stamp
  cases x.load with
  | none => simp
  | some l => simp [and_assoc]

theorem Rollup.SameInterval.measures {x y : Rollup} (h : x.SameInterval y) (armed : y.armed = x.armed) (met : Bool) :
    y.measures met = x.measures met := by
  simp only [Rollup.measures, armed, h.load, h.stamp, h.pmax]

theorem Rollup.SameInterval.ratio {x y : Rollup} (h : x.SameInterval y) (armed : y.armed = x.armed) (met : Bool) :
    y.ratio met = if x.measures met then some (1000 * x.stamp.value / x.pmax) else none := by
  rw [Rollup.ratio_eq, h.measures armed, h.stamp, h.pmax]

/-! ### The ACTIVITY record (R119) -/

/-- The ACTIVITY record with its ratio told by a flag, as the statements write it (section 11.1). -/
def Rollup.activityRecord (x : Rollup) (k : Tick) (since mask ratio : Nat) (measured hold : Bool) : Offer :=
  ⟨.activity, 0,
    [ BitVec.ofNat 32 k.toNat, BitVec.ofNat 32 (k.toNat / 2 ^ 32 + since * 65536), x.index
    , BitVec.ofNat 32 x.counters.groups, BitVec.ofNat 32 x.counters.locatable, BitVec.ofNat 32 x.counters.hits
    , BitVec.ofNat 32 x.counters.energy, BitVec.ofNat 32 x.counters.high
    , BitVec.ofNat 32 (x.stamp.value + 2 ^ 24 * if x.stale = true ∨ x.load = none then 1 else 0)
    , BitVec.ofNat 32 x.pmax
    , BitVec.ofNat 32 (ratio + 2 ^ 10 * measured.toNat + 2 ^ 11 * mask + 2 ^ 14 * hold.toNat) ]⟩

theorem Rollup.stamp_stale (x : Rollup) : (x.stale || x.load.isNone).toNat = if x.stale = true ∨ x.load = none then 1 else 0 := by
  cases x.stale <;> cases x.load <;> simp

theorem Rollup.activityOffer_eq (x : Rollup) (k : Tick) (mask q : Nat) (measured : Bool) :
    x.activityOffer k mask (if measured then some q else none) =
      x.activityRecord k x.sinceActivity mask (if measured then q else 0) measured x.autoHold := by
  unfold Rollup.activityOffer Rollup.activityRecord
  rw [Rollup.stamp_stale]
  cases measured <;> rfl

theorem Rollup.SameInterval.activityRecord {x y : Rollup} (h : x.SameInterval y) (k : Tick) (since mask ratio : Nat)
    (measured hold : Bool) :
    y.activityRecord k since mask ratio measured hold = x.activityRecord k since mask ratio measured hold := by
  simp only [Rollup.activityRecord, h.index, h.counters, h.stamp, h.stale, h.load, h.pmax]

theorem Rollup.activityRecord_admits (x : Rollup) (j : Journal) (k : Tick) (since mask ratio : Nat) (measured hold : Bool) :
    j.admits (x.activityRecord k since mask ratio measured hold) = true ↔ j.fill + 13 ≤ 65536 :=
  Journal.admits_iff _ _

/-! ### The steps in order (R114 to R121) -/

/-- The state with the change of the auto hold posted (R117). -/
def State.holdPosted (s : State) (hold : Bool) : State :=
  if hold = s.rollup.autoHold then s else s.postWith .autoHold 0 (if hold then 1 else 0)

/-- The state with a measured ratio posted (R118). -/
def State.ratioPosted (s : State) (measured : Bool) (ratio : Nat) : State :=
  if measured then s.postWith .resumption 0 (BitVec.ofNat 32 ratio) else s

/-- The two postings leave the other blocks as they are. -/
theorem State.posted_keeps (s : State) (hold measured : Bool) (ratio : Nat) :
    ((s.holdPosted hold).ratioPosted measured ratio).journal = s.journal ∧
      ((s.holdPosted hold).ratioPosted measured ratio).setup = s.setup ∧
      ((s.holdPosted hold).ratioPosted measured ratio).intake = s.intake := by
  unfold State.ratioPosted State.holdPosted
  split <;> split <;> exact ⟨rfl, rfl, rfl⟩

theorem State.hysteresis_rollup (s : State) (w : AcParams) (met : Bool) :
    (s.hysteresis w met).rollup = s.rollup.hysteresis w met := by
  simp only [State.hysteresis]
  split <;> rfl

theorem State.hysteresis_eq (s : State) (w : AcParams) (met : Bool) :
    s.hysteresis w met =
      if (s.rollup.hysteresis w met).autoHold = s.rollup.autoHold then s.withRollup (s.rollup.hysteresis w met)
      else
        (s.withRollup (s.rollup.hysteresis w met)).postWith .autoHold 0 (word32 (s.rollup.hysteresis w met).autoHold.toNat) := rfl

theorem State.hysteresis_agree (s : State) (w : AcParams) (met : Bool) :
    (s.hysteresis w met).Agree (s.holdPosted (s.rollup.hysteresis w met).autoHold) := by
  have detail (b : Bool) : word32 b.toNat = if b then 1 else 0 := by cases b <;> rfl
  rw [State.hysteresis_eq, State.holdPosted, detail]
  split
  · exact .withRollup _ _
  · exact (State.Agree.withRollup s _).postWith _ _ _

/-- Whether the hold's change is posted depends on the hold alone. -/
theorem State.Agree.holdPosted {s t : State} (h : s.Agree t) (hold : s.rollup.autoHold = t.rollup.autoHold) (up : Bool) :
    (s.holdPosted up).Agree (t.holdPosted up) := by
  unfold State.holdPosted
  rw [hold]
  split
  · exact h
  · exact h.postWith _ _ _

theorem State.resumption_rollup (s : State) (measured : Bool) (q : Nat) :
    (s.resumption (if measured then some q else none)).rollup = { s.rollup with armed := s.rollup.armed && !measured } := by
  cases measured
  · simp [State.resumption]
  · simp [State.resumption]

theorem State.resumption_agree {s t : State} (h : s.Agree t) (measured : Bool) (q : Nat) :
    (s.resumption (if measured then some q else none)).Agree (t.ratioPosted measured (if measured then q else 0)) := by
  cases measured
  · exact h
  · exact ((State.Agree.withRollup _ _).trans h).postWith _ _ _

/-- The count of intervals since the previous ACTIVITY record, raised (R119). -/
def Rollup.counted (x : Rollup) : Rollup := { x with sinceActivity := min 65535 (x.sinceActivity + 1) }

theorem State.activityStep_eq (s : State) (mask : Nat) (ratio : Option Nat) :
    s.activityStep mask ratio =
      let s2 := (s.withRollup s.rollup.counted).offer (s.rollup.counted.activityOffer s.clock mask ratio)
      if s.journal.admits (s.rollup.counted.activityOffer s.clock mask ratio) then
        s2.withRollup { s2.rollup with sinceActivity := 0 }
      else s2 := rfl

theorem State.activityStep_rollup (s : State) (mask : Nat) (ratio : Option Nat) :
    (s.activityStep mask ratio).rollup =
      { s.rollup with
        sinceActivity :=
          if s.journal.admits (s.rollup.counted.activityOffer s.clock mask ratio) then 0
          else min 65535 (s.rollup.sinceActivity + 1) } := by
  rw [State.activityStep_eq]
  dsimp only
  split
  · rw [State.withRollup_rollup, State.offer_rollup]; rfl
  · rw [State.offer_rollup]; rfl

theorem State.activityStep_agree {s t : State} (h : s.Agree t) (mask : Nat) (ratio : Option Nat) :
    (s.activityStep mask ratio).Agree (t.offer (s.rollup.counted.activityOffer s.clock mask ratio)) := by
  have k := ((State.Agree.withRollup s s.rollup.counted).trans h).offer (s.rollup.counted.activityOffer s.clock mask ratio)
  rw [State.activityStep_eq]
  dsimp only
  split
  · exact (State.Agree.withRollup _ _).trans k
  · exact k

/-- The record that the ACTIVITY step offers, from the interval before the hysteresis (R119). -/
theorem Rollup.SameInterval.counted_activityOffer {x y : Rollup} (h : x.SameInterval y) (k : Tick) (mask q : Nat) (measured : Bool) :
    y.counted.activityOffer k mask (if measured then some q else none) =
      x.activityRecord k (min 65535 (x.sinceActivity + 1)) mask (if measured then q else 0) measured y.autoHold := by
  rw [Rollup.activityOffer_eq, ← h.since, ← h.activityRecord]
  rfl

/-- With tally mode off and room below the entry fill the record is written alone (R85, R120). -/
theorem State.activity_alone {t : State} {o : Offer} (off : t.journal.tallyMode = false) (low : t.journal.fill + o.size < 49152) :
    (t.offer o).tallyStep.journal = t.journal.append o ∧
      ∀ p, ((t.offer o).tallyStep.port p).notices = (t.port p).notices := by
  have a : t.journal.admits o = true := by
    rw [Journal.admits_iff]
    split <;> omega
  rw [State.offer_low low, State.tallyStep_off (by rw [State.offerOnce_tallyMode, off])]
  exact ⟨State.offerOnce_admitted a, fun p => State.offerOnce_port_notices _ _ _⟩

/-- The steps of a rollup (R114 to R121): what the rollup unit holds after them, and what stands in the journal and at the ports. -/
theorem State.rollupSteps_eq (s : State) {w : AcParams} {met : Bool} {mask : Nat} (values : s.setup.activity = w)
    (criterion : criterionMet w s.rollup.counters = met) (criteria : criteriaMask w s.rollup.counters = mask) :
    let x := s.rollup
    let held := x.hysteresis w met
    let measured := x.measures met
    let ratio := if measured then 1000 * x.stamp.value / x.pmax else 0
    let since := min 65535 (x.sinceActivity + 1)
    let o := x.activityRecord s.clock since mask ratio measured held.autoHold
    s.rollupSteps.rollup =
        { held with
          work := some w
          nextBoundary := some (tickAfter s.clock (blocks w.i))
          index := x.index + 1
          counters := Counters.zero
          sinceActivity := if s.journal.admits o then 0 else since
          armed := x.armed && !measured } ∧
      s.rollupSteps.Agree ((((s.holdPosted held.autoHold).ratioPosted measured ratio).offer o).tallyStep) := by
  intro x held measured ratio since o
  let q := 1000 * x.stamp.value / x.pmax
  let s0 := s.takeUpActivity
  let s1 := s0.hysteresis w met
  let s2 := s1.resumption (if measured then some q else none)
  let s3 := s2.activityStep mask (if measured then some q else none)
  have taken : s0.rollup = { x with work := some w } := by rw [← values]; rfl
  obtain ⟨same, armed⟩ := Rollup.hysteresis_keeps x w met
  have rollup1 : s1.rollup = { held with work := some w } := by
    rw [State.hysteresis_rollup, taken, Rollup.hysteresis_work]
  have same1 : x.SameInterval s1.rollup := by
    rw [rollup1]; exact ⟨same.index, same.counters, same.since, same.load, same.pmax, same.stale⟩
  have ratioed : s1.rollup.ratio met = if measured then some q else none := same1.ratio (by rw [rollup1]; exact armed) met
  have rollup2 : s2.rollup = { held with work := some w, armed := x.armed && !measured } := by
    rw [State.resumption_rollup, rollup1, ← armed]
  have same2 : x.SameInterval s2.rollup := by
    rw [rollup2]; exact ⟨same.index, same.counters, same.since, same.load, same.pmax, same.stale⟩
  have agree1 : s1.Agree (s.holdPosted held.autoHold) := by
    have posted := s0.hysteresis_agree w met
    rw [taken, Rollup.hysteresis_work] at posted
    exact posted.trans (State.Agree.holdPosted (State.Agree.withRollup s { s.rollup with work := some s.setup.activity }) rfl _)
  have agree2 : s2.Agree ((s.holdPosted held.autoHold).ratioPosted measured ratio) := State.resumption_agree agree1 measured q
  obtain ⟨journal, -, intake⟩ := s.posted_keeps held.autoHold measured ratio
  have clock2 : s2.clock = s.clock := congrArg Intake.clock (agree2.intake.trans intake)
  have journal2 : s2.journal = s.journal := agree2.journal.trans journal
  have offered : s2.rollup.counted.activityOffer s2.clock mask (if measured then some q else none) = o := by
    rw [same2.counted_activityOffer, clock2, rollup2]
  have agree3 : s3.Agree (((s.holdPosted held.autoHold).ratioPosted measured ratio).offer o) := by
    rw [← offered]; exact State.activityStep_agree agree2 mask _
  have rollup3 := s2.activityStep_rollup mask (if measured then some q else none)
  rw [offered, journal2, rollup2] at rollup3
  have steps : s.rollupSteps = s3.tallyStep.advanceInterval s.clock w.i := by
    unfold State.rollupSteps
    dsimp only
    rw [values, criterion, criteria, ratioed]
  rw [steps]
  refine ⟨?_, (State.Agree.withRollup _ _).trans agree3.tallyStep⟩
  show ({ s3.tallyStep.rollup with
    counters := Counters.zero, index := s3.tallyStep.rollup.index + 1, nextBoundary := _ } : Rollup) = _
  have counted : since = min 65535 (held.sinceActivity + 1) := by rw [same.since]
  rw [State.tallyStep_rollup, rollup3, ← same.index, counted]

end Sys2Proof.Machine

open Sys2Proof.Machine Claims in
/-- Settles O35: the table case by case, and its iteration from a counter at 0. -/
theorem hysteresisTable : Obligations.HysteresisTable := by
  intro x w
  refine ⟨Rollup.hysteresis_rising, Rollup.hysteresis_asserts, fun off => Rollup.hysteresis_unmet off w,
    Rollup.hysteresis_falling, Rollup.hysteresis_releases, fun on => Rollup.hysteresis_met on w,
    fun met unmet m => Rollup.hysteresis_idleCounterZero ⟨met, unmet⟩ w m, fun off zero k n => ?_, fun on zero r n => ?_⟩
  · rw [Rollup.hysteresis_iterate_met off (by omega), zero, Nat.zero_add]
  · rw [Rollup.hysteresis_iterate_unmet on (by omega), zero, Nat.zero_add]

open Sys2Proof.Machine Claims in
/-- Settles O36: the steps at the boundary tick, and what the journal and the ports hold after them. -/
theorem rollupMakesItsSteps : Obligations.RollupMakesItsSteps := by
  intro s released x n k item w lg le lh met held value measured ratio since activity s1 s2 u due
  have dueIff : s.rollupDue = true ↔ due := by
    rw [State.rollupDue, Bool.and_eq_true, beq_iff_eq, State.runActive, RunState.active_iff]
    rfl
  have command : exec .rollup s = .next s.rollupAtTick := answer_released released _
  have criterion : criterionMet s.setup.activity s.rollup.counters = met := by
    rw [criterionMet, reachedLg_eq, reachedLe_eq, reachedLh_eq]; rfl
  have criteria : criteriaMask s.setup.activity s.rollup.counters = lg.toNat + 2 * le.toNat + 4 * lh.toNat := by
    rw [criteriaMask, reachedLg_eq, reachedLe_eq, reachedLh_eq]; rfl
  obtain ⟨rollup, agree⟩ := s.rollupSteps_eq rfl criterion criteria
  refine ⟨fun no => ?_, fun yes => ⟨s.rollupSteps, ?_, ?_, agree.journal, agree.port, fun off low => ?_, ?_⟩⟩
  · rw [command, State.rollupAtTick, if_neg fun d => no (dueIff.1 d)]
  · rw [command, State.rollupAtTick, if_pos (dueIff.2 yes)]
  · rw [rollup]
    simp only [Rollup.activityRecord_admits]
    rfl
  · have journal : s2.journal = s.journal := (s.posted_keeps held.autoHold measured ratio).1
    obtain ⟨written, notices⟩ := State.activity_alone (t := s2) (o := activity) (by rw [journal]; exact off)
      (by rw [journal]; exact low)
    rw [journal] at written
    exact ⟨agree.journal.trans written, fun p => (congrArg PortState.notices (agree.port p)).trans (notices p)⟩
  · obtain ⟨intake, channels, grouping, run, setup, status⟩ := State.RollupOnly.rollupSteps s
    exact ⟨intake, channels, grouping, run, setup, status, (Kept.of_resetHeld false).rollupSteps s released,
      (Kept.of_settings s).rollupSteps s (.refl s)⟩
end

