-- ==== Sys2Proof/Proofs/Closing.lean ====
section
/-! SUPPORT. A declaration and the closing event as the statements write them (R37, R79, R80, R106, R130, R138, R146, R147), what the
closing event leaves in each block, and the requests that make them. -/

namespace Sys2Proof.Machine

open Claims

/-! ### A declaration (R146, R147) -/

theorem RuptureSource.code_eq_ruptureCode (src : RuptureSource) : src.code = ruptureCode src := by cases src <;> rfl

theorem Option.isSome_toNat (group : Option SeqNo) : group.isSome.toNat = if group = none then 0 else 1 := by
  cases group <;> rfl

/-- The declaration up to its post-window end. -/
def State.declaredFinal (s : State) (src : RuptureSource) (group : Option SeqNo) : State :=
  ((((s.withRun { s.run with rupture := some src, evidence := none }).offer
    (mark s.intake.clock 3 (ruptureCode src + 256 * if group = none then 0 else 1)
      (match group with | some g => g.toNat | none => 0))).post .rupture (ruptureCode src)).enterRunState .final)

theorem State.declaredFinal_keeps (s : State) (src : RuptureSource) (group : Option SeqNo) :
    (s.declaredFinal src group).clock = s.intake.clock ∧ (s.declaredFinal src group).setup = s.setup := by
  simp [State.declaredFinal, State.enterRunState, State.clock]

theorem State.declare_eq_declared (s : State) (src : RuptureSource) (group : Option SeqNo) :
    s.declare src group = declared s src group := by
  have final : s.declare src group =
      (s.declaredFinal src group).withRun
        { (s.declaredFinal src group).run with
          postEnd := some (tickAfter (s.declaredFinal src group).clock (blocks (s.declaredFinal src group).setup.pw)) } := by
    unfold State.declaredFinal
    rw [← src.code_eq_ruptureCode, ← Option.isSome_toNat]
    rfl
  obtain ⟨clock, setup⟩ := s.declaredFinal_keeps src group
  rw [final, clock, setup]
  rfl

/-! ### The flush of the closing event (R37, R79, R80) -/

theorem Channel.close_snd (s : State) (c : ChanId) : ((s.chan c).close c).2 = closingReport s c := by
  unfold Channel.close closingReport
  cases (s.chan c).st <;> rfl

theorem State.closeChannels_eq (s : State) :
    channelsOf s.closeChannels =
      Vector.ofFn fun c => { s.chan c with st := if (s.chan c).st = .off ∨ (s.chan c).st = .fault then (s.chan c).st else .listen } := by
  refine Vector.ext fun i hi => ?_
  have get := channelsOf_get s.closeChannels ⟨i, hi⟩
  have closed : s.closeChannels[(⟨i, hi⟩ : ChanId)] = (s.chan ⟨i, hi⟩).close ⟨i, hi⟩ := perChannel_get _ _
  rw [closed, Channel.close_fst] at get
  rw [Vector.getElem_ofFn]
  exact get

theorem State.closeReports_eq (s : State) : reportsOf s.closeChannels = allChannels.filterMap (closingReport s) :=
  List.filterMap_congr fun c _ => (congrArg Prod.snd (perChannel_get _ c)).trans (Channel.close_snd s c)

theorem flushed_eq (s : State) :
    flushed s = ((s.withChannels (channelsOf s.closeChannels)).takeReports (reportsOf s.closeChannels)).flush := by
  rw [s.closeReports_eq, s.closeChannels_eq]
  rfl

theorem KeptRun.flushed {P : State → Prop} (h : KeptRun P) {s : State} (hs : P s) : P (flushed s) := by
  rw [flushed_eq]
  exact h.flush _ (h.takeReports _ _ (h.channels _ _ hs))

theorem flushed_engineOnly (s : State) : (s.withChannels (channelsOf s.closeChannels)).EngineOnly (flushed s) := by
  rw [flushed_eq]
  exact (State.EngineOnly.takeReports _ _).trans (.flush _)

theorem Rollup.countHits_counts (fs : List Features) (x : Rollup) :
    fs.foldl Rollup.countHit x = { x with counters := (fs.foldl Rollup.countHit x).counters } := by
  induction fs generalizing x with
  | nil => rfl
  | cons f fs ih => exact ih (x.countHit f)

theorem Rollup.countGroup_counts (x : Rollup) (loc : Bool) (fs : List Features) :
    x.countGroup loc fs = { x with counters := (x.countGroup loc fs).counters } := by
  simp only [Rollup.countGroup]
  rw [Rollup.countHits_counts]

/-- Of the rollup unit and the engine's working parameters only the interval counters may differ. -/
structure State.CountsOnly (s t : State) : Prop where
  rollup : t.rollup = { s.rollup with counters := t.rollup.counters }
  work : t.grouping.work = s.grouping.work

namespace State.CountsOnly

variable {s t u : State}

theorem refl (s : State) : s.CountsOnly s := ⟨rfl, rfl⟩

theorem trans (h : s.CountsOnly t) (k : t.CountsOnly u) : s.CountsOnly u :=
  ⟨by rw [k.rollup, h.rollup], k.work.trans h.work⟩

theorem withGrouping (h : s.CountsOnly t) {x : Grouping} (work : x.work = t.grouping.work) : s.CountsOnly (t.withGrouping x) :=
  h.trans ⟨rfl, work⟩

theorem ungroupedHit (s : State) (c : ChanId) (why : Reason) (f : Features) : s.CountsOnly (s.ungroupedHit c why f) := by
  refine ⟨?_, by rw [(State.EngineOnly.ungroupedHit s c why f).grouping]⟩
  simp only [State.ungroupedHit]
  split
  · rfl
  · rw [State.withRollup_rollup, State.offer_rollup]; rfl

theorem takeReport (s : State) (r : Report) : s.CountsOnly (s.takeReport r) := by
  unfold State.takeReport
  repeat' split
  all_goals first
    | exact refl s
    | exact (refl s).withGrouping rfl
    | exact (ungroupedHit s _ _ _).withGrouping (ungroupedHit s _ _ _).work.symm

theorem takeReports (s : State) (rs : List Report) : s.CountsOnly (s.takeReports rs) := by
  unfold State.takeReports
  induction rs generalizing s with
  | nil => exact refl s
  | cons r rs ih => exact (takeReport s r).trans (ih (s.takeReport r))

theorem emit_closing (s : State) (g : Group) : s.CountsOnly (s.emit true g) := by
  refine ⟨?_, by rw [(s.emit_closing_rollupOnly g).grouping]⟩
  rw [s.emit_rollup]
  generalize g.emitted.map Emitted.f = fs
  exact Rollup.countGroup_counts _ _ _

theorem emitFrom_closing (gs : List Group) (s : State) : s.CountsOnly (emitFrom true gs s) := by
  induction gs generalizing s with
  | nil => exact refl s
  | cons g gs ih =>
    simp only [emitFrom]
    split
    · exact ((emit_closing s g).withGrouping (x := { s.grouping with groups := gs }) (emit_closing s g).work.symm).trans (ih _)
    · exact refl s

theorem flush (s : State) : s.CountsOnly s.flush := 
  ((refl s).withGrouping (x := { s.grouping with
    groups := s.grouping.groups.map fun g => { g with isOpen := false }, lockout := none }) rfl).trans (emitFrom_closing _ _)

end State.CountsOnly

theorem flushed_countsOnly (s : State) : s.CountsOnly (flushed s) := by
  have closed : s.CountsOnly (s.withChannels (channelsOf s.closeChannels)) := ⟨rfl, rfl⟩
  rw [flushed_eq]
  exact closed.trans ((State.CountsOnly.takeReports _ _).trans (.flush _))

/-- Emission within the closing event leaves the group lockout as it is. -/
theorem emitFrom_closing_lockout (gs : List Group) (s : State) : (emitFrom true gs s).grouping.lockout = s.grouping.lockout := by
  induction gs generalizing s with
  | nil => rfl
  | cons g gs ih =>
    simp only [emitFrom]
    split
    · exact ih _
    · rfl

theorem flushed_lockout (s : State) : (flushed s).grouping.lockout = none := by
  rw [flushed_eq]
  exact emitFrom_closing_lockout _ _

/-! ### The rest of the closing event (R106, R130, R138) -/

/-- What follows the flush: the closing TALLY record, the RUN CLOSED mark, CLOSED with its notice, the auto hold released, and the
plans discarded. -/
def State.closingEnd (t : State) (code : Nat) : State :=
  ((((t.closingTally).offer (mark t.closingTally.intake.clock 2 code 0)).enterRunState .closed).releaseHold).discardPlans

theorem State.close_eq_closingEnd (s : State) (cause : Cause) : s.close cause = (flushed s).closingEnd cause.code := by
  rw [flushed_eq]
  rfl

theorem State.closingTally_eq (t : State) :
    t.closingTally =
      let tally := tallyOf t.journal t.intake.clock t.journal.covered
      let t4 := t.offer tally
      if t.journal.tallyMode then
        if t.journal.fill + tally.size ≤ 65536 then
          { t4 with journal := { t4.journal with
            liveHits := Vector.replicate 16 0, liveEnergy := Vector.replicate 16 0, liveGroups := 0, covered := 0 } }
        else t4
      else t := by
  have offered : t.journal.tallyOffer t.clock = tallyOf t.journal t.intake.clock t.journal.covered := Journal.tallyOffer_eq _ _
  have admits (j : Journal) (k : Tick) (n : Nat) :
      (t.journal.admits (tallyOf j k n) = true) = (t.journal.fill + (tallyOf j k n).size ≤ 65536) :=
    propext (Journal.admits_iff _ _)
  unfold State.closingTally
  rw [State.offerTally_eq, offered]
  simp only [admits]
  rfl

theorem State.releaseHold_eq (u : State) :
    u.releaseHold =
      let v := u.withRollup { u.rollup with autoHold := false, met := 0, unmet := 0 }
      if u.rollup.autoHold then v.postWith .autoHold 0 0 else v := rfl

/-- The closing event as the statements write it. -/
theorem closed_eq (s : State) (code : Nat) : closed s code = (flushed s).closingEnd code := by
  have clock : (flushed s).intake.clock = s.intake.clock := by rw [(flushed_engineOnly s).intake]; rfl
  have hold : (((flushed s).closingTally.offer (mark (flushed s).closingTally.intake.clock 2 code 0)).enterRunState .closed).rollup.autoHold =
      s.rollup.autoHold := by
    simp only [State.enterRunState, State.post_rollup, State.withRun_rollup, State.offer_rollup, State.closingTally_rollup]
    rw [(flushed_countsOnly s).rollup]
  unfold State.closingEnd
  rw [State.releaseHold_eq, hold, State.closingTally_intake, clock, State.closingTally_eq, clock]
  rfl

end Sys2Proof.Machine
end

