-- ==== Sys2Proof/Proofs/RunRequests.lean ====
section
/-! SUPPORT. What the closing event leaves in each block, and the requests and events that close a run or declare rupture: RUN STOP,
RUPTURE DECLARE, the post-window end and the rupture check (R137, R138, R141 to R147). -/

namespace Sys2Proof.Machine

open Claims

/-! ### The closing event, block by block (R37, R80, R130, R138) -/

theorem State.closingEnd_run (t : State) (code : Nat) :
    (t.closingEnd code).run = { t.run with state := .closed, evidence := none, postEnd := none } := by
  simp only [State.closingEnd, State.discardPlans, State.withRun_run, ((State.RollupOnly.refl _).releaseHold).run,
    State.enterRunState, State.post_run, State.offer_run, State.closingTally_run]

theorem State.closingEnd_grouping (t : State) (code : Nat) : (t.closingEnd code).grouping = t.grouping := by
  simp only [State.closingEnd, State.discardPlans, State.withRun_grouping, ((State.RollupOnly.refl _).releaseHold).grouping,
    State.enterRunState, State.post_grouping, State.offer_grouping, ((State.RollupOnly.refl _).closingTally).grouping]

theorem State.closingEnd_channels (t : State) (code : Nat) : (t.closingEnd code).channels = t.channels := by
  simp only [State.closingEnd, State.discardPlans, State.withRun_channels, ((State.RollupOnly.refl _).releaseHold).channels,
    State.enterRunState, State.post_channels, State.offer_channels, State.closingTally_channels]

theorem State.releaseHold_rollup (t : State) :
    t.releaseHold.rollup = { t.rollup with autoHold := false, met := 0, unmet := 0 } := by
  rw [State.releaseHold_eq]
  dsimp only
  split <;> rfl

theorem State.closingEnd_rollup (t : State) (code : Nat) :
    (t.closingEnd code).rollup = { t.rollup with autoHold := false, met := 0, unmet := 0 } := by
  simp only [State.closingEnd, State.discardPlans, State.withRun_rollup, State.releaseHold_rollup, State.enterRunState,
    State.post_rollup, State.offer_rollup, State.closingTally_rollup]

theorem KeptRun.closed {P : State → Prop} (h : KeptRun P) {s : State} (hs : P s) (code : Nat) : P (closed s code) := by
  rw [closed_eq]
  exact h.run _ _ (h.releaseHold _ (h.enterRunState _ _ (h.offer _ _ (h.closingTally _ (h.flushed hs)))))

theorem closed_run (s : State) (code : Nat) :
    (closed s code).run = { s.run with state := .closed, evidence := none, postEnd := none } := by
  rw [closed_eq, State.closingEnd_run, (flushed_engineOnly s).run]
  rfl

theorem closed_state (s : State) (code : Nat) : (closed s code).run.state = .closed := by rw [closed_run]

theorem closed_rupture (s : State) (code : Nat) : (closed s code).run.rupture = s.run.rupture := by rw [closed_run]

theorem closed_chan (s : State) (code : Nat) (c : ChanId) :
    (closed s code).chan c =
      { s.chan c with st := if (s.chan c).st = .off ∨ (s.chan c).st = .fault then (s.chan c).st else .listen } := by
  rw [← Channel.close_fst _ c, State.chan, closed_eq, State.closingEnd_channels, (flushed_engineOnly s).channels,
    State.withChannels_channels, channelsOf_get]
  exact congrArg Prod.fst (perChannel_get _ c)

theorem closed_grouping (s : State) (code : Nat) : (closed s code).grouping = (flushed s).grouping := by
  rw [closed_eq, State.closingEnd_grouping]

theorem closed_rollup (s : State) (code : Nat) :
    (closed s code).rollup =
      { s.rollup with counters := (flushed s).rollup.counters, autoHold := false, met := 0, unmet := 0 } := by
  rw [closed_eq, State.closingEnd_rollup, (flushed_countsOnly s).rollup]

theorem closed_pmax (s : State) (code : Nat) : (closed s code).rollup.pmax = s.rollup.pmax := by rw [closed_rollup]

/-- When the placements agree with the channels, the flush empties the list (R80). -/
theorem flushed_empty {s : State} (h : s.PlacementsOk) :
    (flushed s).grouping.groups = [] ∧ ∀ c : ChanId, (flushed s).grouping.placement[c] = .none := by
  rw [flushed_eq]
  exact s.flush_empties h

theorem State.close_eq_closed (s : State) (cause : Cause) : s.close cause = closed s cause.code := by
  rw [closed_eq, State.close_eq_closingEnd]

/-- A declaration within a request, with the closing event that a PW of 0 brings (R147). -/
theorem State.declareNow_eq (s : State) (src : RuptureSource) (group : Option SeqNo) :
    s.declareNow src group =
      if s.setup.item .ru 4 = 0 then closed (declared s src group) 3 else declared s src group := by
  have setup : (s.declare src group).setup = s.setup := (State.RunOnly.declare s src group).setup
  have close : (s.declare src group).close .postWindow = closed (s.declare src group) 3 := State.close_eq_closed _ _
  rw [← State.declare_eq_declared, ← close, ← setup]
  rfl

theorem declared_state (s : State) (src : RuptureSource) (group : Option SeqNo) : (declared s src group).run.state = .final := by
  rw [← State.declare_eq_declared, State.declare_runState]

theorem declared_rupture (s : State) (src : RuptureSource) (group : Option SeqNo) :
    (declared s src group).run.rupture = some src := by
  rw [← State.declare_eq_declared]
  simp [State.declare, State.enterRunState]

/-! ### A request whose effect the part's own operations make -/

/-- The requests of a port that executes one stand through what keeps every property of the primitives: its wait is none, so
that no offer answers a request of its queue. -/
theorem Claims.Executes.requests_kept {s t : State} {p : Port} {code : Nat} {r : Request} {rest : List Request}
    (h : Executes s p code r rest) (kept : ∀ P : State → Prop, KeptAll P → P s → P t) :
    (t.port p).requests = (s.port p).requests :=
  (kept _ (Kept.of_queue p (s.port p).requests (s.port p).responses) ⟨h.noWait, rfl, rfl⟩).2.1

section Requests
variable {s t : State} {p : Port} {r : Request} {rest : List Request} {x : Reply}

theorem exec_runStop (h : Executes s p 9 r rest) (effect : runStopBody p r s = (t, x))
    (queue : (t.port p).requests = (s.port p).requests) :
    exec (.runStop p) s = .next (answered t p r rest x.result x.payload) :=
  congrArg _ (serve_eq_answered h effect queue)

theorem exec_ruptureDeclare (h : Executes s p 11 r rest) (effect : ruptureDeclareBody p r s = (t, x))
    (queue : (t.port p).requests = (s.port p).requests) :
    exec (.ruptureDeclare p) s = .next (answered t p r rest x.result x.payload) :=
  congrArg _ (serve_eq_answered h effect queue)

theorem runStopBody_active (active : s.runActive = true) :
    runStopBody p r s = (closed s (Cause.runStop p).code, ⟨.ok, tickBytes s.clock⟩) := by
  rw [← State.close_eq_closed]
  exact if_pos active

theorem runStopBody_inactive (inactive : ¬ s.runActive = true) : runStopBody p r s = (s, ⟨.state, []⟩) := if_neg inactive

theorem ruptureDeclareBody_running (running : s.run.state = .running) :
    ruptureDeclareBody p r s =
      (s.declareNow (declareSource p) none, ⟨.ok, (s.declareNow (declareSource p) none).rupturePayload⟩) := by
  simp only [ruptureDeclareBody, running]

theorem ruptureDeclareBody_final (final : s.run.state = .final) : ruptureDeclareBody p r s = (s, ⟨.ok, s.rupturePayload⟩) := by
  simp only [ruptureDeclareBody, final]

theorem ruptureDeclareBody_refused (refused : s.run.state = .idle ∨ s.run.state = .closed) :
    ruptureDeclareBody p r s = (s, ⟨.state, s.rupturePayload⟩) := by
  rcases refused with e | e <;> simp only [ruptureDeclareBody, e]

end Requests

/-- The code of a run state as a byte. -/
theorem RunState.code_byte (x : RunState) : leBytes 1 x.code = [runCode x] := by cases x <;> rfl

theorem State.rupturePayload_none {s : State} (h : s.run.rupture = none) : s.rupturePayload = [runCode s.run.state, 0] := by
  rw [State.rupturePayload, h, RunState.code_byte]
  rfl

theorem State.rupturePayload_some {s : State} {src : RuptureSource} (h : s.run.rupture = some src) :
    s.rupturePayload = [runCode s.run.state, BitVec.ofNat 8 (ruptureCode src)] := by
  rw [State.rupturePayload, h, RunState.code_byte, ← src.code_eq_ruptureCode]
  rfl

/-! ### The rupture check (R141) -/

theorem State.ruptureCheck_unsaturated {s : State} {sat : Nat}
    (h : ¬ (s.run.state = .running ∧ 1 ≤ s.setup.item .ru 0 ∧ s.setup.item .ru 0 ≤ sat)) (group : Option SeqNo) :
    s.ruptureCheck sat group = s := by
  unfold State.ruptureCheck
  rw [if_neg]
  simp only [Bool.and_eq_true, decide_eq_true_eq]
  exact h

theorem State.ruptureCheck_saturated {s : State} {sat : Nat}
    (h : s.run.state = .running ∧ 1 ≤ s.setup.item .ru 0 ∧ s.setup.item .ru 0 ≤ sat) (group : Option SeqNo) :
    s.ruptureCheck sat group = if s.setup.loadCheck then s.recordEvidence sat group else s.declare .group group := by
  unfold State.ruptureCheck
  rw [if_pos]
  simp only [Bool.and_eq_true, decide_eq_true_eq]
  exact h

/-! ### What falls due at a tick (R12, R125, R144, R147) -/

theorem State.atLastTick_iff (s : State) : s.atLastTick = true ↔ s.intake.clock.toNat = 2 ^ 48 - 1 := by
  rw [State.atLastTick, beq_iff_eq, ← BitVec.toNat_inj, BitVec.toNat_allOnes]
  rfl

/-- The stale watch is due (R125). -/
def State.Late (s : State) : Prop := ∃ r, s.staleReference = some r ∧ s.setup.ls * 1024 ≤ (s.intake.clock - r).toNat

theorem State.staleCheck_due {s : State} (fresh : s.rollup.stale = false) (late : s.Late) :
    s.staleCheck = (s.withRollup { s.rollup with stale := true }).postWith .loadStale 0 1 := by
  obtain ⟨r, reference, due⟩ := late
  have due : decide (blocks s.setup.ls ≤ ticksSince s.clock r) = true := decide_eq_true due
  simp only [State.staleCheck, reference, fresh, due]
  rfl

theorem State.staleCheck_idle {s : State} (h : s.rollup.stale = true ∨ ¬ s.Late) : s.staleCheck = s := by
  unfold State.staleCheck
  split
  · rfl
  · next r reference =>
    rw [if_neg]
    simp only [Bool.and_eq_true, Bool.not_eq_true', decide_eq_true_eq, not_and]
    rcases h with stale | early
    · exact fun fresh => absurd (stale.symm.trans fresh) (by decide)
    · exact fun _ due => early ⟨r, reference, due⟩

theorem State.evidenceLapse_due {s : State} {e : Evidence} (held : s.run.evidence = some e) (due : e.deadline = s.intake.clock) :
    s.evidenceLapse = s.withRun { s.run with evidence := none } := by
  simp only [State.evidenceLapse, held]
  exact if_pos due

theorem State.evidenceLapse_idle {s : State} (h : ∀ e, s.run.evidence = some e → e.deadline ≠ s.intake.clock) :
    s.evidenceLapse = s := by
  unfold State.evidenceLapse
  split
  · rfl
  · next e held => exact if_neg (h e held)

theorem State.postWindowEnd_due {s : State} (active : s.run.state = .running ∨ s.run.state = .final)
    (due : s.run.postEnd = some s.intake.clock) : s.postWindowEnd = closed s 3 := by
  unfold State.postWindowEnd
  rw [if_pos, State.close_eq_closed]
  · rfl
  · rw [Bool.and_eq_true, beq_iff_eq]
    exact ⟨(RunState.active_iff _).2 active, due⟩

theorem State.postWindowEnd_idle {s : State}
    (h : (s.run.state ≠ .running ∧ s.run.state ≠ .final) ∨ s.run.postEnd ≠ some s.intake.clock) : s.postWindowEnd = s := by
  unfold State.postWindowEnd
  rw [if_neg]
  rw [Bool.and_eq_true, beq_iff_eq, State.runActive, RunState.active_iff]
  rintro ⟨running | final, due⟩ <;> rcases h with ⟨no, no'⟩ | early
  exacts [no running, early due, no' final, early due]

end Sys2Proof.Machine

open Sys2Proof.Machine Claims in
/-- Settles O8: each command by the moment of its event. -/
theorem wrapAndTimedEventsFallDue : Obligations.WrapAndTimedEventsFallDue := by
  intro s released k reference late
  refine ⟨fun last => ?_, fun no => ?_, fun fresh due => ?_, fun idle => ?_, fun e held due => ?_, fun idle => ?_,
    fun active due => ?_, fun idle => ?_⟩
  · refine (answer_released released _).trans (congrArg _ ?_)
    rw [if_pos ((s.atLastTick_iff).2 last)]
    rfl
  · refine (answer_released released _).trans (congrArg _ ?_)
    rw [if_neg fun last => no ((s.atLastTick_iff).1 last)]
  · exact (answer_released released _).trans (congrArg _ (State.staleCheck_due fresh due))
  · exact (answer_released released _).trans (congrArg _ (State.staleCheck_idle idle))
  · exact (answer_released released _).trans (congrArg _ (State.evidenceLapse_due held due))
  · exact (answer_released released _).trans (congrArg _ (State.evidenceLapse_idle idle))
  · exact (answer_released released _).trans (congrArg _ (State.postWindowEnd_due active due))
  · exact (answer_released released _).trans (congrArg _ (State.postWindowEnd_idle idle))

open Sys2Proof.Machine Claims in
/-- Settles O39: the check by its premises, and an emission as the flush of its group followed by the check. -/
theorem saturatedGroupsAreChecked : Obligations.SaturatedGroupsAreChecked := by
  refine ⟨fun s sat group => ?_, fun s g => ?_⟩
  · intro nr deadline saturated
    refine ⟨fun no => State.ruptureCheck_unsaturated no group, fun yes off => ?_, fun yes on => ?_⟩
    · rw [State.ruptureCheck_saturated yes, if_neg (by rw [Setup.loadCheck, off]; decide), State.declare_eq_declared]
    · rw [State.ruptureCheck_saturated yes, if_pos (by rw [Setup.loadCheck, on]; decide)]
      rfl
  · intro es t check
    obtain ⟨intake, -, -, run, setup, -⟩ := s.emit_closing_rollupOnly g
    refine ⟨run, setup, intake, fun on => ?_, fun off fits => ?_⟩
    · rw [State.emit_open_eq, if_pos on]
      rfl
    · have admits : s.journal.admits (groupOffer (decide (g.lmin ≤ g.emitted.length)) g.emitted) = true := by
        rw [Journal.admits_iff, groupOffer_size]
        exact fits
      rw [State.emit_open_eq, off, if_neg Bool.false_ne_true, State.offerSeq, if_pos admits]
      rfl

open Sys2Proof.Machine Claims in
/-- Settles O41: the closing event block by block, and RUN STOP by the run state. -/
theorem runStopClosesTheRun : Obligations.RunStopClosesTheRun := by
  refine ⟨fun s cause => ?_, fun s p r rest h => ?_⟩
  · refine ⟨closed_run s cause, closed_chan s cause, closed_grouping s cause, ?_, ?_, fun placed => ?_, closed_rollup s cause,
      (Kept.of_intake _).closed rfl cause, (Kept.of_setup _).closed rfl cause, (Kept.of_status _).closed rfl cause,
      (Kept.of_resetHeld _).closed rfl cause, (Kept.of_pending _).closed rfl cause, (Kept.of_settings s).closed (.refl s) cause⟩
    · rw [closed_grouping]; exact flushed_lockout s
    · rw [closed_grouping]; exact (flushed_countsOnly s).work
    · rw [closed_grouping]; exact flushed_empty placed
  · intro active
    have activeIff : s.runActive = true ↔ active := RunState.active_iff _
    refine ⟨fun no => exec_runStop h (runStopBody_inactive fun a => no (activeIff.1 a)) rfl, fun yes => ?_⟩
    have code : (Cause.runStop p).code = if p = .a then 1 else 2 := by cases p <;> rfl
    have effect := exec_runStop h (runStopBody_active (activeIff.2 yes)) (h.requests_kept fun P kept hs => kept.closed hs _)
    rw [code] at effect
    rw [lsbFirst_eq_leBytes]
    exact effect

open Sys2Proof.Machine Claims in
/-- Settles O43: RUPTURE DECLARE by the run state. -/
theorem ruptureDeclareDeclares : Obligations.RuptureDeclareDeclares := by
  intro s p r rest h source code old
  have src : declareSource p = source := by cases p <;> rfl
  have payload (x : RunState) (e : s.run.state = x) : s.rupturePayload = [runCode x, old] := by
    subst e
    cases q : s.run.rupture with
    | none => rw [State.rupturePayload_none q]; simp only [old, q]
    | some src => rw [State.rupturePayload_some q]; simp only [old, q]
  have named : BitVec.ofNat 8 (ruptureCode source) = code := by cases p <;> rfl
  have queue := h.requests_kept (t := s.declareNow source none) fun P kept hs => kept.declareNow _ _ _ hs
  have ran (running : s.run.state = .running) := exec_ruptureDeclare h (ruptureDeclareBody_running running) (by rw [src]; exact queue)
  simp only [src] at ran
  refine ⟨fun running window => ?_, fun running window => ?_, fun final => ?_, fun refused => ?_⟩
  · have answer := ran running
    rw [State.declareNow_eq, if_neg window, State.rupturePayload_some (declared_rupture _ _ _), declared_state, named] at answer
    exact answer
  · have answer := ran running
    have rupture : (closed (declared s source none) 3).run.rupture = some source :=
      (closed_rupture _ _).trans (declared_rupture _ _ _)
    rw [State.declareNow_eq, if_pos window, State.rupturePayload_some rupture, closed_state, named] at answer
    exact answer
  · rw [exec_ruptureDeclare h (ruptureDeclareBody_final final) rfl]
    simp only [payload _ final]
    rfl
  · rw [exec_ruptureDeclare h (ruptureDeclareBody_refused refused) rfl]
    simp only [payload _ rfl]
end

