-- ==== Sys2Proof/Proofs/Loads.lean ====
section
/-! SUPPORT. LOAD POST (R122 to R124, R143): the value set, what an active run does with it, and the load-drop check. -/

namespace Sys2Proof.Machine

open Claims

theorem Rollup.raisePmax_eq (x : Rollup) (v : Nat) :
    x.raisePmax v = { x with pmax := max x.pmax v, armed := x.armed || decide (x.pmax < v) } := by
  unfold Rollup.raisePmax
  split
  · next h => simp [h, Nat.max_eq_right (Nat.le_of_lt h)]
  · next h => simp [h, Nat.max_eq_left (Nat.le_of_not_lt h)]

/-- The state with the load set (R123). -/
theorem State.setLoad_eq (s : State) (v : Nat) :
    s.setLoad v =
      let t := s.withRollup { s.rollup with load := some ⟨v, s.intake.clock⟩, stale := false }
      if s.rollup.stale then t.postWith .loadStale 0 0 else t := rfl

theorem State.setLoad_keeps (s : State) (v : Nat) :
    (s.setLoad v).rollup = { s.rollup with load := some ⟨v, s.intake.clock⟩, stale := false } ∧
      (s.setLoad v).journal = s.journal ∧ (s.setLoad v).run = s.run ∧ (s.setLoad v).setup = s.setup ∧
      (s.setLoad v).intake = s.intake := by
  rw [State.setLoad_eq]
  dsimp only
  split <;> exact ⟨rfl, rfl, rfl, rfl, rfl⟩

/-- The state before the load-drop check in an active run (R124): Pmax raised, and the LOAD record offered outside tally mode. -/
def State.loadTaken (s : State) (p : Port) (v : Nat) : State :=
  let s2 := (s.setLoad v).withRollup ((s.setLoad v).rollup.raisePmax v)
  if s2.journal.tallyMode then s2 else s2.offer (loadOffer s2.clock v p)

/-- The LOAD record as the statements write it (section 11.1). -/
theorem loadOffer_eq (k : Tick) (v : Nat) (p : Port) :
    loadOffer k v p =
      ⟨.load, 0, [BitVec.ofNat 32 k.toNat, BitVec.ofNat 32 (k.toNat / 2 ^ 32),
        BitVec.ofNat 32 (v + 2 ^ 24 * if p = .a then 0 else 1)]⟩ := by
  cases p <;> rfl

theorem State.loadTaken_eq (s : State) (p : Port) (v : Nat) :
    s.loadTaken p v =
      let loaded : Rollup := { s.rollup with load := some ⟨v, s.intake.clock⟩, stale := false }
      let s2 := (s.setLoad v).withRollup
        { loaded with pmax := max s.rollup.pmax v, armed := loaded.armed || decide (s.rollup.pmax < v) }
      if s.journal.tallyMode then s2 else s2.offer (loadOffer s.intake.clock v p) := by
  obtain ⟨rollup, journal, -, -, intake⟩ := s.setLoad_keeps v
  unfold State.loadTaken
  simp only [Rollup.raisePmax_eq, State.withRollup_journal, State.withRollup_intake, State.clock, rollup, journal, intake]

theorem State.loadTaken_keeps (s : State) (p : Port) (v : Nat) :
    (s.loadTaken p v).run = s.run ∧ (s.loadTaken p v).setup = s.setup ∧ (s.loadTaken p v).rollup.pmax = max s.rollup.pmax v := by
  obtain ⟨rollup, -, run, setup, -⟩ := s.setLoad_keeps v
  simp only [State.loadTaken, Rollup.raisePmax_eq]
  split
  · simp only [State.withRollup_run, State.withRollup_setup, State.withRollup_rollup, run, setup, rollup, and_self]
  · simp only [State.offer_run, State.offer_setup, State.offer_rollup, State.withRollup_run, State.withRollup_setup,
      State.withRollup_rollup, run, setup, rollup, and_self]

theorem State.postLoad_inactive {s : State} (h : ¬ s.runActive = true) (p : Port) (v : Nat) : s.postLoad p v = s.setLoad v := by
  have same : (s.setLoad v).runActive = s.runActive := by rw [State.runActive, (s.setLoad_keeps v).2.2.1]; rfl
  exact if_neg (by rw [same]; exact h)

theorem State.postLoad_active {s : State} (h : s.runActive = true) (p : Port) (v : Nat) :
    s.postLoad p v = (s.loadTaken p v).loadDropCheck v := by
  have same : (s.setLoad v).runActive = s.runActive := by rw [State.runActive, (s.setLoad_keeps v).2.2.1]; rfl
  exact if_pos (by rw [same]; exact h)

/-- The check finds no evidence, or the value is above the drop level (R143). -/
theorem State.loadDropCheck_idle {t : State} {v : Nat}
    (h : t.run.evidence = none ∨ ¬ (t.run.state = .running ∧ v ≤ t.rollup.pmax * t.setup.item .ru 2 / 256)) :
    t.loadDropCheck v = t := by
  unfold State.loadDropCheck
  split
  · rfl
  · next e held =>
    rw [if_neg]
    simp only [Bool.and_eq_true, decide_eq_true_eq]
    exact h.resolve_left (by rw [held]; nofun)

/-- The check confirms held evidence (R143). -/
theorem State.loadDropCheck_confirms {t : State} {v : Nat} {e : Evidence} (held : t.run.evidence = some e)
    (drop : t.run.state = .running ∧ v ≤ t.rollup.pmax * t.setup.item .ru 2 / 256) :
    t.loadDropCheck v = t.declareNow .groupLoad e.group := by
  simp only [State.loadDropCheck, held]
  refine if_pos ?_
  simp only [Bool.and_eq_true, decide_eq_true_eq]
  exact drop

theorem State.declareNow_pmax (s : State) (src : RuptureSource) (group : Option SeqNo) :
    (s.declareNow src group).rollup.pmax = s.rollup.pmax := by
  have declared : (declared s src group).rollup = s.rollup := by
    rw [← State.declare_eq_declared, (State.RunOnly.declare s src group).rollup]
  rw [State.declareNow_eq]
  split
  · rw [closed_pmax, declared]
  · rw [declared]

section Request
variable {s t : State} {p : Port} {r : Request} {rest : List Request} {x : Reply}

theorem exec_loadPost (h : Executes s p 12 r rest) (effect : loadPostBody p r s = (t, x))
    (queue : (t.port p).requests = (s.port p).requests) :
    exec (.loadPost p) s = .next (answered t p r rest x.result x.payload) :=
  congrArg _ (serve_eq_answered h effect queue)

theorem loadPostBody_short (short : r.payload.length < 4) : loadPostBody p r s = (s, ⟨.range, []⟩) := if_pos short

/-- A LOAD POST with its value (R122). -/
theorem loadPostBody_taken {b0 b1 b2 b3 : Byte} {tl : List Byte} (payload : r.payload = b0 :: b1 :: b2 :: b3 :: tl) :
    let sent := (b3 ++ b2 ++ b1 ++ b0).toNat
    loadPostBody p r s =
      (s.postLoad p (min 16777215 sent), (s.postLoad p (min 16777215 sent)).loadReply s.clock sent (min 16777215 sent)) := by
  have whole : ¬ r.payload.length < 4 := by rw [payload]; simp
  have sent : field r.payload 0 4 = (b3 ++ b2 ++ b1 ++ b0).toNat := by
    rw [payload, ← leNat_four]
    rfl
  intro v
  unfold loadPostBody
  rw [if_neg whole, sent]

/-- The answer to a LOAD POST, from what the post leaves as Pmax (R122). -/
theorem exec_loadPost_taken {b0 b1 b2 b3 : Byte} {tl : List Byte} {pmax : Nat} (h : Executes s p 12 r rest)
    (payload : r.payload = b0 :: b1 :: b2 :: b3 :: tl)
    (posted : s.postLoad p (min 16777215 (b3 ++ b2 ++ b1 ++ b0).toNat) = t) (peak : t.rollup.pmax = pmax) :
    exec (.loadPost p) s =
      .next (answered t p r rest (if (b3 ++ b2 ++ b1 ++ b0).toNat ≤ 16777215 then .ok else .adjusted)
        (lsbFirst 4 (min 16777215 (b3 ++ b2 ++ b1 ++ b0).toNat) ++ lsbFirst 6 s.intake.clock.toNat ++ lsbFirst 4 pmax)) := by
  subst posted peak
  rw [exec_loadPost h (loadPostBody_taken payload) (h.requests_kept fun P kept hs => kept.postLoad _ _ _ hs)]
  have whole (n : Nat) : (n = min 16777215 n) = (n ≤ 16777215) := propext (by omega)
  simp only [lsbFirst_eq_leBytes, State.loadReply, whole]
  rfl

end Request

end Sys2Proof.Machine

open Sys2Proof.Machine Claims in
/-- Settles O37: a short payload, the value set, and the check of held evidence. -/
theorem loadPostSetsTheLoad : Obligations.LoadPostSetsTheLoad := by
  intro s p r rest h
  refine ⟨fun short => exec_loadPost h (loadPostBody_short short) rfl, fun b0 b1 b2 b3 tl payload => ?_⟩
  intro sent value result k reply loaded post record active pmax drop s1 s2 s3
  have activeIff : s.runActive = true ↔ active := RunState.active_iff _
  have set : s.setLoad value = s1 := rfl
  obtain ⟨run, setup, peak⟩ := s.loadTaken_keeps p value
  have taken : s.loadTaken p value = s3 := by
    rw [s.loadTaken_eq, loadOffer_eq, set]
  rw [taken] at run setup peak
  have posted (a : active) : s.postLoad p value = s3.loadDropCheck value := by
    rw [State.postLoad_active (activeIff.2 a), taken]
  have dropIff : (s3.run.state = .running ∧ value ≤ s3.rollup.pmax * s3.setup.item .ru 2 / 256) ↔ drop := by
    rw [run, setup, peak]
  refine ⟨fun no => exec_loadPost_taken h payload (State.postLoad_inactive (fun a => no (activeIff.1 a)) p value) ?_,
    fun a idle => exec_loadPost_taken h payload ((posted a).trans (State.loadDropCheck_idle ?_)) peak,
    fun e held dropped => ?_⟩
  · rw [← set, (s.setLoad_keeps value).1]
  · rw [dropIff, run]; exact idle
  · intro d
    have confirmed : s.postLoad p value = s3.declareNow .groupLoad e.group :=
      (posted (.inl dropped.1)).trans (State.loadDropCheck_confirms (by rw [run]; exact held) (dropIff.2 dropped))
    have closes := State.declareNow_eq s3 .groupLoad e.group
    rw [setup] at closes
    exact exec_loadPost_taken h payload (confirmed.trans closes) (by rw [← closes, State.declareNow_pmax, peak])
end

