-- ==== Sys2Proof/Proofs/StatusClocks.lean ====
section
/-! SUPPORT. The starts of a status cycle and one status clock in every phase (R164 to R167). -/

namespace Sys2Proof.Machine

open Claims

theorem State.drivesLineLow_iff (s : State) :
    s.drivesLineLow = true ↔ (∃ n, s.status.cycle = .start n) ∨ ∃ n held, s.status.cycle = .stop n held := by
  unfold State.drivesLineLow
  cases s.status.cycle <;> simp

/-! ### The starts of a cycle (R165) -/

/-- The part's own start is due: the line is at IDLE, either mode is continuous, and the status period has run. -/
def State.StartDue (s : State) : Prop :=
  s.status.cycle = .idle ∧ (s.status.lineMode = .continuous ∨ s.setup.statusMode = .continuous) ∧
    ∀ k, s.status.refTick = some k → s.setup.statusPeriod * 1024 ≤ (s.intake.clock - k).toNat

theorem State.cycleDue_iff (s : State) : s.cycleDue = true ↔ s.StartDue := by
  unfold State.cycleDue State.StartDue
  rw [Bool.and_eq_true, Bool.and_eq_true, Bool.or_eq_true, beq_iff_eq, beq_iff_eq, beq_iff_eq, and_assoc]
  refine and_congr_right fun _ => and_congr_right fun _ => ?_
  cases s.status.refTick with
  | none => simp
  | some r =>
    rw [decide_eq_true_iff]
    exact ⟨fun run k e => Option.some.inj e ▸ run, fun run => run r rfl⟩

theorem State.startCycle_due {s : State} (h : s.StartDue) : s.startCycle = inCycle s (.start 0) := if_pos (s.cycleDue_iff.2 h)

theorem State.startCycle_idle {s : State} (h : ¬ s.StartDue) : s.startCycle = s := if_neg fun due => h (s.cycleDue_iff.1 due)

theorem State.nodeStart_taken {s : State} (quiet : s.status.lineMode = .quiet)
    (free : s.status.cycle = .idle ∨ s.status.cycle = .start 0) : s.nodeStart = inCycle s (.start 1) := by
  refine if_pos ?_
  rw [Bool.and_eq_true, Bool.or_eq_true, beq_iff_eq, beq_iff_eq, decide_eq_true_iff]
  exact ⟨quiet, free⟩

theorem State.nodeStart_idle {s : State}
    (h : s.status.lineMode = .continuous ∨ (s.status.cycle ≠ .idle ∧ s.status.cycle ≠ .start 0)) : s.nodeStart = s := by
  refine if_neg ?_
  rw [Bool.and_eq_true, Bool.or_eq_true, beq_iff_eq, beq_iff_eq, decide_eq_true_iff]
  rintro ⟨quiet, idle | first⟩ <;> rcases h with continuous | ⟨no, no'⟩
  · rw [quiet] at continuous; cases continuous
  · exact no idle
  · rw [quiet] at continuous; cases continuous
  · exact no' first

/-! ### One status clock, phase by phase (R164, R166) -/

section Phases
variable {s : State} {level : LineLevel} {n : Nat} {c d : ChanId} {held : Option LineMode}

theorem State.statusTick_idle_high (h : s.status.cycle = .idle) : s.statusTick .high = s := by
  unfold State.statusTick; rw [h]; rfl

theorem State.statusTick_idle_low (h : s.status.cycle = .idle) : s.statusTick .low = s.nodeStart := by
  unfold State.statusTick; rw [h]; rfl

theorem State.statusTick_start (h : s.status.cycle = .start n) : s.statusTick level = inCycle s (CycleState.afterStart n) := by
  unfold State.statusTick; rw [h]; rfl

theorem State.statusTick_drive (h : s.status.cycle = .slot c .drive) :
    s.statusTick level =
      { s with status :=
        { s.status with cycle := .slot c .restore, reports := s.status.reports.set c (some (decide (level = .low))) } } := by
  unfold State.statusTick; rw [h]; rfl

theorem State.statusTick_restore (h : s.status.cycle = .slot c .restore) : s.statusTick level = inCycle s (.slot c .release) := by
  unfold State.statusTick; rw [h]; rfl

theorem State.statusTick_release_high (h : s.status.cycle = .slot c .release) :
    s.statusTick .high = inCycle s (CycleState.afterSlot c) := by
  unfold State.statusTick; rw [h]; rfl

theorem State.statusTick_release_low (h : s.status.cycle = .slot c .release) : s.statusTick .low = s.abortCycle := by
  unfold State.statusTick; rw [h]

theorem State.statusTick_stop (h : s.status.cycle = .stop n held) :
    s.statusTick level =
      if s.stopEnds n held then s.completeCycle (s.announces held)
      else inCycle s (.stop (n + 1) (some (s.announces held))) := by
  unfold State.statusTick; rw [h]; rfl

end Phases

theorem CycleState.afterStart_within {n : Nat} (h : n < 3) : CycleState.afterStart n = .start (n + 1) := if_neg (by omega)

theorem CycleState.afterStart_last {n : Nat} (h : 3 ≤ n) : CycleState.afterStart n = .slot 0 .drive := if_pos (by omega)

theorem CycleState.afterSlot_next {c d : ChanId} (h : d.val = c.val + 1) : CycleState.afterSlot c = .slot d .drive := by
  have lt : c.val + 1 < 16 := by omega
  exact (dif_pos lt).trans (congrArg (CycleState.slot · .drive) (Fin.ext h.symm))

theorem State.announces_eq (s : State) (held : Option LineMode) : s.announces held = held.getD s.setup.statusMode := by
  cases held <;> rfl

/-- The stop frame is two clocks wide in quiet mode and three in continuous mode (R166). -/
theorem State.stopEnds_iff (s : State) (n : Nat) (held : Option LineMode) :
    s.stopEnds n held = true ↔ (if held.getD s.setup.statusMode = .quiet then 2 else 3) ≤ n + 1 := by
  rw [State.stopEnds, decide_eq_true_iff, s.announces_eq]
  cases held.getD s.setup.statusMode <;> exact Iff.rfl

end Sys2Proof.Machine

open Sys2Proof.Machine Claims in
/-- Settles O49: the two starts by their conditions, and one clock by the phase. -/
theorem statusClocksAdvanceTheCycle : Obligations.StatusClocksAdvanceTheCycle := by
  intro s released x setupMode period due
  have next {f : State → State} {t : State} (h : f s = t) :
      (Host.Outcome.next (s.whileReleased f) : Answer) = .next t := (answer_released released f).trans (congrArg _ h)
  refine ⟨s.drivesLineLow_iff, fun h => next (State.startCycle_due h), fun h => next (State.startCycle_idle h),
    fun quiet free => next (State.nodeStart_taken quiet free), fun h => next (State.nodeStart_idle h),
    fun idle => ⟨next (State.statusTick_idle_high idle), fun quiet => next ?_, fun continuous => next ?_⟩, fun level => ?_⟩
  · rw [State.statusTick_idle_low idle]; exact State.nodeStart_taken quiet (.inl idle)
  · rw [State.statusTick_idle_low idle]; exact State.nodeStart_idle (.inl continuous)
  refine ⟨fun n start within => next ?_, fun n start last => next ?_, fun c drive => next (State.statusTick_drive drive),
    fun c restore => next (State.statusTick_restore restore), fun c d release follows => next ?_, fun release => next ?_,
    fun n held stop => ?_⟩
  · rw [State.statusTick_start start, CycleState.afterStart_within within]
  · rw [State.statusTick_start start, CycleState.afterStart_last last]
  · rw [State.statusTick_release_high release, CycleState.afterSlot_next follows]
  · rw [State.statusTick_release_high release]; rfl
  · intro mode within
    refine next ?_
    rw [State.statusTick_stop stop, if_neg fun ends => Nat.not_le.2 within ((s.stopEnds_iff n held).1 ends), s.announces_eq]
    rfl
end

