-- ==== Sys2Proof/Proofs/CycleEnds.lean ====
section
/-! SUPPORT. The end of a completed cycle and the abort of a cycle (R164 to R170): the debounce of one report, and the sixteen taken in
channel order. -/

namespace Sys2Proof.Machine

open Claims

/-! ### The debounce of one report (R169) -/

/-- The report of a channel at the end of a cycle. -/
def State.report (s : State) (c : ChanId) : Bool := decide (s.status.reports[c] = some true)

/-- The report changes the channel's fault state (R169). -/
abbrev State.Changes (s : State) (c : ChanId) : Prop :=
  (s.chan c).st ≠ .off ∧ s.report c ≠ s.status.faults[c] ∧ 1 ≤ s.status.debounce[c]

/-- A channel's fault state after the cycle. -/
def State.faultAfter (s : State) (c : ChanId) : Bool := if s.Changes c then s.report c else s.status.faults[c]

/-- A channel's debounce count after the cycle. -/
def State.countAfter (s : State) (c : ChanId) : Nat :=
  if s.Changes c ∨ (s.chan c).st = .off ∨ s.report c = s.status.faults[c] then 0 else s.status.debounce[c] + 1

/-- A channel after the cycle. -/
def State.chanAfter (s : State) (c : ChanId) : Channel :=
  if s.Changes c then { s.chan c with reportedFault := s.report c } else s.chan c

/-- What the debounce makes of the channel's report. -/
def State.debounced (s : State) (c : ChanId) : Bool × Nat × Bool :=
  debounce ((s.chan c).st == .off) (s.status.reports[c] == some true) s.status.faults[c] s.status.debounce[c]

theorem State.debounced_eq (s : State) (c : ChanId) :
    s.debounced c = debounce (decide ((s.chan c).st = .off)) (s.report c) s.status.faults[c] s.status.debounce[c] := by
  have report : (s.status.reports[c] == some true) = s.report c := Bool.eq_iff_iff.2 (by rw [beq_iff_eq, State.report, decide_eq_true_iff])
  have off : ((s.chan c).st == .off) = decide ((s.chan c).st = .off) := Bool.eq_iff_iff.2 (by rw [beq_iff_eq, decide_eq_true_iff])
  rw [State.debounced, report, off]

theorem State.debounced_changed {s : State} {c : ChanId} (h : s.Changes c) :
    s.debounced c = (s.faultAfter c, s.countAfter c, true) := by
  obtain ⟨enabled, differs, second⟩ := h
  rw [State.faultAfter, if_pos ⟨enabled, differs, second⟩, State.countAfter, if_pos (.inl ⟨enabled, differs, second⟩),
    State.debounced_eq, debounce, if_neg (by simpa using enabled), if_neg differs, if_pos (by omega)]

theorem State.debounced_silent {s : State} {c : ChanId} (h : ¬ s.Changes c) :
    s.debounced c = (s.faultAfter c, s.countAfter c, false) := by
  have same : s.countAfter c =
      if (s.chan c).st = .off ∨ s.report c = s.status.faults[c] then 0 else s.status.debounce[c] + 1 := by
    simp only [State.countAfter, h, false_or]
  rw [State.faultAfter, if_neg h, same, State.debounced_eq, debounce]
  by_cases off : (s.chan c).st = .off
  · rw [if_pos (decide_eq_true off), if_pos (.inl off)]
  · rw [if_neg (by simpa using off)]
    by_cases agrees : s.report c = s.status.faults[c]
    · rw [if_pos agrees, if_pos (.inr agrees)]
    · have first : ¬ 1 ≤ s.status.debounce[c] := fun second => h ⟨off, agrees, second⟩
      rw [if_neg agrees, if_neg (by omega), if_neg (by tauto)]

/-! ### One channel at the end of a cycle (R169, R170) -/

/-- The status line unit with a channel's fault state and debounce count replaced. -/
def Status.counted (x : Status) (c : ChanId) (fault : Bool) (n : Nat) : Status :=
  { x with faults := x.faults.set c fault, debounce := x.debounce.set c n }

/-- A change told to the journal and the notices, with the fault mask after it (R170). -/
def State.tellFault (u : State) (c : ChanId) (faulted : Bool) (mask : Nat) : State :=
  (u.offer (mark u.intake.clock 8 (c.val + 256 * faulted.toNat) mask)).postWith .channelFault 0 (BitVec.ofNat 32 mask)

theorem State.debounceChannel_silent {u : State} {c : ChanId} {f : Bool} {n : Nat} (h : u.debounced c = (f, n, false)) :
    u.debounceChannel c = u.withStatus (u.status.counted c f n) := by
  unfold State.debounced at h
  simp only [State.debounceChannel, h]
  rfl

theorem State.debounceChannel_changed {u : State} {c : ChanId} {f : Bool} {n : Nat} (h : u.debounced c = (f, n, true)) :
    u.debounceChannel c =
      ((u.withStatus (u.status.counted c f n)).withChan c { u.chan c with reportedFault := f }).tellFault c f
        (u.status.counted c f n).faultMask := by
  unfold State.debounced at h
  simp only [State.debounceChannel, h]
  rfl

theorem State.tellFault_keeps (u : State) (c : ChanId) (f : Bool) (mask : Nat) :
    (u.tellFault c f mask).status = u.status ∧ ∀ d, (u.tellFault c f mask).chan d = u.chan d := by
  simp [State.tellFault]

theorem State.Agree.tellFault {u v : State} (h : u.Agree v) (c : ChanId) (f : Bool) (mask : Nat) :
    (u.tellFault c f mask).Agree (v.tellFault c f mask) := by
  unfold State.tellFault
  rw [h.intake]
  exact (h.offer _).postWith _ _ _

/-! ### The channels in order -/

/-- The fault mask after the change of channel `c`: the channels up to `c` have their new fault states (R170). -/
def State.maskAfter (s : State) (c : ChanId) : Nat :=
  ((allChannels.filter fun d => if d.val ≤ c.val ∧ s.Changes d then s.report d else s.status.faults[d]).map fun d => 2 ^ d.val).sum

/-- The changes of the first `k` channels told in channel order. -/
def State.told (s : State) (k : Nat) : State :=
  ((allChannels.take k).filter fun c => s.Changes c).foldl (fun u c => u.tellFault c (s.report c) (s.maskAfter c)) s

/-- The first `k` channels of `s` are counted in `u` and their changes told. -/
structure State.Counted (s u : State) (k : Nat) : Prop where
  status : u.status = { s.status with faults := u.status.faults, debounce := u.status.debounce }
  faults : ∀ d : ChanId, u.status.faults[d] = if d.val < k then s.faultAfter d else s.status.faults[d]
  debounce : ∀ d : ChanId, u.status.debounce[d] = if d.val < k then s.countAfter d else s.status.debounce[d]
  chan : ∀ d, u.chan d = if d.val < k then s.chanAfter d else s.chan d
  agree : u.Agree (s.told k)

namespace State.Counted

variable {s u : State} {c : ChanId}

theorem zero (s : State) : s.Counted s 0 :=
  ⟨rfl, fun d => (if_neg (by simp)).symm, fun d => (if_neg (by simp)).symm, fun d => (if_neg (by simp)).symm, .refl s⟩

/-- The channel next in order is debounced as it stood before the cycle's end. -/
theorem debounced (h : s.Counted u c.val) : u.debounced c = s.debounced c := by
  have faults := h.faults c
  have count := h.debounce c
  have chan := h.chan c
  rw [if_neg (by simp)] at faults count chan
  rw [State.debounced, State.debounced, chan, faults, count, h.status]

theorem take_succ (c : ChanId) : allChannels.take (c.val + 1) = allChannels.take c.val ++ [c] := by
  fin_cases c <;> rfl

theorem told_changed (changed : s.Changes c) : s.told (c.val + 1) = (s.told c.val).tellFault c (s.report c) (s.maskAfter c) := by
  rw [State.told, take_succ, List.filter_append, List.foldl_append, List.filter_singleton, decide_eq_true changed]
  rfl

theorem told_silent (silent : ¬ s.Changes c) : s.told (c.val + 1) = s.told c.val := by
  rw [State.told, take_succ, List.filter_append, List.foldl_append, List.filter_singleton, decide_eq_false silent]
  rfl

theorem vector_set_get {α : Type} (v : Vector α 16) (c d : ChanId) (x : α) : (v.set c x)[d] = if d = c then x else v[d] := by
  have get := Vector.getElem_set (xs := v) (i := c.val) (j := d.val) (x := x) c.isLt d.isLt
  rw [show (v.set c x)[d] = (v.set c.val x)[d.val] from rfl, get]
  simp only [Fin.ext_iff, eq_comm]
  rfl

/-- A value that each channel takes in turn: after channel `c` those up to it have theirs. -/
theorem get_after {α : Type} {v : Vector α 16} {c : ChanId} {new old : ChanId → α} {x : α}
    (before : ∀ d : ChanId, v[d] = if d.val < c.val then new d else old d) (written : x = new c) (d : ChanId) :
    (v.set c x)[d] = if d.val < c.val + 1 then new d else old d := by
  rw [vector_set_get]
  rcases Nat.lt_trichotomy d.val c.val with lt | eq | gt
  · rw [if_neg (by rw [Fin.ext_iff]; omega), before, if_pos lt, if_pos (by omega)]
  · rw [if_pos (Fin.ext eq), if_pos (by omega), written, Fin.ext eq]
  · rw [if_neg (by rw [Fin.ext_iff]; omega), before, if_neg (by omega), if_neg (by omega)]

/-- The mask of the line after channel `c` is the one its change is told with. -/
theorem faultMask (h : s.Counted u c.val) (n : Nat) : (u.status.counted c (s.faultAfter c) n).faultMask = s.maskAfter c := by
  rw [Status.faultMask, channelMask_eq, State.maskAfter]
  have faults (d : ChanId) : (u.status.faults.set c (s.faultAfter c))[d] =
      if d.val ≤ c.val ∧ s.Changes d then s.report d else s.status.faults[d] := by
    rw [get_after h.faults rfl d, State.faultAfter]
    by_cases le : d.val ≤ c.val
    · simp only [if_pos (Nat.lt_succ_of_le le), le, true_and]
    · rw [if_neg (by omega), if_neg (by tauto)]
  exact congrArg (fun l : List ChanId => (l.map fun d => 2 ^ d.val).sum) (List.filter_congr fun d _ => faults d)

theorem chan_after (h : s.Counted u c.val) {v : State} (written : v.chan c = s.chanAfter c)
    (others : ∀ d, d ≠ c → v.chan d = u.chan d) (d : ChanId) :
    v.chan d = if d.val < c.val + 1 then s.chanAfter d else s.chan d := by
  rcases Nat.lt_trichotomy d.val c.val with lt | eq | gt
  · rw [others d (by rw [Ne, Fin.ext_iff]; omega), h.chan, if_pos lt, if_pos (by omega)]
  · rw [if_pos (by omega), Fin.ext eq, written]
  · rw [others d (by rw [Ne, Fin.ext_iff]; omega), h.chan, if_neg (by omega), if_neg (by omega)]

/-- The unit with the next channel counted. -/
theorem counted_status (h : s.Counted u c.val) (f : Bool) (n : Nat) :
    u.status.counted c f n =
      { s.status with faults := (u.status.counted c f n).faults, debounce := (u.status.counted c f n).debounce } := by
  have frame := h.status
  unfold Status.counted
  rw [frame]

theorem next (h : s.Counted u c.val) : s.Counted (u.debounceChannel c) (c.val + 1) := by
  have here : u.chan c = s.chan c := (h.chan c).trans (if_neg (Nat.lt_irrefl _))
  have status := h.counted_status (s.faultAfter c) (s.countAfter c)
  by_cases changed : s.Changes c
  · have report : s.faultAfter c = s.report c := if_pos changed
    rw [State.debounceChannel_changed (h.debounced.trans (State.debounced_changed changed)), h.faultMask]
    generalize hv : (u.withStatus (u.status.counted c (s.faultAfter c) (s.countAfter c))).withChan c
      { u.chan c with reportedFault := s.faultAfter c } = v
    have unit : v.status = u.status.counted c (s.faultAfter c) (s.countAfter c) := by rw [← hv]; rfl
    obtain ⟨kept, chans⟩ := v.tellFault_keeps c (s.faultAfter c) (s.maskAfter c)
    refine ⟨?_, ?_, ?_, h.chan_after ?_ fun d other => ?_, ?_⟩
    · rw [kept, unit]; exact status
    · rw [kept, unit]; exact get_after h.faults rfl
    · rw [kept, unit]; exact get_after h.debounce rfl
    · rw [chans, ← hv, State.withChan_chan, here, report, State.chanAfter, if_pos changed]
    · rw [chans, ← hv, State.withChan_chan_ne _ _ other]
      rfl
    · rw [told_changed changed, report]
      refine State.Agree.tellFault ?_ _ _ _
      rw [← hv]
      exact (State.Agree.withChannels _ _).trans ((State.Agree.withStatus _ _).trans h.agree)
  · rw [State.debounceChannel_silent (h.debounced.trans (State.debounced_silent changed))]
    refine ⟨status, get_after h.faults rfl, get_after h.debounce rfl, h.chan_after ?_ fun d _ => rfl, ?_⟩
    · rw [State.chanAfter, if_neg changed, ← here]
      rfl
    · rw [told_silent changed]
      exact (State.Agree.withStatus _ _).trans h.agree

/-- All sixteen channels taken in channel order. -/
theorem all (s : State) : s.Counted (allChannels.foldl State.debounceChannel s) 16 := by
  have upTo : ∀ k, k ≤ 16 → s.Counted ((allChannels.take k).foldl State.debounceChannel s) k := by
    intro k
    induction k with
    | zero => exact fun _ => zero s
    | succ k ih =>
      intro le
      have step := State.Counted.next (c := ⟨k, le⟩) (ih (Nat.le_of_succ_le le))
      rw [show k + 1 = (⟨k, le⟩ : ChanId).val + 1 from rfl, take_succ, List.foldl_append]
      exact step
  exact upTo 16 (Nat.le_refl _)

end State.Counted

/-! ### The end of a completed cycle (R164, R166, R168) -/

/-- The state with the changes told, and the LINE DOWN notice released when the line was down. -/
def State.toldUp (s : State) : State :=
  if s.status.lineDown then (s.told 16).postWith .lineDown 0 0 else s.told 16

theorem State.lineUp_eq (u : State) :
    u.lineUp =
      let v := u.withStatus { u.status with aborted := 0, lineDown := false }
      if u.status.lineDown then v.postWith .lineDown 0 0 else v := rfl

theorem State.lineUp_keeps (u : State) :
    u.lineUp.status = { u.status with aborted := 0, lineDown := false } ∧ ∀ c, u.lineUp.chan c = u.chan c := by
  rw [State.lineUp_eq]
  dsimp only
  split <;> exact ⟨rfl, fun _ => rfl⟩

theorem State.lineUp_agree {u v : State} (h : u.Agree v) :
    u.lineUp.Agree (if u.status.lineDown then v.postWith .lineDown 0 0 else v) := by
  rw [State.lineUp_eq]
  dsimp only
  split
  · exact ((State.Agree.withStatus _ _).trans h).postWith _ _ _
  · exact (State.Agree.withStatus _ _).trans h

/-- What a completed cycle leaves in the status line unit, in the channels, in the journal and at the ports. -/
structure State.Completed (s t : State) (mode : LineMode) : Prop where
  cycle : t.status.cycle = .idle
  lineMode : t.status.lineMode = mode
  refTick : t.status.refTick = some s.intake.clock
  aborted : t.status.aborted = 0
  lineDown : t.status.lineDown = false
  reports : ∀ c : ChanId, t.status.reports[c] = none
  faults : ∀ c : ChanId, t.status.faults[c] = s.faultAfter c
  debounce : ∀ c : ChanId, t.status.debounce[c] = s.countAfter c
  chan : ∀ c, t.chan c = s.chanAfter c
  agree : t.Agree s.toldUp

theorem State.completeCycle_completed (s : State) (mode : LineMode) : s.Completed (s.completeCycle mode) mode := by
  have counted := State.Counted.all s
  generalize hu : allChannels.foldl State.debounceChannel s = u at counted
  obtain ⟨status, chans⟩ := u.lineUp_keeps
  have clock : u.lineUp.clock = s.intake.clock := by
    rw [← hu]
    exact congrArg Intake.clock ((State.StatusOnly.debounceChannels allChannels s).trans (.lineUp _)).intake
  have down : u.status.lineDown = s.status.lineDown := by rw [counted.status]
  have ended : s.completeCycle mode =
      u.lineUp.withStatus { u.lineUp.status.toIdle with refTick := some s.intake.clock, lineMode := mode } := by
    rw [← clock, ← hu]; rfl
  rw [ended, status]
  refine ⟨rfl, rfl, rfl, rfl, rfl, fun c => Vector.getElem_replicate .., fun c => ?_, fun c => ?_, fun c => ?_, ?_⟩
  · exact (counted.faults c).trans (if_pos c.isLt)
  · exact (counted.debounce c).trans (if_pos c.isLt)
  · exact (chans c).trans ((counted.chan c).trans (if_pos c.isLt))
  · refine (State.Agree.withStatus _ _).trans ?_
    rw [State.toldUp, ← down]
    exact State.lineUp_agree counted.agree

theorem State.cycleEnd_ends {s : State} {n : Nat} {held : Option LineMode} (h : s.status.cycle = .stop n held)
    (ends : s.stopEnds n held = true) : s.cycleEnd = s.completeCycle (s.announces held) := by
  simp only [State.cycleEnd, h, ends, if_true]

theorem State.cycleEnd_idle {s : State} (h : ∀ n held, s.status.cycle = .stop n held → ¬ s.stopEnds n held = true) :
    s.cycleEnd = s := by
  unfold State.cycleEnd
  split
  · next n held stop => exact if_neg (h n held stop)
  all_goals rfl

/-! ### The abort of a cycle (R167, R168) -/

theorem State.abortCycle_eq (s : State) :
    s.abortCycle =
      let n := min 255 (s.status.aborted + 1)
      let t : State :=
        { s with status :=
          { s.status with
            cycle := .idle, reports := Vector.replicate 16 none, aborted := n, refTick := some s.intake.clock } }
      let down : State := { t with status := { t.status with lineDown := true } }
      if n = 3 ∧ s.status.lineDown = false then down.postWith .lineDown 0 1 else t := by
  have third : (decide (min 255 (s.status.aborted + 1) = 3) && !s.status.lineDown) = true ↔
      min 255 (s.status.aborted + 1) = 3 ∧ s.status.lineDown = false := by
    rw [Bool.and_eq_true, decide_eq_true_iff, Bool.not_eq_true']
  by_cases h : min 255 (s.status.aborted + 1) = 3 ∧ s.status.lineDown = false
  · exact (if_pos (third.2 h)).trans (if_pos h).symm
  · exact (if_neg fun x => h (third.1 x)).trans (if_neg h).symm

theorem State.cycleAbort_release {s : State} {c : ChanId} (h : s.status.cycle = .slot c .release) : s.cycleAbort = s.abortCycle := by
  simp only [State.cycleAbort, h]

theorem State.cycleAbort_idle {s : State} (h : ∀ c, s.status.cycle ≠ .slot c .release) : s.cycleAbort = s := by
  unfold State.cycleAbort
  split
  · next c release => exact absurd release (h c)
  · rfl

end Sys2Proof.Machine

open Sys2Proof Sys2Proof.Machine Claims in
/-- Settles O50: the completed cycle, the aborted one, and the commands at any other moment. -/
theorem cyclesEndOrAbort : Obligations.CyclesEndOrAbort := by
  intro s released x setupMode report changes maskAfter told up
  have next {f : State → State} {t : State} (h : f s = t) :
      (Host.Outcome.next (s.whileReleased f) : Answer) = .next t := (answer_released released f).trans (congrArg _ h)
  refine ⟨fun n held stop => ?_, fun c release => ?_, fun other => next (State.cycleAbort_idle other),
    fun short => next (State.cycleEnd_idle fun n held stop ends => ?_)⟩
  · intro mode width level
    have ends : s.stopEnds n held = true := (s.stopEnds_iff n held).2 width
    have announced : s.announces held = mode := s.announces_eq held
    have done := s.completeCycle_completed mode
    refine ⟨s.completeCycle mode, next ((State.cycleEnd_ends stop ends).trans (by rw [announced])), next ?_, done.cycle,
      done.lineMode, done.refTick, done.aborted, done.lineDown, fun c => ⟨done.reports c, fun change => ?_, fun same => ?_⟩,
      done.agree.journal, done.agree.port, ?_⟩
    · rw [State.statusTick_stop stop, if_pos ends, announced]
    · refine ⟨(done.faults c).trans (if_pos change), (done.debounce c).trans (if_pos (.inl change)),
        (done.chan c).trans (if_pos change)⟩
    · refine ⟨(done.faults c).trans (if_neg same), (done.chan c).trans (if_neg same), (done.debounce c).trans ?_⟩
      have plain : s.countAfter c = if (s.chan c).st = .off ∨ s.report c = s.status.faults[c] then 0 else s.status.debounce[c] + 1 := by
        have no : ¬ s.Changes c := same
        simp only [State.countAfter, no, false_or]
      exact plain
    · obtain ⟨intake, grouping, rollup, run, setup⟩ := State.StatusOnly.completeCycle s mode
      exact ⟨intake, grouping, rollup, run, setup, (Kept.of_resetHeld false).completeCycle s mode released,
        (Kept.of_settings s).completeCycle s mode (.refl s)⟩
  · intro n t down aborted
    exact ⟨next ((State.cycleAbort_release release).trans s.abortCycle_eq),
      next ((State.statusTick_release_low release).trans s.abortCycle_eq)⟩
  · exact Nat.not_le.2 (short n held stop) ((s.stopEnds_iff n held).1 ends)
end

