-- ==== Sys2Proof/Proofs/Exchanges.lean ====
section
/-! SUPPORT. The exchanges of a port (R172 to R175, R178, R186), the answers of requests of unlisted codes and excessive lengths (R174),
and a port that cannot execute (R176, R177). -/

namespace Sys2Proof.Machine

open Claims

/-! ### The bytes shifted out (R172, R186) -/

theorem Exchange.byteOut_eq (x : Exchange) (i : Nat) : x.byteOut i = if h : i < x.out.length then x.out[i] else 0 := by
  unfold Exchange.byteOut
  split
  · next h => exact List.getD_eq_getElem _ _ h
  · next h => exact List.getD_eq_default _ _ (by omega)

theorem Exchange.shiftedOut_eq (x : Exchange) (n : Nat) : x.shiftedOut n = (x.out ++ List.replicate n 0).take n := by
  refine List.ext_getElem (by simp [Exchange.shiftedOut]) fun i hi _ => ?_
  have lt : i < n := by simpa [Exchange.shiftedOut] using hi
  simp only [Exchange.shiftedOut, List.getElem_map, List.getElem_range, List.getElem_take, x.byteOut_eq]
  split
  · next h => rw [List.getElem_append_left h]
  · next h => rw [List.getElem_append_right (by omega), List.getElem_replicate]

theorem PortState.dataOut_none {q : PortState} (h : q.exchange = none) (i : Nat) : q.dataOut i = none := by
  rw [PortState.dataOut, h]; rfl

theorem PortState.dataOut_some {q : PortState} {x : Exchange} (h : q.exchange = some x) (i : Nat) :
    q.dataOut i = some (if h : i < x.out.length then x.out[i] else 0) := by
  rw [PortState.dataOut, h, Option.map_some, x.byteOut_eq]

theorem Result.code_eq_resultCode (x : Result) : x.code = resultCode x := by cases x <;> rfl

theorem PortState.statusByte_eq (q : PortState) :
    q.statusByte = BitVec.ofNat 8
      ((if q.notices = [] then 0 else 1) + (if 4 ≤ q.requests.length then 2 else 0) + (if q.overrun then 4 else 0) +
        (if q.short then 8 else 0) + 16 * q.responses.length) := by
  have attn : q.attn.toNat = if q.notices = [] then 0 else 1 := by cases h : q.notices <;> simp [PortState.attn, h]
  have full : (decide (Config.queueDepth ≤ q.requests.length) = true) = (4 ≤ q.requests.length) := decide_eq_true_eq
  unfold PortState.statusByte
  simp only [attn, mul_flag, full]

/-- The bytes of a response frame as the statements write them (R186). -/
theorem Response.frame_eq (a : Response) (status : Byte) :
    a.frame status =
      [status, a.tag, a.code, BitVec.ofNat 8 (resultCode a.result)] ++ lsbFirst 2 a.payload.length ++ a.payload := by
  rw [Response.frame, a.result.code_eq_resultCode, lsbFirst_eq_leBytes]

/-! ### The beginning of an exchange (R172) -/

section Start
variable {q : PortState} {x : Exchange}

theorem PortState.startExchange_within (h : q.exchange = some x) : q.startExchange = q := by
  unfold PortState.startExchange; rw [h]

theorem PortState.startExchange_empty (h : q.exchange = none) (empty : q.responses = []) :
    q.startExchange = { q with exchange := some ⟨false, [q.statusByte, 0, 0, 11, 0, 0]⟩ } := by
  unfold PortState.startExchange PortState.outgoing; rw [h, empty]; rfl

theorem PortState.startExchange_queued {a : Response} {as : List Response} (h : q.exchange = none) (head : q.responses = a :: as) :
    q.startExchange = { q with exchange := some ⟨true, a.frame q.statusByte⟩ } := by
  unfold PortState.startExchange PortState.outgoing; rw [h, head]

end Start

theorem PortState.endExchange_over {q : PortState} (h : q.exchange = none) (bytes : List Byte) : q.endExchange bytes = q := by
  unfold PortState.endExchange; rw [h]

theorem State.withPort_self (s : State) (p : Port) : s.withPort p (s.port p) = s := by cases p <;> rfl

/-! ### The bytes shifted in (R173, R174, R178) -/

section Judge
variable {bytes payload : List Byte} {code tag l0 l1 : Byte}

theorem judge_nothing (h : bytes = [] ∨ bytes.head? = some 0) : judge bytes = .nothing := by
  rcases h with rfl | h
  · rfl
  · obtain ⟨tl, rfl⟩ := List.head?_eq_some_iff.1 h
    rfl

theorem judge_short (given : bytes ≠ []) (code : bytes.head? ≠ some 0) (short : bytes.length < 4) : judge bytes = .short := by
  obtain ⟨b, tl, rfl⟩ := List.exists_cons_of_ne_nil given
  have other : b ≠ 0 := fun e => code (by rw [e]; rfl)
  unfold judge
  dsimp only
  rw [if_neg other]
  split
  · simp at short
    omega
  · rfl

theorem judge_portReset : judge (20 :: tag :: l0 :: l1 :: payload) = .portReset tag := rfl

/-- A whole header of a code other than 0 and PORT RESET. -/
theorem judge_header (given : code ≠ 0) (other : code ≠ 20) :
    judge (code :: tag :: l0 :: l1 :: payload) =
      if 1020 < l0.toNat + 256 * l1.toNat then .request ⟨code, tag, l0.toNat + 256 * l1.toNat, []⟩
      else if payload.length < l0.toNat + 256 * l1.toNat then .short
      else .request ⟨code, tag, l0.toNat + 256 * l1.toNat, payload.take (l0.toNat + 256 * l1.toNat)⟩ := by
  have declared : leNat [l0, l1] = l0.toNat + 256 * l1.toNat := by simp [leNat]
  unfold judge
  dsimp only
  rw [if_neg given, if_neg (show ¬ code = portResetCode from other), declared]

end Judge

/-! ### The end of an exchange (R173, R175) -/

/-- The port with the response side settled and the exchange over (R175). -/
def PortState.settled (q : PortState) (x : Exchange) (n : Nat) : PortState :=
  { q with
    exchange := none
    responses := if x.queued = true ∧ x.out.length ≤ n then q.responses.tail else q.responses }

theorem PortState.settleResponse_eq (q : PortState) (x : Exchange) (n : Nat) :
    { q.settleResponse x n with exchange := none } = q.settled x n := by
  unfold PortState.settleResponse PortState.settled
  simp only [Bool.and_eq_true, decide_eq_true_eq]
  split <;> rfl

/-- The bytes shifted in are judged whatever the exchange shifted out. -/
theorem PortState.takeBytes_exchange (q : PortState) (bytes : List Byte) :
    { q.takeBytes bytes with exchange := none } = { q with exchange := none }.takeBytes bytes := by
  unfold PortState.takeBytes PortState.takeIn
  cases judge bytes with
  | nothing | short | portReset _ => rfl
  | request r =>
    dsimp only
    split <;> rfl

theorem PortState.endExchange_eq {q : PortState} {x : Exchange} (h : q.exchange = some x) (bytes : List Byte) :
    q.endExchange bytes = (q.settled x bytes.length).takeBytes bytes := by
  rw [← PortState.settleResponse_eq, ← PortState.takeBytes_exchange, PortState.endExchange, h]

/-- What a port does with bytes once they are judged (R173, R178). -/
def PortState.takeJudged (q : PortState) : Incoming → PortState
  | .nothing => q
  | .short => { q with short := true }
  | .request r => q.takeIn r
  | .portReset tag => q.portReset tag

theorem PortState.takeBytes_eq (q : PortState) (bytes : List Byte) : q.takeBytes bytes = q.takeJudged (judge bytes) := by
  unfold PortState.takeBytes
  cases judge bytes <;> rfl

/-! ### A port that cannot execute (R176, R177) -/

theorem State.whileReleased_same {s : State} {f : State → State} (h : f s = s) : s.whileReleased f = s := by
  unfold State.whileReleased
  rw [h, ite_self]

/-- With no request ready every request's command changes nothing. -/
theorem exec_stalled {s : State} {p : Port} (stalled : s.ready p = none) : ∀ c ∈ requestsOf p, exec c s = .next s := by
  have served (code : Nat) (body : Request → State → State × Reply) :
      (Host.Outcome.next (s.whileReleased fun s => s.serve p code body) : Answer) = .next s :=
    congrArg _ (State.whileReleased_same (s.serve_idle p code body stalled))
  have unknown : exec (.unknown p) s = .next s := congrArg _ (State.whileReleased_same (by rw [stalled]))
  have length : exec (.length p) s = .next s := congrArg _ (State.whileReleased_same (by rw [stalled]))
  have wait : exec (.journalWait p) s = .next s := congrArg _ (State.whileReleased_same (by rw [stalled]))
  simp only [requestsOf, List.forall_mem_cons]
  exact ⟨unknown, length, served 1 _, served 2 _, served 3 _, served 4 _, served 5 _, served 6 _, served 7 _, served 8 _,
    served 9 _, served 10 _, served 11 _, served 12 _, served 13 _, served 14 _, served 15 _, served 16 _, served 17 _, wait,
    served 19 _, nofun⟩

section Refused
variable {s : State} {p : Port} {r : Request} {rest : List Request}

theorem exec_unknown (h : Ready s p r rest) (unlisted : 20 < r.code.toNat) (within : r.declared ≤ 1020) :
    exec (.unknown p) s = .next (answered s p r rest .unknown []) := by
  have ready := s.ready_eq p r rest h.queue h.room h.noWait
  have listed : (!listedCode r.code && decide (r.declared ≤ Config.maxPayload)) = true := by
    rw [Bool.and_eq_true, Bool.not_eq_true', listedCode, decide_eq_false_iff_not, decide_eq_true_iff]
    exact ⟨Nat.not_le.2 unlisted, within⟩
  refine (answer_released h.released _).trans (congrArg _ ?_)
  rw [ready]
  exact (if_pos listed).trans (State.finish_eq s ⟨.unknown, []⟩ p r rest h.queue)

theorem exec_length (h : Ready s p r rest) (beyond : 1020 < r.declared) :
    exec (.length p) s = .next (answered s p r rest .length []) := by
  have ready := s.ready_eq p r rest h.queue h.room h.noWait
  refine (answer_released h.released _).trans (congrArg _ ?_)
  rw [ready]
  exact (if_pos beyond).trans (State.finish_eq s ⟨.length, []⟩ p r rest h.queue)

end Refused

end Sys2Proof.Machine

open Sys2Proof Sys2Proof.Machine Claims in
/-- Settles O51: the bytes shifted out, the start of an exchange by the response queue, and its end by the bytes shifted in. -/
theorem exchangesBeginAndEnd : Obligations.ExchangesBeginAndEnd := by
  intro s p released q status
  have start {y : PortState} (h : q.startExchange = y) : exec (.exchangeStart p) s = .next (s.withPort p y) :=
    (answer_released released _).trans (congrArg (fun y => (Host.Outcome.next (s.withPort p y) : Answer)) h)
  have stop {bytes : List Byte} {y : PortState} (h : q.endExchange bytes = y) :
      exec (.exchangeEnd p bytes) s = .next (s.withPort p y) :=
    (answer_released released _).trans (congrArg (fun y => (Host.Outcome.next (s.withPort p y) : Answer)) h)
  have self : s.withPort p q = s := s.withPort_self p
  have byte : q.statusByte = status := q.statusByte_eq
  refine ⟨⟨PortState.dataOut_none, fun x within => ⟨PortState.dataOut_some within, x.shiftedOut_eq⟩⟩,
    fun x within => (start (PortState.startExchange_within within)).trans (congrArg _ self), fun idle empty => ?_,
    fun a as idle head => ?_, fun idle bytes => (stop (PortState.endExchange_over idle bytes)).trans (congrArg _ self),
    fun x bytes within => ?_⟩
  · rw [start (PortState.startExchange_empty idle empty), byte]
  · rw [start (PortState.startExchange_queued idle head), byte, Response.frame_eq]
  · intro sent q1 short taken
    have settled : q.settled x bytes.length = q1 := rfl
    have ends {w : Incoming} (judged : judge bytes = w) := stop ((PortState.endExchange_eq within bytes).trans
      ((PortState.takeBytes_eq _ _).trans ((congrArg _ judged).trans (congrArg (PortState.takeJudged · w) settled))))
    refine ⟨fun nothing => ends (judge_nothing nothing), fun given code cut => ends (judge_short given code cut), ?_⟩
    intro code tag l0 l1 payload frame given length
    subst frame
    refine ⟨fun reset => ?_, fun other => ⟨fun beyond => ?_, fun whole cut => ?_, fun whole complete => ?_⟩⟩
    · subst reset; exact ends judge_portReset
    · exact ends ((judge_header given other).trans (if_pos beyond))
    · exact ends ((judge_header given other).trans ((if_neg (Nat.not_lt.2 whole)).trans (if_pos cut)))
    · exact ends ((judge_header given other).trans ((if_neg (Nat.not_lt.2 whole)).trans (if_neg (Nat.not_lt.2 complete))))

open Sys2Proof.Machine Claims in
/-- Settles O52: the two answers without effect, and the stalled port. -/
theorem unknownLengthAndStall : Obligations.UnknownLengthAndStall := by
  intro s p r rest
  exact ⟨fun ready => ⟨exec_unknown ready, exec_length ready⟩, fun stalled => exec_stalled (s.ready_none p stalled)⟩
end

