-- ==== Sys2Proof/Proofs/SetupRefusals.lean ====
section
/-! SUPPORT. SETUP WRITE refused by its four tests (R153 to R156), and the requests that set flags: JOURNAL FILTER (R92), HOLD (R127) and
SETUP LOCK (R161). -/

namespace Sys2Proof.Machine

open Claims

/-! ### The four tests of SETUP WRITE -/

theorem exec_setupWrite_refused {s : State} {p : Port} {r : Request} {rest : List Request} {x : Reply} (h : Executes s p 6 r rest)
    (effect : setupWriteBody r s = (s, x)) : exec (.setupWrite p) s = .next (answered s p r rest x.result x.payload) := by
  rw [exec_setupWrite]
  exact congrArg _ (serve_eq_answered h effect rfl)

/-- A section that a held lock covers, by its code (R155). -/
theorem Setup.lockedCode_iff (t : Setup) (b : Byte) :
    t.lockedCode b.toNat = true ↔
      (t.lockDetection = true ∧ (b = 1 ∨ b = 2)) ∨ (t.lockCriteria = true ∧ (b = 3 ∨ b = 4)) := by
  have code (n : Nat) (lt : n < 256) : b = BitVec.ofNat 8 n ↔ b.toNat = n := by
    rw [← BitVec.toNat_inj, BitVec.toNat_ofNat, Nat.mod_eq_of_lt lt]
  have one := code 1 (by decide)
  have two := code 2 (by decide)
  have three := code 3 (by decide)
  have four := code 4 (by decide)
  unfold Setup.lockedCode
  rw [show (1 : Byte) = BitVec.ofNat 8 1 from rfl, one, show (2 : Byte) = BitVec.ofNat 8 2 from rfl, two,
    show (3 : Byte) = BitVec.ofNat 8 3 from rfl, three, show (4 : Byte) = BitVec.ofNat 8 4 from rfl, four]
  cases named : Sect.ofCode b.toNat with
  | none =>
    have unnamed := (Sect.ofCode_eq_none _).1 named
    have ch := unnamed .ch
    have gr := unnamed .gr
    have ac := unnamed .ac
    have ru := unnamed .ru
    simp only [Sect.code] at ch gr ac ru
    simp [ch, gr, ac, ru]
  | some x =>
    have named := (Sect.ofCode_eq_some _ x).1 named
    cases x <;> simp [named, Setup.locked, Sect.code]

section Refused
variable {s : State} {r : Request} {b s0 s1 g0 g1 g2 g3 : Byte} {tl : List Byte}

theorem setupWriteBody_unwhole (unwhole : r.payload.length < 11 ∨ (r.payload.length - 7) % 4 ≠ 0) :
    setupWriteBody r s = (s, ⟨.range, s.setup.header⟩) := by
  refine if_pos ?_
  rw [Bool.or_eq_true, decide_eq_true_iff, decide_eq_true_iff, List.length_drop]
  omega

theorem setupWriteBody_stale (payload : r.payload = b :: s0 :: s1 :: g0 :: g1 :: g2 :: g3 :: tl) (nonempty : tl ≠ [])
    (whole : tl.length % 4 = 0) (stale : g3 ++ g2 ++ g1 ++ g0 ≠ s.setup.generation) :
    setupWriteBody r s = (s, ⟨.stale, s.setup.header⟩) := by
  have values : (b :: s0 :: s1 :: g0 :: g1 :: g2 :: g3 :: tl).drop 7 = tl := rfl
  have length_ne : tl.length ≠ 0 := mt List.eq_nil_of_length_eq_zero nonempty
  simp only [setupWriteBody, payload, field_generation, values, length_ne, whole, stale, ne_eq, not_true_eq_false,
    not_false_eq_true, decide_false, Bool.or_false, Bool.false_eq_true, if_false, if_true]

theorem setupWriteBody_locked (payload : r.payload = b :: s0 :: s1 :: g0 :: g1 :: g2 :: g3 :: tl) (nonempty : tl ≠ [])
    (whole : tl.length % 4 = 0) (current : g3 ++ g2 ++ g1 ++ g0 = s.setup.generation)
    (locked : s.setup.lockedCode b.toNat = true) : setupWriteBody r s = (s, ⟨.locked, s.setup.header⟩) := by
  have values : (b :: s0 :: s1 :: g0 :: g1 :: g2 :: g3 :: tl).drop 7 = tl := rfl
  have length_ne : tl.length ≠ 0 := mt List.eq_nil_of_length_eq_zero nonempty
  simp only [setupWriteBody, payload, field_section, field_generation, values, length_ne, whole, current, locked, ne_eq,
    not_true_eq_false, decide_false, Bool.or_false, Bool.false_eq_true, if_false, if_true]

theorem setupWriteBody_faulty {n : Nat} (payload : r.payload = b :: s0 :: s1 :: g0 :: g1 :: g2 :: g3 :: tl) (nonempty : tl ≠ [])
    (whole : tl.length % 4 = 0) (current : g3 ++ g2 ++ g1 ++ g0 = s.setup.generation)
    (unlocked : ¬ s.setup.lockedCode b.toNat = true)
    (faulty : writeFault b.toNat (s0.toNat + 256 * s1.toNat) (words4 tl) = some n) :
    setupWriteBody r s = (s, ⟨.range, s.setup.header ++ leBytes 2 n⟩) := by
  have values : (b :: s0 :: s1 :: g0 :: g1 :: g2 :: g3 :: tl).drop 7 = tl := rfl
  have length_ne : tl.length ≠ 0 := mt List.eq_nil_of_length_eq_zero nonempty
  simp only [setupWriteBody, payload, field_section, field_start, field_generation, values, length_ne, whole, current, unlocked,
    faulty, ne_eq, not_true_eq_false, decide_false, Bool.or_false, Bool.false_eq_true, if_false]

end Refused

/-- A code that names no section, or a span that runs past its section (R156). -/
theorem writeFault_outside {code start : Nat} {vs : List Nat}
    (h : ∀ x : Sect, code = x.code → x.items.length ≤ start ∨ x.items.length < start + vs.length) :
    writeFault code start vs = some code := by
  unfold writeFault
  cases named : Sect.ofCode code with
  | none => rfl
  | some x =>
    have outside := h x ((Sect.ofCode_eq_some _ _).1 named)
    dsimp only
    rw [if_neg]
    rw [Bool.and_eq_true, decide_eq_true_iff, decide_eq_true_iff]
    omega

/-- The first code above its list (R156). -/
theorem writeFault_code {x : Sect} {start v last d : Nat} {before after : List Nat}
    (within : start + (before ++ v :: after).length ≤ x.items.length)
    (item : x.items[start + before.length]? = some (.codes last d)) (above : last < v)
    (listed : ∀ i u, before[i]? = some u → ∀ last' d', x.items[start + i]? = some (.codes last' d') → u ≤ last') :
    writeFault x.code start (before ++ v :: after) = some (start + before.length) := by
  have starts : start < x.items.length := by
    rw [List.length_append, List.length_cons] at within
    omega
  simp only [writeFault, x.ofCode_code, starts, within, decide_true, Bool.and_true, if_true]
  refine firstFault_append _ _ _ _ _ (.codes last d) ?_ (decide_eq_true above) fun i spec u hspec hu => ?_
  · rwa [Sect.span, List.getElem?_drop]
  · rw [Sect.span, List.getElem?_drop] at hspec
    cases spec with
    | numeric lo hi d => rfl
    | codes last d => exact decide_eq_false (Nat.not_lt.2 (listed i u hu last d hspec))

/-- A section's code in two bytes. -/
theorem leBytes_two_toNat (b : Byte) : leBytes 2 b.toNat = [b, 0] := by
  have low : BitVec.ofNat 8 b.toNat = b := (BitVec.ofNat_toNat ..).trans b.setWidth_eq
  have high : b.toNat / 256 = 0 := Nat.div_eq_of_lt b.isLt
  simp only [leBytes, low, high]
  rfl

theorem leBytes_one_setWidth {w : Nat} (x : BitVec w) : leBytes 1 x.toNat = [x.setWidth 8] :=
  congrArg (fun b => [b]) (BitVec.ofNat_toNat ..)

/-- Two bytes written back least significant first. -/
theorem leBytes_two_append (c0 c1 : Byte) : leBytes 2 (c1 ++ c0).toNat = [c0, c1] := by
  have value : (c1 ++ c0).toNat = c0.toNat + 256 * c1.toNat := by rw [← leNat_two]; simp [leNat]
  have low := c0.isLt
  have high : (c0.toNat + 256 * c1.toNat) / 256 = c1.toNat := by omega
  have first : BitVec.ofNat 8 (c0.toNat + 256 * c1.toNat) = c0 := by
    apply BitVec.eq_of_toNat_eq
    rw [BitVec.toNat_ofNat]
    omega
  have second : BitVec.ofNat 8 c1.toNat = c1 := (BitVec.ofNat_toNat ..).trans c1.setWidth_eq
  simp only [leBytes, value, high, first, second]

theorem boolBytes_eq (b : Bool) : boolBytes b = [if b then 1 else 0] := by cases b <;> rfl

/-! ### The requests that set flags -/

section Requests
variable {s t : State} {p : Port} {r : Request} {rest : List Request} {x : Reply}

theorem exec_journalFilter (h : Executes s p 16 r rest) (effect : journalFilterBody p r s = (t, x))
    (queue : (t.port p).requests = (s.port p).requests) :
    exec (.journalFilter p) s = .next (answered t p r rest x.result x.payload) :=
  congrArg _ (serve_eq_answered h effect queue)

theorem exec_hold (h : Executes s p 13 r rest) (effect : holdBody p r s = (t, x))
    (queue : (t.port p).requests = (s.port p).requests) :
    exec (.hold p) s = .next (answered t p r rest x.result x.payload) :=
  congrArg _ (serve_eq_answered h effect queue)

theorem exec_setupLock (h : Executes s p 7 r rest) (effect : setupLockBody r s = (t, x))
    (queue : (t.port p).requests = (s.port p).requests) :
    exec (.setupLock p) s = .next (answered t p r rest x.result x.payload) :=
  congrArg _ (serve_eq_answered h effect queue)

theorem journalFilterBody_short (short : r.payload.length < 3) : journalFilterBody p r s = (s, ⟨.range, []⟩) := if_pos short

theorem journalFilterBody_masks {k c0 c1 : Byte} {tl : List Byte} (payload : r.payload = k :: c0 :: c1 :: tl) :
    journalFilterBody p r s =
      (s.withPort p { s.port p with kindMask := k.setWidth 6, chanMask := c1 ++ c0 },
        ⟨.ok, [(k.setWidth 6).setWidth 8, c0, c1]⟩) := by
  have whole : ¬ r.payload.length < 3 := by rw [payload]; simp
  have chans : field (k :: c0 :: c1 :: tl) 1 2 = (c1 ++ c0).toNat := leNat_two c0 c1
  unfold journalFilterBody
  rw [if_neg whole, payload, field_section, chans, BitVec.ofNat_toNat, BitVec.ofNat_toNat, BitVec.setWidth_eq]
  dsimp only
  rw [leBytes_one_setWidth, leBytes_two_append]
  rfl

theorem holdBody_empty (empty : r.payload = []) : holdBody p r s = (s, ⟨.range, []⟩) := by
  unfold holdBody; rw [empty]

theorem holdBody_flag {b : Byte} {tl : List Byte} (payload : r.payload = b :: tl) :
    let flag := manualAfter (s.port p).manual (b.getLsbD 0) (b.getLsbD 1)
    holdBody p r s = (s.withPort p { s.port p with manual := flag }, ⟨.ok, boolBytes flag⟩) := by
  unfold holdBody; rw [payload]; rfl

theorem manualAfter_eq (flag set clear : Bool) :
    manualAfter flag set clear =
      if set = true ∧ clear = false then true else if set = false ∧ clear = true then false else flag := by
  cases set <;> cases clear <;> rfl

theorem setupLockBody_empty (empty : r.payload = []) : setupLockBody r s = (s, ⟨.range, leBytes 1 s.setup.lockSet⟩) := by
  unfold setupLockBody; rw [empty]

/-- The table with the locks added that a byte names (R161). -/
def Setup.lockedWith (t : Setup) (b : Byte) : Setup :=
  { t with lockDetection := t.lockDetection || b.getLsbD 0, lockCriteria := t.lockCriteria || b.getLsbD 1 }

theorem setupLockBody_unnamed {b : Byte} {tl : List Byte} (payload : r.payload = b :: tl) (d : b.getLsbD 0 = false)
    (c : b.getLsbD 1 = false) : setupLockBody r s = (s, ⟨.range, leBytes 1 s.setup.lockSet⟩) := by
  unfold setupLockBody
  rw [payload]
  dsimp only
  rw [d, c]
  rfl

theorem setupLockBody_named {b : Byte} {tl : List Byte} (payload : r.payload = b :: tl)
    (named : b.getLsbD 0 = true ∨ b.getLsbD 1 = true) :
    setupLockBody r s =
      (if (s.setup.lockedWith b).lockSet = s.setup.lockSet then s.withSetup (s.setup.lockedWith b)
        else (s.withSetup (s.setup.lockedWith b)).post .lockChanged (s.setup.lockedWith b).lockSet,
        ⟨.ok, leBytes 1 (s.setup.lockedWith b).lockSet⟩) := by
  unfold setupLockBody
  rw [payload]
  refine if_neg ?_
  rcases named with e | e <;> simp [e]

end Requests

theorem Setup.lockSet_eq_iff (t u : Setup) :
    t.lockSet = u.lockSet ↔ t.lockDetection = u.lockDetection ∧ t.lockCriteria = u.lockCriteria := by
  unfold Setup.lockSet
  cases t.lockDetection <;> cases u.lockDetection <;> cases t.lockCriteria <;> cases u.lockCriteria <;> simp

theorem Setup.lockSet_word (t : Setup) : word32 t.lockSet = (lockByte t.lockDetection t.lockCriteria).setWidth 32 := by
  unfold Setup.lockSet
  cases t.lockDetection <;> cases t.lockCriteria <;> rfl

end Sys2Proof.Machine

open Sys2Proof.Machine Claims in
/-- Settles O47: the four tests in their order. -/
theorem setupWriteIsRefusedInOrder : Obligations.SetupWriteIsRefusedInOrder := by
  intro s p r rest h header
  have head : header = s.setup.header := setupHeader_eq_header _
  rw [head]
  refine ⟨fun unwhole => exec_setupWrite_refused h (setupWriteBody_unwhole unwhole), ?_⟩
  intro b s0 s1 g0 g1 g2 g3 tl payload nonempty whole start vs locked
  have lock : s.setup.lockedCode b.toNat = true ↔ locked := s.setup.lockedCode_iff b
  refine ⟨fun stale => exec_setupWrite_refused h (setupWriteBody_stale payload nonempty whole stale), fun current =>
    ⟨fun held => exec_setupWrite_refused h (setupWriteBody_locked payload nonempty whole current (lock.2 held)), fun free => ?_⟩⟩
  · have fault {n : Nat} (faulty : writeFault b.toNat start vs = some n) :
        exec (.setupWrite p) s = .next (answered s p r rest .range (s.setup.header ++ leBytes 2 n)) :=
      exec_setupWrite_refused h
        (setupWriteBody_faulty payload nonempty whole current (fun l => free (lock.1 l)) faulty)
    have outside (o : ∀ x : Sect, b.toNat = x.code → x.items.length ≤ start ∨ x.items.length < start + vs.length) :
        exec (.setupWrite p) s = .next (answered s p r rest .range (s.setup.header ++ [b, 0])) := by
      rw [← leBytes_two_toNat]
      exact fault (writeFault_outside o)
    simp only [sectCode_eq_code, itemCount_eq_length, itemTable_eq_items, lsbFirst_eq_leBytes]
    refine ⟨fun unnamed => outside fun x named => absurd named (unnamed x), fun x named =>
      ⟨fun beyond => outside fun y other => ?_, fun within before v after last d split item above listed => ?_⟩⟩
    · have same : x = y := Option.some.inj (((Sect.ofCode_eq_some _ x).2 named).symm.trans ((Sect.ofCode_eq_some _ y).2 other))
      exact same ▸ beyond
    · rw [split] at within
      refine fault ?_
      rw [named, split]
      exact writeFault_code within item above listed

open Sys2Proof.Machine Claims in
/-- Settles O48: each request by its payload. -/
theorem filterHoldAndLockSetTheirFlags : Obligations.FilterHoldAndLockSetTheirFlags := by
  intro s p r rest
  refine ⟨fun h => ⟨fun short => exec_journalFilter h (journalFilterBody_short short) rfl, fun k c0 c1 tl payload => ?_⟩,
    fun h => ⟨fun empty => exec_hold h (holdBody_empty empty) rfl, fun b tl payload => ?_⟩, fun h => ?_⟩
  · exact exec_journalFilter h (journalFilterBody_masks payload) (by rw [State.withPort_port])
  · have answer := exec_hold h (holdBody_flag payload) (by rw [State.withPort_port])
    rw [manualAfter_eq] at answer
    rw [answer, boolBytes_eq]
  · have byte : leBytes 1 s.setup.lockSet = [lockByte s.setup.lockDetection s.setup.lockCriteria] := (lockByte_eq _).symm
    refine ⟨fun empty => ?_, fun b tl payload => ?_⟩
    · rw [← byte]; exact exec_setupLock h (setupLockBody_empty empty) rfl
    · intro d1 c1 t
      refine ⟨fun d c => ?_, fun named => ?_⟩
      · rw [← byte]; exact exec_setupLock h (setupLockBody_unnamed payload d c) rfl
      · have answer := exec_setupLock h (setupLockBody_named payload named) (by split <;> simp)
        have same := Setup.lockSet_eq_iff (s.setup.lockedWith b) s.setup
        refine ⟨fun kept => ?_, fun new => ?_⟩
        · obtain ⟨detection, criteria⟩ : (s.setup.lockDetection || b.getLsbD 0) = s.setup.lockDetection ∧
            (s.setup.lockCriteria || b.getLsbD 1) = s.setup.lockCriteria := kept
          have unchanged : s.setup.lockedWith b = s.setup := by
            unfold Setup.lockedWith
            rw [detection, criteria]
          rw [if_pos (same.2 ⟨detection, criteria⟩), unchanged, ← lockByte_eq] at answer
          exact answer
        · have changed : ¬ (s.setup.lockedWith b).lockSet = s.setup.lockSet := fun e => by
            obtain ⟨d, c⟩ := same.1 e
            exact new.elim (fun x => x d) (fun x => x c)
          rw [if_neg changed, State.post, Setup.lockSet_word, ← lockByte_eq] at answer
          exact answer
end

