-- ==== Sys2Proof/Proofs/Reading.lean ====
section
/-! SUPPORT. The payloads of CHANNEL PEEK (R38) and STATUS READ (R180, R187), as lists of fields of a width each. -/

namespace Sys2Proof.Machine

open Claims

/-! ### Payloads as lists of fields -/

/-- The bytes of a list of fields, each of a width in bytes and a value. -/
def encodeFields (fs : List (Nat × Nat)) : List Byte := (fs.map fun f => leBytes f.1 f.2).flatten

theorem encodeFields_length (fs : List (Nat × Nat)) : (encodeFields fs).length = (fs.map Prod.fst).sum := by
  simp [encodeFields, List.length_flatten, Function.comp_def]

/-- A field stands at the sum of the widths before it. -/
theorem field_encodeFields {fs : List (Nat × Nat)} {k n x i : Nat} (h : fs[k]? = some (n, x))
    (place : ((fs.map Prod.fst).take k).sum = i) : field (encodeFields fs) i n = x % 256 ^ n := by
  obtain ⟨lt, entry⟩ := List.getElem?_eq_some_iff.1 h
  have split : encodeFields fs = encodeFields (fs.take k) ++ (leBytes n x ++ encodeFields (fs.drop (k + 1))) := by
    conv_lhs => rw [← List.take_append_drop k fs, List.drop_eq_getElem_cons lt, entry]
    simp [encodeFields]
  have before : (encodeFields (fs.take k)).length = i := by rw [encodeFields_length, ← place, List.map_take]
  rw [split, field_append_right _ _ _ _ before.le, before, Nat.sub_self, field_append_left]

/-! ### CHANNEL PEEK -/

/-- The fields of CHANNEL PEEK (R187). -/
def Channel.peekFields (ch : Channel) : List (Nat × Nat) :=
  [(1, ch.st.code), (2, ch.t), (4, ch.b16), (2, ch.glitches)] ++ ch.work.values.map fun v => (4, v)

theorem Channel.peek_eq (ch : Channel) : ch.peek = encodeFields ch.peekFields := by
  simp [Channel.peek, encodeFields, Channel.peekFields, Function.comp_def]

theorem Channel.peekFields_widths (ch : Channel) : ch.peekFields.map Prod.fst = [1, 2, 4, 2] ++ List.replicate 12 4 := rfl

theorem Channel.peek_length (ch : Channel) : ch.peek.length = 57 := by
  rw [ch.peek_eq, encodeFields_length, ch.peekFields_widths]
  rfl

theorem Channel.peekField {ch : Channel} {k n x i : Nat} (h : ch.peekFields[k]? = some (n, x))
    (place : (([1, 2, 4, 2] ++ List.replicate 12 4).take k).sum = i) : field ch.peek i n = x % 256 ^ n := by
  rw [ch.peek_eq]
  exact field_encodeFields h (by rw [ch.peekFields_widths]; exact place)

/-- The items of the working copy, four bytes each behind the four fields. -/
theorem Channel.peekField_work (ch : Channel) {i : Nat} (lt : i < 12) :
    field ch.peek (9 + 4 * i) 4 = ch.work.values.getD i 0 % 2 ^ 32 := by
  have place : ∀ i, i < 12 → (([1, 2, 4, 2] ++ List.replicate 12 4).take (4 + i)).sum = 9 + 4 * i := by decide
  have within : i < ch.work.values.length := lt
  refine Channel.peekField (k := 4 + i) ?_ (place i lt)
  rw [Channel.peekFields, List.getElem?_append_right (by simp), List.getElem?_map]
  simp [List.getElem?_eq_getElem within]

theorem ChState.code_eq_stateCode (x : ChState) : x.code = stateCode x := by cases x <;> rfl

theorem stateCode_lt (x : ChState) : stateCode x < 7 := by cases x <;> simp [stateCode]

section Peek
variable {s : State} {payload : List Byte}

theorem State.peekReply_range (h : payload = [] ∨ ∃ b tl, payload = b :: tl ∧ 16 ≤ b.toNat) : s.peekReply payload = ⟨.range, []⟩ := by
  rcases h with rfl | ⟨b, tl, rfl, beyond⟩
  · rfl
  · exact dif_neg (Nat.not_lt.2 beyond)

theorem State.peekReply_named {b : Byte} {tl : List Byte} {c : ChanId} (h : payload = b :: tl) (named : b.toNat = c.val) :
    s.peekReply payload = ⟨.ok, (s.chan c).peek⟩ := by
  subst h
  have lt : b.toNat < 16 := named ▸ c.isLt
  have same : (⟨b.toNat, lt⟩ : ChanId) = c := Fin.ext named
  rw [← same]
  exact dif_pos lt

end Peek

theorem exec_channelPeek {s : State} {p : Port} {r : Request} {rest : List Request} {x : Reply} (h : Executes s p 4 r rest)
    (reply : s.peekReply r.payload = x) : exec (.channelPeek p) s = .next (answered s p r rest x.result x.payload) := by
  subst reply
  exact congrArg _ (serve_read_eq_answered h fun r s => s.peekReply r.payload)

/-! ### STATUS READ -/

/-- The fields of STATUS READ (R187). -/
def State.statusFields (s : State) (p : Port) : List (Nat × Nat) :=
  [ (1, s.run.state.code), (1, s.statusFlags p), (4, s.journal.fill), (2, s.unread p), (1, s.grouping.groups.length)
  , (1, s.holdSources), (1, s.coLevels), (4, s.rollup.stamp.value), (4, s.rollup.pmax), (4, s.setup.generation.toNat)
  , (1, s.setup.lockSet) ] ++ (allChannels.map fun c => (1, s.channelByte c)) ++ [(6, s.clock.toNat)]

theorem State.statusPayload_eq (s : State) (p : Port) : s.statusPayload p = encodeFields (s.statusFields p) := by
  simp only [encodeFields, State.statusFields, List.map_append, List.map_cons, List.map_nil, List.map_map, List.flatten_append,
    List.flatten_cons, List.flatten_nil, List.append_nil, ← List.append_assoc]
  rfl

/-- The widths of the fields of STATUS READ: eleven fields, a byte for each channel, and the clock. -/
theorem State.statusFields_widths (s : State) (p : Port) :
    (s.statusFields p).map Prod.fst = [1, 1, 4, 2, 1, 1, 1, 4, 4, 4, 1] ++ List.replicate 16 1 ++ [6] := rfl

theorem State.statusPayload_length (s : State) (p : Port) : (s.statusPayload p).length = 46 := by
  rw [s.statusPayload_eq, encodeFields_length, s.statusFields_widths]
  rfl

theorem State.statusField {s : State} {p : Port} {k n x i : Nat} (h : (s.statusFields p)[k]? = some (n, x))
    (place : (([1, 1, 4, 2, 1, 1, 1, 4, 4, 4, 1] ++ List.replicate 16 1 ++ [6]).take k).sum = i) :
    field (s.statusPayload p) i n = x % 256 ^ n := by
  rw [s.statusPayload_eq]
  exact field_encodeFields h (by rw [s.statusFields_widths]; exact place)

/-- The byte of a channel, behind the eleven fields. -/
theorem State.statusField_channel (s : State) (p : Port) (c : ChanId) :
    field (s.statusPayload p) (24 + c.val) 1 = s.channelByte c % 256 := by
  have entry : (allChannels.map fun c => (1, s.channelByte c))[c.val]? = some (1, s.channelByte c) := by
    have here : allChannels[c.val]? = some c := by fin_cases c <;> rfl
    rw [List.getElem?_map, here]
    rfl
  have place : ∀ c : ChanId, (([1, 1, 4, 2, 1, 1, 1, 4, 4, 4, 1] ++ List.replicate 16 1 ++ [6]).take (11 + c.val)).sum = 24 + c.val := by
    decide
  refine State.statusField (k := 11 + c.val) ?_ (place c)
  rw [State.statusFields, List.append_assoc, List.getElem?_append_right (by simp),
    List.getElem?_append_left (by simp [allChannels])]
  simpa using entry

theorem exec_statusRead {s : State} {p : Port} {r : Request} {rest : List Request} (h : Executes s p 2 r rest) :
    exec (.statusRead p) s = .next (answered s p r rest .ok (s.statusPayload p)) :=
  congrArg _ (serve_read_eq_answered h fun _ s => ⟨.ok, s.statusPayload p⟩)

/-- A sum of flags by their bits is below 256. -/
theorem State.statusFlags_lt (s : State) (p : Port) : s.statusFlags p < 256 := by
  have b1 := Bool.toNat_lt s.journal.tallyMode
  have b2 := Bool.toNat_lt (s.port p).cursor.isSome
  have b3 := Bool.toNat_lt s.rollup.stale
  have b4 := Bool.toNat_lt s.rollup.load.isSome
  have b5 := Bool.toNat_lt (s.status.lineMode == .quiet)
  have b6 := Bool.toNat_lt s.status.lineDown
  unfold State.statusFlags
  omega

theorem State.holdSources_lt (s : State) : s.holdSources < 256 := by
  have b1 := Bool.toNat_lt s.rollup.autoHold
  have b2 := Bool.toNat_lt s.portA.manual
  have b3 := Bool.toNat_lt s.portB.manual
  have b4 := Bool.toNat_lt s.run.rupture.isSome
  unfold State.holdSources
  omega

theorem State.coLevels_lt (s : State) : s.coLevels < 256 := by
  have b1 := Bool.toNat_lt (s.coHigh 0)
  have b2 := Bool.toNat_lt (s.coHigh 1)
  have b3 := Bool.toNat_lt (s.coHigh 2)
  unfold State.coLevels
  omega

theorem Setup.lockSet_lt (t : Setup) : t.lockSet < 256 := by
  have b1 := Bool.toNat_lt t.lockDetection
  have b2 := Bool.toNat_lt t.lockCriteria
  unfold Setup.lockSet
  omega

theorem State.channelByte_eq (s : State) (c : ChanId) :
    s.channelByte c % 256 = stateCode (s.chan c).st + 128 * s.status.faults[c].toNat := by
  have code := stateCode_lt (s.chan c).st
  have fault := Bool.toNat_lt s.status.faults[c]
  rw [State.channelByte, ChState.code_eq_stateCode]
  omega

end Sys2Proof.Machine

open Sys2Proof.Machine Claims in
/-- Settles O45: each field of the two payloads by its place and width. -/
theorem peekAndStatusRead : Obligations.PeekAndStatusRead := by
  intro s p r rest
  refine ⟨fun h => ⟨fun refused => exec_channelPeek h (State.peekReply_range refused), fun c b tl payload named => ?_⟩,
    fun h => ⟨_, exec_statusRead h, ?_⟩⟩
  · intro ch w
    have state : field ch.peek 0 1 = ch.st.code % 256 := Channel.peekField (k := 0) rfl rfl
    rw [ChState.code_eq_stateCode, Nat.mod_eq_of_lt (Nat.lt_of_lt_of_le (stateCode_lt ch.st) (by decide))] at state
    exact ⟨_, exec_channelPeek h (State.peekReply_named payload named), ch.peek_length, state, Channel.peekField (k := 1) rfl rfl,
      Channel.peekField (k := 2) rfl rfl, Channel.peekField (k := 3) rfl rfl, fun i lt => ch.peekField_work lt⟩
  · have run : field (s.statusPayload p) 0 1 = s.run.state.code % 256 := State.statusField (k := 0) rfl rfl
    have flags : field (s.statusPayload p) 1 1 = s.statusFlags p % 256 := State.statusField (k := 1) rfl rfl
    have fill : field (s.statusPayload p) 2 4 = s.journal.fill % 2 ^ 32 := State.statusField (k := 2) rfl rfl
    have unread : field (s.statusPayload p) 6 2 = s.unread p % 65536 := State.statusField (k := 3) rfl rfl
    have groups : field (s.statusPayload p) 8 1 = s.grouping.groups.length % 256 := State.statusField (k := 4) rfl rfl
    have holds : field (s.statusPayload p) 9 1 = s.holdSources % 256 := State.statusField (k := 5) rfl rfl
    have levels : field (s.statusPayload p) 10 1 = s.coLevels % 256 := State.statusField (k := 6) rfl rfl
    have load : field (s.statusPayload p) 11 4 = s.rollup.stamp.value % 2 ^ 32 := State.statusField (k := 7) rfl rfl
    have pmax : field (s.statusPayload p) 15 4 = s.rollup.pmax % 2 ^ 32 := State.statusField (k := 8) rfl rfl
    have generation : field (s.statusPayload p) 19 4 = s.setup.generation.toNat % 2 ^ 32 := State.statusField (k := 9) rfl rfl
    have locks : field (s.statusPayload p) 23 1 = s.setup.lockSet % 256 := State.statusField (k := 10) rfl rfl
    have clock : field (s.statusPayload p) 40 6 = s.clock.toNat % 2 ^ 48 := State.statusField (k := 27) rfl rfl
    rw [Nat.mod_eq_of_lt (s.statusFlags_lt p)] at flags
    rw [Nat.mod_eq_of_lt s.holdSources_lt] at holds
    rw [Nat.mod_eq_of_lt s.coLevels_lt] at levels
    rw [Nat.mod_eq_of_lt s.setup.generation.isLt] at generation
    rw [Nat.mod_eq_of_lt s.setup.lockSet_lt] at locks
    rw [Nat.mod_eq_of_lt s.clock.isLt] at clock
    refine ⟨s.statusPayload_length p, run.trans ?_, flags.trans ?_, fill, unread, groups, holds, levels, load, pmax, generation,
      locks, fun c => (s.statusField_channel p c).trans (s.channelByte_eq c), clock⟩
    · cases s.run.state <;> rfl
    · unfold State.statusFlags
      cases s.status.lineMode <;> rfl
end

