-- ==== Sys2Proof/Proofs/RunStartAndClear.lean ====
section
/-! SUPPORT. RUN START (R111, R135, R136) and RUN CLEAR (R139, R140): the state each leaves, block by block, and the postings of RUN
CLEAR in their order. -/

namespace Sys2Proof.Machine

open Claims

theorem perChannel_eq_ofFn {α : Type} (f : ChanId → α) : perChannel f = Vector.ofFn f := by
  refine Vector.ext fun i hi => ?_
  have get := perChannel_get f ⟨i, hi⟩
  rw [Vector.getElem_ofFn]
  exact get

/-! ### RUN START -/

theorem Channel.runStart_eq (ch : Channel) : ch.runStart = { ch with st := if ch.st = .listen then .quiet else ch.st } := by
  unfold Channel.runStart
  split <;> rfl

/-- The enable mask that the RUN START mark carries (R136). -/
theorem Setup.enableMask (t : Setup) :
    (channelMask fun c => (t.entry c).enable) =
      ((allChannels.filter fun c => t.item .ch (12 * c.val) == 1).map fun c => 2 ^ c.val).sum := channelMask_eq _

theorem State.startRun_eq (s : State) :
    s.startRun =
      ((({ s with
          run := { s.run with state := .running, startTick := some s.intake.clock }
          rollup :=
            { s.rollup with
              work := some s.setup.activity
              nextBoundary := some (s.intake.clock + BitVec.ofNat 48 (s.setup.item .ac 0 * 1024))
              index := 1, counters := ⟨0, 0, 0, 0, 0⟩, sinceActivity := 0, met := 0, unmet := 0, armed := false }
          channels := Vector.ofFn fun c =>
            { s.chan c with st := if (s.chan c).st = .listen then .quiet else (s.chan c).st } } : State).offer
        (mark s.intake.clock 1 0
          ((allChannels.filter fun c => s.setup.item .ch (12 * c.val) == 1).map fun c => 2 ^ c.val).sum)).postWith
        .runState 0 1) := by
  rw [← Setup.enableMask, ← perChannel_eq_ofFn]
  simp only [← Channel.runStart_eq]
  rfl

theorem Setup.enabled_isEmpty (t : Setup) : t.enabled.isEmpty = true ↔ ∀ c : ChanId, (t.item .ch (12 * c.val) == 1) = false := by
  rw [List.isEmpty_iff, Setup.enabled, List.filter_eq_nil_iff]
  exact ⟨fun h c => Bool.eq_false_iff.2 (h c (mem_allChannels c)), fun h c _ => Bool.eq_false_iff.1 (h c)⟩

section Requests
variable {s t : State} {p : Port} {r : Request} {rest : List Request} {x : Reply}

theorem exec_runStart (h : Executes s p 8 r rest) (effect : runStartBody r s = (t, x))
    (queue : (t.port p).requests = (s.port p).requests) :
    exec (.runStart p) s = .next (answered t p r rest x.result x.payload) :=
  congrArg _ (serve_eq_answered h effect queue)

theorem exec_runClear (h : Executes s p 10 r rest) (effect : runClearBody r s = (t, x))
    (queue : (t.port p).requests = (s.port p).requests) :
    exec (.runClear p) s = .next (answered t p r rest x.result x.payload) :=
  congrArg _ (serve_eq_answered h effect queue)

theorem runStartBody_begins (idle : s.run.state = .idle) (on : ∃ c : ChanId, (s.setup.item .ch (12 * c.val) == 1) = true) :
    runStartBody r s = (s.startRun, ⟨.ok, tickBytes s.clock⟩) := by
  refine if_pos ?_
  obtain ⟨c, on⟩ := on
  have some : ¬ s.setup.enabled.isEmpty = true := fun e => by rw [(s.setup.enabled_isEmpty).1 e c] at on; cases on
  rw [Bool.and_eq_true, decide_eq_true_iff, Bool.not_eq_true', Bool.eq_false_iff]
  exact ⟨idle, some⟩

theorem runStartBody_refused
    (h : s.run.state ≠ .idle ∨ ∀ c : ChanId, (s.setup.item .ch (12 * c.val) == 1) = false) :
    runStartBody r s = (s, s.stateReply) := by
  refine if_neg ?_
  rw [Bool.and_eq_true, decide_eq_true_iff, Bool.not_eq_true', Bool.eq_false_iff]
  rintro ⟨idle, some⟩
  exact h.elim (fun no => no idle) (fun off => some ((s.setup.enabled_isEmpty).2 off))

theorem runClearBody_active (active : s.runActive = true) : runClearBody r s = (s, ⟨.state, []⟩) := if_pos active

theorem runClearBody_clears (idle : ¬ s.runActive = true) : runClearBody r s = (s.clearRun, ⟨.ok, []⟩) := if_neg idle

end Requests

/-! ### The ports in RUN CLEAR (R101, R109, R132) -/

/-- A port with its wait ended, its cursor at 0 and its manual flag clear; its notice list as it was. -/
def PortState.cleared (q : PortState) : PortState :=
  if q.wait.isSome then { q.answer .cleared [0, 0] with wait := none }.runClear else q.runClear

theorem State.clearWait_port_same (s : State) (p : Port) :
    (s.clearWait p).port p = if (s.port p).wait.isSome then { (s.port p).answer .cleared [0, 0] with wait := none } else s.port p := by
  unfold State.clearWait
  split
  · exact s.endWait_port p .cleared 0
  · rfl

theorem State.clearWait_port_ne (s : State) {p q : Port} (h : q ≠ p) : (s.clearWait p).port q = s.port q := by
  unfold State.clearWait
  split
  · exact State.updPort_port_ne _ _ h
  · rfl

/-- The ports before the postings of RUN CLEAR. -/
def State.portsCleared (s : State) : State :=
  ((((s.clearWait .a).clearWait .b).updPort .a PortState.runClear).updPort .b PortState.runClear)

theorem State.portsCleared_port (s : State) (q : Port) : s.portsCleared.port q = (s.port q).cleared := by
  have ab : Port.a ≠ Port.b := by decide
  have ba : Port.b ≠ Port.a := by decide
  have cleared : ∀ r : Port, ((s.clearWait r).port r).runClear = (s.port r).cleared := by
    intro r
    rw [State.clearWait_port_same, PortState.cleared]
    split <;> rfl
  cases q with
  | a =>
    rw [State.portsCleared, State.updPort_port_ne _ _ ab, State.updPort_port, State.clearWait_port_ne _ ab, cleared]
  | b =>
    rw [State.portsCleared, State.updPort_port, State.updPort_port_ne _ _ ba, State.clearWait_port_same, State.clearWait_port_ne _ ba,
      ← State.clearWait_port_same, cleared]

/-! ### The postings of RUN CLEAR -/

/-- The ports of `u` are those of `s1` with the notice lists of `v`, and postings are routed alike in `u` and `v`. -/
structure State.Follows (s1 v u : State) : Prop where
  port : ∀ q, u.port q = { s1.port q with notices := (v.port q).notices }
  routing : ∀ src, u.setup.routing src = v.setup.routing src

namespace State.Follows

variable {s1 v u w : State}

theorem routed (h : s1.Follows v u) (src : Source) (q : Port) : u.routed src q = v.routed src q := by
  have notices : ∀ p, (u.port p).notices = (v.port p).notices := fun p => by rw [h.port p]
  have a : u.portA.notices = v.portA.notices := notices .a
  have b : u.portB.notices = v.portB.notices := notices .b
  simp only [State.routed, h.routing, a, b]

theorem postWith (h : s1.Follows v u) (src : Source) (sect : Nat) (d : Word32) :
    s1.Follows (v.postWith src sect d) (u.postWith src sect d) := by
  refine ⟨fun q => ?_, h.routing⟩
  rw [State.postWith_port, State.postWith_port, h.routed, h.port q]
  split <;> rfl

/-- A step that leaves the ports and the routing alone. -/
theorem of_ports (h : s1.Follows v u) (port : ∀ q, w.port q = u.port q) (routing : ∀ src, w.setup.routing src = u.setup.routing src) :
    s1.Follows v w := ⟨fun q => (port q).trans (h.port q), fun src => (routing src).trans (h.routing src)⟩

theorem clearJournal (h : s1.Follows v u) :
    s1.Follows (if u.journal.tallyMode then v.postWith .tallyMode 0 0 else v) u.clearJournal := by
  have emptied := h.of_ports (w := u.withJournal Journal.reset) (fun q => State.withJournal_port u Journal.reset q) fun _ => rfl
  unfold State.clearJournal
  split
  · exact emptied.postWith .tallyMode 0 0
  · exact emptied

theorem clearRollup (h : s1.Follows v u) :
    s1.Follows (if u.rollup.stale then v.postWith .loadStale 0 0 else v) u.clearRollup := by
  have zeroed := h.of_ports (w := u.withRollup u.rollup.runClear) (fun q => State.withRollup_port u u.rollup.runClear q) fun _ => rfl
  unfold State.clearRollup
  split
  · exact zeroed.postWith .loadStale 0 0
  · exact zeroed

theorem clearLocks (h : s1.Follows v u) :
    s1.Follows (if u.setup.lockDetection || u.setup.lockCriteria then v.postWith .lockChanged 0 0 else v) u.clearLocks := by
  have unlocked := h.of_ports (w := u.withSetup (u.setup.relocked false false))
    (fun q => State.withSetup_port u (u.setup.relocked false false) q) fun _ => rfl
  unfold State.clearLocks
  split
  · exact unlocked.postWith .lockChanged 0 0
  · exact unlocked

end State.Follows

/-- The postings of RUN CLEAR in the order of the blocks (R140). -/
def State.clearPosted (s : State) : State :=
  let v1 := if s.journal.tallyMode then s.postWith .tallyMode 0 0 else s
  let v2 := if s.rollup.stale then v1.postWith .loadStale 0 0 else v1
  let v3 := v2.postWith .runState 0 0
  if s.setup.lockDetection || s.setup.lockCriteria then v3.postWith .lockChanged 0 0 else v3

theorem State.clearPosted_eq_foldl (s : State) :
    s.clearPosted =
      ((if s.journal.tallyMode then [(.tallyMode, 0)] else []) ++ (if s.rollup.stale then [(.loadStale, 0)] else []) ++
        [(.runState, 0)] ++ (if s.setup.lockDetection || s.setup.lockCriteria then [(.lockChanged, 0)] else []) :
          List (Source × Word32)).foldl (fun u x => u.postWith x.1 0 x.2) s := by
  have one : ∀ (c : Bool) (src : Source) (u : State),
      (if c then [(src, (0 : Word32))] else []).foldl (fun u x => u.postWith x.1 0 x.2) u =
        if c then u.postWith src 0 0 else u := by
    intro c src u
    cases c <;> rfl
  rw [List.foldl_append, List.foldl_append, List.foldl_append, one, one, one]
  rfl

theorem PortState.cleared_notices (q : PortState) : q.cleared.notices = q.notices := by
  unfold PortState.cleared
  split
  · exact PortState.answer_notices _ _ _
  · rfl

/-- The clearing of the ports changes no other block. -/
theorem State.portsCleared_blocks (s : State) : ∃ a b, s.portsCleared = { s with portA := a, portB := b } := by
  have upd : ∀ (u : State) (p : Port) (f : PortState → PortState), (∃ a b, u = { s with portA := a, portB := b }) →
      ∃ a b, u.updPort p f = { s with portA := a, portB := b } := by
    rintro u p f ⟨a, b, rfl⟩
    cases p
    · exact ⟨f a, b, rfl⟩
    · exact ⟨a, f b, rfl⟩
  have wait : ∀ (u : State) (p : Port), (∃ a b, u = { s with portA := a, portB := b }) →
      ∃ a b, u.clearWait p = { s with portA := a, portB := b } := by
    intro u p hu
    unfold State.clearWait
    split
    · exact upd _ _ _ hu
    · exact hu
  exact upd _ _ _ (upd _ _ _ (wait _ _ (wait _ _ ⟨s.portA, s.portB, rfl⟩)))

theorem State.portsCleared_follows (s : State) : s.portsCleared.Follows s s.portsCleared := by
  refine ⟨fun q => ?_, fun src => ?_⟩
  · have same : (s.port q).notices = (s.portsCleared.port q).notices := by
      rw [State.portsCleared_port, PortState.cleared_notices]
    rw [same]
  · obtain ⟨a, b, e⟩ := s.portsCleared_blocks
    rw [e]

/-- RUN CLEAR before its postings of the run state and the locks, with the journal and the rollup unit still to clear. -/
def State.engineCleared (s : State) : State :=
  (s.portsCleared.withChannels (perChannel fun c => (s.portsCleared.chan c).runClear)).withGrouping s.portsCleared.grouping.runClear

theorem State.engineCleared_blocks (s : State) :
    s.engineCleared.journal = s.journal ∧ s.engineCleared.rollup = s.rollup ∧ s.engineCleared.setup = s.setup ∧
      s.engineCleared.resetHeld = s.resetHeld := by
  obtain ⟨a, b, e⟩ := s.portsCleared_blocks
  rw [State.engineCleared, e]
  exact ⟨rfl, rfl, rfl, rfl⟩

theorem State.clearJournal_same (u : State) :
    u.clearJournal.rollup = u.rollup ∧ u.clearJournal.setup = u.setup ∧ u.clearJournal.resetHeld = u.resetHeld := by
  unfold State.clearJournal
  split <;> exact ⟨rfl, rfl, rfl⟩

theorem State.clearRollup_same (u : State) :
    u.clearRollup.rollup = u.rollup.runClear ∧ u.clearRollup.setup = u.setup ∧ u.clearRollup.resetHeld = u.resetHeld := by
  unfold State.clearRollup
  split <;> exact ⟨rfl, rfl, rfl⟩

theorem State.clearLocks_same (u : State) :
    u.clearLocks.rollup = u.rollup ∧ u.clearLocks.resetHeld = u.resetHeld := by
  unfold State.clearLocks
  split <;> exact ⟨rfl, rfl⟩

theorem State.clearRun_eq (s : State) :
    s.clearRun = ((s.engineCleared.clearJournal.clearRollup.withRun Run.reset).post .runState 0).clearLocks := rfl

theorem State.clearRun_rollup (s : State) : s.clearRun.rollup = s.rollup.runClear ∧ s.clearRun.resetHeld = s.resetHeld := by
  obtain ⟨-, rollup, -, held⟩ := s.engineCleared_blocks
  rw [State.clearRun_eq, (State.clearLocks_same _).1, (State.clearLocks_same _).2, State.post_rollup, State.post_resetHeld,
    State.withRun_rollup, State.withRun_resetHeld, (State.clearRollup_same _).1, (State.clearRollup_same _).2.2,
    (State.clearJournal_same _).1, (State.clearJournal_same _).2.2, rollup, held]
  exact ⟨rfl, rfl⟩

theorem State.clearRun_follows (s : State) : s.portsCleared.Follows s.clearPosted s.clearRun := by
  obtain ⟨journal, rollup, setup, -⟩ := s.engineCleared_blocks
  have engine : s.portsCleared.Follows s s.engineCleared :=
    s.portsCleared_follows.of_ports (fun q => by rw [State.engineCleared, State.withGrouping_port, State.withChannels_port])
      fun src => by rw [setup, ← s.portsCleared_follows.routing]
  have run := (engine.clearJournal.clearRollup.of_ports (w := s.engineCleared.clearJournal.clearRollup.withRun Run.reset)
    (fun q => State.withRun_port _ _ q) fun _ => rfl).postWith .runState 0 0
  have locks := run.clearLocks
  have setup' : ((s.engineCleared.clearJournal.clearRollup.withRun Run.reset).postWith .runState 0 0).setup = s.setup := by
    rw [State.postWith_setup, State.withRun_setup, (State.clearRollup_same _).2.1, (State.clearJournal_same _).2.1, setup]
  rw [setup', (State.clearJournal_same _).1, rollup, journal] at locks
  exact locks

/-- A port after RUN CLEAR (R101, R109, R132), with the notice list of the postings. -/
theorem State.clearRun_portState (s : State) (q : Port) :
    s.clearRun.port q = { (s.port q).cleared with notices := (s.clearPosted.port q).notices } := by
  rw [s.clearRun_follows.port q, State.portsCleared_port]

theorem PortState.cleared_waiting {q : PortState} {w : Wait} (h : q.wait = some w) :
    q.cleared = { q.answer .cleared [0, 0] with wait := none, cursor := q.cursor.map fun _ => 0, manual := false } := by
  rw [PortState.cleared, if_pos (by rw [h]; rfl), PortState.runClear, PortState.answer_cursor]

theorem PortState.cleared_idle {q : PortState} (h : q.wait = none) :
    q.cleared = { q with wait := none, cursor := q.cursor.map fun _ => 0, manual := false } := by
  rw [PortState.cleared, if_neg (by rw [h]; exact Bool.false_ne_true), PortState.runClear, h]

end Sys2Proof.Machine

open Sys2Proof.Machine Claims in
/-- Settles O40: by the two tests of RUN START. -/
theorem runStartBeginsARun : Obligations.RunStartBeginsARun := by
  intro s p r rest h k item on s1 mask started
  constructor
  · intro idle enabled
    have queue := h.requests_kept (t := s.startRun) fun P kept hs => kept.startRun s hs
    rw [exec_runStart h (runStartBody_begins idle enabled) queue, State.startRun_eq, lsbFirst_eq_leBytes]
    rfl
  · intro refused
    rw [exec_runStart h (runStartBody_refused refused) rfl]
    exact congrArg (fun x => Host.Outcome.next (answered s p r rest .state x)) (RunState.code_byte _)

open Sys2Proof.Machine Claims in
/-- Settles O42: every block after RUN CLEAR, and each port with the notice list that the postings alone leave. -/
theorem runClearClearsTheRun : Obligations.RunClearClearsTheRun := by
  intro s p r rest h active
  constructor
  · intro on
    exact exec_runClear h (runClearBody_active ((RunState.active_iff _).2 on)) rfl
  · intro off
    have queue : (s.clearRun.port p).requests = (s.port p).requests := by
      rw [State.clearRun_portState, PortState.cleared_idle h.noWait]
    obtain ⟨channels, intake, status, grouping⟩ := s.clearRun_blocks
    refine ⟨s.clearRun, exec_runClear h (runClearBody_clears fun on => off ((RunState.active_iff _).1 on)) queue,
      s.clearRun_run, s.clearRun_rollup.1, ?_, ?_, ?_, s.clearRun_setup, intake, status, ?_, ?_⟩
    · rw [s.clearRun_journal]
      exact ⟨rfl, rfl, rfl, rfl, rfl, fun c => ⟨Vector.getElem_replicate _, Vector.getElem_replicate _⟩⟩
    · rw [grouping]
      exact ⟨rfl, rfl, rfl, fun c => Vector.getElem_replicate _⟩
    · exact s.clearRun_chan
    · rw [s.clearRun_rollup.2]
      exact h.released
    · intro q old posts posted cleared
      rw [State.clearRun_portState, State.clearPosted_eq_foldl]
      cases e : (s.port q).wait with
      | some w =>
        have c : cleared = (s.port q).answer .cleared [0, 0] := by simp only [cleared, old, e]
        rw [PortState.cleared_waiting e, c]
      | none =>
        have c : cleared = s.port q := by simp only [cleared, old, e]
        rw [PortState.cleared_idle e, c]
end

