-- ==== Sys2Proof/Proofs/TickOrder.lean ====
section
/-! SUPPORT. The delivery of a tick: each of its events is the one that its own command makes, and what comes before the channels
leaves what the channels read. -/

namespace Sys2Proof.Machine

open Claims

/-! ### Before the channels (log entry 6) -/

/-- The own command of an event, in a part that is not held in reset (R184). -/
theorem ran_released {c : Instr} {s : State} {f : State → State} (released : s.resetHeld = false)
    (command : exec c s = .next (s.whileReleased f)) : ran c s = f s :=
  ran_eq (command.trans (answer_released released f))

theorem State.advanceClock_eq_ran {s : State} (released : s.resetHeld = false) :
    (if s.intake.clock.toNat = 2 ^ 48 - 1 then ran .clockWrap s
      else { s with intake := { s.intake with clock := s.intake.clock + 1 } }) = s.advanceClock := by
  unfold State.advanceClock
  split
  · next last =>
    have wraps := (s.atLastTick_iff).2 last
    rw [if_pos wraps, ran_released released rfl, if_pos wraps]
  · next earlier =>
    rw [if_neg fun wraps => earlier ((s.atLastTick_iff).1 wraps)]
    rfl

theorem State.beforeChannels_eq_ran {s : State} (released : s.resetHeld = false) :
    ran .evidenceLapse (ran .loadStale (ran .statusCycleStart s.advanceClock)) = s.beforeChannels := by
  have kept := Kept.of_resetHeld false
  have clock := kept.advanceClock s released
  have cycle := kept.startCycle s.advanceClock clock
  have stale := kept.staleCheck s.advanceClock.startCycle cycle
  rw [ran_released clock rfl, ran_released cycle rfl, ran_released stale rfl]
  rfl

/-- What comes before the channels leaves the channels, the setup table and the run state. -/
theorem State.beforeChannels_same (s : State) :
    s.beforeChannels.channels = s.channels ∧ s.beforeChannels.setup = s.setup ∧ s.beforeChannels.runActive = s.runActive := by
  have advanced := State.advanceClock_same s
  refine ⟨State.beforeChannels_kept (Kept.of_channels s.channels) (fun _ _ h => h) s advanced.channels,
    (Kept.of_setup s.setup).beforeChannels s rfl, ?_⟩
  rw [State.runActive, State.runActive, s.beforeChannels_runState]

/-! ### The channels (R9, R16, R20) -/

theorem Setup.entry_eq (t : Setup) (c : ChanId) :
    t.entry c =
      { enable := decide (t.item .ch (12 * c.val + 0) = 1), floating := decide (t.item .ch (12 * c.val + 1) = 1)
        tfix := t.item .ch (12 * c.val + 2), fm := t.item .ch (12 * c.val + 3), bs := t.item .ch (12 * c.val + 4)
        qc := t.item .ch (12 * c.val + 5), qs := t.item .ch (12 * c.val + 6), pdt := t.item .ch (12 * c.val + 7)
        hdt := t.item .ch (12 * c.val + 8), hlt := t.item .ch (12 * c.val + 9), maxd := t.item .ch (12 * c.val + 10)
        es := t.item .ch (12 * c.val + 11) } := by
  simp only [Setup.entry, beq_eq_decide]
  rfl

theorem State.runActive_eq_decide (s : State) : s.runActive = decide (s.run.state = .running ∨ s.run.state = .final) :=
  Bool.eq_iff_iff.2 ((RunState.active_iff _).trans decide_eq_true_iff.symm)

theorem Rollup.stamp_of_load {x : Rollup} {l : PostedLoad} (h : x.load = some l) : x.stamp = ⟨l.value, x.stale⟩ := by
  rw [Rollup.stamp, h]
  exact congrArg _ (Bool.or_false _)

theorem Rollup.stamp_of_none {x : Rollup} (h : x.load = none) : x.stamp = ⟨0, true⟩ := by
  rw [Rollup.stamp, h]
  exact congrArg _ (Bool.or_true _)

/-- The channels' part in a tick and the engine's, from what each channel makes of the items handed to it. -/
theorem State.detect_eq {u : State} {xs : ChanId → Sample} {f : ChanId → Channel × Option Report}
    (handles : ∀ c, (u.chan c).tick c u.clock (u.setup.entry c) u.runActive u.rollup.stamp (u.handed xs c) = f c) :
    u.detect xs =
      ({ u with
          channels := Vector.ofFn fun c => (f c).1
          intake := { u.intake with prev := Vector.ofFn fun c => (xs c).m } } : State).groupingStages
        (allChannels.filterMap fun c => (f c).2) := by
  have each : ∀ c : ChanId, (u.tickChannels xs)[c] = f c := fun c => (perChannel_get _ c).trans (handles c)
  have channels : channelsOf (u.tickChannels xs) = Vector.ofFn fun c => (f c).1 := by
    rw [channelsOf, perChannel_eq_ofFn]
    simp only [each]
  have reports : reportsOf (u.tickChannels xs) = allChannels.filterMap fun c => (f c).2 :=
    List.filterMap_congr fun c _ => congrArg Prod.snd (each c)
  rw [State.detect, channels, reports, Intake.handOver, perChannel_eq_ofFn]
  rfl

/-! ### After the grouping engine -/

theorem State.afterGrouping_eq_ran {s : State} (released : s.resetHeld = false) :
    s.afterGrouping = ran (.waitTimeout .b) (ran (.waitTimeout .a) (ran .postWindowEnd (ran .rollup s))) := by
  have kept := Kept.of_resetHeld false
  have rollup := kept.rollupAtTick s released
  have window := kept.postWindowEnd _ rollup
  have waitA := kept.waitTimeout _ .a window
  rw [ran_released released rfl, ran_released rollup rfl, ran_released window rfl, ran_released waitA rfl]
  rfl

end Sys2Proof.Machine

open Sys2Proof.Machine Claims in
/-- Settles O9: what comes before the channels leaves what a channel is handed but the clock, and the events before and after are
those of their own commands. -/
theorem tickIsDeliveredInOrder : Obligations.TickIsDeliveredInOrder := by
  intro s xs released s1 s2 stamp active entry handled s3 s4
  have before : s2 = s.beforeChannels := by
    rw [← State.beforeChannels_eq_ran released, ← State.advanceClock_eq_ran released]
  obtain ⟨channels, setup, run⟩ := s.beforeChannels_same
  have stamped : s.beforeChannels.rollup.stamp = stamp := by
    cases e : s.beforeChannels.rollup.load with
    | some l => simp only [stamp, before, e, Rollup.stamp_of_load e]
    | none => simp only [stamp, before, e, Rollup.stamp_of_none e]
  have handles : ∀ c, (s.beforeChannels.chan c).tick c s.beforeChannels.clock (s.beforeChannels.setup.entry c)
      s.beforeChannels.runActive s.beforeChannels.rollup.stamp (s.beforeChannels.handed xs c) = handled c := by
    intro c
    rw [stamped, run, setup, Setup.entry_eq, State.runActive_eq_decide, State.handed, State.chan, channels, State.clock,
      s.beforeChannels_intake]
    rfl
  have detected : s.beforeChannels.detect xs = s4 := by rw [State.detect_eq handles, ← before]
  have kept : s4.resetHeld = false := by
    have all := Kept.of_resetHeld false
    rw [← detected]
    exact all.detect _ xs (all.beforeChannels s released)
  rw [State.deliverTick, detected, State.afterGrouping_eq_ran kept]
end
